-- ==== Sys2Proof/Word.lean ====
section
/-! DEFINITION. The word types of the engine (00_scope.md R10: every value is unsigned and has a stated width). -/

namespace Sys2Proof

/-- `u8`: one stream byte, one window byte. -/
abbrev Byte := BitVec 8

/-- `u32`: operands, results, positions, distances, lengths, prices. -/
abbrev Word := BitVec 32

/-- `u64`: the stream counters and OUT_SIZE. -/
abbrev DWord := BitVec 64

/-- `u11`: one adaptive probability (R50). -/
abbrev Prob := BitVec 11

/-- `u4`: the coder state (R48). -/
abbrev CState := BitVec 4

/-- A one-bit value as a `u32` (R11: zero extension). -/
abbrev bitWord (b : Bool) : Word := (BitVec.ofBool b).setWidth 32

end Sys2Proof
end

