-- ==== Sys2Proof/Config.lean ====
section
/-! DEFINITION. The fixed constants of the engine (00_scope.md R8 and R9) and the parameters the model names itself. -/

namespace Sys2Proof.Config

/-- DICT_CAP's value in the reset state: "The model may take DICT_CAP = 2^30" (R7). DESIGN CHOICE, log entry 1:
the capacity itself is the field `State.dictCap`, which no command writes. -/
def dictCapDefault : Nat := 2 ^ 30

/-- The largest DICT_SIZE an encoder stream may have (R6, R471). -/
def maxDictSize : Nat := 2 ^ 30

/-- kTopValue (R9). -/
def topValue : Word := 0x01000000#32

/-- ID's constant, ASCII "LZ77" (R2, R45). -/
def idValue : Word := 0x4C5A3737#32

/-- kInfinityPrice (R9, R413). -/
def infinityPrice : Word := 0x0FFFFFFF#32

/-- The reserved zero-based distance of the end marker, and the back code of a literal (R18, R383, R388). -/
def allOnes : Word := 0xFFFFFFFF#32

/-- kMaxValForNormalize (R9, R254). -/
def maxValForNormalize : Word := 0x7FFFFFFF#32

/-- Elements of MATCHES (R100). -/
def matchesSize : Nat := 548

/-- Records of OPT (R8, R413). -/
def optSize : Nat := 4096

/-- The longest match (R8). -/
def matchMaxLen : Word := 273#32

/-- Entries before the literal tables (R42, R356). -/
def probLiteralBase : Nat := 1846

/-- Entries of one literal table (R360). -/
def literalStride : Nat := 0x300

/-- kMatchPriceRefresh (R446). -/
def matchPriceRefresh : Word := 128#32

/-- kAlignTableSize (R446). -/
def alignPriceRefresh : Word := 16#32

/-- The decoder's smallest output window (R523). -/
def minOutWindow : Word := 4096#32

/-- The turns of a loop the spec gives no count for: ENC_RUN (R491) and the walk of `Backward` (R424). DESIGN CHOICE, log
entry 4: no run from reset with fewer than 2^128 source bytes comes near it. -/
def loopBudget : Nat := 2 ^ 128

end Sys2Proof.Config
end

