-- ==== Sys2Proof/Machine/State.lean ====
section
/-! DEFINITION. The state of the engine (10_state.md), its internal RAMs (20_memory.md R100), the host's side of the
command port and of the two byte streams (R110, R111, R140), the ways a step can stop, and the reset state (R75). -/

namespace Sys2Proof.Machine

/-- STATUS.PHASE (R43): 0 IDLE, 1 ENC, 2 DEC, 3 DONE. -/
inductive Phase where
  | idle | enc | dec | done
  deriving DecidableEq, Repr

/-- STATUS.ERR (R600); "Codes 8..15 are never written". -/
inductive ErrCode where
  | none | cfgInvalid | dataError | truncated | headerInvalid | illegalCmd | seqError | bounds
  deriving DecidableEq, Repr

/-- STATUS (R43): its fields. Bits [31:9] are hardwired to 0 (R71); the whole word is `Status.word` (Flags.lean). -/
structure Status where
  err     : ErrCode
  phase   : Phase
  srcEof  : Bool
  endSeen : Bool
  hdrOk   : Bool
  deriving DecidableEq, Repr

/-- The configuration registers (R41) and OUT_SIZE (R47). -/
structure Options where
  mode       : BitVec 1
  lc         : BitVec 4
  lp         : BitVec 3
  pb         : BitVec 3
  dictSize   : Word
  fastBytes  : BitVec 9
  endMark    : BitVec 1
  mfHash     : BitVec 1
  extendFast : BitVec 1
  outSize    : DWord
  deriving DecidableEq, Repr

/-- The derived values latched at a stream start (R42). -/
structure Derived where
  posStateMask : Word
  litPosMask   : Word
  probCount    : Word
  numPosStates : Word
  lcLatched    : BitVec 4
  deriving DecidableEq, Repr

/-- The operand registers x[0]..x[3] = A0..A3 and the result registers x[4], x[5] = R0, R1 (R44). -/
structure XRegs where
  a0 : Word
  a1 : Word
  a2 : Word
  a3 : Word
  r0 : Word
  r1 : Word
  deriving DecidableEq, Repr

/-- The stream counters (R46). -/
structure Counters where
  nowPos   : DWord
  inCount  : DWord
  outCount : DWord
  deriving DecidableEq, Repr

/-- Four zero-based distances, most recent first: REP[0..3] (R49), and `backs[0..3]` of an OPT record (R56). -/
structure Reps where
  d0 : Word
  d1 : Word
  d2 : Word
  d3 : Word
  deriving DecidableEq, Repr

/-- An internal RAM (R100): `size` elements, indices 0..size−1. An element with no cell reads as `fill`. The cells are
kept in one canonical form (`Ram.wf`, Memory.lean): indices strictly rising and below `size`, no cell equal to `fill`.
A RAM that is not allocated has size 0 (R75). For byte RAMs a cell is a `Host.Cell`. -/
structure Ram (α : Type) (fill : α) where
  size  : Nat
  cells : List (Nat × α)
  deriving DecidableEq, Repr

/-- A RAM that is "not allocated: size 0, no element exists" (R75). -/
def Ram.none {α : Type} {fill : α} : Ram α fill := { size := 0, cells := [] }

/-- The window registers WIN.* (R51). -/
structure WinRegs where
  blockSize  : Word
  keepBefore : Word
  keepAfter  : Word
  lastSafe   : Word
  bufOffset  : Word
  pos        : Word
  streamPos  : Word
  posLimit   : Word
  streamEnd  : Bool
  deriving DecidableEq, Repr

/-- The match-finder registers MF.* (R52). -/
structure MfRegs where
  cycPos             : Word
  cbs                : Word
  hashArray          : Bool
  hashMask           : Word
  hashSizeSum        : Word
  fixHashSize        : Word
  numHashDirectBytes : Word
  minMatchCheck      : Word
  cutValue           : Word
  matchMaxLen        : Word
  numPairs           : Word
  deriving DecidableEq, Repr

/-- The range encoder registers RCE.* (R53). -/
structure RceRegs where
  low       : BitVec 33
  range     : Word
  cache     : Byte
  cacheSize : Word
  deriving DecidableEq, Repr

/-- The range decoder registers RCD.* (R54). -/
structure RcdRegs where
  range : Word
  code  : Word
  deriving DecidableEq, Repr

/-- The encoder registers ENC.* (R55). -/
structure EncRegs where
  prevByte        : Byte
  addOffset       : Word
  longestFound    : Bool
  longestLen      : Word
  longestPairs    : Word
  optEnd          : Word
  optCur          : Word
  matchPriceCount : Word
  alignPriceCount : Word
  distTableSize   : Word
  lenTableSize    : Word
  deriving DecidableEq, Repr

/-- One record of OPT (R56). -/
structure OptRec where
  state       : CState
  prev1IsChar : Bool
  prev2       : Bool
  posPrev2    : Word
  backPrev2   : Word
  price       : Word
  posPrev     : Word
  backPrev    : Word
  backs       : Reps
  deriving DecidableEq, Repr

/-- Four distances 0. -/
def Reps.zero : Reps := { d0 := 0, d1 := 0, d2 := 0, d3 := 0 }

/-- An OPT record with "every field 0 or false" (R470). -/
def OptRec.zero : OptRec :=
  { state := 0, prev1IsChar := false, prev2 := false, posPrev2 := 0, backPrev2 := 0, price := 0, posPrev := 0,
    backPrev := 0, backs := Reps.zero }

/-- The price RAMs and the length-price counters (R57). `lenMatch` and `cntMatch` are LEN_PRICES[0] and
LEN_COUNTERS[0]; `lenRep` and `cntRep` are those of k = 1. -/
structure PriceRams where
  posSlot  : Ram Word 0#32
  dist     : Ram Word 0#32
  align    : Ram Word 0#32
  lenMatch : Ram Word 0#32
  lenRep   : Ram Word 0#32
  cntMatch : Ram Word 0#32
  cntRep   : Ram Word 0#32
  deriving DecidableEq, Repr

/-- The decoder registers OW.size, OW.pos and DEC.dictSizeCheck (R58). -/
structure OwRegs where
  size          : Word
  pos           : Word
  dictSizeCheck : Word
  deriving DecidableEq, Repr

/-- One command transaction's inputs (R140). -/
structure Transaction where
  word : Word
  a0   : Word
  a1   : Word
  a2   : Word
  a3   : Word
  deriving DecidableEq, Repr

/-- The host's side: the commands it has presented on the command port, oldest first (R140); the source bytes it has
made ready and whether the end-of-data signal follows them (R110); the bytes the sink has accepted, NEWEST first
(R111); and how many more bytes the sink accepts before the engine has to wait (`none`: no limit). -/
structure HostSide where
  port     : List Transaction
  src      : List Byte
  srcEnd   : Bool
  sink     : List Byte
  sinkRoom : Option Nat
  deriving DecidableEq, Repr

/-- Why a step has no next state. None of these is a fault of the engine's own: the engine's faults (R600) are next
states, with STATUS.ERR written. -/
inductive Fault where
  /-- Raised by `step`: no command is presented on the port; the engine waits for the host (R650). Safe: the host's
  next command is an input. -/
  | noCommand
  /-- Raised by SrcRead: the host has neither a byte nor the end-of-data signal ready, so the command waits (R110,
  R665; 93_implementation_defined.md 1.5: "stuck"). Safe: the command makes no progress on the hardware either. -/
  | sourceWait
  /-- Raised by SinkWrite: the host does not accept the byte, so the command waits (R111, R665; 1.5: "stuck"). Safe. -/
  | sinkWait
  deriving DecidableEq, Repr

/-- Why an instruction has no meaning. -/
inductive Refusal where
  /-- Raised by `exec` for an instruction the model gives no meaning, by its mnemonic. Safe. -/
  | notModelled (mnemonic : String)
  deriving DecidableEq, Repr

/-- Everything the engine holds, and the host's side of its port and streams. -/
structure State where
  /-- The host's side (the model's own fields; R651 places the streams outside the engine). -/
  host     : HostSide
  /-- DICT_CAP, the instance's parameter (R7): no command writes it. -/
  dictCap  : Nat
  opts     : Options
  derived  : Derived
  status   : Status
  x        : XRegs
  cnt      : Counters
  /-- STATE (R48). -/
  cstate   : CState
  /-- REP[0..3] (R49). -/
  rep      : Reps
  /-- PROB (R50): its elements are 1024 at a stream start (R357). -/
  prob     : Ram Prob 1024#11
  win      : WinRegs
  /-- WBUF (R101). -/
  wbuf     : Ram Byte 0#8
  mf       : MfRegs
  /-- SON, HASH and MATCHES (R102). -/
  son      : Ram Word 0#32
  hash     : Ram Word 0#32
  matchBuf : Ram Word 0#32
  rce      : RceRegs
  rcd      : RcdRegs
  enc      : EncRegs
  /-- OPT (R103). -/
  opt      : Ram OptRec OptRec.zero
  price    : PriceRams
  ow       : OwRegs
  /-- OWBUF (R105). -/
  owbuf    : Ram Byte 0#8
  deriving DecidableEq, Repr

/-- STATUS after reset: 0 (R75). -/
def Status.reset : Status :=
  { err := .none, phase := .idle, srcEof := false, endSeen := false, hdrOk := false }

/-- The option defaults (R75, R650). -/
def Options.reset : Options :=
  { mode := 0, lc := 3, lp := 0, pb := 2, dictSize := 0x00400000#32, fastBytes := 32, endMark := 0, mfHash := 1,
    extendFast := 1, outSize := 0xFFFFFFFFFFFFFFFF#64 }

def Derived.reset : Derived :=
  { posStateMask := 0, litPosMask := 0, probCount := 0, numPosStates := 0, lcLatched := 0 }

def XRegs.reset : XRegs := { a0 := 0, a1 := 0, a2 := 0, a3 := 0, r0 := 0, r1 := 0 }

def Counters.reset : Counters := { nowPos := 0, inCount := 0, outCount := 0 }

def WinRegs.reset : WinRegs :=
  { blockSize := 0, keepBefore := 0, keepAfter := 0, lastSafe := 0, bufOffset := 0, pos := 0, streamPos := 0,
    posLimit := 0, streamEnd := false }

def MfRegs.reset : MfRegs :=
  { cycPos := 0, cbs := 0, hashArray := false, hashMask := 0, hashSizeSum := 0, fixHashSize := 0,
    numHashDirectBytes := 0, minMatchCheck := 0, cutValue := 0, matchMaxLen := 0, numPairs := 0 }

def RceRegs.reset : RceRegs := { low := 0, range := 0, cache := 0, cacheSize := 0 }

def RcdRegs.reset : RcdRegs := { range := 0, code := 0 }

def EncRegs.reset : EncRegs :=
  { prevByte := 0, addOffset := 0, longestFound := false, longestLen := 0, longestPairs := 0, optEnd := 0, optCur := 0,
    matchPriceCount := 0, alignPriceCount := 0, distTableSize := 0, lenTableSize := 0 }

def PriceRams.reset : PriceRams :=
  { posSlot := Ram.none, dist := Ram.none, align := Ram.none, lenMatch := Ram.none, lenRep := Ram.none,
    cntMatch := Ram.none, cntRep := Ram.none }

def OwRegs.reset : OwRegs := { size := 0, pos := 0, dictSizeCheck := 0 }

/-- The host at power-on: no command presented, a source that is the empty byte sequence followed by the end-of-data
signal, an empty sink with no limit. DESIGN CHOICE, log entry 2. -/
def HostSide.reset : HostSide := { port := [], src := [], srcEnd := true, sink := [], sinkRoom := none }

/-- Every item of R75 at its reset value, for a given host side and instance parameter: the RESET command keeps both
(R561, R651). -/
def State.resetWith (host : HostSide) (dictCap : Nat) : State :=
  { host := host, dictCap := dictCap, opts := Options.reset, derived := Derived.reset, status := Status.reset,
    x := XRegs.reset, cnt := Counters.reset, cstate := 0, rep := Reps.zero, prob := Ram.none, win := WinRegs.reset,
    wbuf := Ram.none, mf := MfRegs.reset, son := Ram.none, hash := Ram.none, matchBuf := Ram.none,
    rce := RceRegs.reset, rcd := RcdRegs.reset, enc := EncRegs.reset, opt := Ram.none, price := PriceRams.reset,
    ow := OwRegs.reset, owbuf := Ram.none }

/-- The machine right after power-on reset (R650). -/
def State.reset : State := State.resetWith HostSide.reset Config.dictCapDefault

end Sys2Proof.Machine
end

