-- ==== Sys2Proof/Machine/Flags.lean ====
section
/-! DEFINITION. STATUS as software reads it (10_state.md R43, 60_exceptions.md R600) and the rule of the sticky error
(R610, R611). -/

namespace Sys2Proof.Machine

/-- The code of STATUS.ERR (R600). -/
def ErrCode.code : ErrCode → BitVec 4
  | .none => 0
  | .cfgInvalid => 1
  | .dataError => 2
  | .truncated => 3
  | .headerInvalid => 4
  | .illegalCmd => 5
  | .seqError => 6
  | .bounds => 7

/-- The value of STATUS.PHASE (R43). -/
def Phase.code : Phase → BitVec 2
  | .idle => 0
  | .enc => 1
  | .dec => 2
  | .done => 3

/-- STATUS as one word (R43): ERR [3:0], PHASE [5:4], SRC_EOF [6], END_SEEN [7], HDR_OK [8], the rest 0. -/
def Status.word (t : Status) : Word :=
  0#23 ++ (BitVec.ofBool t.hdrOk ++ (BitVec.ofBool t.endSeen ++ (BitVec.ofBool t.srcEof ++ (t.phase.code ++ t.err.code))))

/-- "if STATUS.ERR = 0: STATUS.ERR <- code": the first error is kept (R610, R611). -/
def Status.record (t : Status) (c : ErrCode) : Status :=
  if t.err = .none then { t with err := c } else t

end Sys2Proof.Machine
end

