-- ==== Sys2Proof/Syntax.lean ====
section
/-! DEFINITION. The commands (30_encoding.md R150): one constructor per row of the opcode map. A constructor carries
the variable fields of its command word: SEL where the row shows 0/1 (`true` is 1), N where the row has a range,
B where the row shows 0/1. The operands a0..a3 are not part of the command word: they are latched into A0..A3 (R142). -/

namespace Sys2Proof

inductive Instr where
  | nop
  | reset
  | regRead
  | regWrite
  | probRead
  | matchRead
  | wbGetByte
  | wbMatchLen
  | wbAvail
  | mfGetMatches
  | mfSkip
  | mfMovePos
  | mfHash
  | rceBit (b : Bool)
  | rceDirect (n : BitVec 5)
  | rcdBit
  | rcdDirect (n : BitVec 5)
  | priceBit (sel b : Bool)
  | btEnc (n : BitVec 5)
  | btRevEnc (n : BitVec 5)
  | btDec (n : BitVec 5)
  | btRevDec (n : BitVec 5)
  | btPrice (n : BitVec 5)
  | btRevPrice (n : BitVec 5)
  | stChar (sel : Bool)
  | stMatch (sel : Bool)
  | stRep (sel : Bool)
  | stShortRep (sel : Bool)
  | litEnc
  | litEncM
  | litDec
  | litDecM
  | litPrice (sel : Bool)
  | lenEnc (sel : Bool)
  | lenDec (sel : Bool)
  | lenPrice (sel : Bool)
  | distEnc
  | distDec
  | posSlot
  | repUse
  | repPush
  | optGetOptimum
  | priceFillDist
  | priceFillAlign
  | priceLenTable (sel : Bool)
  | pricePosLen
  | priceRep
  | priceShortRep
  | encStart
  | hdrWrite
  | encStep
  | encRun
  | encSymbol
  | encFinish
  | hdrRead
  | decStart
  | decStep
  | decRun
  | owGetByte
  | owPutByte
  | owCopy
  deriving DecidableEq, Repr

end Sys2Proof
end

