-- ==== Sys2Proof/WellFormed.lean ====
section
/-! DEFINITION. Which commands a command word can name (30_encoding.md R143 to R146): SEL and B are one bit wide in
`Instr`, so only the bit counts N can be out of range. -/

namespace Sys2Proof

/-- R144: the bit-tree commands take `1 ≤ N ≤ 8`. -/
def treeCountOk (n : BitVec 5) : Bool := decide (1 ≤ n.toNat) && decide (n.toNat ≤ 8)

/-- R144: the direct-bit commands take `1 ≤ N ≤ 31`. -/
def directCountOk (n : BitVec 5) : Bool := decide (1 ≤ n.toNat)

/-- The check of R146 on an instruction: its N is in the range R144 gives its operation code. -/
def Instr.wellFormed : Instr → Bool
  | .rceDirect n | .rcdDirect n => directCountOk n
  | .btEnc n | .btRevEnc n | .btDec n | .btRevDec n | .btPrice n | .btRevPrice n => treeCountOk n
  | .nop | .reset | .regRead | .regWrite | .probRead | .matchRead
  | .wbGetByte | .wbMatchLen | .wbAvail
  | .mfGetMatches | .mfSkip | .mfMovePos | .mfHash
  | .rceBit _ | .rcdBit | .priceBit _ _
  | .stChar _ | .stMatch _ | .stRep _ | .stShortRep _
  | .litEnc | .litEncM | .litDec | .litDecM | .litPrice _
  | .lenEnc _ | .lenDec _ | .lenPrice _
  | .distEnc | .distDec | .posSlot | .repUse | .repPush
  | .optGetOptimum | .priceFillDist | .priceFillAlign | .priceLenTable _
  | .pricePosLen | .priceRep | .priceShortRep
  | .encStart | .hdrWrite | .encStep | .encRun | .encSymbol | .encFinish
  | .hdrRead | .decStart | .decStep | .decRun | .owGetByte | .owPutByte | .owCopy => true

end Sys2Proof
end

