-- ==== Sys2Proof/Machine/Ops.lean ====
section
/-! DEFINITION. The shared operations: the engine's computations, fault entry and the return from a fault, the order
of a command's checks (30_encoding.md R147 to R149), the RAMs with their bounds (20_memory.md R100, R104) and the two
byte streams (R110, R111). -/

namespace Sys2Proof.Machine

/-- Why a computation ends before its last line: a fault was raised and the command has ended (R15, R610), or the
command cannot go on (R110, R111). -/
inductive Stop where
  | ended
  | stuck (f : Fault)
  deriving DecidableEq, Repr

/-- A computation of the engine: it reads and writes State, and may end early. A fault keeps every state change made
before it ("State changes the command made before the `raise` remain", R15). -/
abbrev Eng := EStateM Stop State

/-- Reads something of the state. -/
def look {α : Type} (f : State → α) : Eng α := fun s => .ok (f s) s

/-- Changes the state. -/
def put (f : State → State) : Eng Unit := fun s => .ok () (f s)

/-- The computation cannot go on. -/
def stuck {α : Type} (f : Fault) : Eng α := fun s => .error (.stuck f) s

/-! ## Fault entry and the return from a fault -/

/-- Fault entry (R610): the first error is kept in STATUS.ERR, R0 and R1 become 0, and nothing else changes: nothing
is saved or rolled back, PHASE stays, and there is no vector and no handler. -/
def faultEntry (c : ErrCode) (s : State) : State :=
  { s with status := s.status.record c, x := { s.x with r0 := 0, r1 := 0 } }

/-- `raise Fault(code)` (R15, R610). -/
def raise {α : Type} (c : ErrCode) : Eng α := fun s => .error .ended (faultEntry c s)

/-- The only way out of a fault is RESET (R561, R612): every item of R75 at its reset value; the host's source, sink
and port, and the instance's parameter, are not the engine's to reset (R651). -/
def resetEngine (s : State) : State := State.resetWith s.host s.dictCap

/-- Goes on if the condition holds, else raises the fault. -/
def check (ok : Bool) (c : ErrCode) : Eng Unit := fun s => if ok then .ok () s else raise c s

/-! ## Commands -/

/-- The gate classes of R147. -/
inductive Gate where
  | any | enc | dec | encDec | startE | startD | runE | runD
  deriving DecidableEq, Repr

/-- What a gate answers: run the command's rule, do nothing, or SEQ_ERROR (R147). -/
inductive GateAnswer where
  | run | skip | refuse
  deriving DecidableEq, Repr

/-- R147 and the no-op of R149. -/
def Gate.answer (g : Gate) (s : State) : GateAnswer :=
  match g with
  | .any => .run
  | .enc => if s.status.phase = .enc then .run else .refuse
  | .dec => if s.status.phase = .dec then .run else .refuse
  | .encDec => if s.status.phase = .enc ∨ s.status.phase = .dec then .run else .refuse
  | .startE => if (s.status.phase = .idle ∨ s.status.phase = .done) ∧ s.opts.mode = 0#1 then .run else .refuse
  | .startD => if (s.status.phase = .idle ∨ s.status.phase = .done) ∧ s.opts.mode = 1#1 then .run else .refuse
  | .runE =>
    if s.status.phase = .enc then .run
    else if s.status.phase = .done ∧ s.opts.mode = 0#1 then .skip else .refuse
  | .runD =>
    if s.status.phase = .dec then .run
    else if s.status.phase = .done ∧ s.opts.mode = 1#1 then .skip else .refuse

/-- "Every command first sets R0 and R1 to 0" (R44). -/
def clearResults (s : State) : State := { s with x := { s.x with r0 := 0, r1 := 0 } }

/-- A0..A3 are latched from the transaction (R44, R142). -/
def latch (t : Transaction) (s : State) : State :=
  { s with x := { s.x with a0 := t.a0, a1 := t.a1, a2 := t.a2, a3 := t.a3 } }

/-- "While STATUS.ERR ≠ 0, only NOP, RESET and REG_READ run" (R148). -/
def runsUnderError : Instr → Bool
  | .nop | .reset | .regRead => true
  | .regWrite | .probRead | .matchRead
  | .wbGetByte | .wbMatchLen | .wbAvail
  | .mfGetMatches | .mfSkip | .mfMovePos | .mfHash
  | .rceBit _ | .rceDirect _ | .rcdBit | .rcdDirect _ | .priceBit _ _
  | .btEnc _ | .btRevEnc _ | .btDec _ | .btRevDec _ | .btPrice _ | .btRevPrice _
  | .stChar _ | .stMatch _ | .stRep _ | .stShortRep _
  | .litEnc | .litEncM | .litDec | .litDecM | .litPrice _
  | .lenEnc _ | .lenDec _ | .lenPrice _
  | .distEnc | .distDec | .posSlot | .repUse | .repPush
  | .optGetOptimum | .priceFillDist | .priceFillAlign | .priceLenTable _
  | .pricePosLen | .priceRep | .priceShortRep
  | .encStart | .hdrWrite | .encStep | .encRun | .encSymbol | .encFinish
  | .hdrRead | .decStart | .decStep | .decRun | .owGetByte | .owPutByte | .owCopy => false

/-- How a command's computation ends: completed or faulted, it has a next state; waiting, it has none. -/
def finish (r : EStateM.Result Stop State Unit) : Host.Outcome State Fault Refusal :=
  match r with
  | .ok _ s => .next s
  | .error .ended s => .next s
  | .error (.stuck f) _ => .fault f

/-- The order of a command's execution (R149, R620): R0 = R1 = 0, the sticky-error gate, the legality check, the phase
gate, then the command's rule. A0..A3 have been latched by the step. -/
def command (i : Instr) (g : Gate) (body : Eng Unit) (s : State) : Host.Outcome State Fault Refusal :=
  let s0 := clearResults s
  if s0.status.err ≠ .none ∧ runsUnderError i = false then .next s0
  else if i.wellFormed = false then .next (faultEntry .illegalCmd s0)
  else match g.answer s0 with
    | .run => finish (body s0)
    | .skip => .next s0
    | .refuse => .next (faultEntry .seqError s0)

/-- An illegal command word (R146): ILLEGAL_CMD "before the command has any effect", after the sticky gate (R148). -/
def illegalCommand (s : State) : Host.Outcome State Fault Refusal :=
  let s0 := clearResults s
  if s0.status.err ≠ .none then .next s0 else .next (faultEntry .illegalCmd s0)

/-- `x[4] <- v`. -/
def setR0 (v : Word) : Eng Unit := put fun s => { s with x := { s.x with r0 := v } }

/-- `x[5] <- v`. -/
def setR1 (v : Word) : Eng Unit := put fun s => { s with x := { s.x with r1 := v } }

/-! ## RAMs -/

/-- The element at index `i` of a list of cells in canonical form. -/
def cellAt {α : Type} (fill : α) : List (Nat × α) → Nat → α
  | [], _ => fill
  | (k, v) :: t, i => if i < k then fill else if i = k then v else cellAt fill t i

/-- The cells after `[i] <- v`; an element equal to `fill` has no cell. -/
def cellSet {α : Type} [DecidableEq α] (fill : α) : List (Nat × α) → Nat → α → List (Nat × α)
  | [], i, v => if v = fill then [] else [(i, v)]
  | (k, u) :: t, i, v =>
    if i < k then (if v = fill then (k, u) :: t else (i, v) :: (k, u) :: t)
    else if i = k then (if v = fill then t else (i, v) :: t)
    else (k, u) :: cellSet fill t i v

/-- The canonical form from a lowest index on: indices strictly rising, none equal to `fill`, all below `size`. -/
def cellsWf {α : Type} [DecidableEq α] (fill : α) (size : Nat) : Nat → List (Nat × α) → Bool
  | _, [] => true
  | lo, (k, v) :: t => decide (lo ≤ k) && decide (k < size) && decide (v ≠ fill) && cellsWf fill size (k + 1) t

namespace Ram
variable {α : Type} {fill : α}

/-- `MemRead(S, i)` (R13). -/
def get (r : Ram α fill) (i : Nat) : α := cellAt fill r.cells i

/-- `MemWrite(S, i, v)` (R13). -/
def set [DecidableEq α] (r : Ram α fill) (i : Nat) (v : α) : Ram α fill :=
  { r with cells := cellSet fill r.cells i v }

/-- A RAM just allocated: every element is `fill`. -/
def alloc (n : Nat) : Ram α fill := { size := n, cells := [] }

/-- Every element back to `fill`. -/
def clear (r : Ram α fill) : Ram α fill := { r with cells := [] }

/-- Every element replaced by its image under `f`, for an `f` that keeps `fill`. -/
def mapElems [DecidableEq α] (r : Ram α fill) (f : α → α) : Ram α fill :=
  { r with cells := r.cells.filterMap fun c => if f c.2 = fill then Option.none else some (c.1, f c.2) }

/-- The canonical form of a RAM's cells. -/
def wf [DecidableEq α] (r : Ram α fill) : Bool := cellsWf fill r.size 0 r.cells

end Ram

/-- Every RAM of the state is in canonical form. -/
def Memory.wf (s : State) : Bool :=
  s.prob.wf && s.wbuf.wf && s.son.wf && s.hash.wf && s.matchBuf.wf && s.opt.wf &&
  s.price.posSlot.wf && s.price.dist.wf && s.price.align.wf && s.price.lenMatch.wf && s.price.lenRep.wf &&
  s.price.cntMatch.wf && s.price.cntRep.wf && s.owbuf.wf

/-- A RAM read of a rule: "if a stream rule then forms an out-of-range index, that rule faults `BOUNDS` at the
access" (R104). -/
def ramRead {α : Type} {fill : α} (ram : State → Ram α fill) (i : Word) : Eng α := fun s =>
  if i.toNat < (ram s).size then .ok ((ram s).get i.toNat) s else raise .bounds s

/-- A RAM write of a rule, with the same bound (R104). -/
def ramWrite {α : Type} {fill : α} [DecidableEq α] (ram : State → Ram α fill)
    (store : State → Ram α fill → State) (i : Word) (v : α) : Eng Unit := fun s =>
  if i.toNat < (ram s).size then .ok () (store s ((ram s).set i.toNat v)) else raise .bounds s

/-- PROB[i]. -/
def probRead (i : Word) : Eng Prob := ramRead (·.prob) i
/-- PROB[i] <- v. -/
def probWrite (i : Word) (v : Prob) : Eng Unit := ramWrite (·.prob) (fun s r => { s with prob := r }) i v
/-- WBUF[i]. -/
def wbufRead (i : Word) : Eng Byte := ramRead (·.wbuf) i
/-- WBUF[i] <- v. -/
def wbufWrite (i : Word) (v : Byte) : Eng Unit := ramWrite (·.wbuf) (fun s r => { s with wbuf := r }) i v
/-- SON[i]. -/
def sonRead (i : Word) : Eng Word := ramRead (·.son) i
/-- SON[i] <- v. -/
def sonWrite (i v : Word) : Eng Unit := ramWrite (·.son) (fun s r => { s with son := r }) i v
/-- HASH[i]. -/
def hashRead (i : Word) : Eng Word := ramRead (·.hash) i
/-- HASH[i] <- v. -/
def hashWrite (i v : Word) : Eng Unit := ramWrite (·.hash) (fun s r => { s with hash := r }) i v
/-- MATCHES[i]. -/
def matchRead (i : Word) : Eng Word := ramRead (·.matchBuf) i
/-- MATCHES[i] <- v. -/
def matchWrite (i v : Word) : Eng Unit := ramWrite (·.matchBuf) (fun s r => { s with matchBuf := r }) i v
/-- OPT[i]. -/
def optRead (i : Word) : Eng OptRec := ramRead (·.opt) i
/-- OPT[i] <- v. -/
def optWrite (i : Word) (v : OptRec) : Eng Unit := ramWrite (·.opt) (fun s r => { s with opt := r }) i v
/-- OWBUF[i]. -/
def owbufRead (i : Word) : Eng Byte := ramRead (·.owbuf) i
/-- OWBUF[i] <- v. -/
def owbufWrite (i : Word) (v : Byte) : Eng Unit := ramWrite (·.owbuf) (fun s r => { s with owbuf := r }) i v
/-- POS_SLOT_PRICES[i]. -/
def posSlotPriceRead (i : Word) : Eng Word := ramRead (·.price.posSlot) i
/-- POS_SLOT_PRICES[i] <- v. -/
def posSlotPriceWrite (i v : Word) : Eng Unit :=
  ramWrite (·.price.posSlot) (fun s r => { s with price := { s.price with posSlot := r } }) i v
/-- DIST_PRICES[i]. -/
def distPriceRead (i : Word) : Eng Word := ramRead (·.price.dist) i
/-- DIST_PRICES[i] <- v. -/
def distPriceWrite (i v : Word) : Eng Unit :=
  ramWrite (·.price.dist) (fun s r => { s with price := { s.price with dist := r } }) i v
/-- ALIGN_PRICES[i]. -/
def alignPriceRead (i : Word) : Eng Word := ramRead (·.price.align) i
/-- ALIGN_PRICES[i] <- v. -/
def alignPriceWrite (i v : Word) : Eng Unit :=
  ramWrite (·.price.align) (fun s r => { s with price := { s.price with align := r } }) i v
/-- LEN_PRICES[k][i], `k` false for the match lengths, true for the rep lengths (R57). -/
def lenPriceRead (k : Bool) (i : Word) : Eng Word :=
  if k then ramRead (·.price.lenRep) i else ramRead (·.price.lenMatch) i
/-- LEN_PRICES[k][i] <- v. -/
def lenPriceWrite (k : Bool) (i v : Word) : Eng Unit :=
  if k then ramWrite (·.price.lenRep) (fun s r => { s with price := { s.price with lenRep := r } }) i v
  else ramWrite (·.price.lenMatch) (fun s r => { s with price := { s.price with lenMatch := r } }) i v
/-- LEN_COUNTERS[k][i]. -/
def lenCounterRead (k : Bool) (i : Word) : Eng Word :=
  if k then ramRead (·.price.cntRep) i else ramRead (·.price.cntMatch) i
/-- LEN_COUNTERS[k][i] <- v. -/
def lenCounterWrite (k : Bool) (i v : Word) : Eng Unit :=
  if k then ramWrite (·.price.cntRep) (fun s r => { s with price := { s.price with cntRep := r } }) i v
  else ramWrite (·.price.cntMatch) (fun s r => { s with price := { s.price with cntMatch := r } }) i v

/-! ## Streams -/

/-- `SrcRead()` (R14, R110): the next byte, with IN_COUNT counted; or EOF (`none`), with STATUS.SRC_EOF set. Once it has
returned EOF it returns EOF until the counters are cleared. With neither a byte nor the end-of-data signal ready, the
command waits. -/
def srcRead : Eng (Option Byte) := fun s =>
  if s.status.srcEof then .ok none s
  else match s.host.src with
    | b :: rest =>
      .ok (some b) { s with host := { s.host with src := rest }, cnt := { s.cnt with inCount := s.cnt.inCount + 1 } }
    | [] =>
      if s.host.srcEnd then .ok none { s with status := { s.status with srcEof := true } }
      else .error (.stuck .sourceWait) s

/-- `SinkWrite(b)` (R14, R111): appends the byte and counts OUT_COUNT; while the host does not accept it, the command
waits. -/
def sinkWrite (b : Byte) : Eng Unit := fun s =>
  let written (room : Option Nat) : State :=
    { s with host := { s.host with sink := b :: s.host.sink, sinkRoom := room },
             cnt := { s.cnt with outCount := s.cnt.outCount + 1 } }
  match s.host.sinkRoom with
  | none => .ok () (written none)
  | some (n + 1) => .ok () (written (some n))
  | some 0 => .error (.stuck .sinkWait) s

end Sys2Proof.Machine
end

