-- ==== Sys2Proof/Machine/Operands.lean ====
section
/-! DEFINITION. How the commands read and check their operands (30_encoding.md R142, 43_bittree.md R329,
44_model.md R389), and the small bit helpers the rules use (00_scope.md R10, R11). -/

namespace Sys2Proof.Machine

/-- A0. -/
def opA0 : Eng Word := look (·.x.a0)
/-- A1. -/
def opA1 : Eng Word := look (·.x.a1)
/-- A2. -/
def opA2 : Eng Word := look (·.x.a2)
/-- A3. -/
def opA3 : Eng Word := look (·.x.a3)

/-- `v[7:0]`. -/
def lowByte (v : Word) : Byte := v.setWidth 8

/-- `zext_32` of a byte. -/
def byteWord (b : Byte) : Word := b.setWidth 32

/-- `v[31:8] = 0`. -/
def isByte (v : Word) : Bool := decide (v.toNat < 256)

/-- ByteCheck (R389, R142). -/
def byteCheck (v : Word) : Eng Unit := check (isByte v) .bounds

/-- StateCheck (R389). -/
def stateCheck (v : Word) : Eng Unit := check (decide (v.toNat ≤ 11)) .bounds

/-- PsCheck (R389). -/
def psCheck (v : Word) : Eng Unit := fun s => check (decide (v.toNat < s.derived.numPosStates.toNat)) .bounds s

/-- SymCheck (R389). -/
def symCheck (v : Word) : Eng Unit := check (decide (v.toNat ≤ 271)) .bounds

/-- LenCheck (R389). -/
def lenCheck (v : Word) : Eng Unit := check (decide (2 ≤ v.toNat) && decide (v.toNat ≤ 273)) .bounds

/-- ProbCheck (R389). -/
def probCheck : Eng Unit := fun s => check (decide (s.derived.probCount ≠ 0#32)) .bounds s

/-- A PROB index taken from the host (R104, R300, R302, R304, R564). -/
def probIndexCheck (v : Word) : Eng Unit := fun s => check (decide (v.toNat < s.derived.probCount.toNat)) .bounds s

/-- TreeCheck (R329): the whole tree lies inside PROB. The sum is taken on u64 values, so it does not wrap. -/
def treeCheck (base : Word) (n : Nat) : Eng Unit := fun s =>
  check (decide (base.toNat + 2 ^ n - 1 < s.derived.probCount.toNat)) .bounds s

/-- A rep index taken from the host (R405, R455). -/
def repIndexCheck (v : Word) : Eng Unit := check (decide (v.toNat ≤ 3)) .bounds

/-- How many of the low `n` bits of `v` are 1. -/
def onesBelow (v : Word) : Nat → Nat
  | 0 => 0
  | n + 1 => (if v.getLsbD n then 1 else 0) + onesBelow v n

/-- The number of one bits of a word (R358: posStateMaskBits). -/
def oneBits (v : Word) : Nat := onesBelow v 32

/-- The low 32 bits of a counter: `NOW_POS[31:0]`. -/
def lowHalf (v : DWord) : Word := v.setWidth 32

/-- The high 32 bits of a counter. -/
def highHalf (v : DWord) : Word := v.extractLsb' 32 32

/-- `min` on unsigned words (R10). -/
def minW (a b : Word) : Word := if a ≤ b then a else b

/-- `max` on unsigned words (R10). -/
def maxW (a b : Word) : Word := if a ≤ b then b else a

end Sys2Proof.Machine
end

