-- ==== Sys2Proof/Machine/Control.lean ====
section
/-! DEFINITION. The host control commands (48_control.md) and the register map (10_state.md R60, R70 to R72). -/

namespace Sys2Proof.Machine

/-- RC_RANGE (R60): RCE.range in PHASE ENC, RCD.range in PHASE DEC, else 0. -/
def rcRange (s : State) : Word :=
  match s.status.phase with
  | .enc => s.rce.range
  | .dec => s.rcd.range
  | .idle => 0#32
  | .done => 0#32

/-- The value of a register, zero-extended (R60, R70); `none` for an unassigned number. -/
def regValue (s : State) (n : Nat) : Option Word :=
  match n with
  | 0x00 => some Config.idValue
  | 0x01 => some (s.opts.mode.setWidth 32)
  | 0x02 => some (s.opts.lc.setWidth 32)
  | 0x03 => some (s.opts.lp.setWidth 32)
  | 0x04 => some (s.opts.pb.setWidth 32)
  | 0x05 => some s.opts.dictSize
  | 0x06 => some (s.opts.fastBytes.setWidth 32)
  | 0x07 => some (s.opts.endMark.setWidth 32)
  | 0x08 => some (s.opts.mfHash.setWidth 32)
  | 0x09 => some (lowHalf s.opts.outSize)
  | 0x0A => some (highHalf s.opts.outSize)
  | 0x0B => some (s.opts.extendFast.setWidth 32)
  | 0x10 => some s.status.word
  | 0x11 => some (lowHalf s.cnt.nowPos)
  | 0x12 => some (highHalf s.cnt.nowPos)
  | 0x13 => some (lowHalf s.cnt.inCount)
  | 0x14 => some (highHalf s.cnt.inCount)
  | 0x15 => some (lowHalf s.cnt.outCount)
  | 0x16 => some (highHalf s.cnt.outCount)
  | 0x17 => some (s.cstate.setWidth 32)
  | 0x18 => some s.rep.d0
  | 0x19 => some s.rep.d1
  | 0x1A => some s.rep.d2
  | 0x1B => some s.rep.d3
  | 0x1C => some (rcRange s)
  | 0x1D => some (s.rce.low.setWidth 32)
  | 0x1E => some (bitWord (s.rce.low.getLsbD 32))
  | 0x1F => some (byteWord s.rce.cache)
  | 0x20 => some s.rce.cacheSize
  | 0x21 => some s.rcd.code
  | 0x22 => some s.win.pos
  | 0x23 => some s.win.streamPos
  | 0x24 => some s.enc.addOffset
  | 0x25 => some s.ow.pos
  | 0x26 => some s.ow.dictSizeCheck
  | 0x27 => some (byteWord s.enc.prevByte)
  | _ => none

/-- The options after a write of `v` to a register (R60, R72): the low bits of `v`, to the register's width; `none` for a
read-only or unassigned number. -/
def optionWrite (o : Options) (n : Nat) (v : Word) : Option Options :=
  match n with
  | 0x01 => some { o with mode := v.setWidth 1 }
  | 0x02 => some { o with lc := v.setWidth 4 }
  | 0x03 => some { o with lp := v.setWidth 3 }
  | 0x04 => some { o with pb := v.setWidth 3 }
  | 0x05 => some { o with dictSize := v }
  | 0x06 => some { o with fastBytes := v.setWidth 9 }
  | 0x07 => some { o with endMark := v.setWidth 1 }
  | 0x08 => some { o with mfHash := v.setWidth 1 }
  | 0x09 => some { o with outSize := highHalf o.outSize ++ v }
  | 0x0A => some { o with outSize := v ++ lowHalf o.outSize }
  | 0x0B => some { o with extendFast := v.setWidth 1 }
  | _ => none

/-- STATUS.PHASE is ENC or DEC: a stream is active (R43). -/
def streamActive (s : State) : Bool := decide (s.status.phase = .enc) || decide (s.status.phase = .dec)

/-- NOP (R560). -/
def execNop (s : State) : Host.Outcome State Fault Refusal := command .nop .any (pure ()) s

/-- RESET (R561). -/
def execReset (s : State) : Host.Outcome State Fault Refusal := command .reset .any (put resetEngine) s

/-- REG_READ (R562). -/
def execRegRead (s : State) : Host.Outcome State Fault Refusal :=
  command .regRead .any (do
    let n ← opA0
    byteCheck n
    let v ← look fun s => regValue s n.toNat
    match v with
    | some v => setR0 v
    | none => raise .illegalCmd) s

/-- REG_WRITE (R563): BOUNDS, then ILLEGAL_CMD, then SEQ_ERROR, then the write. -/
def execRegWrite (s : State) : Host.Outcome State Fault Refusal :=
  command .regWrite .any (do
    let n ← opA0
    let v ← opA1
    byteCheck n
    let o ← look fun s => optionWrite s.opts n.toNat v
    match o with
    | none => raise .illegalCmd
    | some o => do
      let active ← look streamActive
      check (!active) .seqError
      put fun s => { s with opts := o }) s

/-- PROB_READ (R564). -/
def execProbRead (s : State) : Host.Outcome State Fault Refusal :=
  command .probRead .any (do
    let i ← opA0
    probIndexCheck i
    let p ← probRead i
    setR0 (p.setWidth 32)) s

/-- MATCH_READ (R565). -/
def execMatchRead (s : State) : Host.Outcome State Fault Refusal :=
  command .matchRead .any (do
    let i ← opA0
    let v ← matchRead i
    setR0 v
    let n ← look (·.mf.numPairs)
    setR1 n) s

end Sys2Proof.Machine
end

