-- ==== Sys2Proof/Machine/Tables.lean ====
section
/-! DEFINITION. The two read-only tables (10_state.md R59, 42_rangecoder.md R295). They are "built once" and no reset
changes them, so they are constants of the model and no field of State holds them. -/

namespace Sys2Proof.Machine

/-- One step of the remainder (R59). -/
def crcStep (r : Word) : Word := if r.getLsbD 0 then (r >>> 1) ^^^ 0xEDB88320#32 else r >>> 1

/-- `n` steps of the remainder. -/
def crcSteps : Nat → Word → Word
  | 0, r => r
  | n + 1, r => crcSteps n (crcStep r)

/-- `CRC_TABLE[i]` (R59): the reflected CRC-32 remainder of a byte. -/
def crcTable (i : Byte) : Word := crcSteps 8 (byteWord i)

/-- `PROB_PRICES[j]` (R295) for `j < 512`: the entry is written by the turn `i = 8 − e` of the loop, where
`2^e ≤ j < 2^(e+1)`. -/
def probPrice (j : Nat) : Word :=
  if j = 0 then 0#32
  else
    let e := Nat.log2 j
    BitVec.ofNat 32 (((8 - e) <<< 6) + (((2 ^ (e + 1) - j) <<< 6) >>> e))

/-- `PROB_PRICES[j]` as a rule reads it: an index outside its 512 elements faults BOUNDS (R104). -/
def probPriceRead (j : Nat) : Eng Word := fun s => if j < 512 then .ok (probPrice j) s else raise .bounds s

/-- `BitPrice(p, b)` (R296). -/
def bitPrice (p : Prob) (b : Bool) : Eng Word :=
  if b then probPriceRead ((2048 - p.toNat) >>> 2) else probPriceRead (p.toNat >>> 2)

end Sys2Proof.Machine
end

