-- ==== Sys2Proof/Machine/RangeCoder.lean ====
section
/-! DEFINITION. The range encoder and decoder and the bit prices (42_rangecoder.md). -/

namespace Sys2Proof.Machine

/-- `ProbUpdate(p, b)` (R280). -/
def probUpdate (p : Prob) (b : Bool) : Prob :=
  if b then BitVec.ofNat 11 (p.toNat - (p.toNat >>> 5))
  else BitVec.ofNat 11 (p.toNat + ((2048 - p.toNat) >>> 5))

/-- `(range >> 11) * p`, u32 (R284, R290). -/
def bitBound (range : Word) (p : Prob) : Word := (range >>> 11) * p.setWidth 32

/-! ## Encoder -/

/-- `RceInit()` (R282). -/
def rceInit : Eng Unit :=
  put fun s => { s with rce := { low := 0, range := 0xFFFFFFFF#32, cache := 0, cacheSize := 1 } }

/-- The loop of `RceShiftLow` (R283): `k` bytes, the first `t` and the rest 0xFF, each plus the carry. -/
def rceEmit : Nat → Byte → Byte → Eng Unit
  | 0, _, _ => pure ()
  | k + 1, t, carry => do
    sinkWrite (t + carry)
    put fun s => { s with rce := { s.rce with cacheSize := s.rce.cacheSize - 1 } }
    rceEmit k 0xFF#8 carry

/-- How many bytes the loop of `RceShiftLow` writes: it runs until cacheSize, counted down modulo 2^32, is 0. -/
def pendingCount (cacheSize : Word) : Nat := (cacheSize - 1).toNat + 1

/-- Whether `RceShiftLow` can settle the pending bytes (R283): `low < 0xFF000000`, or a carry in bit 32. -/
def rceSettled (low : BitVec 33) : Bool := decide (low.toNat < 0xFF000000) || low.getLsbD 32

/-- `RceShiftLow()` (R283). -/
def rceShiftLow : Eng Unit := do
  let r ← look (·.rce)
  if rceSettled r.low then
    rceEmit (pendingCount r.cacheSize) r.cache ((BitVec.ofBool (r.low.getLsbD 32)).setWidth 8)
    put fun s => { s with rce := { s.rce with cache := s.rce.low.extractLsb' 24 8 } }
  put fun s => { s with rce := { s.rce with
    cacheSize := s.rce.cacheSize + 1
    low := (s.rce.low.setWidth 24).setWidth 33 <<< 8 } }

/-- One renormalization step if the range is below 2^24 (R284, R285). -/
def rceNormalize : Eng Unit := do
  let r ← look (·.rce.range)
  if r.toNat < 2 ^ 24 then
    put fun s => { s with rce := { s.rce with range := s.rce.range <<< 8 } }
    rceShiftLow

/-- The interval after coding bit `b` with a bound (R284). -/
def rceNarrow (bound : Word) (b : Bool) (r : RceRegs) : RceRegs :=
  if b then { r with low := r.low + bound.setWidth 33, range := r.range - bound } else { r with range := bound }

/-- `RceEncodeBit(i, b)` (R284). -/
def rceEncodeBit (i : Word) (b : Bool) : Eng Unit := do
  let p ← probRead i
  put fun s => { s with rce := rceNarrow (bitBound s.rce.range p) b s.rce }
  probWrite i (probUpdate p b)
  rceNormalize

/-- The interval after one direct bit (R285). -/
def rceHalve (b : Bool) (r : RceRegs) : RceRegs :=
  let half := r.range >>> 1
  { r with range := half, low := if b then r.low + half.setWidth 33 else r.low }

/-- `RceEncodeDirect(v, n)` (R285): the `n` low bits of `v`, most significant first. -/
def rceEncodeDirect (v : Word) : Nat → Eng Unit
  | 0 => pure ()
  | k + 1 => do
    put fun s => { s with rce := rceHalve (v.getLsbD k) s.rce }
    rceNormalize
    rceEncodeDirect v k

/-- `RceFlush()` (R286): five byte outputs. -/
def rceFlush : Eng Unit := do
  rceShiftLow
  rceShiftLow
  rceShiftLow
  rceShiftLow
  rceShiftLow

/-! ## Decoder -/

/-- A source byte that must exist: EOF faults TRUNCATED (R288, R291, R520). -/
def srcReadOrTruncated : Eng Byte := do
  match ← srcRead with
  | some b => pure b
  | none => raise .truncated

/-- `RCD.code <- (RCD.code << 8) | zext_32(b)`. -/
def rcdShiftIn (b : Byte) (s : State) : State := { s with rcd := { s.rcd with code := (s.rcd.code <<< 8) ||| byteWord b } }

/-- The first payload bytes of `RcdInit` (R288). -/
def rcdLoad : Nat → Eng Unit
  | 0 => pure ()
  | k + 1 => do
    let b ← srcReadOrTruncated
    put (rcdShiftIn b)
    rcdLoad k

/-- `RcdInit()` (R288). -/
def rcdInit : Eng Unit := do
  put fun s => { s with rcd := { range := 0xFFFFFFFF#32, code := 0 } }
  rcdLoad 5

/-- `RcdNormalize()` (R291). -/
def rcdNormalize : Eng Unit := do
  let b ← srcReadOrTruncated
  put (rcdShiftIn b)
  put fun s => { s with rcd := { s.rcd with range := s.rcd.range <<< 8 } }

/-- `if RCD.range < 2^24: RcdNormalize()`. -/
def rcdNormalizeIfLow : Eng Unit := do
  let r ← look (·.rcd.range)
  if r.toNat < 2 ^ 24 then rcdNormalize

/-- The bit a bound decides, and the interval after it (R290). -/
def rcdNarrow (bound : Word) (r : RcdRegs) : Bool × RcdRegs :=
  if r.code < bound then (false, { r with range := bound })
  else (true, { code := r.code - bound, range := r.range - bound })

/-- `RcdDecodeBit(i)` (R290). -/
def rcdDecodeBit (i : Word) : Eng Bool := do
  let p ← probRead i
  let d ← look fun s => rcdNarrow (bitBound s.rcd.range p) s.rcd
  put fun s => { s with rcd := d.2 }
  probWrite i (probUpdate p d.1)
  rcdNormalizeIfLow
  pure d.1

/-- One direct bit, and the interval after it (R292). -/
def rcdHalve (r : RcdRegs) : Bool × RcdRegs :=
  let half := r.range >>> 1
  if half ≤ r.code then (true, { code := r.code - half, range := half }) else (false, { r with range := half })

/-- The loop of `RcdDecodeDirect` (R292), `v` the bits decoded so far. -/
def rcdDirectLoop : Nat → Word → Eng Word
  | 0, v => pure v
  | k + 1, v => do
    let d ← look fun s => rcdHalve s.rcd
    put fun s => { s with rcd := d.2 }
    rcdNormalizeIfLow
    rcdDirectLoop k ((v <<< 1) ||| bitWord d.1)

/-- `RcdDecodeDirect(n)` (R292). -/
def rcdDecodeDirect (n : Nat) : Eng Word := rcdDirectLoop n 0#32

/-! ## Commands -/

/-- RCE_BIT (R300). -/
def execRceBit (b : Bool) (s : State) : Host.Outcome State Fault Refusal :=
  command (.rceBit b) .enc (do
    let i ← opA0
    probIndexCheck i
    rceEncodeBit i b) s

/-- RCE_DIRECT (R301). -/
def execRceDirect (n : BitVec 5) (s : State) : Host.Outcome State Fault Refusal :=
  command (.rceDirect n) .enc (do
    let v ← opA0
    rceEncodeDirect v n.toNat) s

/-- RCD_BIT (R302). -/
def execRcdBit (s : State) : Host.Outcome State Fault Refusal :=
  command .rcdBit .dec (do
    let i ← opA0
    probIndexCheck i
    let b ← rcdDecodeBit i
    setR0 (bitWord b)) s

/-- RCD_DIRECT (R303). -/
def execRcdDirect (n : BitVec 5) (s : State) : Host.Outcome State Fault Refusal :=
  command (.rcdDirect n) .dec (do
    let v ← rcdDecodeDirect n.toNat
    setR0 v) s

/-- A probability operand of PRICE_BIT with SEL 1: `0 < p < 2048` (R304). -/
def probValueCheck (v : Word) : Eng Unit := check (decide (v ≠ 0#32) && decide (v.toNat < 2048)) .bounds

/-- PRICE_BIT (R304). -/
def execPriceBit (sel b : Bool) (s : State) : Host.Outcome State Fault Refusal :=
  command (.priceBit sel b) .any (do
    let v ← opA0
    let p ← if sel then (do probValueCheck v; pure (v.setWidth 11)) else (do probIndexCheck v; probRead v)
    let c ← bitPrice p b
    setR0 c) s

end Sys2Proof.Machine
end

