-- ==== Sys2Proof/Machine/BitTree.lean ====
section
/-! DEFINITION. The bit-tree coder (43_bittree.md). -/

namespace Sys2Proof.Machine

/-- The child of node `m` for bit `b` (R320). -/
def childNode (m : Word) (b : Bool) : Word := (m <<< 1) ||| bitWord b

/-- `BtEncode` from node `m` on, `k` bits left (R321). -/
def btEncodeFrom (base sym : Word) : Nat → Word → Eng Unit
  | 0, _ => pure ()
  | k + 1, m => do
    rceEncodeBit (base + m) (sym.getLsbD k)
    btEncodeFrom base sym k (childNode m (sym.getLsbD k))

/-- `BtEncode(base, n, sym)` (R321): most significant bit first. -/
def btEncode (base : Word) (n : Nat) (sym : Word) : Eng Unit := btEncodeFrom base sym n 1#32

/-- The node reached after `k` more decoded bits (R322). -/
def btDecodeFrom (base : Word) : Nat → Word → Eng Word
  | 0, m => pure m
  | k + 1, m => do
    let b ← rcdDecodeBit (base + m)
    btDecodeFrom base k (childNode m b)

/-- `BtDecode(base, n)` (R322). -/
def btDecode (base : Word) (n : Nat) : Eng Word := do
  let m ← btDecodeFrom base n 1#32
  pure (m - (1#32 <<< n))

/-- `BtReverseEncode` from node `m` on: `left` bits left, the next one bit `k` of `sym` (R323). -/
def btReverseEncodeFrom (base sym : Word) : Nat → Nat → Word → Eng Unit
  | 0, _, _ => pure ()
  | left + 1, k, m => do
    rceEncodeBit (base + m) (sym.getLsbD k)
    btReverseEncodeFrom base sym left (k + 1) (childNode m (sym.getLsbD k))

/-- `BtReverseEncode(base, n, sym)` (R323): least significant bit first. -/
def btReverseEncode (base : Word) (n : Nat) (sym : Word) : Eng Unit := btReverseEncodeFrom base sym n 0 1#32

/-- `BtReverseDecode` from node `m` on, `sym` the bits decoded so far (R324). -/
def btReverseDecodeFrom (base : Word) : Nat → Nat → Word → Word → Eng Word
  | 0, _, _, sym => pure sym
  | left + 1, k, m, sym => do
    let b ← rcdDecodeBit (base + m)
    btReverseDecodeFrom base left (k + 1) (childNode m b) (sym ||| (bitWord b <<< k))

/-- `BtReverseDecode(base, n)` (R324). -/
def btReverseDecode (base : Word) (n : Nat) : Eng Word := btReverseDecodeFrom base n 0 1#32 0#32

/-- The price of coding bit `b` with PROB[i] as it stands (R296, R325). -/
def nodePrice (i : Word) (b : Bool) : Eng Word := do
  let p ← probRead i
  bitPrice p b

/-- `BtPrice` from node `m` on, `price` the sum so far (R325). -/
def btPriceFrom (base sym : Word) : Nat → Word → Word → Eng Word
  | 0, _, price => pure price
  | k + 1, m, price => do
    let c ← nodePrice (base + m) (sym.getLsbD k)
    btPriceFrom base sym k (childNode m (sym.getLsbD k)) (price + c)

/-- `BtPrice(base, n, sym)` (R325). -/
def btPrice (base : Word) (n : Nat) (sym : Word) : Eng Word := btPriceFrom base sym n 1#32 0#32

/-- `BtReversePrice` from node `m` on (R326). -/
def btReversePriceFrom (base sym : Word) : Nat → Nat → Word → Word → Eng Word
  | 0, _, _, price => pure price
  | left + 1, k, m, price => do
    let c ← nodePrice (base + m) (sym.getLsbD k)
    btReversePriceFrom base sym left (k + 1) (childNode m (sym.getLsbD k)) (price + c)

/-- `BtReversePrice(base, n, sym)` (R326). -/
def btReversePrice (base : Word) (n : Nat) (sym : Word) : Eng Word := btReversePriceFrom base sym n 0 1#32 0#32

/-! ## Commands -/

/-- BT_ENC (R330). -/
def execBtEnc (n : BitVec 5) (s : State) : Host.Outcome State Fault Refusal :=
  command (.btEnc n) .enc (do
    let base ← opA0
    let sym ← opA1
    treeCheck base n.toNat
    btEncode base n.toNat sym) s

/-- BT_REVENC (R331). -/
def execBtRevEnc (n : BitVec 5) (s : State) : Host.Outcome State Fault Refusal :=
  command (.btRevEnc n) .enc (do
    let base ← opA0
    let sym ← opA1
    treeCheck base n.toNat
    btReverseEncode base n.toNat sym) s

/-- BT_DEC (R332). -/
def execBtDec (n : BitVec 5) (s : State) : Host.Outcome State Fault Refusal :=
  command (.btDec n) .dec (do
    let base ← opA0
    treeCheck base n.toNat
    let sym ← btDecode base n.toNat
    setR0 sym) s

/-- BT_REVDEC (R333). -/
def execBtRevDec (n : BitVec 5) (s : State) : Host.Outcome State Fault Refusal :=
  command (.btRevDec n) .dec (do
    let base ← opA0
    treeCheck base n.toNat
    let sym ← btReverseDecode base n.toNat
    setR0 sym) s

/-- BT_PRICE (R334). -/
def execBtPrice (n : BitVec 5) (s : State) : Host.Outcome State Fault Refusal :=
  command (.btPrice n) .any (do
    let base ← opA0
    let sym ← opA1
    treeCheck base n.toNat
    let c ← btPrice base n.toNat sym
    setR0 c) s

/-- BT_REVPRICE (R335). -/
def execBtRevPrice (n : BitVec 5) (s : State) : Host.Outcome State Fault Refusal :=
  command (.btRevPrice n) .any (do
    let base ← opA0
    let sym ← opA1
    treeCheck base n.toNat
    let c ← btReversePrice base n.toNat sym
    setR0 c) s

end Sys2Proof.Machine
end

