-- ==== Sys2Proof/Machine/Symbols.lean ====
section
/-! DEFINITION. The probability layout, the state automaton, the literal, length and distance coders and the
rep-distance cache (44_model.md sections 1 to 7). -/

namespace Sys2Proof.Machine

/-! ## Coder state automaton -/

/-- `IsCharState(s)` (R350). -/
def isCharState (s : CState) : Bool := decide (s.toNat < 7)

/-- `onChar(s)` (R351). -/
def onChar (s : CState) : CState :=
  if s.toNat < 4 then 0#4 else if s.toNat < 10 then s - 3#4 else s - 6#4

/-- `onMatch(s)` (R352). -/
def onMatch (s : CState) : CState := if s.toNat < 7 then 7#4 else 10#4

/-- `onRep(s)` (R353). -/
def onRep (s : CState) : CState := if s.toNat < 7 then 8#4 else 11#4

/-- `onShortRep(s)` (R354). -/
def onShortRep (s : CState) : CState := if s.toNat < 7 then 9#4 else 11#4

/-- STATE. -/
def cstateGet : Eng CState := look (·.cstate)

/-- `STATE <- v`. -/
def cstateSet (v : CState) : Eng Unit := put fun s => { s with cstate := v }

/-! ## Index functions (R356, R358) -/

/-- `(s << posStateMaskBits) | ps`. -/
def stateIndex (mask : Word) (s : CState) (ps : Word) : Word := (s.setWidth 32 <<< oneBits mask) ||| ps

/-- `IsMatchIdx(s, ps)` (R358). -/
def isMatchIdx (s : CState) (ps : Word) : Eng Word := look fun st => stateIndex st.derived.posStateMask s ps

/-- `IsRepIdx(s)` (R358). -/
def isRepIdx (s : CState) : Word := 192#32 + s.setWidth 32

/-- `IsRepG0Idx(s)` (R358). -/
def isRepG0Idx (s : CState) : Word := 204#32 + s.setWidth 32

/-- `IsRepG1Idx(s)` (R358). -/
def isRepG1Idx (s : CState) : Word := 216#32 + s.setWidth 32

/-- `IsRepG2Idx(s)` (R358). -/
def isRepG2Idx (s : CState) : Word := 228#32 + s.setWidth 32

/-- `IsRep0LongIdx(s, ps)` (R358). -/
def isRep0LongIdx (s : CState) (ps : Word) : Eng Word :=
  look fun st => 240#32 + stateIndex st.derived.posStateMask s ps

/-- `position & posStateMask` (R356). -/
def posStateOf (position : Word) : Eng Word := look fun s => position &&& s.derived.posStateMask

/-! ## Literal coder -/

/-- `LitBase(position, prevByte)` (R361). -/
def litBase (position : Word) (prev : Byte) : Eng Word := look fun s =>
  1846#32 + 0x300#32 *
    (((position &&& s.derived.litPosMask) <<< s.derived.lcLatched.toNat) +
      byteWord (prev >>> (8 - s.derived.lcLatched.toNat)))

/-- The plain literal encoder from node `c` on (R362). -/
def litEncodeFrom (lb : Word) (sym : Byte) : Nat → Word → Eng Unit
  | 0, _ => pure ()
  | i + 1, c => do
    rceEncodeBit (lb + c) (sym.getLsbD i)
    litEncodeFrom lb sym i (childNode c (sym.getLsbD i))

/-- `LitEncode(lb, sym)` (R362). -/
def litEncode (lb : Word) (sym : Byte) : Eng Unit := litEncodeFrom lb sym 8 1#32

/-- The PROB index of the next literal bit: a matched tree while `same` holds, else the plain tree (R362). -/
def litNode (lb c : Word) (same : Bool) (matchBit : Bool) : Word :=
  if same then lb + ((1#32 + bitWord matchBit) <<< 8) + c else lb + c

/-- The matched literal encoder from node `c` on (R362). -/
def litEncodeMatchedFrom (lb : Word) (mb sym : Byte) : Nat → Word → Bool → Eng Unit
  | 0, _, _ => pure ()
  | i + 1, c, same => do
    rceEncodeBit (litNode lb c same (mb.getLsbD i)) (sym.getLsbD i)
    litEncodeMatchedFrom lb mb sym i (childNode c (sym.getLsbD i)) (same && (mb.getLsbD i == sym.getLsbD i))

/-- `LitEncodeMatched(lb, matchByte, sym)` (R362). -/
def litEncodeMatched (lb : Word) (mb sym : Byte) : Eng Unit := litEncodeMatchedFrom lb mb sym 8 1#32 true

/-- The plain literal decoder from node `c` on (R363): eight bits bring `c` from 1 to 0x100 or above. -/
def litDecodeFrom (lb : Word) : Nat → Word → Eng Word
  | 0, c => pure c
  | i + 1, c => do
    let b ← rcdDecodeBit (lb + c)
    litDecodeFrom lb i (childNode c b)

/-- `LitDecode(lb)` (R363). -/
def litDecode (lb : Word) : Eng Byte := do
  let c ← litDecodeFrom lb 8 1#32
  pure (lowByte (c - 0x100#32))

/-- The matched literal decoder from node `c` on (R363). -/
def litDecodeMatchedFrom (lb : Word) (mb : Byte) : Nat → Word → Bool → Eng Word
  | 0, c, _ => pure c
  | i + 1, c, same => do
    let b ← rcdDecodeBit (litNode lb c same (mb.getLsbD i))
    litDecodeMatchedFrom lb mb i (childNode c b) (same && (mb.getLsbD i == b))

/-- `LitDecodeMatched(lb, matchByte)` (R363). -/
def litDecodeMatched (lb : Word) (mb : Byte) : Eng Byte := do
  let c ← litDecodeMatchedFrom lb mb 8 1#32 true
  pure (lowByte (c - 0x100#32))

/-- The price of the literal path of R362 from node `c` on; `same` starts as the `matched` of R364. -/
def litPriceFrom (lb : Word) (mb sym : Byte) : Nat → Word → Bool → Word → Eng Word
  | 0, _, _, price => pure price
  | i + 1, c, same, price => do
    let p ← nodePrice (litNode lb c same (mb.getLsbD i)) (sym.getLsbD i)
    litPriceFrom lb mb sym i (childNode c (sym.getLsbD i)) (same && (mb.getLsbD i == sym.getLsbD i)) (price + p)

/-- `LitPrice(lb, matched, matchByte, sym)` (R364). -/
def litPrice (lb : Word) (matched : Bool) (mb sym : Byte) : Eng Word := litPriceFrom lb mb sym 8 1#32 matched 0#32

/-! ## Position slots and length classes -/

/-- `PosSlot(dist)` (R370). -/
def posSlotOf (dist : Word) : Word :=
  if dist.toNat < 4 then dist
  else
    let k := Nat.log2 dist.toNat
    BitVec.ofNat 32 (2 * k + (if dist.getLsbD (k - 1) then 1 else 0))

/-- `footerBits(slot)` for slot ≥ 4 (R370). -/
def footerBits (slot : Word) : Nat := (slot.toNat >>> 1) - 1

/-- `slotBase(slot)` for slot ≥ 4 (R370). -/
def slotBase (slot : Word) : Word := (2#32 ||| (slot &&& 1#32)) <<< footerBits slot

/-- `LenToPosState(len)` (R371). -/
def lenToPosState (len : Word) : Word := minW (len - 2#32) 3#32

/-- The position-slot tree of a length (R378): `432 + 64·lps`. -/
def posSlotTree (len : Word) : Word := 432#32 + 64#32 * lenToPosState len

/-- The base of the reverse tree of slots 4..13 (R380): `688 + slotBase(slot) − slot − 1`. -/
def specPosTree (slot : Word) : Word := 688#32 + slotBase slot - slot - 1#32

/-- The alignment tree (R381). -/
def alignTree : Word := 802#32

/-! ## Length coder -/

/-- The base of a length coder (R375): `k` false the match lengths, true the rep lengths. -/
def lenCoder (k : Bool) : Word := if k then 1332#32 else 818#32

/-- The low tree of a position state (R375). -/
def lenLowTree (l ps : Word) : Word := l + 2#32 + 8#32 * ps

/-- The mid tree of a position state (R375). -/
def lenMidTree (l ps : Word) : Word := l + 130#32 + 8#32 * ps

/-- The high tree (R375). -/
def lenHighTree (l : Word) : Word := l + 258#32

/-- `LenEncode(L, sym, ps)` (R375). -/
def lenEncode (l sym ps : Word) : Eng Unit :=
  if sym.toNat < 8 then do
    rceEncodeBit l false
    btEncode (lenLowTree l ps) 3 sym
  else if sym.toNat < 16 then do
    rceEncodeBit l true
    rceEncodeBit (l + 1#32) false
    btEncode (lenMidTree l ps) 3 (sym - 8#32)
  else do
    rceEncodeBit l true
    rceEncodeBit (l + 1#32) true
    btEncode (lenHighTree l) 8 (sym - 16#32)

/-- `LenDecode(L, ps)` (R376). -/
def lenDecode (l ps : Word) : Eng Word := do
  let choice ← rcdDecodeBit l
  if choice then do
    let choice2 ← rcdDecodeBit (l + 1#32)
    if choice2 then do
      let v ← btDecode (lenHighTree l) 8
      pure (16#32 + v)
    else do
      let v ← btDecode (lenMidTree l ps) 3
      pure (8#32 + v)
  else btDecode (lenLowTree l ps) 3

/-- `LenPrice(L, sym, ps)` (R377). -/
def lenPrice (l sym ps : Word) : Eng Word :=
  if sym.toNat < 8 then do
    let c ← nodePrice l false
    let t ← btPrice (lenLowTree l ps) 3 sym
    pure (c + t)
  else if sym.toNat < 16 then do
    let c ← nodePrice l true
    let c2 ← nodePrice (l + 1#32) false
    let t ← btPrice (lenMidTree l ps) 3 (sym - 8#32)
    pure (c + c2 + t)
  else do
    let c ← nodePrice l true
    let c2 ← nodePrice (l + 1#32) true
    let t ← btPrice (lenHighTree l) 8 (sym - 16#32)
    pure (c + c2 + t)

/-! ## Distance coder -/

/-- `DistEncode(dist, len)` (R380, R381): returns the slot. -/
def distEncode (dist len : Word) : Eng Word := do
  let slot := posSlotOf dist
  let reduced := dist - slotBase slot
  btEncode (posSlotTree len) 6 slot
  if slot.toNat < 4 then pure slot
  else if slot.toNat < 14 then do
    btReverseEncode (specPosTree slot) (footerBits slot) reduced
    pure slot
  else do
    rceEncodeDirect (reduced >>> 4) (footerBits slot - 4)
    btReverseEncode alignTree 4 (reduced &&& 15#32)
    pure slot

/-- `DistDecode(len)` (R382). -/
def distDecode (len : Word) : Eng Word := do
  let slot ← btDecode (posSlotTree len) 6
  if slot.toNat < 4 then pure slot
  else if slot.toNat < 14 then do
    let low ← btReverseDecode (specPosTree slot) (footerBits slot)
    pure (slotBase slot + low)
  else do
    let high ← rcdDecodeDirect (footerBits slot - 4)
    let low ← btReverseDecode alignTree 4
    pure (slotBase slot + (high <<< 4) + low)

/-! ## Rep-distance cache -/

/-- REP[i] for `i` in 0..3. -/
def Reps.get (r : Reps) : Nat → Word
  | 0 => r.d0
  | 1 => r.d1
  | 2 => r.d2
  | _ => r.d3

/-- `RepUse(i)` on a cache (R385): REP[i] moves to the front. -/
def Reps.use (r : Reps) : Nat → Reps
  | 0 => r
  | 1 => { r with d0 := r.d1, d1 := r.d0 }
  | 2 => { r with d0 := r.d2, d1 := r.d0, d2 := r.d1 }
  | _ => { d0 := r.d3, d1 := r.d0, d2 := r.d1, d3 := r.d2 }

/-- `RepPush(d)` on a cache (R386). -/
def Reps.push (r : Reps) (d : Word) : Reps := { d0 := d, d1 := r.d0, d2 := r.d1, d3 := r.d2 }

/-- REP[0]. -/
def rep0 : Eng Word := look (·.rep.d0)

/-- `RepUse(i)` (R385). -/
def repUse (i : Word) : Eng Word := do
  let d ← look fun s => s.rep.get i.toNat
  put fun s => { s with rep := s.rep.use i.toNat }
  pure d

/-- `RepPush(d)` (R386). -/
def repPush (d : Word) : Eng Unit := put fun s => { s with rep := s.rep.push d }

end Sys2Proof.Machine
end

