-- ==== Sys2Proof/Machine/Window.lean ====
section
/-! DEFINITION. The window buffer (40_window.md). -/

namespace Sys2Proof.Machine

/-- `WinCreate(keepBefore, keepAfter, reserve)` (R201). -/
def winCreate (keepBefore keepAfter reserve : Word) : Eng Unit := put fun s =>
  let blockSize := keepBefore + keepAfter + reserve
  { s with
    win := { s.win with keepBefore := keepBefore, keepAfter := keepAfter, blockSize := blockSize,
                        lastSafe := blockSize - keepAfter }
    wbuf := Ram.alloc blockSize.toNat }

/-- The end-of-input turn of `WinReadBlock` (R206). -/
def winAtEof (w : WinRegs) : WinRegs :=
  { w with
    posLimit := if (w.bufOffset + w.streamPos).toNat > w.lastSafe.toNat then w.lastSafe - w.bufOffset else w.streamPos
    streamEnd := true }

/-- The window after one byte has been stored (R206). -/
def winAfterByte (w : WinRegs) : WinRegs :=
  let streamPos := w.streamPos + 1
  { w with
    streamPos := streamPos
    posLimit := if (w.pos + w.keepAfter).toNat ≤ streamPos.toNat then streamPos - w.keepAfter else w.posLimit }

/-- The refill loop of `WinReadBlock` (R206). Each turn takes a source byte or is the last, so it is given one turn more
than the source has bytes ready, and none is left over. -/
def winReadLoop : Nat → Eng Unit
  | 0 => pure ()
  | n + 1 => do
    let w ← look (·.win)
    if w.bufOffset + w.streamPos = w.blockSize then pure ()
    else do
      match ← srcRead with
      | none => put fun s => { s with win := winAtEof s.win }
      | some b => do
        wbufWrite (w.bufOffset + w.streamPos) b
        put fun s => { s with win := winAfterByte s.win }
        winReadLoop n

/-- `WinReadBlock()` (R206). -/
def winReadBlock : Eng Unit := do
  let atEnd ← look (·.win.streamEnd)
  if atEnd then pure ()
  else do
    let ready ← look (·.host.src.length)
    winReadLoop (ready + 1)

/-- `WinInit()` (R202). -/
def winInit : Eng Unit := do
  put fun s => { s with
    win := { s.win with bufOffset := 0, pos := 0, streamPos := 0, posLimit := 0, streamEnd := false } }
  winReadBlock

/-- The byte moves of `WinMoveBlock` (R204), ascending. -/
def winMoveBytes (offset : Word) : Nat → Word → Eng Unit
  | 0, _ => pure ()
  | n + 1, i => do
    let b ← wbufRead (offset + i)
    wbufWrite i b
    winMoveBytes offset n (i + 1#32)

/-- The offset `WinMoveBlock` moves down by (R204). -/
def winMoveOffset (w : WinRegs) : Word :=
  let offset := w.bufOffset + w.pos - w.keepBefore
  if offset.toNat > 0 then offset - 1#32 else offset

/-- `WinMoveBlock()` (R204). -/
def winMoveBlock : Eng Unit := do
  let w ← look (·.win)
  let offset := winMoveOffset w
  winMoveBytes offset (w.bufOffset + w.streamPos - offset).toNat 0#32
  put fun s => { s with win := { s.win with bufOffset := s.win.bufOffset - offset } }

/-- `WinMovePos()` (R203). -/
def winMovePos : Eng Unit := do
  put fun s => { s with win := { s.win with pos := s.win.pos + 1 } }
  let w ← look (·.win)
  if w.pos.toNat > w.posLimit.toNat then do
    if (w.bufOffset + w.pos).toNat > w.lastSafe.toNat then winMoveBlock
    winReadBlock

/-- `WinReduceOffsets(sub)` (R205). -/
def winReduceOffsets (sub : Word) : Eng Unit := put fun s => { s with win := { s.win with
  bufOffset := s.win.bufOffset + sub
  posLimit := s.win.posLimit - sub
  pos := s.win.pos - sub
  streamPos := s.win.streamPos - sub } }

/-- The WBUF index of position `WIN.pos + i` (R200, R207). -/
def winIndex (w : WinRegs) (i : Word) : Word := w.bufOffset + w.pos + i

/-- `WinGetByte(i)` (R207). -/
def winGetByte (i : Word) : Eng Byte := do
  let w ← look (·.win)
  wbufRead (winIndex w i)

/-- The limit of `WinMatchLen` after the cap at the stream's end (R208); the sum is taken on u64 values. -/
def winMatchLimit (w : WinRegs) (q limit : Word) : Word :=
  if w.streamEnd ∧ q.toNat + limit.toNat > w.streamPos.toNat then
    (if q.toNat ≤ w.streamPos.toNat then w.streamPos - q else 0#32)
  else limit

/-- The comparisons of `WinMatchLen` (R208): at most `left` more, `n` bytes equal so far. -/
def winCompare (p d : Word) : Nat → Word → Eng Word
  | 0, n => pure n
  | left + 1, n => do
    let a ← wbufRead (p + n)
    let b ← wbufRead (p + n - d)
    if a = b then winCompare p d left (n + 1#32) else pure n

/-- `WinMatchLen(i, r, limit)` (R208). Each index is checked before its read (R104, R221). -/
def winMatchLen (i r limit : Word) : Eng Word := do
  let w ← look (·.win)
  let q := w.pos + i
  winCompare (w.bufOffset + q) (r + 1#32) (winMatchLimit w q limit).toNat 0#32

/-- `WinAvail()` (R209). -/
def winAvail : Eng Word := look fun s => s.win.streamPos - s.win.pos

/-! ## Commands -/

/-- The index check of WB_GETBYTE (R220). -/
def winIndexCheck (i : Word) : Eng Unit := fun s =>
  check (decide ((winIndex s.win i).toNat < s.win.blockSize.toNat)) .bounds s

/-- WB_GETBYTE (R220). -/
def execWbGetByte (s : State) : Host.Outcome State Fault Refusal :=
  command .wbGetByte .enc (do
    let i ← opA0
    winIndexCheck i
    let b ← winGetByte i
    setR0 (byteWord b)) s

/-- WB_MATCHLEN (R221). -/
def execWbMatchLen (s : State) : Host.Outcome State Fault Refusal :=
  command .wbMatchLen .enc (do
    let i ← opA0
    let r ← opA1
    let limit ← opA2
    let n ← winMatchLen i r limit
    setR0 n) s

/-- WB_AVAIL (R222). -/
def execWbAvail (s : State) : Host.Outcome State Fault Refusal :=
  command .wbAvail .enc (do
    let n ← winAvail
    setR0 n) s

end Sys2Proof.Machine
end

