-- ==== Sys2Proof/Machine/MatchFinder.lean ====
section
/-! DEFINITION. The binary-tree match finder (41_matchfinder.md). -/

namespace Sys2Proof.Machine

/-- The mask of the main 4-byte hash (R240). -/
def hashMaskOf (dictSize : Word) : Word :=
  let h0 := dictSize - 1#32
  let h1 := h0 ||| (h0 >>> 1)
  let h2 := h1 ||| (h1 >>> 2)
  let h3 := h2 ||| (h2 >>> 4)
  let h4 := h3 ||| (h3 >>> 8)
  let h5 := (h4 >>> 1) ||| 0xFFFF#32
  if h5.toNat > 2 ^ 24 then h5 >>> 1 else h5

/-- The MF registers `MfCreate` writes (R240, R241); cycPos and numPairs are `MfInit`'s. -/
def mfRegsOf (dictSize fastBytes : Word) (hashArray : Bool) (m : MfRegs) : MfRegs :=
  { m with
    matchMaxLen := fastBytes
    cutValue := 16#32 + (fastBytes >>> 1)
    cbs := dictSize + 1#32
    hashArray := hashArray
    hashMask := if hashArray then hashMaskOf dictSize else 0xFFFF#32
    hashSizeSum := if hashArray then hashMaskOf dictSize + 1#32 + 1024#32 + 65536#32 else 65536#32
    fixHashSize := if hashArray then 1024#32 + 65536#32 else 0#32
    numHashDirectBytes := if hashArray then 0#32 else 2#32
    minMatchCheck := if hashArray then 4#32 else 3#32 }

/-- `MfCreate()` (R240). -/
def mfCreate : Eng Unit := do
  let dict ← look (·.opts.dictSize)
  let fast ← look fun s => s.opts.fastBytes.setWidth 32
  let four ← look fun s => decide (s.opts.mfHash = 1#1)
  winCreate (dict + 4096#32) (fast + 274#32) (((dict + 4096#32 + fast + 274#32) >>> 1) + 256#32)
  put fun s =>
    let m := mfRegsOf dict fast four s.mf
    { s with
      mf := m
      son := Ram.alloc (2 * m.cbs.toNat)
      hash := Ram.alloc m.hashSizeSum.toNat
      matchBuf := Ram.alloc Config.matchesSize }

/-- `MfInit()` (R242). -/
def mfInit : Eng Unit := do
  winInit
  put fun s => { s with hash := s.hash.clear, mf := { s.mf with cycPos := 0 } }
  winReduceOffsets 0xFFFFFFFF#32
  put fun s => { s with mf := { s.mf with numPairs := 0 } }

/-- The hashes of R243 and R244: `h2` and `h3` are used with the 4-byte hash only. -/
structure Hashes where
  h2 : Word
  h3 : Word
  hv : Word
  deriving DecidableEq, Repr

/-- The three hashes of four bytes (R243). -/
def hash4 (mask : Word) (b0 b1 b2 b3 : Byte) : Hashes :=
  let t1 := crcTable b0 ^^^ byteWord b1
  let t2 := t1 ^^^ (byteWord b2 <<< 8)
  { h2 := t1 &&& 0x3FF#32, h3 := t2 &&& 0xFFFF#32, hv := (t2 ^^^ (crcTable b3 <<< 5)) &&& mask }

/-- The 2-byte hash (R244). -/
def hash2 (b0 b1 : Byte) : Hashes := { h2 := 0, h3 := 0, hv := byteWord b0 ^^^ (byteWord b1 <<< 8) }

/-- The hashes of the bytes at WBUF index `c` (R243, R244). -/
def mfHashAt (c : Word) : Eng Hashes := do
  let m ← look (·.mf)
  let b0 ← wbufRead c
  let b1 ← wbufRead (c + 1#32)
  if m.hashArray then do
    let b2 ← wbufRead (c + 2#32)
    let b3 ← wbufRead (c + 3#32)
    pure (hash4 m.hashMask b0 b1 b2 b3)
  else pure (hash2 b0 b1)

/-- `MfNormalize` on one stored position (R254). -/
def rebase (sub v : Word) : Word := if v.toNat ≤ sub.toNat then 0#32 else v - sub

/-- `MfNormalize()` (R254). -/
def mfNormalize : Eng Unit := do
  let sub ← look fun s => s.win.pos - s.mf.cbs
  put fun s => { s with son := s.son.mapElems (rebase sub), hash := s.hash.mapElems (rebase sub) }
  winReduceOffsets sub

/-- The cyclic slot after this one (R250). -/
def nextCycPos (m : MfRegs) : Word := if m.cbs.toNat ≤ (m.cycPos + 1#32).toNat then 0#32 else m.cycPos + 1#32

/-- `MfMovePos()` (R250). -/
def mfMovePos : Eng Unit := do
  put fun s => { s with mf := { s.mf with cycPos := nextCycPos s.mf } }
  winMovePos
  let pos ← look (·.win.pos)
  if pos = Config.maxValForNormalize then mfNormalize

/-- The length limit of a search (R245, R249): `none` when too few bytes are left to search. -/
def mfLenLimit (m : MfRegs) (w : WinRegs) : Option Word :=
  if (w.pos + m.matchMaxLen).toNat ≤ w.streamPos.toNat then some m.matchMaxLen
  else
    let left := w.streamPos - w.pos
    if left.toNat < m.minMatchCheck.toNat then none else some left

/-- matchMinPos (R245). -/
def mfMinPos (m : MfRegs) (w : WinRegs) : Word := if m.cbs.toNat < w.pos.toNat then w.pos - m.cbs else 0#32

/-- The SON index of a node `delta` positions back (R245, R251). -/
def mfNodeIndex (m : MfRegs) (delta : Word) : Word :=
  (if delta.toNat ≤ m.cycPos.toNat then m.cycPos - delta else m.cycPos - delta + m.cbs) <<< 1

/-- `while len ≠ lenLimit and WBUF[pby + len] = WBUF[c + len]: len <- len + 1` (R245); the first argument is
`lenLimit − len`. -/
def mfExtend (pby c : Word) : Nat → Word → Eng Word
  | 0, len => pure len
  | n + 1, len => do
    let a ← wbufRead (pby + len)
    let b ← wbufRead (c + len)
    if a = b then mfExtend pby c n (len + 1#32) else pure len

/-- A pair `(length, distance)` appended to MATCHES (R245). -/
def mfPutPair (off len dist : Word) : Eng Unit := do
  matchWrite off len
  matchWrite (off + 1#32) dist

/-- What one walk down the tree does not change (R245). -/
structure Walk where
  lenLimit : Word
  minPos   : Word
  c        : Word
  deriving DecidableEq, Repr

/-- Where a walk down the tree stands (R245): the candidate, the two SON slots still open and the lengths known to
match there, the longest match recorded and the MATCHES words written. -/
structure WalkPos where
  curMatch : Word
  ptr0     : Word
  ptr1     : Word
  len0     : Word
  len1     : Word
  maxLen   : Word
  off      : Word
  deriving DecidableEq, Repr

/-- The end of a walk: both open slots become empty (R245). -/
def mfCloseWalk (p : WalkPos) : Eng Unit := do
  sonWrite p.ptr0 0#32
  sonWrite p.ptr1 0#32

/-- The two subtrees of the node at `cp` take the open slots (R245). -/
def mfGraft (p : WalkPos) (cp : Word) : Eng Unit := do
  let a ← sonRead cp
  sonWrite p.ptr1 a
  let b ← sonRead (cp + 1#32)
  sonWrite p.ptr0 b

/-- The candidate takes an open slot and the walk goes on into one of its subtrees (R245). -/
def mfDescend (w : Walk) (p : WalkPos) (cp pby len : Word) : Eng WalkPos := do
  let a ← wbufRead (pby + len)
  let b ← wbufRead (w.c + len)
  if a.toNat < b.toNat then do
    sonWrite p.ptr1 p.curMatch
    let next ← sonRead (cp + 1#32)
    pure { p with ptr1 := cp + 1#32, curMatch := next, len1 := len }
  else do
    sonWrite p.ptr0 p.curMatch
    let next ← sonRead cp
    pure { p with ptr0 := cp, curMatch := next, len0 := len }

/-- The length of the candidate's match, and whether the byte at `min(len0, len1)` agreed (R245). -/
def mfCandidateLen (w : Walk) (p : WalkPos) (pby : Word) : Eng (Bool × Word) := do
  let len := minW p.len0 p.len1
  let a ← wbufRead (pby + len)
  let b ← wbufRead (w.c + len)
  if a = b then do
    let l ← mfExtend pby w.c (w.lenLimit - (len + 1#32)).toNat (len + 1#32)
    pure (true, l)
  else pure (false, len)

/-- The walk of `MfGetMatches` (R245); the first argument is `count`. Returns the MATCHES words written. -/
def mfWalkCollect (w : Walk) : Nat → WalkPos → Eng Word
  | 0, p => do
    mfCloseWalk p
    pure p.off
  | n + 1, p =>
    if p.curMatch.toNat ≤ w.minPos.toNat then do
      mfCloseWalk p
      pure p.off
    else do
      let delta ← look fun s => s.win.pos - p.curMatch
      let cp ← look fun s => mfNodeIndex s.mf delta
      let pby ← look fun s => s.win.bufOffset + p.curMatch
      let r ← mfCandidateLen w p pby
      if r.1 = true ∧ p.maxLen.toNat < r.2.toNat then do
        mfPutPair p.off r.2 (delta - 1#32)
        let q := { p with maxLen := r.2, off := p.off + 2#32 }
        if r.2 = w.lenLimit then do
          mfGraft q cp
          pure q.off
        else do
          let q' ← mfDescend w q cp pby r.2
          mfWalkCollect w n q'
      else do
        let q ← mfDescend w p cp pby r.2
        mfWalkCollect w n q

/-- The walk of `MfSkip` (R249); the first argument is `count`. -/
def mfWalkSkip (w : Walk) : Nat → WalkPos → Eng Unit
  | 0, p => mfCloseWalk p
  | n + 1, p =>
    if p.curMatch.toNat ≤ w.minPos.toNat then mfCloseWalk p
    else do
      let delta ← look fun s => s.win.pos - p.curMatch
      let cp ← look fun s => mfNodeIndex s.mf delta
      let pby ← look fun s => s.win.bufOffset + p.curMatch
      let r ← mfCandidateLen w p pby
      if r.1 = true ∧ r.2 = w.lenLimit then mfGraft p cp
      else do
        let q ← mfDescend w p cp pby r.2
        mfWalkSkip w n q

/-- Whether a hash head is a candidate: not too old, and its first byte equal (R245). -/
def mfHeadMatches (w : Walk) (head : Word) : Eng Bool :=
  if head.toNat ≤ w.minPos.toNat then pure false
  else do
    let off ← look (·.win.bufOffset)
    let a ← wbufRead (off + head)
    let b ← wbufRead w.c
    pure (a == b)

/-- The length-2 candidate of the 2-byte hash head (R245): MATCHES words written and longest length after it. -/
def mfHead2 (w : Walk) (head2 : Word) : Eng (Word × Word) := do
  let hit ← mfHeadMatches w head2
  if hit then do
    let pos ← look (·.win.pos)
    mfPutPair 0#32 2#32 (pos - head2 - 1#32)
    pure (2#32, 2#32)
  else pure (0#32, 1#32)

/-- The length-3 candidate of the 3-byte hash head, after the length-2 one (R245): MATCHES words written, longest
length, and the head that now stands for curMatch2. -/
def mfHead3 (w : Walk) (off maxLen head2 head3 : Word) : Eng (Word × Word × Word) := do
  let hit ← mfHeadMatches w head3
  if hit then do
    let pos ← look (·.win.pos)
    let off' := if head3 = head2 then off - 2#32 else off
    mfPutPair off' 3#32 (pos - head3 - 1#32)
    pure (off' + 2#32, 3#32, head3)
  else pure (off, maxLen, head2)

/-- The candidates of the short hashes, with the 4-byte hash (R245): MATCHES words written and longest length. -/
def mfShortHeads (w : Walk) (h : Hashes) (curMatch : Word) : Eng (Word × Word) := do
  let pos ← look (·.win.pos)
  let head2 ← hashRead h.h2
  let head3 ← hashRead (1024#32 + h.h3)
  hashWrite h.h2 pos
  hashWrite (1024#32 + h.h3) pos
  let r2 ← mfHead2 w head2
  let r3 ← mfHead3 w r2.1 r2.2 head2 head3
  if r3.1 ≠ 0#32 ∧ r3.2.2 = curMatch then pure (r3.1 - 2#32, 1#32) else pure (r3.1, r3.2.1)

/-- The length-2 candidate of the bucket head, with the 2-byte hash (R245, R248). -/
def mfDirectHead (w : Walk) (curMatch off maxLen : Word) : Eng (Word × Word) := do
  let direct ← look (·.mf.numHashDirectBytes)
  if direct ≠ 0#32 ∧ w.minPos.toNat < curMatch.toNat then do
    let base ← look (·.win.bufOffset)
    let a ← wbufRead (base + curMatch + 2#32)
    let b ← wbufRead (w.c + 2#32)
    if a ≠ b then do
      let pos ← look (·.win.pos)
      mfPutPair off 2#32 (pos - curMatch - 1#32)
      pure (off + 2#32, 2#32)
    else pure (off, maxLen)
  else pure (off, maxLen)

/-- The first two open slots of a walk: the new node's own (R245). -/
def mfWalkStart (m : MfRegs) (curMatch maxLen off : Word) : WalkPos :=
  { curMatch := curMatch, ptr0 := (m.cycPos <<< 1) + 1#32, ptr1 := m.cycPos <<< 1,
    len0 := m.numHashDirectBytes, len1 := m.numHashDirectBytes, maxLen := maxLen, off := off }

/-- The search part of `MfGetMatches` (R245), for a given length limit. -/
def mfSearch (lenLimit : Word) : Eng Word := do
  let m ← look (·.mf)
  let win ← look (·.win)
  let w : Walk := { lenLimit := lenLimit, minPos := mfMinPos m win, c := win.bufOffset + win.pos }
  let h ← mfHashAt w.c
  let curMatch ← hashRead (m.fixHashSize + h.hv)
  let r ← if m.hashArray then mfShortHeads w h curMatch else pure (0#32, 1#32)
  hashWrite (m.fixHashSize + h.hv) win.pos
  let r' ← mfDirectHead w curMatch r.1 r.2
  mfWalkCollect w m.cutValue.toNat (mfWalkStart m curMatch r'.2 r'.1)

/-- `MfGetMatches()` (R245, R252). -/
def mfGetMatches : Eng Word := do
  let limit ← look fun s => mfLenLimit s.mf s.win
  match limit with
  | none => do
    mfMovePos
    put fun s => { s with mf := { s.mf with numPairs := 0 } }
    pure 0#32
  | some lenLimit => do
    let off ← mfSearch lenLimit
    mfMovePos
    put fun s => { s with mf := { s.mf with numPairs := off } }
    pure off

/-- The insertion part of one `MfSkip` step (R249), for a given length limit. -/
def mfInsert (lenLimit : Word) : Eng Unit := do
  let m ← look (·.mf)
  let win ← look (·.win)
  let w : Walk := { lenLimit := lenLimit, minPos := mfMinPos m win, c := win.bufOffset + win.pos }
  let h ← mfHashAt w.c
  if m.hashArray then do
    hashWrite h.h2 win.pos
    hashWrite (1024#32 + h.h3) win.pos
  let curMatch ← hashRead (m.fixHashSize + h.hv)
  hashWrite (m.fixHashSize + h.hv) win.pos
  mfWalkSkip w m.cutValue.toNat (mfWalkStart m curMatch 0#32 0#32)

/-- One step of `MfSkip` (R249). -/
def mfSkipOne : Eng Unit := do
  let limit ← look fun s => mfLenLimit s.mf s.win
  match limit with
  | none => mfMovePos
  | some lenLimit => do
    mfInsert lenLimit
    mfMovePos

/-- `MfSkip(num)` (R249). -/
def mfSkip : Nat → Eng Unit
  | 0 => pure ()
  | n + 1 => do
    mfSkipOne
    mfSkip n

/-! ## Commands -/

/-- MF_GETMATCHES (R260). -/
def execMfGetMatches (s : State) : Host.Outcome State Fault Refusal :=
  command .mfGetMatches .enc (do
    let n ← mfGetMatches
    setR0 n
    let longest ← if n = 0#32 then pure 0#32 else matchRead (n - 2#32)
    setR1 longest) s

/-- MF_SKIP (R261). -/
def execMfSkip (s : State) : Host.Outcome State Fault Refusal :=
  command .mfSkip .enc (do
    let n ← opA0
    mfSkip n.toNat) s

/-- MF_MOVEPOS (R262). -/
def execMfMovePos (s : State) : Host.Outcome State Fault Refusal :=
  command .mfMovePos .enc mfMovePos s

/-- The index checks of MF_HASH (R263): every byte the hash reads lies below WIN.blockSize. -/
def mfHashCheck : Eng Unit := fun s =>
  let c := s.win.bufOffset + s.win.pos
  let inside (k : Word) : Bool := decide ((c + k).toNat < s.win.blockSize.toNat)
  check (inside 0#32 && inside 1#32 && (!s.mf.hashArray || (inside 2#32 && inside 3#32))) .bounds s

/-- MF_HASH (R263). -/
def execMfHash (s : State) : Host.Outcome State Fault Refusal :=
  command .mfHash .enc (do
    mfHashCheck
    let c ← look fun s => s.win.bufOffset + s.win.pos
    let four ← look (·.mf.hashArray)
    let h ← mfHashAt c
    setR0 h.hv
    setR1 (if four then (h.h3 <<< 16) ||| h.h2 else 0#32)) s

end Sys2Proof.Machine
end

