-- ==== Sys2Proof/Machine/Prices.lean ====
section
/-! DEFINITION. The price tables of the parser and their commands (45_parser.md section 5, R451 to R456). -/

namespace Sys2Proof.Machine

/-- Index `(lps << 6) + slot` of POS_SLOT_PRICES (R57). -/
def posSlotPriceIdx (lps slot : Word) : Word := (lps <<< 6) + slot

/-- Index `lps × 128 + dist` of DIST_PRICES (R57). -/
def distPriceIdx (lps dist : Word) : Word := lps * 128#32 + dist

/-- Index `ps × 272 + sym` of LEN_PRICES (R57). -/
def lenPriceIdx (ps sym : Word) : Word := ps * 272#32 + sym

/-- `body i` for `i = lo, lo + 1, …`, `n` turns. -/
def forUp (body : Word → Eng Unit) : Nat → Word → Eng Unit
  | 0, _ => pure ()
  | n + 1, i => do
    body i
    forUp body n (i + 1#32)

/-- `tmp[i]` of R440: the price of the low bits of a distance 4..127. -/
def specPosPrice (i : Word) : Eng Word :=
  let slot := posSlotOf i
  btReversePrice (specPosTree slot) (footerBits slot) (i - slotBase slot)

/-- The scratch array `tmp` of R440: the prices for `i = lo, lo + 1, …`, `n` of them. -/
def specPosPrices : Nat → Word → Eng (List Word)
  | 0, _ => pure []
  | n + 1, i => do
    let c ← specPosPrice i
    let rest ← specPosPrices n (i + 1#32)
    pure (c :: rest)

/-- POS_SLOT_PRICES of one length class, the bare slot prices (R440). -/
def fillSlot (lps slot : Word) : Eng Unit := do
  let c ← btPrice (432#32 + 64#32 * lps) 6 slot
  posSlotPriceWrite (posSlotPriceIdx lps slot) c

/-- The direct bits of a slot ≥ 14 added, 64 each (R440). -/
def fillSlotDirect (lps slot : Word) : Eng Unit := do
  let c ← posSlotPriceRead (posSlotPriceIdx lps slot)
  posSlotPriceWrite (posSlotPriceIdx lps slot) (c + (BitVec.ofNat 32 (footerBits slot - 4) <<< 6))

/-- DIST_PRICES of the distances 0..3 (R440). -/
def fillDistNear (lps i : Word) : Eng Unit := do
  let c ← posSlotPriceRead (posSlotPriceIdx lps i)
  distPriceWrite (distPriceIdx lps i) c

/-- DIST_PRICES of the distances `i, i + 1, …` with their low-bit prices (R440). -/
def fillDistFar (lps : Word) : List Word → Word → Eng Unit
  | [], _ => pure ()
  | c :: rest, i => do
    let base ← posSlotPriceRead (posSlotPriceIdx lps (posSlotOf i))
    distPriceWrite (distPriceIdx lps i) (base + c)
    fillDistFar lps rest (i + 1#32)

/-- The turn of R440's loop over the length classes. -/
def fillClass (tmp : List Word) (lps : Word) : Eng Unit := do
  let slots ← look (·.enc.distTableSize)
  forUp (fillSlot lps) slots.toNat 0#32
  forUp (fillSlotDirect lps) (slots.toNat - 14) 14#32
  forUp (fillDistNear lps) 4 0#32
  fillDistFar lps tmp 4#32

/-- `FillDistancesPrices()` (R440). -/
def fillDistancesPrices : Eng Unit := do
  let tmp ← specPosPrices 124 4#32
  forUp (fillClass tmp) 4 0#32
  put fun s => { s with enc := { s.enc with matchPriceCount := 0 } }

/-- ALIGN_PRICES[i] (R441). -/
def fillAlign (i : Word) : Eng Unit := do
  let c ← btReversePrice alignTree 4 i
  alignPriceWrite i c

/-- `FillAlignPrices()` (R441). -/
def fillAlignPrices : Eng Unit := do
  forUp fillAlign 16 0#32
  put fun s => { s with enc := { s.enc with alignPriceCount := 0 } }

/-- LEN_PRICES[k][ps × 272 + i] (R442). -/
def fillLen (k : Bool) (ps i : Word) : Eng Unit := do
  let c ← lenPrice (lenCoder k) i ps
  lenPriceWrite k (lenPriceIdx ps i) c

/-- `UpdateLenTable(k, ps)` (R442). -/
def updateLenTable (k : Bool) (ps : Word) : Eng Unit := do
  let n ← look (·.enc.lenTableSize)
  forUp (fillLen k ps) n.toNat 0#32
  lenCounterWrite k ps n

/-- `LenCountDown(k, ps)` (R443). -/
def lenCountDown (k : Bool) (ps : Word) : Eng Unit := do
  let n ← lenCounterRead k ps
  lenCounterWrite k ps (n - 1#32)
  if n - 1#32 = 0#32 then updateLenTable k ps

/-- `ShortRepPrice(s, ps)` (R444). -/
def shortRepPrice (s : CState) (ps : Word) : Eng Word := do
  let c ← nodePrice (isRepG0Idx s) false
  let long ← isRep0LongIdx s ps
  let c2 ← nodePrice long false
  pure (c + c2)

/-- `PureRepPrice(i, s, ps)` (R444). -/
def pureRepPrice (i : Word) (s : CState) (ps : Word) : Eng Word :=
  if i = 0#32 then do
    let c ← nodePrice (isRepG0Idx s) false
    let long ← isRep0LongIdx s ps
    let c2 ← nodePrice long true
    pure (c + c2)
  else if i = 1#32 then do
    let c ← nodePrice (isRepG0Idx s) true
    let c2 ← nodePrice (isRepG1Idx s) false
    pure (c + c2)
  else do
    let c ← nodePrice (isRepG0Idx s) true
    let c2 ← nodePrice (isRepG1Idx s) true
    let c3 ← nodePrice (isRepG2Idx s) (i != 2#32)
    pure (c + c2 + c3)

/-- `RepPrice(i, len, s, ps)` (R445). -/
def repPrice (i len : Word) (s : CState) (ps : Word) : Eng Word := do
  let c ← lenPriceRead true (lenPriceIdx ps (len - 2#32))
  let p ← pureRepPrice i s ps
  pure (c + p)

/-- The distance part of `PosLenPrice` (R445). -/
def distPrice (d lps : Word) : Eng Word :=
  if d.toNat < 128 then distPriceRead (distPriceIdx lps d)
  else do
    let c ← posSlotPriceRead (posSlotPriceIdx lps (posSlotOf d))
    let a ← alignPriceRead (d &&& 15#32)
    pure (c + a)

/-- `PosLenPrice(d, len, ps)` (R445). -/
def posLenPrice (d len ps : Word) : Eng Word := do
  let p ← distPrice d (lenToPosState len)
  let l ← lenPriceRead false (lenPriceIdx ps (len - 2#32))
  pure (p + l)

/-! ## Commands -/

/-- PRICE_FILL_DIST (R451). -/
def execPriceFillDist (s : State) : Host.Outcome State Fault Refusal :=
  command .priceFillDist .enc fillDistancesPrices s

/-- PRICE_FILL_ALIGN (R452). -/
def execPriceFillAlign (s : State) : Host.Outcome State Fault Refusal :=
  command .priceFillAlign .enc fillAlignPrices s

/-- PRICE_LEN_TABLE (R453). -/
def execPriceLenTable (sel : Bool) (s : State) : Host.Outcome State Fault Refusal :=
  command (.priceLenTable sel) .enc (do
    let ps ← opA0
    psCheck ps
    updateLenTable sel ps) s

/-- PRICE_POSLEN (R454). -/
def execPricePosLen (s : State) : Host.Outcome State Fault Refusal :=
  command .pricePosLen .enc (do
    let d ← opA0
    let len ← opA1
    let ps ← opA2
    lenCheck len
    psCheck ps
    let c ← posLenPrice d len ps
    setR0 c) s

/-- PRICE_REP (R455). -/
def execPriceRep (s : State) : Host.Outcome State Fault Refusal :=
  command .priceRep .enc (do
    let i ← opA0
    let len ← opA1
    let st ← opA2
    let ps ← opA3
    repIndexCheck i
    lenCheck len
    stateCheck st
    psCheck ps
    let c ← repPrice i len (st.setWidth 4) ps
    setR0 c) s

/-- PRICE_SHORTREP (R456). -/
def execPriceShortRep (s : State) : Host.Outcome State Fault Refusal :=
  command .priceShortRep .enc (do
    let st ← opA0
    let ps ← opA1
    stateCheck st
    psCheck ps
    let c ← shortRepPrice (st.setWidth 4) ps
    setR0 c) s

end Sys2Proof.Machine
end

