-- ==== Sys2Proof/Machine/Parser.lean ====
section
/-! DEFINITION. The optimal parser (45_parser.md sections 1 to 4, R450). Names in lower case are the scratch values of
one GetOptimum call; they are arguments here, not state. -/

namespace Sys2Proof.Machine

/-- The back code of a literal (R388). -/
def literalBack : Word := Config.allOnes

/-! ## Reading the match finder -/

/-- The match extension beyond FAST_BYTES (R410). -/
def extendMatch (lenRes numPairs : Word) : Eng Word := do
  let maxLen ← look (·.mf.matchMaxLen)
  let extend ← look fun s => decide (s.opts.extendFast = 1#1)
  if lenRes = maxLen ∧ extend = true then do
    let d ← matchRead (numPairs - 1#32)
    let more ← winMatchLen (lenRes - 1#32) d (Config.matchMaxLen - lenRes)
    pure (lenRes + more)
  else pure lenRes

/-- `ReadMatchDistances()` (R411): the longest length and numPairs. -/
def readMatchDistances : Eng (Word × Word) := do
  let numPairs ← mfGetMatches
  let lenRes ← if numPairs = 0#32 then pure 0#32 else (do
    let l ← matchRead (numPairs - 2#32)
    extendMatch l numPairs)
  put fun s => { s with enc := { s.enc with addOffset := s.enc.addOffset + 1 } }
  pure (lenRes, numPairs)

/-- `EncMovePos(n)` (R412). -/
def encMovePos (n : Word) : Eng Unit := do
  if n ≠ 0#32 then do
    mfSkip n.toNat
    put fun s => { s with enc := { s.enc with addOffset := s.enc.addOffset + n } }

/-! ## Optimal records (R413) -/

/-- A change of OPT[k]. -/
def optModify (k : Word) (f : OptRec → OptRec) : Eng Unit := do
  let r ← optRead k
  optWrite k (f r)

/-- `MakeAsChar` (R413). -/
def OptRec.makeAsChar (r : OptRec) : OptRec := { r with backPrev := literalBack, prev1IsChar := false }

/-- `MakeAsShortRep` (R413). -/
def OptRec.makeAsShortRep (r : OptRec) : OptRec := { r with backPrev := 0#32, prev1IsChar := false }

/-- `IsShortRep` (R413). -/
def OptRec.isShortRep (r : OptRec) : Bool := decide (r.backPrev = 0#32)

/-- `SetEdge` (R413). -/
def OptRec.setEdge (r : OptRec) (price src back : Word) : OptRec :=
  { r with price := price, posPrev := src, backPrev := back, prev1IsChar := false }

/-- `SetEdge3` (R413): a symbol, then a literal, then a rep0. -/
def OptRec.setEdge3 (r : OptRec) (price mid src2 back2 : Word) : OptRec :=
  { r with price := price, posPrev := mid, backPrev := 0#32, prev1IsChar := true, prev2 := true, posPrev2 := src2,
           backPrev2 := back2 }

/-- A literal, then a rep0 (R423). -/
def OptRec.setLitRep0 (r : OptRec) (price mid : Word) : OptRec :=
  { r with price := price, posPrev := mid, backPrev := 0#32, prev1IsChar := true, prev2 := false }

/-- `if c < OPT[k].price:` the record is replaced. -/
def relax (k c : Word) (f : OptRec → OptRec) : Eng Unit := do
  let r ← optRead k
  if c.toNat < r.price.toNat then optWrite k (f r)

/-- The turns of `Extend` (R413). -/
def extendTurns : Nat → Word → Eng Unit
  | 0, _ => pure ()
  | n + 1, lenEnd => do
    optModify (lenEnd + 1#32) fun r => { r with price := Config.infinityPrice }
    extendTurns n (lenEnd + 1#32)

/-- `Extend(k)` (R413); returns the new lenEnd. -/
def extendTo (lenEnd k : Word) : Eng Word := do
  extendTurns (k.toNat - lenEnd.toNat) lenEnd
  pure (maxW lenEnd k)

/-! ## Backward (R424) -/

/-- The two records `Backward` rewrites when a record stands for two or three symbols. -/
def expandRecord (r : OptRec) (posMem : Word) : Eng Unit := do
  if r.prev1IsChar then do
    optModify posMem fun m => { m.makeAsChar with posPrev := posMem - 1#32 }
    if r.prev2 then
      optModify (posMem - 1#32) fun m =>
        { m with prev1IsChar := false, posPrev := r.posPrev2, backPrev := r.backPrev2 }

/-- The loop of `Backward` (R424). The links a pass leaves lead to lower and lower indices, so it visits a record at most
once. On links that no pass leaves the spec's loop may have no end; the model's count then ends it with BOUNDS (DESIGN
CHOICE, log entry 4). -/
def backwardLoop : Nat → Word → Word → Word → Eng Unit
  | 0, _, _, _ => raise .bounds
  | n + 1, cur, posMem, backMem => do
    let r ← optRead cur
    expandRecord r posMem
    let m ← optRead posMem
    optWrite posMem { m with backPrev := backMem, posPrev := cur }
    if posMem = 0#32 then pure () else backwardLoop n posMem m.posPrev m.backPrev

/-- `Backward(cur)` (R424): the first decision of the list. -/
def backward (cur : Word) : Eng (Word × Word) := do
  put fun s => { s with enc := { s.enc with optEnd := cur } }
  let r ← optRead cur
  backwardLoop Config.loopBudget cur r.posPrev r.backPrev
  let first ← optRead 0#32
  put fun s => { s with enc := { s.enc with optCur := first.posPrev } }
  pure (first.posPrev, first.backPrev)

/-! ## Edges from position 0 of a pass (R420, R421) -/

/-- The index of the longest of four lengths, the first of equal ones (R420). -/
def longestRep (l : Reps) : Nat :=
  let m1 := if (l.get 0).toNat < (l.get 1).toNat then 1 else 0
  let m2 := if (l.get m1).toNat < (l.get 2).toNat then 2 else m1
  if (l.get m2).toNat < (l.get 3).toNat then 3 else m2

/-- The four rep lengths at the pass's first position (R420). -/
def repLengths (reps : Reps) : Eng Reps := do
  let l0 ← winMatchLen Config.allOnes reps.d0 Config.matchMaxLen
  let l1 ← winMatchLen Config.allOnes reps.d1 Config.matchMaxLen
  let l2 ← winMatchLen Config.allOnes reps.d2 Config.matchMaxLen
  let l3 ← winMatchLen Config.allOnes reps.d3 Config.matchMaxLen
  pure { d0 := l0, d1 := l1, d2 := l2, d3 := l3 }

/-- `for l in lenEnd downto 2: OPT[l].price <- INF`, the first argument the turns left. -/
def infinityFrom : Nat → Word → Eng Unit
  | 0, _ => pure ()
  | n + 1, l => do
    optModify l fun r => { r with price := Config.infinityPrice }
    infinityFrom n (l - 1#32)

/-- The rep edges of one rep index, `for l in repLens[i] downto 2` (R421). -/
def repEdges (price ps back : Word) : Nat → Word → Eng Unit
  | 0, _ => pure ()
  | n + 1, l => do
    let c ← lenPriceRead true (lenPriceIdx ps (l - 2#32))
    relax l (price + c) fun r => r.setEdge (price + c) 0#32 back
    repEdges price ps back n (l - 1#32)

/-- The rep edges of rep index `i` from position 0 (R421). -/
def repEdgesOf (repMatchPrice ps : Word) (st : CState) (lens : Reps) (i : Nat) : Eng Unit := do
  if 2 ≤ (lens.get i).toNat then do
    let p ← pureRepPrice (BitVec.ofNat 32 i) st ps
    repEdges (repMatchPrice + p) ps (BitVec.ofNat 32 i) ((lens.get i).toNat - 1) (lens.get i)

/-- `while l > MATCHES[offs]: offs <- offs + 2`. One turn a pair of MATCHES: the read after the last pair is past its end
and faults BOUNDS (R104). -/
def skipPairs (l : Word) : Nat → Word → Eng Word
  | 0, _ => raise .bounds
  | n + 1, offs => do
    let m ← matchRead offs
    if m.toNat < l.toNat then skipPairs l n (offs + 2#32) else pure offs

/-- The pairs of MATCHES (R100). -/
def pairTurns : Nat := Config.matchesSize / 2

/-- The match edges from position 0 (R421). One turn a record of OPT: each reads a further one, and the read past OPT's end
faults BOUNDS (R104). -/
def matchEdges (normalMatchPrice numPairs ps : Word) : Nat → Word → Word → Eng Unit
  | 0, _, _ => raise .bounds
  | n + 1, l, offs => do
    let d ← matchRead (offs + 1#32)
    let p ← posLenPrice d l ps
    relax l (normalMatchPrice + p) fun r => r.setEdge (normalMatchPrice + p) 0#32 (d + 4#32)
    let m ← matchRead offs
    if l = m then
      if offs + 2#32 = numPairs then pure () else matchEdges normalMatchPrice numPairs ps n (l + 1#32) (offs + 2#32)
    else matchEdges normalMatchPrice numPairs ps n (l + 1#32) offs

/-- The records of OPT (R413). -/
def optTurns : Nat := Config.optSize

/-- The price of the literal at a position, its IsMatch bit included (R421, R423). -/
def literalPrice (st : CState) (ps position : Word) (prev matchByte curByte : Byte) : Eng Word := do
  let i ← isMatchIdx st ps
  let c ← nodePrice i false
  let lb ← litBase position prev
  let l ← litPrice lb (!isCharState st) matchByte curByte
  pure (c + l)

/-- The price of an IsMatch bit (R421). -/
def isMatchPrice (st : CState) (ps : Word) (b : Bool) : Eng Word := do
  let i ← isMatchIdx st ps
  nodePrice i b

/-! ## The forward pass (R422, R423) -/

/-- The state and the rep distances at `cur`, from the edge that reached it (R422). -/
def arrive (cur : Word) : Eng (CState × Reps) := do
  let r ← optRead cur
  let posPrev := if r.prev1IsChar then r.posPrev - 1#32 else r.posPrev
  let st ← if r.prev1IsChar then
      (if r.prev2 then do
        let o ← optRead r.posPrev2
        pure (onChar (if r.backPrev2.toNat < 4 then onRep o.state else onMatch o.state))
      else do
        let o ← optRead posPrev
        pure (onChar o.state))
    else (do
      let o ← optRead posPrev
      pure o.state)
  if posPrev = cur - 1#32 then do
    let o ← optRead (cur - 1#32)
    pure (if r.isShortRep then onShortRep st else onChar st, o.backs)
  else do
    let three := r.prev1IsChar && r.prev2
    let src := if three then r.posPrev2 else posPrev
    let pos := if three then r.backPrev2 else r.backPrev
    let st' := if three then onRep st else if pos.toNat < 4 then onRep st else onMatch st
    let o ← optRead src
    pure (st', if pos.toNat < 4 then o.backs.use pos.toNat else o.backs.push (pos - 4#32))

/-- What the edges from one position are priced with (R423). -/
structure Node where
  cur           : Word
  position      : Word
  st            : CState
  reps          : Reps
  ps            : Word
  curByte       : Byte
  matchByte     : Byte
  curAnd1Price  : Word
  matchPrice    : Word
  repMatchPrice : Word
  availFull     : Word
  avail         : Word
  deriving DecidableEq, Repr

/-- The prices and bytes at `cur` (R423). -/
def nodeAt (cur position : Word) (st : CState) (reps : Reps) : Eng Node := do
  let r ← optRead cur
  let curByte ← winGetByte Config.allOnes
  let matchByte ← winGetByte (0#32 - reps.d0 - 2#32)
  let ps ← posStateOf position
  let prev ← winGetByte (0#32 - 2#32)
  let lit ← literalPrice st ps position prev matchByte curByte
  let m ← isMatchPrice st ps true
  let rp ← nodePrice (isRepIdx st) true
  let left ← winAvail
  let maxLen ← look (·.mf.matchMaxLen)
  let availFull := minW (4095#32 - cur) (left + 1#32)
  pure { cur := cur, position := position, st := st, reps := reps, ps := ps, curByte := curByte, matchByte := matchByte,
         curAnd1Price := r.price + lit, matchPrice := r.price + m, repMatchPrice := r.price + m + rp,
         availFull := availFull, avail := minW availFull maxLen }

/-- The literal edge (R423): whether it was taken. -/
def literalEdge (nd : Node) : Eng Bool := do
  let o ← optRead (nd.cur + 1#32)
  if nd.curAnd1Price.toNat < o.price.toNat then do
    optWrite (nd.cur + 1#32) { o.makeAsChar with price := nd.curAnd1Price, posPrev := nd.cur }
    pure true
  else pure false

/-- The short-rep edge (R423): whether it was taken. Its comparison is `≤`. -/
def shortRepEdge (nd : Node) : Eng Bool := do
  let o ← optRead (nd.cur + 1#32)
  if nd.matchByte = nd.curByte ∧ ¬ (o.posPrev.toNat < nd.cur.toNat ∧ o.backPrev = 0#32) then do
    let c ← shortRepPrice nd.st nd.ps
    let p := nd.repMatchPrice + c
    if p.toNat ≤ o.price.toNat then do
      optWrite (nd.cur + 1#32) { o.makeAsShortRep with price := p, posPrev := nd.cur }
      pure true
    else pure false
  else pure false

/-- The price of an IsMatch 1 and an IsRep 1 in a state. -/
def repStartPrice (st : CState) (ps : Word) : Eng Word := do
  let m ← isMatchPrice st ps true
  let r ← nodePrice (isRepIdx st) true
  pure (m + r)

/-- The edge of a literal and then a rep0 (R423); returns the new lenEnd. -/
def litRep0Edge (nd : Node) (lenEnd : Word) : Eng Word := do
  let maxLen ← look (·.mf.matchMaxLen)
  let n ← winMatchLen 0#32 nd.reps.d0 (minW (nd.availFull - 1#32) maxLen)
  if 2 ≤ n.toNat then do
    let st2 := onChar nd.st
    let psNext ← posStateOf (nd.position + 1#32)
    let start ← repStartPrice st2 psNext
    let offset := nd.cur + 1#32 + n
    let lenEnd' ← extendTo lenEnd offset
    let rp ← repPrice 0#32 n st2 psNext
    let c := nd.curAnd1Price + start + rp
    relax offset c fun r => r.setLitRep0 c (nd.cur + 1#32)
    pure lenEnd'
  else pure lenEnd

/-- The edge of a symbol of length `len` at distance `d`, then a literal, then a rep0 (R423): `price` is the price with
the symbol, `st2` the state after it, `back` its back code. Returns the new lenEnd. -/
def tripleEdge (nd : Node) (lenEnd : Word) (st2 : CState) (price len d back : Word) : Eng Word := do
  if len.toNat < nd.availFull.toNat then do
    let maxLen ← look (·.mf.matchMaxLen)
    let n ← winMatchLen len d (minW (nd.availFull - 1#32 - len) maxLen)
    if 2 ≤ n.toNat then do
      let psLit ← posStateOf (nd.position + len)
      let i ← isMatchIdx st2 psLit
      let c1 ← nodePrice i false
      let prev ← winGetByte (len - 2#32)
      let lb ← litBase (nd.position + len) prev
      let mb ← winGetByte (len - 1#32 - (d + 1#32))
      let sym ← winGetByte (len - 1#32)
      let c2 ← litPrice lb true mb sym
      let st3 := onChar st2
      let psNext ← posStateOf (nd.position + len + 1#32)
      let start ← repStartPrice st3 psNext
      let offset := nd.cur + (len + 1#32 + n)
      let lenEnd' ← extendTo lenEnd offset
      let rp ← repPrice 0#32 n st3 psNext
      let c := price + c1 + c2 + start + rp
      relax offset c fun r => r.setEdge3 c (nd.cur + len + 1#32) nd.cur back
      pure lenEnd'
    else pure lenEnd
  else pure lenEnd

/-- The edges of one rep index at `cur`, `for l in lenTest downto 2` (R423); returns the new lenEnd. -/
def repEdgesAt (nd : Node) (ri : Word) : Nat → Word → Word → Eng Word
  | 0, _, lenEnd => pure lenEnd
  | n + 1, l, lenEnd => do
    let lenEnd' ← extendTo lenEnd (nd.cur + l)
    let rp ← repPrice ri l nd.st nd.ps
    let c := nd.repMatchPrice + rp
    relax (nd.cur + l) c fun r => r.setEdge c nd.cur ri
    repEdgesAt nd ri n (l - 1#32) lenEnd'

/-- The rep edges at `cur` of rep index `ri`, and rep + literal + rep0 (R423); returns lenEnd and startLen. -/
def repTurn (nd : Node) (ri : Nat) (lenEnd startLen : Word) : Eng (Word × Word) := do
  let d := nd.reps.get ri
  let len ← winMatchLen Config.allOnes d nd.avail
  if 2 ≤ len.toNat then do
    let lenEnd1 ← repEdgesAt nd (BitVec.ofNat 32 ri) (len.toNat - 1) len lenEnd
    let rp ← repPrice (BitVec.ofNat 32 ri) len nd.st nd.ps
    let lenEnd2 ← tripleEdge nd lenEnd1 (onRep nd.st) (nd.repMatchPrice + rp) len d (BitVec.ofNat 32 ri)
    pure (lenEnd2, if ri = 0 then len + 1#32 else startLen)
  else pure (lenEnd, startLen)

/-- All four rep indices at `cur` (R423); returns lenEnd and startLen. -/
def repTurns (nd : Node) (lenEnd : Word) : Eng (Word × Word) := do
  let r0 ← repTurn nd 0 lenEnd 2#32
  let r1 ← repTurn nd 1 r0.1 r0.2
  let r2 ← repTurn nd 2 r1.1 r1.2
  repTurn nd 3 r2.1 r2.2

/-- The clip of the match list to the bytes available (R416, R423): the longest length and numPairs after it. -/
def clipMatches (newLen numPairs avail : Word) : Eng (Word × Word) := do
  if avail.toNat < newLen.toNat then do
    let offs ← skipPairs avail pairTurns 0#32
    matchWrite offs avail
    pure (avail, offs + 2#32)
  else pure (newLen, numPairs)

/-- The match edges at `cur`, and match + literal + rep0 (R423); returns the new lenEnd. One turn a record of OPT, as in
`matchEdges`. -/
def matchEdgesAt (nd : Node) (normalMatchPrice numPairs : Word) : Nat → Word → Word → Word → Eng Word
  | 0, _, _, _ => raise .bounds
  | n + 1, len, offs, lenEnd => do
    let d ← matchRead (offs + 1#32)
    let p ← posLenPrice d len nd.ps
    let c := normalMatchPrice + p
    relax (nd.cur + len) c fun r => r.setEdge c nd.cur (d + 4#32)
    let m ← matchRead offs
    if len = m then do
      let lenEnd' ← tripleEdge nd lenEnd (onMatch nd.st) c len d (d + 4#32)
      if offs + 2#32 = numPairs then pure lenEnd'
      else matchEdgesAt nd normalMatchPrice numPairs n (len + 1#32) (offs + 2#32) lenEnd'
    else matchEdgesAt nd normalMatchPrice numPairs n (len + 1#32) offs lenEnd

/-- The matches at `cur` (R423); returns the new lenEnd. -/
def matchTurn (nd : Node) (newLen numPairs startLen lenEnd : Word) : Eng Word := do
  let r ← clipMatches newLen numPairs nd.avail
  if startLen.toNat ≤ r.1.toNat then do
    let rp ← nodePrice (isRepIdx nd.st) false
    let lenEnd' ← extendTo lenEnd (nd.cur + r.1)
    let offs ← skipPairs startLen pairTurns 0#32
    matchEdgesAt nd (nd.matchPrice + rp) r.2 optTurns startLen offs lenEnd'
  else pure lenEnd

/-- The edges from `cur` (R423); returns the new lenEnd. -/
def edgesFrom (nd : Node) (newLen numPairs lenEnd : Word) : Eng Word := do
  let lit ← literalEdge nd
  let short ← shortRepEdge nd
  if nd.availFull.toNat < 2 then pure lenEnd
  else do
    let lenEnd1 ← if !(lit || short) ∧ nd.matchByte ≠ nd.curByte then litRep0Edge nd lenEnd else pure lenEnd
    let r ← repTurns nd lenEnd1
    matchTurn nd newLen numPairs r.2 r.1

/-- The forward pass (R422). One turn a record of OPT: each reads a further one, and the read past OPT's end faults BOUNDS
(R104). -/
def forwardPass : Nat → Word → Word → Word → Eng (Word × Word)
  | 0, _, _, _ => raise .bounds
  | n + 1, last, lenEnd, position => do
    let cur := last + 1#32
    if cur = lenEnd then backward cur
    else do
      let found ← readMatchDistances
      let maxLen ← look (·.mf.matchMaxLen)
      if maxLen.toNat ≤ found.1.toNat then do
        put fun s => { s with enc := { s.enc with
          longestPairs := found.2, longestLen := found.1, longestFound := true } }
        backward cur
      else do
        let at' ← arrive cur
        optModify cur fun r => { r with state := at'.1, backs := at'.2 }
        let nd ← nodeAt cur (position + 1#32) at'.1 at'.2
        let lenEnd' ← edgesFrom nd found.1 found.2 lenEnd
        forwardPass n cur lenEnd' (position + 1#32)

/-! ## GetOptimum -/

/-- Part B continued: the edges from position 0 of the pass, then the forward pass (R421). -/
def firstEdges (position lenMain numPairs : Word) (lens : Reps) (curByte matchByte : Byte) : Eng (Word × Word) := do
  let st ← cstateGet
  optModify 0#32 fun r => { r with state := st }
  let ps ← posStateOf position
  let prev ← look (·.enc.prevByte)
  let lit ← literalPrice st ps position prev matchByte curByte
  optModify 1#32 fun r => { r.makeAsChar with price := lit }
  let matchPrice ← isMatchPrice st ps true
  let rp ← nodePrice (isRepIdx st) true
  let repMatchPrice := matchPrice + rp
  if matchByte = curByte then do
    let c ← shortRepPrice st ps
    relax 1#32 (repMatchPrice + c) fun r => { r.makeAsShortRep with price := repMatchPrice + c }
  let lenEnd := maxW lenMain (lens.get (longestRep lens))
  if lenEnd.toNat < 2 then do
    let r ← optRead 1#32
    pure (1#32, r.backPrev)
  else do
    optModify 1#32 fun r => { r with posPrev := 0#32 }
    let reps ← look (·.rep)
    optModify 0#32 fun r => { r with backs := reps }
    infinityFrom (lenEnd.toNat - 1) lenEnd
    repEdgesOf repMatchPrice ps st lens 0
    repEdgesOf repMatchPrice ps st lens 1
    repEdgesOf repMatchPrice ps st lens 2
    repEdgesOf repMatchPrice ps st lens 3
    let nr ← nodePrice (isRepIdx st) false
    let l := if 2 ≤ lens.d0.toNat then lens.d0 + 1#32 else 2#32
    if l.toNat ≤ lenMain.toNat then do
      let offs ← skipPairs l pairTurns 0#32
      matchEdges (matchPrice + nr) numPairs ps optTurns l offs
    forwardPass optTurns 0#32 lenEnd position

/-- The match-finder result a new pass starts from: the one kept by the last pass, or a fresh one (R420). -/
def passStart : Eng (Word × Word) := do
  let e ← look (·.enc)
  if e.longestFound then do
    put fun s => { s with enc := { s.enc with longestFound := false } }
    pure (e.longestLen, e.longestPairs)
  else readMatchDistances

/-- Part B: a new pass (R420). -/
def newPass (position : Word) : Eng (Word × Word) := do
  put fun s => { s with enc := { s.enc with optCur := 0, optEnd := 0 } }
  let main ← passStart
  let left ← winAvail
  if (left + 1#32).toNat < 2 then pure (1#32, literalBack)
  else do
    let reps ← look (·.rep)
    let lens ← repLengths reps
    let best := longestRep lens
    let maxLen ← look (·.mf.matchMaxLen)
    if maxLen.toNat ≤ (lens.get best).toNat then do
      encMovePos (lens.get best - 1#32)
      pure (lens.get best, BitVec.ofNat 32 best)
    else if maxLen.toNat ≤ main.1.toNat then do
      let d ← matchRead (main.2 - 1#32)
      encMovePos (main.1 - 1#32)
      pure (main.1, d + 4#32)
    else do
      let curByte ← winGetByte Config.allOnes
      let matchByte ← winGetByte (0#32 - reps.d0 - 2#32)
      if main.1.toNat < 2 ∧ curByte ≠ matchByte ∧ (lens.get best).toNat < 2 then pure (1#32, literalBack)
      else firstEdges position main.1 main.2 lens curByte matchByte

/-- `GetOptimum(position)` (R420): the next decision `(len, back)`. -/
def getOptimum (position : Word) : Eng (Word × Word) := do
  let e ← look (·.enc)
  if e.optEnd ≠ e.optCur then do
    let r ← optRead e.optCur
    put fun s => { s with enc := { s.enc with optCur := r.posPrev } }
    pure (r.posPrev - e.optCur, r.backPrev)
  else newPass position

/-! ## Commands -/

/-- OPT_GETOPTIMUM (R450). -/
def execOptGetOptimum (s : State) : Host.Outcome State Fault Refusal :=
  command .optGetOptimum .enc (do
    let position ← look fun s => lowHalf s.cnt.nowPos
    let d ← getOptimum position
    setR0 d.1
    setR1 d.2) s

end Sys2Proof.Machine
end

