-- ==== Sys2Proof/Machine/Encoder.lean ====
section
/-! DEFINITION. The encoder's stream control (46_encoder.md). -/

namespace Sys2Proof.Machine

/-! ## Stream start -/

/-- `EncValidate()` (R471): the options an encoder stream may have. -/
def encOptionsLegal (o : Options) (dictCap : Nat) : Bool :=
  decide (1 ≤ o.dictSize.toNat) && decide (o.dictSize.toNat ≤ Config.maxDictSize) &&
  decide (o.dictSize.toNat ≤ dictCap) &&
  decide (o.lc.toNat ≤ 8) && decide (o.lp.toNat ≤ 4) && decide (o.pb.toNat ≤ 4) &&
  decide (5 ≤ o.fastBytes.toNat) && decide (o.fastBytes.toNat ≤ 273)

/-- The derived values of R42. -/
def derivedOf (o : Options) : Derived :=
  { posStateMask := (1#32 <<< o.pb.toNat) - 1#32
    litPosMask := (1#32 <<< o.lp.toNat) - 1#32
    probCount := 1846#32 + (0x300#32 <<< (o.lc.toNat + o.lp.toNat))
    numPosStates := 1#32 <<< o.pb.toNat
    lcLatched := o.lc }

/-- "the least value in 0..30 with DICT_SIZE ≤ 2^dl" (R470), searched from `dl` with `n` values left. -/
def dictLogFrom (dictSize : Nat) : Nat → Nat → Nat
  | 0, dl => dl
  | n + 1, dl => if dictSize ≤ 2 ^ dl then dl else dictLogFrom dictSize n (dl + 1)

/-- `dl` of R470. -/
def dictLog (dictSize : Word) : Nat := dictLogFrom dictSize.toNat 30 0

/-- PROB at a stream start (R357): probCount entries, each 1024. -/
def freshProb (d : Derived) : Ram Prob 1024#11 := Ram.alloc d.probCount.toNat

/-- The price RAMs at a stream start, every entry 0 (R57, R470). -/
def freshPrices : PriceRams :=
  { posSlot := Ram.alloc 256, dist := Ram.alloc 512, align := Ram.alloc 16, lenMatch := Ram.alloc (16 * 272),
    lenRep := Ram.alloc (16 * 272), cntMatch := Ram.alloc 16, cntRep := Ram.alloc 16 }

/-- The ENC registers at a stream start (R470). -/
def freshEnc (o : Options) : EncRegs :=
  { EncRegs.reset with
    distTableSize := BitVec.ofNat 32 (2 * dictLog o.dictSize)
    lenTableSize := o.fastBytes.setWidth 32 - 1#32 }

/-- The part of ENC_START before MfCreate (R470). -/
def encClear (s : State) : State :=
  { s with
    cnt := Counters.reset
    status := { s.status with srcEof := false, endSeen := false, hdrOk := false }
    derived := derivedOf s.opts
    owbuf := Ram.none
    rcd := RcdRegs.reset
    ow := OwRegs.reset
    prob := freshProb (derivedOf s.opts)
    cstate := 0
    rep := Reps.zero
    enc := freshEnc s.opts
    opt := Ram.alloc Config.optSize
    price := freshPrices }

/-- `STATUS.PHASE <- p`. -/
def setPhase (p : Phase) : Eng Unit := put fun s => { s with status := { s.status with phase := p } }

/-- The length-price tables of every position state (R447, R470). -/
def fillLenTables : Eng Unit := do
  let n ← look (·.derived.numPosStates)
  forUp (updateLenTable false) n.toNat 0#32
  forUp (updateLenTable true) n.toNat 0#32

/-- The body of ENC_START (R470). -/
def encStart : Eng Unit := do
  let legal ← look fun s => encOptionsLegal s.opts s.dictCap
  check legal .cfgInvalid
  put encClear
  mfCreate
  rceInit
  setPhase .enc
  mfInit
  fillDistancesPrices
  fillAlignPrices
  fillLenTables

/-! ## Encoder procedures -/

/-- The literal branch of `EncodeSymbol` (R480). -/
def encodeLiteral (ps : Word) : Eng Unit := do
  let st ← cstateGet
  let i ← isMatchIdx st ps
  rceEncodeBit i false
  let ahead ← look (·.enc.addOffset)
  let cur ← winGetByte (0#32 - ahead)
  let position ← look fun s => lowHalf s.cnt.nowPos
  let prev ← look (·.enc.prevByte)
  let lb ← litBase position prev
  if isCharState st then litEncode lb cur
  else do
    let d ← rep0
    let mb ← winGetByte (0#32 - d - 1#32 - ahead)
    litEncodeMatched lb mb cur
  put fun s => { s with enc := { s.enc with prevByte := cur } }
  cstateSet (onChar st)

/-- The rep choice bits after IsRep (R387, R480). -/
def encodeRepChoice (st : CState) (ps len back : Word) : Eng Unit :=
  if back = 0#32 then do
    rceEncodeBit (isRepG0Idx st) false
    let long ← isRep0LongIdx st ps
    rceEncodeBit long (len != 1#32)
  else do
    rceEncodeBit (isRepG0Idx st) true
    if back = 1#32 then rceEncodeBit (isRepG1Idx st) false
    else do
      rceEncodeBit (isRepG1Idx st) true
      rceEncodeBit (isRepG2Idx st) (back != 2#32)

/-- The rep branch of `EncodeSymbol` after its IsMatch bit (R480). -/
def encodeRep (ps len back : Word) : Eng Unit := do
  let st ← cstateGet
  rceEncodeBit (isRepIdx st) true
  encodeRepChoice st ps len back
  if len = 1#32 then cstateSet (onShortRep st)
  else do
    lenEncode (lenCoder true) (len - 2#32) ps
    lenCountDown true ps
    cstateSet (onRep st)
  let _ ← repUse back
  pure ()

/-- The match branch of `EncodeSymbol` after its IsMatch bit (R480). -/
def encodeMatch (ps len dist : Word) : Eng Unit := do
  let st ← cstateGet
  rceEncodeBit (isRepIdx st) false
  lenEncode (lenCoder false) (len - 2#32) ps
  lenCountDown false ps
  let slot ← distEncode dist len
  if 14 ≤ slot.toNat then
    put fun s => { s with enc := { s.enc with alignPriceCount := s.enc.alignPriceCount + 1 } }
  repPush dist
  put fun s => { s with enc := { s.enc with matchPriceCount := s.enc.matchPriceCount + 1 } }
  cstateSet (onMatch st)

/-- The rep and match branches of `EncodeSymbol` (R480). -/
def encodeCopy (ps len back : Word) : Eng Unit := do
  let st ← cstateGet
  let i ← isMatchIdx st ps
  rceEncodeBit i true
  if back.toNat < 4 then encodeRep ps len back else encodeMatch ps len (back - 4#32)
  let ahead ← look (·.enc.addOffset)
  let b ← winGetByte (len - 1#32 - ahead)
  put fun s => { s with enc := { s.enc with prevByte := b } }

/-- `EncodeSymbol(len, back)` (R480). -/
def encodeSymbol (len back : Word) : Eng Unit := do
  let position ← look fun s => lowHalf s.cnt.nowPos
  let ps ← posStateOf position
  if len = 1#32 ∧ back = literalBack then encodeLiteral ps else encodeCopy ps len back
  put fun s => { s with
    enc := { s.enc with addOffset := s.enc.addOffset - len }
    cnt := { s.cnt with nowPos := s.cnt.nowPos + len.setWidth 64 } }

/-- `EncodeFirstByte()` (R481). -/
def encodeFirstByte : Eng Unit := do
  let _ ← readMatchDistances
  let st ← cstateGet
  let i ← isMatchIdx st 0#32
  rceEncodeBit i false
  cstateSet (onChar st)
  let ahead ← look (·.enc.addOffset)
  let cur ← winGetByte (0#32 - ahead)
  let lb ← litBase 0#32 0#8
  litEncode lb cur
  put fun s => { s with
    enc := { s.enc with prevByte := cur, addOffset := s.enc.addOffset - 1#32 }
    cnt := { s.cnt with nowPos := 1 } }

/-- `EncodeEndMarker()` (R482). -/
def encodeEndMarker : Eng Unit := do
  let position ← look fun s => lowHalf s.cnt.nowPos
  let ps ← posStateOf position
  let st ← cstateGet
  let i ← isMatchIdx st ps
  rceEncodeBit i true
  rceEncodeBit (isRepIdx st) false
  cstateSet (onMatch st)
  lenEncode (lenCoder false) 0#32 ps
  lenCountDown false ps
  let _ ← distEncode Config.allOnes 2#32
  pure ()

/-- `EncFinishStream()` (R483). -/
def encFinishStream : Eng Unit := do
  let mark ← look fun s => decide (s.opts.endMark = 1#1)
  if mark then encodeEndMarker
  rceFlush
  setPhase .done

/-- `HeaderByte0` (R484). -/
def headerByte0 (o : Options) : Byte := BitVec.ofNat 8 ((o.pb.toNat * 5 + o.lp.toNat) * 9 + o.lc.toNat)

/-- The end of the stream if no input byte remains (R490). -/
def finishIfEmpty : Eng Unit := do
  let left ← winAvail
  if left = 0#32 then encFinishStream

/-- The price refresh and the end-of-input check after a decision (R446, R490). -/
def afterDecision : Eng Unit := do
  let e ← look (·.enc)
  if e.addOffset = 0#32 then do
    if Config.matchPriceRefresh.toNat ≤ e.matchPriceCount.toNat then fillDistancesPrices
    if Config.alignPriceRefresh.toNat ≤ e.alignPriceCount.toNat then fillAlignPrices
    finishIfEmpty

/-- The first ENC_STEP of a stream (R490). -/
def encFirstStep : Eng Unit := do
  let left ← winAvail
  if left = 0#32 then encFinishStream
  else do
    encodeFirstByte
    setR0 1#32
    setR1 literalBack
    finishIfEmpty

/-- A later ENC_STEP (R490). -/
def encNextStep : Eng Unit := do
  let position ← look fun s => lowHalf s.cnt.nowPos
  let d ← getOptimum position
  encodeSymbol d.1 d.2
  setR0 d.1
  setR1 d.2
  afterDecision

/-- The body of ENC_STEP (R490). -/
def encStep : Eng Unit := do
  let pos ← look (·.cnt.nowPos)
  if pos = 0#64 then encFirstStep else encNextStep

/-- The loop of ENC_RUN (R491), its turns counted (log entry 4): each codes a decision of one byte or more, so the input
ends it long before the count does. -/
def encRunLoop : Nat → Eng Unit
  | 0 => pure ()
  | n + 1 => do
    encStep
    let phase ← look (·.status.phase)
    if phase = .done then pure () else encRunLoop n

/-! ## Commands -/

/-- ENC_START (R470). -/
def execEncStart (s : State) : Host.Outcome State Fault Refusal :=
  command .encStart .startE encStart s

/-- HDR_WRITE (R497). -/
def execHdrWrite (s : State) : Host.Outcome State Fault Refusal :=
  command .hdrWrite .enc (do
    let n ← look (·.cnt.outCount)
    check (decide (n = 0#64)) .seqError
    let o ← look (·.opts)
    sinkWrite (headerByte0 o)
    sinkWrite (o.dictSize.extractLsb' 0 8)
    sinkWrite (o.dictSize.extractLsb' 8 8)
    sinkWrite (o.dictSize.extractLsb' 16 8)
    sinkWrite (o.dictSize.extractLsb' 24 8)) s

/-- ENC_STEP (R490). -/
def execEncStep (s : State) : Host.Outcome State Fault Refusal :=
  command .encStep .runE encStep s

/-- ENC_RUN (R491): R0 = R1 = 0 at the end. -/
def execEncRun (s : State) : Host.Outcome State Fault Refusal :=
  command .encRun .runE (do
    encRunLoop Config.loopBudget
    put clearResults) s

/-- The pairs ENC_SYMBOL accepts (R388, R492). -/
def decisionLegal (len back : Word) : Bool :=
  (decide (len = 1#32) && (decide (back = literalBack) || decide (back = 0#32))) ||
  (decide (2 ≤ len.toNat) && decide (len.toNat ≤ 273))

/-- ENC_SYMBOL (R492). -/
def execEncSymbol (s : State) : Host.Outcome State Fault Refusal :=
  command .encSymbol .enc (do
    let len ← opA0
    let back ← opA1
    check (decisionLegal len back) .bounds
    encodeSymbol len back) s

/-- ENC_FINISH (R493). -/
def execEncFinish (s : State) : Host.Outcome State Fault Refusal :=
  command .encFinish .enc encFinishStream s

end Sys2Proof.Machine
end

