-- ==== Sys2Proof/Machine/Decoder.lean ====
section
/-! DEFINITION. The output window, the header and the decoder's stream control (47_decoder.md). -/

namespace Sys2Proof.Machine

/-! ## Output window -/

/-- The OWBUF index after one more byte (R510). -/
def owNext (o : OwRegs) : Word := if o.pos + 1#32 = o.size then 0#32 else o.pos + 1#32

/-- `OwPutByte(b)` (R510). -/
def owPutByte (b : Byte) : Eng Unit := do
  let pos ← look (·.ow.pos)
  owbufWrite pos b
  put fun s => { s with ow := { s.ow with pos := owNext s.ow } }
  sinkWrite b
  put fun s => { s with cnt := { s.cnt with nowPos := s.cnt.nowPos + 1 } }

/-- The OWBUF index of distance `r` (R105, R511): `OW.pos + OW.size − 1 − r` on u33 values, less OW.size if it reaches
it. -/
def owIndex (o : OwRegs) (r : Word) : BitVec 33 :=
  let i := o.pos.setWidth 33 + o.size.setWidth 33 - 1#33 - r.setWidth 33
  if o.size.toNat ≤ i.toNat then i - o.size.setWidth 33 else i

/-- `OwGetByte(r)` (R511). An index outside OWBUF faults BOUNDS (R104). -/
def owGetByte (r : Word) : Eng Byte := fun s =>
  let i := (owIndex s.ow r).toNat
  if i < s.owbuf.size then .ok (s.owbuf.get i) s else raise .bounds s

/-- `OwCopy(r, n)` (R513): each byte is read after the byte before it has been written. -/
def owCopy (r : Word) : Nat → Eng Unit
  | 0 => pure ()
  | n + 1 => do
    let b ← owGetByte r
    owPutByte b
    owCopy r n

/-! ## Header and stream start -/

/-- The options a header gives (R520). -/
def headerOptions (o : Options) (h0 h1 h2 h3 h4 : Byte) : Options :=
  { o with
    lc := BitVec.ofNat 4 (h0.toNat % 9)
    lp := BitVec.ofNat 3 (h0.toNat / 9 % 5)
    pb := BitVec.ofNat 3 (h0.toNat / 45)
    dictSize := byteWord h1 ||| (byteWord h2 <<< 8) ||| (byteWord h3 <<< 16) ||| (byteWord h4 <<< 24) }

/-- IN_COUNT, OUT_COUNT and SRC_EOF cleared (R46). -/
def clearStreamCounters (s : State) : State :=
  { s with cnt := { s.cnt with inCount := 0, outCount := 0 }, status := { s.status with srcEof := false } }

/-- The body of HDR_READ (R520). -/
def hdrRead : Eng Unit := do
  put fun s =>
    let t := clearStreamCounters s
    { t with status := { t.status with hdrOk := false } }
  let h0 ← srcReadOrTruncated
  let h1 ← srcReadOrTruncated
  let h2 ← srcReadOrTruncated
  let h3 ← srcReadOrTruncated
  let h4 ← srcReadOrTruncated
  check (decide (h0.toNat < 225)) .headerInvalid
  put fun s => { s with
    opts := headerOptions s.opts h0 h1 h2 h3 h4
    status := { s.status with hdrOk := true } }

/-- `DecValidate()` (R522). -/
def decOptionsLegal (o : Options) (dictCap : Nat) : Bool :=
  decide (o.lc.toNat ≤ 8) && decide (o.lp.toNat ≤ 4) && decide (o.pb.toNat ≤ 4) &&
  decide (o.dictSize.toNat ≤ dictCap)

/-- The OW registers at a stream start (R523, R524). -/
def freshOw (o : Options) : OwRegs :=
  { dictSizeCheck := maxW o.dictSize 1#32, size := maxW (maxW o.dictSize 1#32) Config.minOutWindow, pos := 0 }

/-- The part of DEC_START before RcdInit (R524). -/
def decClear (s : State) : State :=
  let t := if s.status.hdrOk then s else clearStreamCounters s
  { t with
    status := { t.status with hdrOk := false, endSeen := false, phase := .dec }
    cnt := { t.cnt with nowPos := 0 }
    derived := derivedOf s.opts
    wbuf := Ram.none, son := Ram.none, hash := Ram.none, matchBuf := Ram.none, opt := Ram.none
    price := PriceRams.reset
    win := WinRegs.reset, mf := MfRegs.reset, rce := RceRegs.reset, enc := EncRegs.reset
    prob := freshProb (derivedOf s.opts)
    cstate := 0
    rep := Reps.zero
    ow := freshOw s.opts
    owbuf := Ram.alloc (freshOw s.opts).size.toNat }

/-- The body of DEC_START (R524). -/
def decStart : Eng Unit := do
  let legal ← look fun s => decOptionsLegal s.opts s.dictCap
  check legal .cfgInvalid
  put decClear
  rcdInit

/-! ## Decode loop -/

/-- The kinds DEC_STEP reports in R0 (R530). -/
def kindLiteral : Word := 0#32
def kindMatch : Word := 1#32
def kindRep : Word := 2#32
def kindShortRep : Word := 3#32
def kindEndMarker : Word := 4#32
def kindAtOutSize : Word := 5#32

/-- Whether a distance is impossible (R533): before the start of the output, or not below the dictionary size. -/
def distImpossible (s : State) : Bool :=
  decide (s.cnt.nowPos.toNat ≤ s.rep.d0.toNat) || decide (s.ow.dictSizeCheck.toNat ≤ s.rep.d0.toNat)

/-- `DistCheck(kind)` (R533), `isMatch` for kind 1: whether the end marker was decoded. -/
def distCheck (isMatch : Bool) : Eng Bool := do
  let bad ← look distImpossible
  let d ← rep0
  if bad then
    if isMatch = true ∧ d = Config.allOnes then do
      put fun s => { s with status := { s.status with endSeen := true, phase := .done } }
      pure true
    else raise .dataError
  else pure false

/-- `min(len, OUT_SIZE − NOW_POS)` on u64 values (R525). -/
def copyLength (s : State) (len : Word) : Nat :=
  min len.toNat (s.opts.outSize - s.cnt.nowPos).toNat

/-- The copy of a match or rep, cut at OUT_SIZE (R525); returns the bytes produced. -/
def copyFromRep0 (len : Word) : Eng Word := do
  let n ← look fun s => copyLength s len
  let d ← rep0
  owCopy d n
  pure (BitVec.ofNat 32 n)

/-- The literal branch of `DecodeSymbol` (R525, R526). -/
def decodeLiteral (st : CState) : Eng (Word × Word) := do
  let pos ← look (·.cnt.nowPos)
  let prev ← if pos = 0#64 then pure 0#8 else owGetByte 0#32
  let lb ← litBase (lowHalf pos) prev
  let b ← if isCharState st then litDecode lb else (do
    let d ← rep0
    let mb ← owGetByte d
    litDecodeMatched lb mb)
  owPutByte b
  cstateSet (onChar st)
  pure (kindLiteral, 1#32)

/-- The rep of length ≥ 2 with index `i` (R525). -/
def decodeLongRep (st : CState) (ps i : Word) : Eng (Word × Word) := do
  let _ ← repUse i
  let v ← lenDecode (lenCoder true) ps
  cstateSet (onRep st)
  let _ ← distCheck false
  let n ← copyFromRep0 (v + 2#32)
  pure (kindRep, n)

/-- The short rep (R525). -/
def decodeShortRep (st : CState) : Eng (Word × Word) := do
  cstateSet (onShortRep st)
  let _ ← distCheck false
  let d ← rep0
  let b ← owGetByte d
  owPutByte b
  pure (kindShortRep, 1#32)

/-- The rep branch of `DecodeSymbol` after its IsRep bit (R525, R527). -/
def decodeRep (st : CState) (ps : Word) : Eng (Word × Word) := do
  let pos ← look (·.cnt.nowPos)
  check (decide (pos ≠ 0#64)) .dataError
  let g0 ← rcdDecodeBit (isRepG0Idx st)
  if g0 then do
    let g1 ← rcdDecodeBit (isRepG1Idx st)
    if g1 then do
      let g2 ← rcdDecodeBit (isRepG2Idx st)
      decodeLongRep st ps (2#32 + bitWord g2)
    else decodeLongRep st ps 1#32
  else do
    let i ← isRep0LongIdx st ps
    let long ← rcdDecodeBit i
    if long then decodeLongRep st ps 0#32 else decodeShortRep st

/-- The match branch of `DecodeSymbol` after its IsRep bit (R525, R532). -/
def decodeMatch (st : CState) (ps : Word) : Eng (Word × Word) := do
  let v ← lenDecode (lenCoder false) ps
  cstateSet (onMatch st)
  let d ← distDecode (v + 2#32)
  repPush d
  let ended ← distCheck true
  if ended then pure (kindEndMarker, 0#32)
  else do
    let n ← copyFromRep0 (v + 2#32)
    pure (kindMatch, n)

/-- One symbol (R525), before the comparison with OUT_SIZE that follows it. -/
def decodeOne : Eng (Word × Word) := do
  let st ← cstateGet
  let position ← look fun s => lowHalf s.cnt.nowPos
  let ps ← posStateOf position
  let i ← isMatchIdx st ps
  let isMatch ← rcdDecodeBit i
  if isMatch then do
    let isRep ← rcdDecodeBit (isRepIdx st)
    if isRep then decodeRep st ps else decodeMatch st ps
  else decodeLiteral st

/-- Whether the declared length is reached (R534). -/
def atOutSize (s : State) : Bool := decide (s.opts.outSize.toNat ≤ s.cnt.nowPos.toNat)

/-- `DecodeSymbol()` (R525): the kind and the number of bytes produced. The end marker returns at once; every other
symbol is followed by the comparison with OUT_SIZE. -/
def decodeSymbol : Eng (Word × Word) := do
  let full ← look atOutSize
  if full then do
    setPhase .done
    pure (kindAtOutSize, 0#32)
  else do
    let r ← decodeOne
    if r.1 = kindEndMarker then pure r
    else do
      let full' ← look atOutSize
      if full' then setPhase .done
      pure r

/-- The loop of DEC_RUN (R531). Each turn but the last raises NOW_POS, and the turn at OUT_SIZE is the last (R534), so it is
given `OUT_SIZE − NOW_POS + 1` turns, and none is left over. -/
def decRunLoop : Nat → Eng Unit
  | 0 => pure ()
  | n + 1 => do
    let _ ← decodeSymbol
    let phase ← look (·.status.phase)
    if phase = .done then pure () else decRunLoop n

/-- The turns DEC_RUN is given. -/
def decRunTurns (s : State) : Nat := s.opts.outSize.toNat - s.cnt.nowPos.toNat + 1

/-! ## Commands -/

/-- HDR_READ (R520). -/
def execHdrRead (s : State) : Host.Outcome State Fault Refusal :=
  command .hdrRead .startD hdrRead s

/-- DEC_START (R524). -/
def execDecStart (s : State) : Host.Outcome State Fault Refusal :=
  command .decStart .startD decStart s

/-- DEC_STEP (R530). -/
def execDecStep (s : State) : Host.Outcome State Fault Refusal :=
  command .decStep .runD (do
    let r ← decodeSymbol
    setR0 r.1
    setR1 r.2) s

/-- DEC_RUN (R531): R0 = R1 = 0 at the end. -/
def execDecRun (s : State) : Host.Outcome State Fault Refusal :=
  command .decRun .runD (do
    let turns ← look decRunTurns
    decRunLoop turns) s

/-- OW_GETBYTE (R540). -/
def execOwGetByte (s : State) : Host.Outcome State Fault Refusal :=
  command .owGetByte .any (do
    let r ← opA0
    let size ← look (·.ow.size)
    check (decide (r.toNat < size.toNat)) .bounds
    let b ← owGetByte r
    setR0 (byteWord b)) s

/-- OW_PUTBYTE (R541). -/
def execOwPutByte (s : State) : Host.Outcome State Fault Refusal :=
  command .owPutByte .dec (do
    let v ← opA0
    byteCheck v
    owPutByte (lowByte v)) s

/-- The distance check of OW_COPY (R542), against OW.size. -/
def copyDistanceOk (s : State) (r : Word) : Bool :=
  decide (r.toNat < s.cnt.nowPos.toNat) && decide (r.toNat < s.ow.size.toNat)

/-- OW_COPY (R542). -/
def execOwCopy (s : State) : Host.Outcome State Fault Refusal :=
  command .owCopy .dec (do
    let r ← opA0
    let n ← opA1
    let ok ← look fun s => copyDistanceOk s r
    check ok .bounds
    check (decide (1 ≤ n.toNat) && decide (n.toNat ≤ 273)) .bounds
    owCopy r n.toNat) s

end Sys2Proof.Machine
end

