-- ==== Sys2Proof/Machine/Model.lean ====
section
/-! DEFINITION. The commands of the probability model (44_model.md section 9, R390 to R406). -/

namespace Sys2Proof.Machine

/-- The body of the ST_* commands (R390 to R393): SEL 0 a pure function of A0, SEL 1 an update of STATE in place. -/
def stateCommand (sel : Bool) (f : CState → CState) : Eng Unit :=
  if sel then do
    let v ← cstateGet
    cstateSet (f v)
    setR0 ((f v).setWidth 32)
  else do
    let a ← opA0
    stateCheck a
    setR0 ((f (a.setWidth 4)).setWidth 32)

/-- The gate of the ST_* commands (R147): SEL 1 is class ED, SEL 0 is class ANY. -/
def stateGate (sel : Bool) : Gate := if sel then .encDec else .any

/-- ST_CHAR (R390). -/
def execStChar (sel : Bool) (s : State) : Host.Outcome State Fault Refusal :=
  command (.stChar sel) (stateGate sel) (stateCommand sel onChar) s

/-- ST_MATCH (R391). -/
def execStMatch (sel : Bool) (s : State) : Host.Outcome State Fault Refusal :=
  command (.stMatch sel) (stateGate sel) (stateCommand sel onMatch) s

/-- ST_REP (R392). -/
def execStRep (sel : Bool) (s : State) : Host.Outcome State Fault Refusal :=
  command (.stRep sel) (stateGate sel) (stateCommand sel onRep) s

/-- ST_SHORTREP (R393). -/
def execStShortRep (sel : Bool) (s : State) : Host.Outcome State Fault Refusal :=
  command (.stShortRep sel) (stateGate sel) (stateCommand sel onShortRep) s

/-- LIT_ENC (R394). -/
def execLitEnc (s : State) : Host.Outcome State Fault Refusal :=
  command .litEnc .enc (do
    let sym ← opA0
    let position ← opA1
    let prev ← opA2
    byteCheck sym
    byteCheck prev
    let lb ← litBase position (lowByte prev)
    litEncode lb (lowByte sym)) s

/-- LIT_ENCM (R395). -/
def execLitEncM (s : State) : Host.Outcome State Fault Refusal :=
  command .litEncM .enc (do
    let sym ← opA0
    let position ← opA1
    let prev ← opA2
    let mb ← opA3
    byteCheck sym
    byteCheck prev
    byteCheck mb
    let lb ← litBase position (lowByte prev)
    litEncodeMatched lb (lowByte mb) (lowByte sym)) s

/-- LIT_DEC (R396). -/
def execLitDec (s : State) : Host.Outcome State Fault Refusal :=
  command .litDec .dec (do
    let position ← opA1
    let prev ← opA2
    byteCheck prev
    let lb ← litBase position (lowByte prev)
    let b ← litDecode lb
    setR0 (byteWord b)) s

/-- LIT_DECM (R397). -/
def execLitDecM (s : State) : Host.Outcome State Fault Refusal :=
  command .litDecM .dec (do
    let position ← opA1
    let prev ← opA2
    let mb ← opA3
    byteCheck prev
    byteCheck mb
    let lb ← litBase position (lowByte prev)
    let b ← litDecodeMatched lb (lowByte mb)
    setR0 (byteWord b)) s

/-- LIT_PRICE (R398). With SEL 0 A3 is not read. -/
def execLitPrice (sel : Bool) (s : State) : Host.Outcome State Fault Refusal :=
  command (.litPrice sel) .any (do
    let sym ← opA0
    let position ← opA1
    let prev ← opA2
    let mb ← opA3
    probCheck
    byteCheck sym
    byteCheck prev
    if sel then byteCheck mb
    let lb ← litBase position (lowByte prev)
    let c ← litPrice lb sel (lowByte mb) (lowByte sym)
    setR0 c) s

/-- LEN_ENC (R399). -/
def execLenEnc (sel : Bool) (s : State) : Host.Outcome State Fault Refusal :=
  command (.lenEnc sel) .enc (do
    let sym ← opA0
    let ps ← opA1
    symCheck sym
    psCheck ps
    lenEncode (lenCoder sel) sym ps
    lenCountDown sel ps) s

/-- LEN_DEC (R400). -/
def execLenDec (sel : Bool) (s : State) : Host.Outcome State Fault Refusal :=
  command (.lenDec sel) .dec (do
    let ps ← opA1
    psCheck ps
    let v ← lenDecode (lenCoder sel) ps
    setR0 v) s

/-- LEN_PRICE (R401). -/
def execLenPrice (sel : Bool) (s : State) : Host.Outcome State Fault Refusal :=
  command (.lenPrice sel) .any (do
    let sym ← opA0
    let ps ← opA1
    symCheck sym
    psCheck ps
    let c ← lenPrice (lenCoder sel) sym ps
    setR0 c) s

/-- DIST_ENC (R402). -/
def execDistEnc (s : State) : Host.Outcome State Fault Refusal :=
  command .distEnc .enc (do
    let d ← opA0
    let len ← opA1
    lenCheck len
    let slot ← distEncode d len
    setR0 slot) s

/-- DIST_DEC (R403). -/
def execDistDec (s : State) : Host.Outcome State Fault Refusal :=
  command .distDec .dec (do
    let len ← opA1
    lenCheck len
    let d ← distDecode len
    setR0 d) s

/-- POS_SLOT (R404). -/
def execPosSlot (s : State) : Host.Outcome State Fault Refusal :=
  command .posSlot .any (do
    let d ← opA0
    setR0 (posSlotOf d)) s

/-- REP_USE (R405). -/
def execRepUse (s : State) : Host.Outcome State Fault Refusal :=
  command .repUse .encDec (do
    let i ← opA0
    repIndexCheck i
    let d ← repUse i
    setR0 d) s

/-- REP_PUSH (R406). -/
def execRepPush (s : State) : Host.Outcome State Fault Refusal :=
  command .repPush .encDec (do
    let d ← opA0
    repPush d) s

end Sys2Proof.Machine
end

