-- ==== Sys2Proof/Machine/Dispatch.lean ====
section
/-! DEFINITION. One arm per command: the meaning of each row of the opcode map (30_encoding.md R150). -/

namespace Sys2Proof.Machine

def exec (i : Instr) (s : State) : Host.Outcome State Fault Refusal :=
  match i with
  | .nop => Sys2Proof.Machine.execNop s
  | .reset => Sys2Proof.Machine.execReset s
  | .regRead => Sys2Proof.Machine.execRegRead s
  | .regWrite => Sys2Proof.Machine.execRegWrite s
  | .probRead => Sys2Proof.Machine.execProbRead s
  | .matchRead => Sys2Proof.Machine.execMatchRead s
  | .wbGetByte => Sys2Proof.Machine.execWbGetByte s
  | .wbMatchLen => Sys2Proof.Machine.execWbMatchLen s
  | .wbAvail => Sys2Proof.Machine.execWbAvail s
  | .mfGetMatches => Sys2Proof.Machine.execMfGetMatches s
  | .mfSkip => Sys2Proof.Machine.execMfSkip s
  | .mfMovePos => Sys2Proof.Machine.execMfMovePos s
  | .mfHash => Sys2Proof.Machine.execMfHash s
  | .rceBit b => Sys2Proof.Machine.execRceBit b s
  | .rceDirect n => Sys2Proof.Machine.execRceDirect n s
  | .rcdBit => Sys2Proof.Machine.execRcdBit s
  | .rcdDirect n => Sys2Proof.Machine.execRcdDirect n s
  | .priceBit sel b => Sys2Proof.Machine.execPriceBit sel b s
  | .btEnc n => Sys2Proof.Machine.execBtEnc n s
  | .btRevEnc n => Sys2Proof.Machine.execBtRevEnc n s
  | .btDec n => Sys2Proof.Machine.execBtDec n s
  | .btRevDec n => Sys2Proof.Machine.execBtRevDec n s
  | .btPrice n => Sys2Proof.Machine.execBtPrice n s
  | .btRevPrice n => Sys2Proof.Machine.execBtRevPrice n s
  | .stChar sel => Sys2Proof.Machine.execStChar sel s
  | .stMatch sel => Sys2Proof.Machine.execStMatch sel s
  | .stRep sel => Sys2Proof.Machine.execStRep sel s
  | .stShortRep sel => Sys2Proof.Machine.execStShortRep sel s
  | .litEnc => Sys2Proof.Machine.execLitEnc s
  | .litEncM => Sys2Proof.Machine.execLitEncM s
  | .litDec => Sys2Proof.Machine.execLitDec s
  | .litDecM => Sys2Proof.Machine.execLitDecM s
  | .litPrice sel => Sys2Proof.Machine.execLitPrice sel s
  | .lenEnc sel => Sys2Proof.Machine.execLenEnc sel s
  | .lenDec sel => Sys2Proof.Machine.execLenDec sel s
  | .lenPrice sel => Sys2Proof.Machine.execLenPrice sel s
  | .distEnc => Sys2Proof.Machine.execDistEnc s
  | .distDec => Sys2Proof.Machine.execDistDec s
  | .posSlot => Sys2Proof.Machine.execPosSlot s
  | .repUse => Sys2Proof.Machine.execRepUse s
  | .repPush => Sys2Proof.Machine.execRepPush s
  | .optGetOptimum => Sys2Proof.Machine.execOptGetOptimum s
  | .priceFillDist => Sys2Proof.Machine.execPriceFillDist s
  | .priceFillAlign => Sys2Proof.Machine.execPriceFillAlign s
  | .priceLenTable sel => Sys2Proof.Machine.execPriceLenTable sel s
  | .pricePosLen => Sys2Proof.Machine.execPricePosLen s
  | .priceRep => Sys2Proof.Machine.execPriceRep s
  | .priceShortRep => Sys2Proof.Machine.execPriceShortRep s
  | .encStart => Sys2Proof.Machine.execEncStart s
  | .hdrWrite => Sys2Proof.Machine.execHdrWrite s
  | .encStep => Sys2Proof.Machine.execEncStep s
  | .encRun => Sys2Proof.Machine.execEncRun s
  | .encSymbol => Sys2Proof.Machine.execEncSymbol s
  | .encFinish => Sys2Proof.Machine.execEncFinish s
  | .hdrRead => Sys2Proof.Machine.execHdrRead s
  | .decStart => Sys2Proof.Machine.execDecStart s
  | .decStep => Sys2Proof.Machine.execDecStep s
  | .decRun => Sys2Proof.Machine.execDecRun s
  | .owGetByte => Sys2Proof.Machine.execOwGetByte s
  | .owPutByte => Sys2Proof.Machine.execOwPutByte s
  | .owCopy => Sys2Proof.Machine.execOwCopy s

end Sys2Proof.Machine
end

