-- ==== Sys2Proof/Decode.lean ====
section
/-! DEFINITION. The decoder of command words, total on 32-bit words and rejecting by name, and the encoder
(30_encoding.md R141, R143 to R146, R150, R151, R154). -/

namespace Sys2Proof

/-- Why a word is no command (R146). Each of these is the fault ILLEGAL_CMD of the engine, raised by the step. -/
inductive DecodeError where
  /-- RES bits [31:18] are not 0. -/
  | reservedBits
  /-- OPC is not in the map of R150. -/
  | unassignedOpc
  /-- SEL is outside what R143 allows for the OPC. -/
  | selOutOfRange
  /-- N is outside what R144 allows for the OPC. -/
  | countOutOfRange
  /-- B is outside what R145 allows for the OPC. -/
  | bitOutOfRange
  deriving DecidableEq, Repr

/-- The fields of a command word (R141). -/
structure CmdFields where
  opc : BitVec 8
  sel : BitVec 4
  n   : BitVec 5
  b   : BitVec 1
  res : BitVec 14
  deriving DecidableEq, Repr

/-- R141: OPC [7:0], SEL [11:8], N [16:12], B [17], RES [31:18]. -/
def fieldsOf (w : Word) : CmdFields :=
  { opc := w.extractLsb' 0 8, sel := w.extractLsb' 8 4, n := w.extractLsb' 12 5,
    b := w.extractLsb' 17 1, res := w.extractLsb' 18 14 }

/-- R143: SEL is one bit for the rows that show 0/1. -/
def selField (f : CmdFields) (k : Bool → Except DecodeError Instr) : Except DecodeError Instr :=
  if f.sel = 0#4 then k false else if f.sel = 1#4 then k true else .error .selOutOfRange

/-- "Every other command takes SEL = 0" (R143). -/
def noSel (f : CmdFields) (k : Except DecodeError Instr) : Except DecodeError Instr :=
  if f.sel = 0#4 then k else .error .selOutOfRange

/-- "Every other command takes N = 0" (R144). -/
def noCount (f : CmdFields) (k : Except DecodeError Instr) : Except DecodeError Instr :=
  if f.n = 0#5 then k else .error .countOutOfRange

/-- "Every other command takes B = 0" (R145). -/
def noBit (f : CmdFields) (k : Except DecodeError Instr) : Except DecodeError Instr :=
  if f.b = 0#1 then k else .error .bitOutOfRange

/-- A row with no variable field. -/
def plainOp (f : CmdFields) (i : Instr) : Except DecodeError Instr :=
  noSel f (noCount f (noBit f (.ok i)))

/-- A row whose SEL is 0/1. -/
def selOp (f : CmdFields) (i : Bool → Instr) : Except DecodeError Instr :=
  selField f fun s => noCount f (noBit f (.ok (i s)))

/-- A row whose B is 0/1 (R145). -/
def bitOp (f : CmdFields) (i : Bool → Instr) : Except DecodeError Instr :=
  noSel f (noCount f (.ok (i (f.b = 1#1))))

/-- PRICE_BIT: SEL and B are both 0/1. -/
def selBitOp (f : CmdFields) (i : Bool → Bool → Instr) : Except DecodeError Instr :=
  selField f fun s => noCount f (.ok (i s (f.b = 1#1)))

/-- A bit-tree row: N is 1..8 (R144). -/
def treeOp (f : CmdFields) (i : BitVec 5 → Instr) : Except DecodeError Instr :=
  noSel f (noBit f (if treeCountOk f.n then .ok (i f.n) else .error .countOutOfRange))

/-- A direct-bit row: N is 1..31 (R144). -/
def directOp (f : CmdFields) (i : BitVec 5 → Instr) : Except DecodeError Instr :=
  noSel f (noBit f (if directCountOk f.n then .ok (i f.n) else .error .countOutOfRange))

/-- The opcode map of R150. -/
def decodeOpc (f : CmdFields) : Except DecodeError Instr :=
  match f.opc.toNat with
  | 0x00 => plainOp f .nop
  | 0x01 => plainOp f .reset
  | 0x02 => plainOp f .regRead
  | 0x03 => plainOp f .regWrite
  | 0x04 => plainOp f .probRead
  | 0x05 => plainOp f .matchRead
  | 0x10 => plainOp f .wbGetByte
  | 0x11 => plainOp f .wbMatchLen
  | 0x12 => plainOp f .wbAvail
  | 0x18 => plainOp f .mfGetMatches
  | 0x19 => plainOp f .mfSkip
  | 0x1A => plainOp f .mfMovePos
  | 0x1B => plainOp f .mfHash
  | 0x20 => bitOp f .rceBit
  | 0x21 => directOp f .rceDirect
  | 0x28 => plainOp f .rcdBit
  | 0x29 => directOp f .rcdDirect
  | 0x2C => selBitOp f .priceBit
  | 0x30 => treeOp f .btEnc
  | 0x31 => treeOp f .btRevEnc
  | 0x32 => treeOp f .btDec
  | 0x33 => treeOp f .btRevDec
  | 0x34 => treeOp f .btPrice
  | 0x35 => treeOp f .btRevPrice
  | 0x40 => selOp f .stChar
  | 0x41 => selOp f .stMatch
  | 0x42 => selOp f .stRep
  | 0x43 => selOp f .stShortRep
  | 0x44 => plainOp f .litEnc
  | 0x45 => plainOp f .litEncM
  | 0x46 => plainOp f .litDec
  | 0x47 => plainOp f .litDecM
  | 0x48 => selOp f .litPrice
  | 0x49 => selOp f .lenEnc
  | 0x4A => selOp f .lenDec
  | 0x4B => selOp f .lenPrice
  | 0x4C => plainOp f .distEnc
  | 0x4D => plainOp f .distDec
  | 0x4E => plainOp f .posSlot
  | 0x50 => plainOp f .repUse
  | 0x51 => plainOp f .repPush
  | 0x58 => plainOp f .optGetOptimum
  | 0x59 => plainOp f .priceFillDist
  | 0x5A => plainOp f .priceFillAlign
  | 0x5B => selOp f .priceLenTable
  | 0x5C => plainOp f .pricePosLen
  | 0x5D => plainOp f .priceRep
  | 0x5E => plainOp f .priceShortRep
  | 0x60 => plainOp f .encStart
  | 0x61 => plainOp f .hdrWrite
  | 0x62 => plainOp f .encStep
  | 0x63 => plainOp f .encRun
  | 0x64 => plainOp f .encSymbol
  | 0x65 => plainOp f .encFinish
  | 0x70 => plainOp f .hdrRead
  | 0x71 => plainOp f .decStart
  | 0x72 => plainOp f .decStep
  | 0x73 => plainOp f .decRun
  | 0x74 => plainOp f .owGetByte
  | 0x75 => plainOp f .owPutByte
  | 0x76 => plainOp f .owCopy
  | _ => .error .unassignedOpc

/-- R146: a word decodes to a command, or is rejected by name. -/
def decode (w : Word) : Except DecodeError Instr :=
  let f := fieldsOf w
  if f.res = 0#14 then decodeOpc f else .error .reservedBits

/-- A command word put together from its fields (R141), RES 0. -/
def assemble (opc : BitVec 8) (sel : Bool) (n : BitVec 5) (b : Bool) : Word :=
  0#14 ++ (BitVec.ofBool b ++ (n ++ ((BitVec.ofBool sel).setWidth 4 ++ opc)))

/-- The command word of an instruction (R150, R151). -/
def encode : Instr → Word
  | .nop => assemble 0x00#8 false 0#5 false
  | .reset => assemble 0x01#8 false 0#5 false
  | .regRead => assemble 0x02#8 false 0#5 false
  | .regWrite => assemble 0x03#8 false 0#5 false
  | .probRead => assemble 0x04#8 false 0#5 false
  | .matchRead => assemble 0x05#8 false 0#5 false
  | .wbGetByte => assemble 0x10#8 false 0#5 false
  | .wbMatchLen => assemble 0x11#8 false 0#5 false
  | .wbAvail => assemble 0x12#8 false 0#5 false
  | .mfGetMatches => assemble 0x18#8 false 0#5 false
  | .mfSkip => assemble 0x19#8 false 0#5 false
  | .mfMovePos => assemble 0x1A#8 false 0#5 false
  | .mfHash => assemble 0x1B#8 false 0#5 false
  | .rceBit b => assemble 0x20#8 false 0#5 b
  | .rceDirect n => assemble 0x21#8 false n false
  | .rcdBit => assemble 0x28#8 false 0#5 false
  | .rcdDirect n => assemble 0x29#8 false n false
  | .priceBit s b => assemble 0x2C#8 s 0#5 b
  | .btEnc n => assemble 0x30#8 false n false
  | .btRevEnc n => assemble 0x31#8 false n false
  | .btDec n => assemble 0x32#8 false n false
  | .btRevDec n => assemble 0x33#8 false n false
  | .btPrice n => assemble 0x34#8 false n false
  | .btRevPrice n => assemble 0x35#8 false n false
  | .stChar s => assemble 0x40#8 s 0#5 false
  | .stMatch s => assemble 0x41#8 s 0#5 false
  | .stRep s => assemble 0x42#8 s 0#5 false
  | .stShortRep s => assemble 0x43#8 s 0#5 false
  | .litEnc => assemble 0x44#8 false 0#5 false
  | .litEncM => assemble 0x45#8 false 0#5 false
  | .litDec => assemble 0x46#8 false 0#5 false
  | .litDecM => assemble 0x47#8 false 0#5 false
  | .litPrice s => assemble 0x48#8 s 0#5 false
  | .lenEnc s => assemble 0x49#8 s 0#5 false
  | .lenDec s => assemble 0x4A#8 s 0#5 false
  | .lenPrice s => assemble 0x4B#8 s 0#5 false
  | .distEnc => assemble 0x4C#8 false 0#5 false
  | .distDec => assemble 0x4D#8 false 0#5 false
  | .posSlot => assemble 0x4E#8 false 0#5 false
  | .repUse => assemble 0x50#8 false 0#5 false
  | .repPush => assemble 0x51#8 false 0#5 false
  | .optGetOptimum => assemble 0x58#8 false 0#5 false
  | .priceFillDist => assemble 0x59#8 false 0#5 false
  | .priceFillAlign => assemble 0x5A#8 false 0#5 false
  | .priceLenTable s => assemble 0x5B#8 s 0#5 false
  | .pricePosLen => assemble 0x5C#8 false 0#5 false
  | .priceRep => assemble 0x5D#8 false 0#5 false
  | .priceShortRep => assemble 0x5E#8 false 0#5 false
  | .encStart => assemble 0x60#8 false 0#5 false
  | .hdrWrite => assemble 0x61#8 false 0#5 false
  | .encStep => assemble 0x62#8 false 0#5 false
  | .encRun => assemble 0x63#8 false 0#5 false
  | .encSymbol => assemble 0x64#8 false 0#5 false
  | .encFinish => assemble 0x65#8 false 0#5 false
  | .hdrRead => assemble 0x70#8 false 0#5 false
  | .decStart => assemble 0x71#8 false 0#5 false
  | .decStep => assemble 0x72#8 false 0#5 false
  | .decRun => assemble 0x73#8 false 0#5 false
  | .owGetByte => assemble 0x74#8 false 0#5 false
  | .owPutByte => assemble 0x75#8 false 0#5 false
  | .owCopy => assemble 0x76#8 false 0#5 false

/-- Word `k` of an instruction whose bits are `w`, bit 0 the least significant bit of the first word (word 0 is the
command word, words 1 to 4 are the operands a0 to a3, R140). Bits at and above `nbits` are 0. -/
def tableWord (nbits w k : Nat) : Word := BitVec.ofNat 32 ((w % 2 ^ nbits) >>> (32 * k))

/-- What the decoder reads from an instruction of the opcode table. -/
def decodeTableWord (nbits w : Nat) : Option Instr :=
  match decode (tableWord nbits w 0) with
  | .ok i => some i
  | .error _ => none

end Sys2Proof
end

