-- ==== Sys2Proof/Machine/Fetch.lean ====
section
/-! DEFINITION. Taking the next command from the command port (30_encoding.md R140). -/

namespace Sys2Proof.Machine

/-- The state in which a presented command runs: the command taken from the port, its operands latched into A0..A3
(R44, R140, R142). -/
def accept (t : Transaction) (rest : List Transaction) (s : State) : State :=
  latch t { s with host := { s.host with port := rest } }

/-- The transaction of an instruction whose bits are `w`: word 0 the command word, words 1 to 4 the operands (R140). -/
def transactionOf (nbits w : Nat) : Transaction :=
  { word := tableWord nbits w 0, a0 := tableWord nbits w 1, a1 := tableWord nbits w 2, a2 := tableWord nbits w 3,
    a3 := tableWord nbits w 4 }

/-- The transaction presented before every command already waiting on the port. -/
def present (t : Transaction) (s : State) : State := { s with host := { s.host with port := t :: s.host.port } }

end Sys2Proof.Machine
end

