-- ==== Sys2Proof/Machine/Step.lean ====
section
/-! DEFINITION. One step: the engine takes the next command the host has presented and runs it to its end
(10_state.md R40, 30_encoding.md R140, R149). -/

namespace Sys2Proof.Machine

/-- One command transaction. With none presented the engine waits for the host. A word that is no command faults
ILLEGAL_CMD (R146). -/
def step (s : State) : Host.Outcome State Fault Refusal :=
  match s.host.port with
  | [] => .fault .noCommand
  | t :: rest =>
    match decode t.word with
    | .ok i => exec i (accept t rest s)
    | .error _ => illegalCommand (accept t rest s)

/-- The instruction whose bits are `w` presented as the next command, operand words of zeros above `nbits`. The engine
has no program: the host presents commands (R16, R40; log entry 3). -/
def State.withFetchWord (s : State) (nbits w : Nat) : State := present (transactionOf nbits w) s

end Sys2Proof.Machine
end

