-- ==== Sys2Proof/Safety.lean ====
section
/-! DEFINITION. What the claims are stated with: the invariant of a safe run, the gate and the operand checks of every
command as the spec's tables give them, and the coders written a second way, from the spec's closed descriptions (a
symbol is a path of coded bits, 44_model.md R387), which the claims compare the machine with. -/

namespace Sys2Proof.Machine

/-! ## The invariant -/

/-- Every PROB entry lies in 31..2017 (R281). An entry with no cell is 1024. -/
def probsInRange (s : State) : Bool := s.prob.cells.all fun c => decide (31 ≤ c.2.toNat) && decide (c.2.toNat ≤ 2017)

/-- The derived values are those of reset, or those of options a stream start accepts (R42, R471, R522). -/
def derivedLegal (d : Derived) : Prop :=
  d = Derived.reset ∨
    ∃ o : Options, o.lc.toNat ≤ 8 ∧ o.lp.toNat ≤ 4 ∧ o.pb.toNat ≤ 4 ∧ d = derivedOf o

/-- No per-stream RAM is allocated (R75). -/
def ramsFree (s : State) : Prop :=
  s.prob = Ram.none ∧ s.wbuf = Ram.none ∧ s.son = Ram.none ∧ s.hash = Ram.none ∧ s.matchBuf = Ram.none ∧
    s.opt = Ram.none ∧ s.price = PriceRams.reset ∧ s.owbuf = Ram.none

/-- The sizes of an encoder stream's RAMs (R57, R100). -/
def encoderRams (s : State) : Prop :=
  s.wbuf.size = s.win.blockSize.toNat ∧ s.son.size = 2 * s.mf.cbs.toNat ∧ s.hash.size = s.mf.hashSizeSum.toNat ∧
    s.matchBuf.size = 548 ∧ s.opt.size = 4096 ∧
    s.price.posSlot.size = 256 ∧ s.price.dist.size = 512 ∧ s.price.align.size = 16 ∧
    s.price.lenMatch.size = 4352 ∧ s.price.lenRep.size = 4352 ∧
    s.price.cntMatch.size = 16 ∧ s.price.cntRep.size = 16

/-- The registers an encoder stream start fixes: the match finder's parameters (R240), the table sizes (R55), and the
window's sizes (R201); and the slot of the cyclic array inside it (R250). -/
def encoderRegs (s : State) : Prop :=
  s.mf = mfRegsOf s.opts.dictSize (s.opts.fastBytes.setWidth 32) (decide (s.opts.mfHash = 1#1)) s.mf ∧
    s.mf.cycPos.toNat < s.mf.cbs.toNat ∧
    s.enc.distTableSize = BitVec.ofNat 32 (2 * dictLog s.opts.dictSize) ∧
    s.enc.lenTableSize = s.opts.fastBytes.setWidth 32 - 1#32 ∧
    s.win.keepBefore = s.opts.dictSize + 4096#32 ∧
    s.win.keepAfter = s.opts.fastBytes.setWidth 32 + 274#32 ∧
    s.win.lastSafe = s.win.blockSize - s.win.keepAfter ∧
    s.win.blockSize = s.win.keepBefore + s.win.keepAfter + (((s.win.keepBefore + s.win.keepAfter) >>> 1) + 256#32)

/-- The registers a decoder stream start fixes (R58, R523). -/
def decoderRegs (s : State) : Prop :=
  s.ow.dictSizeCheck = (freshOw s.opts).dictSizeCheck ∧ s.ow.size = (freshOw s.opts).size

/-- What every step keeps. Each field holds at reset, and rules out states no run reaches. -/
structure Inv (s : State) : Prop where
  /-- Every RAM is in canonical form. -/
  memory : Memory.wf s = true
  /-- STATE is one of 0..11 (R48, R355). -/
  coderState : s.cstate.toNat ≤ 11
  /-- PROB entries stay in 31..2017 (R281). -/
  probs : probsInRange s = true
  /-- PROB has probCount entries (R50, R100). -/
  probSize : s.prob.size = s.derived.probCount.toNat
  /-- The derived values are legal (R42). -/
  derived : derivedLegal s.derived
  /-- In PHASE IDLE nothing is allocated and the derived values are 0 (R75). -/
  idle : s.status.phase = .idle → s.derived = Derived.reset ∧ ramsFree s
  /-- An encoder stream runs with legal options, the ones it was started with (R72, R470, R471). -/
  encOptions : s.status.phase = .enc →
    s.opts.mode = 0#1 ∧ encOptionsLegal s.opts s.dictCap = true ∧ s.derived = derivedOf s.opts
  /-- An encoder stream's RAMs have their sizes. -/
  encRams : s.status.phase = .enc → encoderRams s
  /-- An encoder stream's fixed registers. -/
  encRegs : s.status.phase = .enc → encoderRegs s
  /-- A decoder stream runs with legal options, the ones it was started with (R72, R522, R524). -/
  decOptions : s.status.phase = .dec →
    s.opts.mode = 1#1 ∧ decOptionsLegal s.opts s.dictCap = true ∧ s.derived = derivedOf s.opts
  /-- OWBUF has OW.size elements, and while there are any the write index is one of theirs (R100, R105, R510). -/
  output : s.owbuf.size = s.ow.size.toNat ∧ (s.ow.size ≠ 0#32 → s.ow.pos.toNat < s.ow.size.toNat)
  /-- A decoder stream's fixed registers. -/
  decRegs : s.status.phase = .dec → decoderRegs s
  /-- "2^24 ≤ RCE.range" after every renormalization (R287). -/
  encRange : s.status.phase = .enc → s.status.err = .none → 2 ^ 24 ≤ s.rce.range.toNat
  /-- "2^24 ≤ RCD.range" after every renormalization (R289). -/
  decRange : s.status.phase = .dec → s.status.err = .none → 2 ^ 24 ≤ s.rcd.range.toNat

/-! ## The opcode map's gate column and the operand checks -/

/-- The gate class of a command (R150). -/
def gateOf : Instr → Gate
  | .nop | .reset | .regRead | .regWrite | .probRead | .matchRead => .any
  | .wbGetByte | .wbMatchLen | .wbAvail | .mfGetMatches | .mfSkip | .mfMovePos | .mfHash => .enc
  | .rceBit _ | .rceDirect _ | .btEnc _ | .btRevEnc _ => .enc
  | .rcdBit | .rcdDirect _ | .btDec _ | .btRevDec _ => .dec
  | .priceBit _ _ | .btPrice _ | .btRevPrice _ => .any
  | .stChar sel | .stMatch sel | .stRep sel | .stShortRep sel => if sel then .encDec else .any
  | .litEnc | .litEncM | .lenEnc _ | .distEnc => .enc
  | .litDec | .litDecM | .lenDec _ | .distDec => .dec
  | .litPrice _ | .lenPrice _ | .posSlot => .any
  | .repUse | .repPush => .encDec
  | .optGetOptimum | .priceFillDist | .priceFillAlign | .priceLenTable _ => .enc
  | .pricePosLen | .priceRep | .priceShortRep => .enc
  | .encStart => .startE
  | .hdrWrite | .encSymbol | .encFinish => .enc
  | .encStep | .encRun => .runE
  | .hdrRead | .decStart => .startD
  | .decStep | .decRun => .runD
  | .owGetByte => .any
  | .owPutByte | .owCopy => .dec

/-- The phases and modes a gate accepts (R147), the no-op of R149 aside. -/
def Gate.accepts (g : Gate) (s : State) : Prop :=
  match g with
  | .any => True
  | .enc => s.status.phase = .enc
  | .dec => s.status.phase = .dec
  | .encDec => s.status.phase = .enc ∨ s.status.phase = .dec
  | .startE => (s.status.phase = .idle ∨ s.status.phase = .done) ∧ s.opts.mode = 0#1
  | .startD => (s.status.phase = .idle ∨ s.status.phase = .done) ∧ s.opts.mode = 1#1
  | .runE => s.status.phase = .enc
  | .runD => s.status.phase = .dec

/-- A RUN command in PHASE DONE of its own mode (R147, R149). -/
def Gate.isNoOp (g : Gate) (s : State) : Prop :=
  match g with
  | .runE => s.status.phase = .done ∧ s.opts.mode = 0#1
  | .runD => s.status.phase = .done ∧ s.opts.mode = 1#1
  | .any | .enc | .dec | .encDec | .startE | .startD => False

/-- The WBUF index of offset `i` (R207). -/
def windowIndex (s : State) (i : Word) : Nat := (s.win.bufOffset + s.win.pos + i).toNat

/-- The operand checks whose failure is BOUNDS, of every command, as its rule lists them. -/
def operandsLegal (i : Instr) (s : State) : Prop :=
  match i with
  | .regRead | .regWrite => s.x.a0.toNat < 256
  | .probRead | .rceBit _ | .rcdBit => s.x.a0.toNat < s.derived.probCount.toNat
  | .matchRead => s.x.a0.toNat < s.matchBuf.size
  | .wbGetByte => windowIndex s s.x.a0 < s.win.blockSize.toNat
  | .mfHash => ∀ k : Nat, k < (if s.mf.hashArray then 4 else 2) →
      windowIndex s (BitVec.ofNat 32 k) < s.win.blockSize.toNat
  | .priceBit sel _ =>
    if sel then 1 ≤ s.x.a0.toNat ∧ s.x.a0.toNat ≤ 2047 else s.x.a0.toNat < s.derived.probCount.toNat
  | .btEnc n | .btRevEnc n | .btDec n | .btRevDec n | .btPrice n | .btRevPrice n =>
    s.x.a0.toNat + 2 ^ n.toNat ≤ s.derived.probCount.toNat
  | .stChar sel | .stMatch sel | .stRep sel | .stShortRep sel => sel = true ∨ s.x.a0.toNat ≤ 11
  | .litEnc => s.x.a0.toNat < 256 ∧ s.x.a2.toNat < 256
  | .litEncM => s.x.a0.toNat < 256 ∧ s.x.a2.toNat < 256 ∧ s.x.a3.toNat < 256
  | .litDec => s.x.a2.toNat < 256
  | .litDecM => s.x.a2.toNat < 256 ∧ s.x.a3.toNat < 256
  | .litPrice sel => s.derived.probCount ≠ 0#32 ∧ s.x.a0.toNat < 256 ∧ s.x.a2.toNat < 256 ∧
      (sel = true → s.x.a3.toNat < 256)
  | .lenEnc _ | .lenPrice _ => s.x.a0.toNat ≤ 271 ∧ s.x.a1.toNat < s.derived.numPosStates.toNat
  | .lenDec _ => s.x.a1.toNat < s.derived.numPosStates.toNat
  | .distEnc | .distDec => 2 ≤ s.x.a1.toNat ∧ s.x.a1.toNat ≤ 273
  | .repUse => s.x.a0.toNat ≤ 3
  | .priceLenTable _ => s.x.a0.toNat < s.derived.numPosStates.toNat
  | .pricePosLen => 2 ≤ s.x.a1.toNat ∧ s.x.a1.toNat ≤ 273 ∧ s.x.a2.toNat < s.derived.numPosStates.toNat
  | .priceRep => s.x.a0.toNat ≤ 3 ∧ 2 ≤ s.x.a1.toNat ∧ s.x.a1.toNat ≤ 273 ∧ s.x.a2.toNat ≤ 11 ∧
      s.x.a3.toNat < s.derived.numPosStates.toNat
  | .priceShortRep => s.x.a0.toNat ≤ 11 ∧ s.x.a1.toNat < s.derived.numPosStates.toNat
  | .encSymbol => (s.x.a0 = 1#32 ∧ (s.x.a1 = 0xFFFFFFFF#32 ∨ s.x.a1 = 0#32)) ∨
      (2 ≤ s.x.a0.toNat ∧ s.x.a0.toNat ≤ 273)
  | .owGetByte => s.x.a0.toNat < s.ow.size.toNat
  | .owPutByte => s.x.a0.toNat < 256
  | .owCopy => s.x.a0.toNat < s.cnt.nowPos.toNat ∧ s.x.a0.toNat < s.ow.size.toNat ∧
      1 ≤ s.x.a1.toNat ∧ s.x.a1.toNat ≤ 273
  | .nop | .reset | .wbMatchLen | .wbAvail | .mfGetMatches | .mfSkip | .mfMovePos | .rceDirect _ | .rcdDirect _
  | .posSlot | .repPush | .optGetOptimum | .priceFillDist | .priceFillAlign | .encStart | .hdrWrite | .encStep
  | .encRun | .encFinish | .hdrRead | .decStart | .decStep | .decRun => True

/-- A state in which a command's rule runs to its effect: no error, the gate accepts, the operands are legal. -/
def Runnable (i : Instr) (s : State) : Prop :=
  s.status.err = .none ∧ i.wellFormed = true ∧ (gateOf i).accepts s ∧ operandsLegal i s

/-- Both results written. -/
def results (r0 r1 : Word) (s : State) : State := { s with x := { s.x with r0 := r0, r1 := r1 } }

/-- A command that runs in a state of the invariant, with a sink that takes every byte. -/
def Ready (i : Instr) (s : State) : Prop := Inv s ∧ Runnable i s ∧ s.host.sinkRoom = none

/-- And with a source that has `n` bytes ready. -/
def Fed (n : Nat) (s : State) : Prop := s.status.srcEof = false ∧ n ≤ s.host.src.length

/-! ## The registers by number (R60) -/

/-- STATUS as a number (R43). -/
def statusNumber (t : Status) : Nat :=
  (match t.err with
    | .none => 0 | .cfgInvalid => 1 | .dataError => 2 | .truncated => 3 | .headerInvalid => 4 | .illegalCmd => 5
    | .seqError => 6 | .bounds => 7) +
  16 * (match t.phase with | .idle => 0 | .enc => 1 | .dec => 2 | .done => 3) +
  64 * t.srcEof.toNat + 128 * t.endSeen.toNat + 256 * t.hdrOk.toNat

/-- The registers a REG_WRITE may write, with their values (R60). -/
def optionRows (o : Options) : List (Nat × Nat) :=
  [(0x01, o.mode.toNat), (0x02, o.lc.toNat), (0x03, o.lp.toNat), (0x04, o.pb.toNat), (0x05, o.dictSize.toNat),
   (0x06, o.fastBytes.toNat), (0x07, o.endMark.toNat), (0x08, o.mfHash.toNat), (0x09, o.outSize.toNat % 2 ^ 32),
   (0x0A, o.outSize.toNat / 2 ^ 32), (0x0B, o.extendFast.toNat)]

/-- The read-only registers, with their values (R60). -/
def readOnlyRows (s : State) : List (Nat × Nat) :=
  [(0x00, 0x4C5A3737), (0x10, statusNumber s.status), (0x11, s.cnt.nowPos.toNat % 2 ^ 32),
   (0x12, s.cnt.nowPos.toNat / 2 ^ 32), (0x13, s.cnt.inCount.toNat % 2 ^ 32), (0x14, s.cnt.inCount.toNat / 2 ^ 32),
   (0x15, s.cnt.outCount.toNat % 2 ^ 32), (0x16, s.cnt.outCount.toNat / 2 ^ 32), (0x17, s.cstate.toNat),
   (0x18, s.rep.d0.toNat), (0x19, s.rep.d1.toNat), (0x1A, s.rep.d2.toNat), (0x1B, s.rep.d3.toNat),
   (0x1C, if s.status.phase = .enc then s.rce.range.toNat else if s.status.phase = .dec then s.rcd.range.toNat else 0),
   (0x1D, s.rce.low.toNat % 2 ^ 32), (0x1E, s.rce.low.toNat / 2 ^ 32), (0x1F, s.rce.cache.toNat),
   (0x20, s.rce.cacheSize.toNat), (0x21, s.rcd.code.toNat), (0x22, s.win.pos.toNat), (0x23, s.win.streamPos.toNat),
   (0x24, s.enc.addOffset.toNat), (0x25, s.ow.pos.toNat), (0x26, s.ow.dictSizeCheck.toNat), (0x27, s.enc.prevByte.toNat)]

/-- Every assigned register number with its value. -/
def registerRows (s : State) : List (Nat × Nat) := optionRows s.opts ++ readOnlyRows s

/-- The widths of the registers a REG_WRITE may write (R60); OUT_SIZE is written in two halves of 32 bits. -/
def optionWidths : List (Nat × Nat) :=
  [(0x01, 1), (0x02, 4), (0x03, 3), (0x04, 3), (0x05, 32), (0x06, 9), (0x07, 1), (0x08, 1), (0x09, 32), (0x0A, 32), (0x0B, 1)]

/-! ## Kinds of commands -/

/-- The commands without side effects beyond R0, R1 and a fault (R118, R304, R334, R335, R390, R398, R401, R404,
R454 to R456). -/
def isReadOnly : Instr → Bool
  | .nop | .regRead | .probRead | .matchRead | .wbGetByte | .wbMatchLen | .wbAvail | .mfHash | .priceBit _ _
  | .btPrice _ | .btRevPrice _ | .litPrice _ | .lenPrice _ | .posSlot | .pricePosLen | .priceRep | .priceShortRep
  | .owGetByte => true
  | .stChar sel | .stMatch sel | .stRep sel | .stShortRep sel => !sel
  | .reset | .regWrite | .mfGetMatches | .mfSkip | .mfMovePos | .rceBit _ | .rceDirect _ | .rcdBit | .rcdDirect _
  | .btEnc _ | .btRevEnc _ | .btDec _ | .btRevDec _ | .litEnc | .litEncM | .litDec | .litDecM | .lenEnc _ | .lenDec _
  | .distEnc | .distDec | .repUse | .repPush | .optGetOptimum | .priceFillDist | .priceFillAlign | .priceLenTable _
  | .encStart | .hdrWrite | .encStep | .encRun | .encSymbol | .encFinish | .hdrRead | .decStart | .decStep | .decRun
  | .owPutByte | .owCopy => false

/-- The unit commands that code bits. -/
def codesBits : Instr → Bool
  | .rceBit _ | .rceDirect _ | .btEnc _ | .btRevEnc _ | .litEnc | .litEncM | .lenEnc _ | .distEnc => true
  | .nop | .reset | .regRead | .regWrite | .probRead | .matchRead | .wbGetByte | .wbMatchLen | .wbAvail
  | .mfGetMatches | .mfSkip | .mfMovePos | .mfHash | .rcdBit | .rcdDirect _ | .priceBit _ _ | .btDec _ | .btRevDec _
  | .btPrice _ | .btRevPrice _ | .stChar _ | .stMatch _ | .stRep _ | .stShortRep _ | .litDec | .litDecM | .litPrice _
  | .lenDec _ | .lenPrice _ | .distDec | .posSlot | .repUse | .repPush | .optGetOptimum | .priceFillDist
  | .priceFillAlign | .priceLenTable _ | .pricePosLen | .priceRep | .priceShortRep | .encStart | .hdrWrite | .encStep
  | .encRun | .encSymbol | .encFinish | .hdrRead | .decStart | .decStep | .decRun | .owGetByte | .owPutByte
  | .owCopy => false

/-- The unit commands that decode bits. -/
def readsBits : Instr → Bool
  | .rcdBit | .rcdDirect _ | .btDec _ | .btRevDec _ | .litDec | .litDecM | .lenDec _ | .distDec => true
  | .nop | .reset | .regRead | .regWrite | .probRead | .matchRead | .wbGetByte | .wbMatchLen | .wbAvail
  | .mfGetMatches | .mfSkip | .mfMovePos | .mfHash | .rceBit _ | .rceDirect _ | .priceBit _ _ | .btEnc _ | .btRevEnc _
  | .btPrice _ | .btRevPrice _ | .stChar _ | .stMatch _ | .stRep _ | .stShortRep _ | .litEnc | .litEncM | .litPrice _
  | .lenEnc _ | .lenPrice _ | .distEnc | .posSlot | .repUse | .repPush | .optGetOptimum | .priceFillDist
  | .priceFillAlign | .priceLenTable _ | .pricePosLen | .priceRep | .priceShortRep | .encStart | .hdrWrite | .encStep
  | .encRun | .encSymbol | .encFinish | .hdrRead | .decStart | .decStep | .decRun | .owGetByte | .owPutByte
  | .owCopy => false

/-- A command that starts a stream or reads its header: it clears stream counters (R46). -/
def startsStream : Instr → Prop := fun i => i = .encStart ∨ i = .hdrRead ∨ i = .decStart

/-! ## The window and the match finder -/

/-- The window byte at offset `i` (R207). -/
def windowByte (s : State) (i : Word) : Byte := s.wbuf.get (windowIndex s i)

/-- The byte of an absolute position (R200, R101). -/
def byteAt (s : State) (p : Word) : Byte := s.wbuf.get (s.win.bufOffset + p).toNat

/-- What the window rules keep while the encoder drives the window (R211, R212). -/
structure WindowOk (s : State) : Prop where
  /-- "WIN.bufOffset + WIN.streamPos ≤ WIN.blockSize" (R212). -/
  filled : (s.win.bufOffset + s.win.streamPos).toNat ≤ s.win.blockSize.toNat
  /-- "WIN.pos ≤ WIN.streamPos" (R212). -/
  ahead : s.win.pos.toNat ≤ s.win.streamPos.toNat
  /-- Every position from keepBefore back up to the last byte read lies at a WBUF index below blockSize (R212). -/
  inside : ∀ p : Word, 1 ≤ p.toNat → s.win.pos.toNat ≤ p.toNat + s.win.keepBefore.toNat →
    p.toNat < s.win.streamPos.toNat → (s.win.bufOffset + p).toNat < s.win.blockSize.toNat
  /-- Until the end of the input, keepAfter bytes from the current position on are present (R211). -/
  lookAhead : s.win.streamEnd = false → s.win.pos.toNat + s.win.keepAfter.toNat ≤ s.win.streamPos.toNat
  /-- Until then the refill limit stands keepAfter bytes before the last byte read (R206). -/
  limit : s.win.streamEnd = false → s.win.posLimit.toNat + s.win.keepAfter.toNat = s.win.streamPos.toNat
  /-- Positions are rebased before they reach 0x7FFFFFFF (R250, R254). -/
  below : s.win.pos.toNat < 0x7FFFFFFF

/-- A refill that does not have to wait: the source ends, or has a whole window of bytes ready (R110, R206). -/
def RefillReady (s : State) : Prop :=
  s.win.streamEnd = true ∨ s.status.srcEof = true ∨ s.host.srcEnd = true ∨ s.win.blockSize.toNat ≤ s.host.src.length

/-- The position after this one needs no refill and no rebasing (R203, R250). -/
def MovesInside (s : State) : Prop :=
  (s.win.pos + 1#32).toNat ≤ s.win.posLimit.toNat ∧ s.win.pos + 1#32 ≠ 0x7FFFFFFF#32

/-- `MfMovePos` where the window needs no refill and no rebasing (R203, R250). -/
def advanced (s : State) : State :=
  { s with
    win := { s.win with pos := s.win.pos + 1#32 }
    mf := { s.mf with cycPos := if s.mf.cbs.toNat ≤ (s.mf.cycPos + 1#32).toNat then 0#32 else s.mf.cycPos + 1#32 } }

/-- Too few bytes are left for a search (R245, R249, R252). -/
def NearEnd (s : State) : Prop :=
  s.win.streamPos.toNat < (s.win.pos + s.mf.matchMaxLen).toNat ∧
    (s.win.streamPos - s.win.pos).toNat < s.mf.minMatchCheck.toNat

/-- The bytes the hash of the current position reads lie inside WBUF (R104, R263). -/
def SearchReadable (s : State) : Prop :=
  ∀ k : Nat, k < (if s.mf.hashArray then 4 else 2) → windowIndex s (BitVec.ofNat 32 k) < s.win.blockSize.toNat

/-- The oldest position a candidate may not have (R245). -/
def oldest (s : State) : Nat := s.win.pos.toNat - s.mf.cbs.toNat

/-- `h2` of R243: 10 bits of the hash of two bytes. -/
def hashTwo (s : State) : Nat :=
  (crcTable (windowByte s 0#32) ^^^ (windowByte s 1#32).setWidth 32).toNat % 1024

/-- The hash of three bytes before its mask (R243). -/
def hashThreeWord (s : State) : Word :=
  crcTable (windowByte s 0#32) ^^^ (windowByte s 1#32).setWidth 32 ^^^ ((windowByte s 2#32).setWidth 32 <<< 8)

/-- `h3` of R243: 16 bits of the hash of three bytes. -/
def hashThree (s : State) : Nat := (hashThreeWord s).toNat % 65536

/-- `hv` of R243 and R244. -/
def hashMain (s : State) : Nat :=
  if s.mf.hashArray then ((hashThreeWord s ^^^ (crcTable (windowByte s 3#32) <<< 5)) &&& s.mf.hashMask).toNat
  else (windowByte s 0#32).toNat ^^^ ((windowByte s 1#32).toNat * 256)

/-- The HASH index of the main bucket (R245). -/
def mainBucket (s : State) : Nat := s.mf.fixHashSize.toNat + hashMain s

/-- No bucket of the current position holds a candidate (R245). -/
def NoCandidate (s : State) : Prop :=
  (s.hash.get (mainBucket s)).toNat ≤ oldest s ∧
    (s.mf.hashArray = true → (s.hash.get (hashTwo s)).toNat ≤ oldest s ∧ (s.hash.get (1024 + hashThree s)).toNat ≤ oldest s)

/-- The window seen from another position. -/
def standingAt (p : Word) (s : State) : State := { s with win := { s.win with pos := p } }

/-- A position before the current one that a search may follow (R245, R251). -/
def Live (s : State) (p : Word) : Prop := oldest s < p.toNat ∧ p.toNat < s.win.pos.toNat

/-- The cyclic slot of a position: "(MF.cycPos − (WIN.pos − p)) mod MF.cbs" (R251). -/
def slotAt (s : State) (p : Word) : Nat :=
  (s.mf.cycPos.toNat + s.mf.cbs.toNat - (s.win.pos.toNat - p.toNat)) % s.mf.cbs.toNat

/-- What the match finder keeps in HASH and SON while the encoder drives it: every stored position is an earlier one, a
node's subtrees hang below older nodes, and a bucket names a position whose bytes have the bucket's hash. -/
structure FinderOk (s : State) : Prop where
  /-- Every stored position lies before the current one (R245, R249, R254). -/
  past : (∀ k : Nat, (s.hash.get k).toNat < s.win.pos.toNat) ∧ ∀ k : Nat, (s.son.get k).toNat < s.win.pos.toNat
  /-- The subtrees of a node are rooted at older nodes (R245, R251). -/
  older : ∀ p : Word, Live s p →
    (s.son.get (2 * slotAt s p)).toNat < p.toNat ∧ (s.son.get (2 * slotAt s p + 1)).toNat < p.toNat
  /-- A position is stored only with the bytes of its hash read (R245, R252). -/
  read : ∀ k : Nat, Live s (s.hash.get k) → (s.hash.get k).toNat + s.mf.minMatchCheck.toNat ≤ s.win.streamPos.toNat
  /-- The buckets of the 2-byte and 3-byte hashes (R243, R245). -/
  short : s.mf.hashArray = true →
    (∀ k : Nat, k < 1024 → Live s (s.hash.get k) → hashTwo (standingAt (s.hash.get k) s) = k) ∧
    ∀ k : Nat, k < 65536 → Live s (s.hash.get (1024 + k)) → hashThree (standingAt (s.hash.get (1024 + k)) s) = k
  /-- The main buckets (R243 to R245). -/
  main : ∀ k : Nat, s.mf.fixHashSize.toNat ≤ k → Live s (s.hash.get k) → mainBucket (standingAt (s.hash.get k) s) = k

/-- The buckets of the current position written with it (R245, R249). -/
def headsWritten (s : State) : Ram Word 0#32 :=
  if s.mf.hashArray then
    ((s.hash.set (hashTwo s) s.win.pos).set (1024 + hashThree s) s.win.pos).set (mainBucket s) s.win.pos
  else s.hash.set (mainBucket s) s.win.pos

/-- A node without subtrees inserted at the current position (R245, R249). -/
def leafInserted (s : State) : State :=
  { s with
    hash := headsWritten s
    son := (s.son.set (2 * s.mf.cycPos.toNat + 1) 0#32).set (2 * s.mf.cycPos.toNat) 0#32 }

/-- `n` is the count of `WinMatchLen(i, r, limit)` (R208): the equal bytes from offset `i` on against those `r + 1` before,
up to the limit, which at the stream's end is clipped to the bytes left; every compared index lies inside WBUF. -/
def RunsFor (s : State) (i r : Word) (limit n : Nat) : Prop :=
  let q := s.win.pos + i
  let cap := if s.win.streamEnd ∧ s.win.streamPos.toNat < q.toNat + limit then s.win.streamPos.toNat - q.toNat else limit
  let here (k : Nat) : Nat := (s.win.bufOffset + q + BitVec.ofNat 32 k).toNat
  let back (k : Nat) : Nat := (s.win.bufOffset + q + BitVec.ofNat 32 k - (r + 1#32)).toNat
  let inside (k : Nat) : Prop := here k < s.win.blockSize.toNat ∧ back k < s.win.blockSize.toNat
  n ≤ cap ∧ (∀ k < n, inside k ∧ s.wbuf.get (here k) = s.wbuf.get (back k)) ∧
    (n = cap ∨ (inside n ∧ s.wbuf.get (here n) ≠ s.wbuf.get (back n)))

/-- A new pass of the parser begins (R411, R420 part B): `u` is the state in which it looks for the first decision,
`lenMain` and `numPairs` the search result it uses: the one kept by the last pass, or that of a fresh search, whose longest
length is extended beyond FAST_BYTES where EXTEND_FAST is 1 (R410). -/
def PassStart (s u : State) (lenMain numPairs : Word) : Prop :=
  (s.enc.longestFound = true ∧ lenMain = s.enc.longestLen ∧ numPairs = s.enc.longestPairs ∧
    u = { s with enc := { s.enc with optCur := 0#32, optEnd := 0#32, longestFound := false } }) ∨
  (s.enc.longestFound = false ∧ ∃ m : State, exec .mfGetMatches s = .next m ∧ m.status.err = .none ∧ numPairs = m.x.r0 ∧
    u = { m with
      enc := { s.enc with optCur := 0#32, optEnd := 0#32, addOffset := s.enc.addOffset + 1#32 }
      x := s.x } ∧
    if m.x.r1 = s.mf.matchMaxLen ∧ s.opts.extendFast = 1#1 then
      ∃ more : Nat, RunsFor m (m.x.r1 - 1#32) (m.matchBuf.get (numPairs - 1#32).toNat) (273 - m.x.r1.toNat) more ∧
        lenMain = m.x.r1 + BitVec.ofNat 32 more
    else lenMain = m.x.r1)

/-! ## Coded bits -/

/-- One bit of the payload: coded with a PROB entry, or raw (R284, R285). -/
inductive CodedBit where
  | model (i : Word) (b : Bool)
  | direct (b : Bool)
  deriving DecidableEq, Repr

/-- A PROB entry after coding `b` with it (R280). -/
def adapted (p : Prob) (b : Bool) : Prob :=
  BitVec.ofNat 11 (if b then p.toNat - p.toNat / 32 else p.toNat + (2048 - p.toNat) / 32)

/-- The bytes put on the sink, oldest first (R111). -/
def emit (bs : List Byte) (s : State) : State :=
  { s with
    host := { s.host with sink := bs.reverse ++ s.host.sink }
    cnt := { s.cnt with outCount := s.cnt.outCount + BitVec.ofNat 64 bs.length } }

/-- The bytes `RceShiftLow` settles (R283): the cache byte and the 0xFF bytes pending behind it, each plus the carry. -/
def settledBytes (r : RceRegs) : List Byte :=
  let carry : Byte := if 2 ^ 32 ≤ r.low.toNat then 1#8 else 0#8
  (r.cache + carry) :: List.replicate ((r.cacheSize - 1#32).toNat) (0xFF#8 + carry)

/-- `RceShiftLow` (R283) in closed form: the registers after it and the bytes written. -/
def shiftedLow (r : RceRegs) : RceRegs × List Byte :=
  if r.low.toNat < 0xFF000000 ∨ 2 ^ 32 ≤ r.low.toNat then
    ({ r with cache := BitVec.ofNat 8 (r.low.toNat / 2 ^ 24), cacheSize := 1#32,
              low := BitVec.ofNat 33 (r.low.toNat % 2 ^ 24 * 256) }, settledBytes r)
  else
    ({ r with cacheSize := r.cacheSize + 1#32, low := BitVec.ofNat 33 (r.low.toNat % 2 ^ 24 * 256) }, [])

/-- The encoder after one `RceShiftLow`, the sink taking every byte. -/
def shiftLowState (s : State) : State := emit (shiftedLow s.rce).2 { s with rce := (shiftedLow s.rce).1 }

/-- The renormalization after a coded bit (R284, R285). -/
def renormalized (s : State) : State :=
  if s.rce.range.toNat < 2 ^ 24 then shiftLowState { s with rce := { s.rce with range := s.rce.range <<< 8 } } else s

/-- The encoder after one coded bit (R284, R285). -/
def codeBit (s : State) : CodedBit → State
  | .model i b =>
    let p := s.prob.get i.toNat
    let bound := BitVec.ofNat 32 (s.rce.range.toNat / 2048 * p.toNat)
    renormalized
      { s with
        prob := s.prob.set i.toNat (adapted p b)
        rce := if b then { s.rce with low := s.rce.low + bound.setWidth 33, range := s.rce.range - bound }
               else { s.rce with range := bound } }
  | .direct b =>
    let half := BitVec.ofNat 32 (s.rce.range.toNat / 2)
    renormalized
      { s with rce := { s.rce with range := half, low := if b then s.rce.low + half.setWidth 33 else s.rce.low } }

/-- The encoder after a path of coded bits. -/
def codePath (s : State) (path : List CodedBit) : State := path.foldl codeBit s

/-- The decoder after taking one payload byte (R291). -/
def takeByte (s : State) : State :=
  match s.host.src with
  | [] => s
  | b :: rest =>
    { s with
      host := { s.host with src := rest }
      cnt := { s.cnt with inCount := s.cnt.inCount + 1 }
      rcd := { range := s.rcd.range <<< 8, code := (s.rcd.code <<< 8) ||| b.setWidth 32 } }

/-- The decoder's renormalization (R290, R292). -/
def refilled (s : State) : State := if s.rcd.range.toNat < 2 ^ 24 then takeByte s else s

/-- The bound of R290. -/
def decodeBound (s : State) (i : Word) : Word :=
  BitVec.ofNat 32 (s.rcd.range.toNat / 2048 * (s.prob.get i.toNat).toNat)

/-- Whether a coded bit is the one the decoder's registers decide (R290, R292). -/
def agrees (s : State) : CodedBit → Prop
  | .model i b => b = decide ((decodeBound s i).toNat ≤ s.rcd.code.toNat)
  | .direct b => b = decide (s.rcd.range.toNat / 2 ≤ s.rcd.code.toNat)

/-- The decoder after one bit, before its renormalization (R290, R292). -/
def bitTaken (s : State) : CodedBit → State
  | .model i b =>
    let bound := decodeBound s i
    { s with
      prob := s.prob.set i.toNat (adapted (s.prob.get i.toNat) b)
      rcd := if b then { range := s.rcd.range - bound, code := s.rcd.code - bound } else { s.rcd with range := bound } }
  | .direct b =>
    let half := BitVec.ofNat 32 (s.rcd.range.toNat / 2)
    { s with rcd := { range := half, code := if b then s.rcd.code - half else s.rcd.code } }

/-- The decoder after one bit (R290, R292). -/
def followBit (s : State) (c : CodedBit) : State := refilled (bitTaken s c)

/-- `Reads s path t`: the decoder in `s` decides exactly the bits of `path`, in order, and is then in `t`. -/
def Reads (s : State) : List CodedBit → State → Prop
  | [], t => t = s
  | c :: rest, t => agrees s c ∧ Reads (followBit s c) rest t

/-- The price of a bit in 1/64 bit (R296). -/
def bitCost (p : Prob) (b : Bool) : Word := probPrice ((if b then 2048 - p.toNat else p.toNat) / 4)

/-- The price of a path with PROB as it stands (R325, R364, R377). -/
def pathCost (s : State) : List CodedBit → Word
  | [] => 0#32
  | .model i b :: rest => bitCost (s.prob.get i.toNat) b + pathCost s rest
  | .direct _ :: rest => 64#32 + pathCost s rest

/-! ## The paths of the symbol coders -/

/-- The natural-order tree (R320, R321): at depth `j` the node is 1 followed by the top `j` of the `n` bits. -/
def treePath (base : Word) (n : Nat) (sym : Word) : List CodedBit :=
  (List.range n).map fun j =>
    .model (base + BitVec.ofNat 32 (2 ^ j + sym.toNat / 2 ^ (n - j) % 2 ^ j)) (sym.getLsbD (n - 1 - j))

/-- The node of the reversed tree after `k` bits (R323): 1 followed by bits 0, 1, …, k − 1. -/
def reverseNode (sym : Word) : Nat → Nat
  | 0 => 1
  | k + 1 => 2 * reverseNode sym k + (sym.getLsbD k).toNat

/-- The reversed tree (R323). -/
def reversePath (base : Word) (n : Nat) (sym : Word) : List CodedBit :=
  (List.range n).map fun k => .model (base + BitVec.ofNat 32 (reverseNode sym k)) (sym.getLsbD k)

/-- Raw bits, most significant first (R285). -/
def directPath (v : Word) (n : Nat) : List CodedBit := (List.range n).map fun k => .direct (v.getLsbD (n - 1 - k))

/-- The literal table (R361). -/
def literalTable (d : Derived) (position : Word) (prev : Byte) : Word :=
  BitVec.ofNat 32
    (1846 + 768 * (position.toNat % (d.litPosMask.toNat + 1) * 2 ^ d.lcLatched.toNat
      + prev.toNat / 2 ^ (8 - d.lcLatched.toNat)))

/-- The plain literal path (R362). -/
def literalPath (table : Word) (sym : Byte) : List CodedBit := treePath table 8 (sym.setWidth 32)

/-- The matched literal path (R362): at depth `j` the matched trees while the top `j` bits agree with the match byte. -/
def matchedPath (table : Word) (mb sym : Byte) : List CodedBit :=
  (List.range 8).map fun j =>
    let node := 2 ^ j + sym.toNat / 2 ^ (8 - j)
    let plane := if mb.toNat / 2 ^ (8 - j) = sym.toNat / 2 ^ (8 - j) then 256 * (1 + (mb.getLsbD (7 - j)).toNat) else 0
    .model (table + BitVec.ofNat 32 (plane + node)) (sym.getLsbD (7 - j))

/-- The base of a length coder (R375). -/
def lengthBase (rep : Bool) : Word := if rep then 1332#32 else 818#32

/-- The length path (R375). -/
def lengthPath (rep : Bool) (sym ps : Word) : List CodedBit :=
  if sym.toNat < 8 then .model (lengthBase rep) false :: treePath (lengthBase rep + 2#32 + 8#32 * ps) 3 sym
  else if sym.toNat < 16 then
    .model (lengthBase rep) true :: .model (lengthBase rep + 1#32) false ::
      treePath (lengthBase rep + 130#32 + 8#32 * ps) 3 (sym - 8#32)
  else
    .model (lengthBase rep) true :: .model (lengthBase rep + 1#32) true ::
      treePath (lengthBase rep + 258#32) 8 (sym - 16#32)

/-- The position slot (R370). -/
def slotOf (dist : Nat) : Nat :=
  if dist < 4 then dist else 2 * Nat.log2 dist + dist / 2 ^ (Nat.log2 dist - 1) % 2

/-- `footerBits` (R370). -/
def footerOf (slot : Nat) : Nat := slot / 2 - 1

/-- `slotBase` (R370). -/
def slotStart (slot : Nat) : Nat := (2 + slot % 2) * 2 ^ footerOf slot

/-- The position-slot tree of a length (R371, R378). -/
def slotTree (len : Word) : Word := BitVec.ofNat 32 (432 + 64 * min (len.toNat - 2) 3)

/-- The distance path (R380, R381). -/
def distancePath (dist len : Word) : List CodedBit :=
  let slot := slotOf dist.toNat
  let low := dist.toNat - slotStart slot
  treePath (slotTree len) 6 (BitVec.ofNat 32 slot) ++
    if slot < 4 then []
    else if slot < 14 then
      reversePath (BitVec.ofNat 32 (688 + slotStart slot - slot - 1)) (footerOf slot) (BitVec.ofNat 32 low)
    else
      directPath (BitVec.ofNat 32 (low / 16)) (footerOf slot - 4) ++ reversePath 802#32 4 (BitVec.ofNat 32 (low % 16))

/-! ## Symbols (R387) -/

/-- A symbol of the payload. -/
inductive Symbol where
  | literal (sym : Byte)
  | copy (dist len : Word)
  | shortRep
  | rep (i : Nat) (len : Word)
  deriving DecidableEq, Repr

/-- The lengths and rep indices a symbol may have (R387). -/
def Symbol.legal : Symbol → Prop
  | .literal _ | .shortRep => True
  | .copy _ len => 2 ≤ len.toNat ∧ len.toNat ≤ 273
  | .rep i len => i ≤ 3 ∧ 2 ≤ len.toNat ∧ len.toNat ≤ 273

/-- `position & posStateMask` at NOW_POS (R356), posStateMask being `2^PB − 1`. -/
def posState (s : State) : Word := BitVec.ofNat 32 (s.cnt.nowPos.toNat % (s.derived.posStateMask.toNat + 1))

/-- The entry of a region indexed by state and position state (R358). -/
def stateEntry (s : State) (base : Nat) (st : CState) (ps : Word) : Word :=
  BitVec.ofNat 32 (base + st.toNat * (s.derived.posStateMask.toNat + 1) + ps.toNat)

/-- The entry of a region indexed by state (R358). -/
def entryOf (base : Nat) (st : CState) : Word := BitVec.ofNat 32 (base + st.toNat)

/-- The bits that choose rep `i` of length at least 2 in a state and a position state (R387). -/
def repBits (s : State) (st : CState) (ps : Word) : Nat → List CodedBit
  | 0 => [.model (entryOf 204 st) false, .model (stateEntry s 240 st ps) true]
  | 1 => [.model (entryOf 204 st) true, .model (entryOf 216 st) false]
  | 2 => [.model (entryOf 204 st) true, .model (entryOf 216 st) true, .model (entryOf 228 st) false]
  | _ => [.model (entryOf 204 st) true, .model (entryOf 216 st) true, .model (entryOf 228 st) true]

/-- The bits that choose the short rep (R387). -/
def shortRepBits (s : State) (st : CState) (ps : Word) : List CodedBit :=
  [.model (entryOf 204 st) false, .model (stateEntry s 240 st ps) false]

/-- The IsMatch and IsRep bits of a match, and of a rep (R387). -/
def matchStart (s : State) (isRep : Bool) : List CodedBit :=
  [.model (stateEntry s 0 s.cstate (posState s)) true, .model (entryOf 192 s.cstate) isRep]

/-- The bits of a literal at NOW_POS, `prev` the byte before it and `mb` its match byte (R365, R387). -/
def literalBits (s : State) (prev mb sym : Byte) : List CodedBit :=
  let table := literalTable s.derived (BitVec.ofNat 32 s.cnt.nowPos.toNat) prev
  .model (stateEntry s 0 s.cstate (posState s)) false ::
    (if s.cstate.toNat < 7 then literalPath table sym else matchedPath table mb sym)

/-- The bits of a symbol coded in state `s`, in the order coded (R387). -/
def symbolBits (s : State) (prev mb : Byte) : Symbol → List CodedBit
  | .literal sym => literalBits s prev mb sym
  | .copy dist len => matchStart s false ++ (lengthPath false (len - 2#32) (posState s) ++ distancePath dist len)
  | .shortRep => matchStart s true ++ shortRepBits s s.cstate (posState s)
  | .rep i len => matchStart s true ++ (repBits s s.cstate (posState s) i ++ lengthPath true (len - 2#32) (posState s))

/-- The table of R355, one row a symbol kind, indexed by the state before. -/
def transitions : Symbol → List (BitVec 4)
  | .literal _ => [0, 0, 0, 0, 1, 2, 3, 4, 5, 6, 4, 5]
  | .copy _ _ => [7, 7, 7, 7, 7, 7, 7, 10, 10, 10, 10, 10]
  | .rep _ _ => [8, 8, 8, 8, 8, 8, 8, 11, 11, 11, 11, 11]
  | .shortRep => [9, 9, 9, 9, 9, 9, 9, 11, 11, 11, 11, 11]

/-- STATE after a symbol (R355). -/
def stateAfter (st : CState) (sym : Symbol) : CState := (transitions sym).getD st.toNat 0

/-- REP[0..3] as a list, most recent first. -/
def Reps.list (r : Reps) : List Word := [r.d0, r.d1, r.d2, r.d3]

/-- The rep cache after a symbol, as a list (R385, R386, R387): the distance used goes to the front and the others keep
their order, the oldest dropped when a new distance comes in. -/
def repsAfter (r : Reps) : Symbol → List Word
  | .literal _ | .shortRep => r.list
  | .copy dist _ => dist :: r.list.take 3
  | .rep i _ => r.list.getD i 0#32 :: r.list.eraseIdx i

/-- Four distances of a list. -/
def Reps.ofList (l : List Word) : Reps :=
  { d0 := l.getD 0 0#32, d1 := l.getD 1 0#32, d2 := l.getD 2 0#32, d3 := l.getD 3 0#32 }

/-- STATE and REP after a symbol. -/
def settleSymbol (sym : Symbol) (s : State) : State :=
  { s with cstate := stateAfter s.cstate sym, rep := Reps.ofList (repsAfter s.rep sym) }

/-! ## The encoder's bookkeeping -/

/-- One length coder's price table of a position state, refreshed (R442): `n` symbols. -/
def refreshedLengths (s : State) (rep : Bool) (ps : Word) (n : Nat) (r : Ram Word 0#32) : Ram Word 0#32 :=
  (List.range n).foldl
    (fun r i => r.set (ps.toNat * 272 + i) (pathCost s (lengthPath rep (BitVec.ofNat 32 i) ps))) r

/-- `UpdateLenTable` (R442). -/
def lengthsRefreshed (rep : Bool) (ps : Word) (s : State) : State :=
  let n := s.enc.lenTableSize
  if rep then
    { s with price := { s.price with lenRep := refreshedLengths s rep ps n.toNat s.price.lenRep,
                                     cntRep := s.price.cntRep.set ps.toNat n } }
  else
    { s with price := { s.price with lenMatch := refreshedLengths s rep ps n.toNat s.price.lenMatch,
                                     cntMatch := s.price.cntMatch.set ps.toNat n } }

/-- The counter of a length coder for a position state (R57). -/
def lengthCounter (s : State) (rep : Bool) (ps : Word) : Word :=
  if rep then s.price.cntRep.get ps.toNat else s.price.cntMatch.get ps.toNat

/-- The counter written. -/
def setLengthCounter (rep : Bool) (ps n : Word) (s : State) : State :=
  if rep then { s with price := { s.price with cntRep := s.price.cntRep.set ps.toNat n } }
  else { s with price := { s.price with cntMatch := s.price.cntMatch.set ps.toNat n } }

/-- `LenCountDown` (R443). -/
def countedDown (rep : Bool) (ps : Word) (s : State) : State :=
  let n := lengthCounter s rep ps - 1#32
  let t := setLengthCounter rep ps n s
  if n = 0#32 then lengthsRefreshed rep ps t else t

/-- The WBUF indices `EncodeSymbol` reads for a decision lie inside WBUF (R104, R480). -/
def decisionReadable (s : State) (len back : Word) : Prop :=
  if len = 1#32 ∧ back = 0xFFFFFFFF#32 then
    windowIndex s (0#32 - s.enc.addOffset) < s.win.blockSize.toNat ∧
      (7 ≤ s.cstate.toNat → windowIndex s (0#32 - s.rep.d0 - 1#32 - s.enc.addOffset) < s.win.blockSize.toNat)
  else windowIndex s (len - 1#32 - s.enc.addOffset) < s.win.blockSize.toNat

/-- The symbol a decision names (R388); `cur` is the byte to code. -/
def symbolOf (cur : Byte) (len back : Word) : Symbol :=
  if len = 1#32 ∧ back = 0xFFFFFFFF#32 then .literal cur
  else if len = 1#32 then .shortRep
  else if back.toNat < 4 then .rep back.toNat len
  else .copy (back - 4#32) len

/-- The symbol's bits coded, the length counter counted down where R480 does, and the match counters. -/
def symbolCoded (prev mb : Byte) (s : State) : Symbol → State
  | .literal sym => codePath s (symbolBits s prev mb (.literal sym))
  | .shortRep => codePath s (symbolBits s prev mb .shortRep)
  | .rep i len => countedDown true (posState s) (codePath s (symbolBits s prev mb (.rep i len)))
  | .copy dist len =>
    let t := codePath s (matchStart s false ++ lengthPath false (len - 2#32) (posState s))
    let u := codePath (countedDown false (posState s) t) (distancePath dist len)
    { u with enc := { u.enc with
        matchPriceCount := u.enc.matchPriceCount + 1#32
        alignPriceCount := if 14 ≤ slotOf dist.toNat then u.enc.alignPriceCount + 1#32 else u.enc.alignPriceCount } }

/-- `EncodeSymbol(len, back)` (R480). -/
def decisionCoded (s : State) (len back : Word) : State :=
  let cur := windowByte s (0#32 - s.enc.addOffset)
  let mb := windowByte s (0#32 - s.rep.d0 - 1#32 - s.enc.addOffset)
  let sym := symbolOf cur len back
  let t := settleSymbol sym (symbolCoded s.enc.prevByte mb s sym)
  { t with
    enc := { t.enc with prevByte := windowByte s (len - 1#32 - s.enc.addOffset), addOffset := s.enc.addOffset - len }
    cnt := { t.cnt with nowPos := s.cnt.nowPos + len.setWidth 64 } }

/-- The five byte outputs of the flush (R286). -/
def flushed (s : State) : State := shiftLowState (shiftLowState (shiftLowState (shiftLowState (shiftLowState s))))

/-- The end marker coded (R482): a match of length 2 at the reserved distance, REP, NOW_POS and the match counters kept. -/
def endMarkerCoded (s : State) : State :=
  let t := codePath s (matchStart s false ++ lengthPath false 0#32 (posState s))
  let u := codePath (countedDown false (posState s) t) (distancePath 0xFFFFFFFF#32 2#32)
  { u with cstate := stateAfter s.cstate (.copy 0xFFFFFFFF#32 2#32) }

/-- `EncFinishStream` (R483). -/
def streamFinished (s : State) : State :=
  let t := flushed (if s.opts.endMark = 1#1 then endMarkerCoded s else s)
  { t with status := { t.status with phase := .done } }

/-! ## The decoder's output -/

/-- The OWBUF index of distance `r` (R105): `(OW.pos − r − 1) mod OW.size`, for `r < OW.size`. -/
def outIndex (s : State) (r : Word) : Nat := (s.ow.pos.toNat + s.ow.size.toNat - 1 - r.toNat) % s.ow.size.toNat

/-- The byte at distance `r` (R511). -/
def outByte (s : State) (r : Word) : Byte := s.owbuf.get (outIndex s r)

/-- One output byte (R510). -/
def outPut (b : Byte) (s : State) : State :=
  emit [b]
    { s with
      owbuf := s.owbuf.set s.ow.pos.toNat b
      ow := { s.ow with pos := BitVec.ofNat 32 ((s.ow.pos.toNat + 1) % s.ow.size.toNat) }
      cnt := { s.cnt with nowPos := s.cnt.nowPos + 1 } }

/-- A copy of `n` bytes from distance `r`, each byte read after the one before it is written (R513). -/
def outCopy (r : Word) : Nat → State → State
  | 0, s => s
  | n + 1, s => outCopy r n (outPut (outByte s r) s)

/-- Whether the distance at the front is impossible (R533). -/
abbrev frontImpossible (s : State) : Prop :=
  s.cnt.nowPos.toNat ≤ s.rep.d0.toNat ∨ s.ow.dictSizeCheck.toNat ≤ s.rep.d0.toNat

/-- The results of a DEC_STEP, and PHASE DONE when NOW_POS has reached OUT_SIZE (R530, R534). -/
def stepDone (kind n : Word) (s : State) : State :=
  { s with
    status := { s.status with phase := if s.opts.outSize.toNat ≤ s.cnt.nowPos.toNat then .done else s.status.phase }
    x := { s.x with r0 := kind, r1 := n } }

/-- The bytes a copy of length `len` may still produce (R525). -/
def copyRoom (s : State) (len : Word) : Nat := min len.toNat (s.opts.outSize.toNat - s.cnt.nowPos.toNat)

/-- The copy of a match or rep, after its distance check (R525). -/
def copied (kind len : Word) (s : State) : State :=
  stepDone kind (BitVec.ofNat 32 (copyRoom s len)) (outCopy s.rep.d0 (copyRoom s len) s)

/-- What a decoded symbol does to the state its bits left (R525, R533). -/
def symbolProduced (s : State) : Symbol → State
  | .literal sym => stepDone 0#32 1#32 (outPut sym (settleSymbol (.literal sym) s))
  | .shortRep =>
    let t := settleSymbol .shortRep s
    if frontImpossible t then faultEntry .dataError t
    else stepDone 3#32 1#32 (outPut (outByte t t.rep.d0) t)
  | .rep i len =>
    let t := settleSymbol (.rep i len) s
    if frontImpossible t then faultEntry .dataError t else copied 2#32 len t
  | .copy dist len =>
    let t := settleSymbol (.copy dist len) s
    if frontImpossible t then
      if dist = 0xFFFFFFFF#32 then
        { t with status := { t.status with endSeen := true, phase := .done }, x := { t.x with r0 := 4#32, r1 := 0#32 } }
      else faultEntry .dataError t
    else copied 1#32 len t

/-! ## The opcode table as patterns (R151) -/

/-- The mnemonic of a command (R150). -/
def mnemonicOf : Instr → String
  | .nop => "NOP"
  | .reset => "RESET"
  | .regRead => "REG_READ"
  | .regWrite => "REG_WRITE"
  | .probRead => "PROB_READ"
  | .matchRead => "MATCH_READ"
  | .wbGetByte => "WB_GETBYTE"
  | .wbMatchLen => "WB_MATCHLEN"
  | .wbAvail => "WB_AVAIL"
  | .mfGetMatches => "MF_GETMATCHES"
  | .mfSkip => "MF_SKIP"
  | .mfMovePos => "MF_MOVEPOS"
  | .mfHash => "MF_HASH"
  | .rceBit _ => "RCE_BIT"
  | .rceDirect _ => "RCE_DIRECT"
  | .rcdBit => "RCD_BIT"
  | .rcdDirect _ => "RCD_DIRECT"
  | .priceBit _ _ => "PRICE_BIT"
  | .btEnc _ => "BT_ENC"
  | .btRevEnc _ => "BT_REVENC"
  | .btDec _ => "BT_DEC"
  | .btRevDec _ => "BT_REVDEC"
  | .btPrice _ => "BT_PRICE"
  | .btRevPrice _ => "BT_REVPRICE"
  | .stChar _ => "ST_CHAR"
  | .stMatch _ => "ST_MATCH"
  | .stRep _ => "ST_REP"
  | .stShortRep _ => "ST_SHORTREP"
  | .litEnc => "LIT_ENC"
  | .litEncM => "LIT_ENCM"
  | .litDec => "LIT_DEC"
  | .litDecM => "LIT_DECM"
  | .litPrice _ => "LIT_PRICE"
  | .lenEnc _ => "LEN_ENC"
  | .lenDec _ => "LEN_DEC"
  | .lenPrice _ => "LEN_PRICE"
  | .distEnc => "DIST_ENC"
  | .distDec => "DIST_DEC"
  | .posSlot => "POS_SLOT"
  | .repUse => "REP_USE"
  | .repPush => "REP_PUSH"
  | .optGetOptimum => "OPT_GETOPTIMUM"
  | .priceFillDist => "PRICE_FILL_DIST"
  | .priceFillAlign => "PRICE_FILL_ALIGN"
  | .priceLenTable _ => "PRICE_LEN_TABLE"
  | .pricePosLen => "PRICE_POSLEN"
  | .priceRep => "PRICE_REP"
  | .priceShortRep => "PRICE_SHORTREP"
  | .encStart => "ENC_START"
  | .hdrWrite => "HDR_WRITE"
  | .encStep => "ENC_STEP"
  | .encRun => "ENC_RUN"
  | .encSymbol => "ENC_SYMBOL"
  | .encFinish => "ENC_FINISH"
  | .hdrRead => "HDR_READ"
  | .decStart => "DEC_START"
  | .decStep => "DEC_STEP"
  | .decRun => "DEC_RUN"
  | .owGetByte => "OW_GETBYTE"
  | .owPutByte => "OW_PUTBYTE"
  | .owCopy => "OW_COPY"

/-- A row of the opcode table in pattern form (R151): the bits a word must have where the mask has ones, and the range of
its N field (R144; 0..0 where N must be 0). -/
structure OpRow where
  mnemonic : String
  bits     : Word
  mask     : Word
  nMin     : Nat
  nMax     : Nat
  deriving DecidableEq, Repr

/-- A word matches a row (R151). -/
def OpRow.matches (r : OpRow) (w : Word) : Prop :=
  w &&& r.mask = r.bits ∧ r.nMin ≤ w.toNat / 2 ^ 12 % 32 ∧ w.toNat / 2 ^ 12 % 32 ≤ r.nMax

/-- The control, window and match-finder rows of the opcode table. -/
def controlRows : List OpRow :=
  [⟨"NOP", 0x00000000#32, 0xFFFFFFFF#32, 0, 0⟩,
   ⟨"RESET", 0x00000001#32, 0xFFFFFFFF#32, 0, 0⟩,
   ⟨"REG_READ", 0x00000002#32, 0xFFFFFFFF#32, 0, 0⟩,
   ⟨"REG_WRITE", 0x00000003#32, 0xFFFFFFFF#32, 0, 0⟩,
   ⟨"PROB_READ", 0x00000004#32, 0xFFFFFFFF#32, 0, 0⟩,
   ⟨"MATCH_READ", 0x00000005#32, 0xFFFFFFFF#32, 0, 0⟩,
   ⟨"WB_GETBYTE", 0x00000010#32, 0xFFFFFFFF#32, 0, 0⟩,
   ⟨"WB_MATCHLEN", 0x00000011#32, 0xFFFFFFFF#32, 0, 0⟩,
   ⟨"WB_AVAIL", 0x00000012#32, 0xFFFFFFFF#32, 0, 0⟩,
   ⟨"MF_GETMATCHES", 0x00000018#32, 0xFFFFFFFF#32, 0, 0⟩,
   ⟨"MF_SKIP", 0x00000019#32, 0xFFFFFFFF#32, 0, 0⟩,
   ⟨"MF_MOVEPOS", 0x0000001A#32, 0xFFFFFFFF#32, 0, 0⟩,
   ⟨"MF_HASH", 0x0000001B#32, 0xFFFFFFFF#32, 0, 0⟩]

/-- The range-coder and bit-tree rows of the opcode table. -/
def coderRows : List OpRow :=
  [⟨"RCE_BIT", 0x00000020#32, 0xFFFDFFFF#32, 0, 0⟩,
   ⟨"RCE_DIRECT", 0x00000021#32, 0xFFFE0FFF#32, 1, 31⟩,
   ⟨"RCD_BIT", 0x00000028#32, 0xFFFFFFFF#32, 0, 0⟩,
   ⟨"RCD_DIRECT", 0x00000029#32, 0xFFFE0FFF#32, 1, 31⟩,
   ⟨"PRICE_BIT", 0x0000002C#32, 0xFFFDFEFF#32, 0, 0⟩,
   ⟨"BT_ENC", 0x00000030#32, 0xFFFE0FFF#32, 1, 8⟩,
   ⟨"BT_REVENC", 0x00000031#32, 0xFFFE0FFF#32, 1, 8⟩,
   ⟨"BT_DEC", 0x00000032#32, 0xFFFE0FFF#32, 1, 8⟩,
   ⟨"BT_REVDEC", 0x00000033#32, 0xFFFE0FFF#32, 1, 8⟩,
   ⟨"BT_PRICE", 0x00000034#32, 0xFFFE0FFF#32, 1, 8⟩,
   ⟨"BT_REVPRICE", 0x00000035#32, 0xFFFE0FFF#32, 1, 8⟩]

/-- The model rows of the opcode table. -/
def modelRows : List OpRow :=
  [⟨"ST_CHAR", 0x00000040#32, 0xFFFFFEFF#32, 0, 0⟩,
   ⟨"ST_MATCH", 0x00000041#32, 0xFFFFFEFF#32, 0, 0⟩,
   ⟨"ST_REP", 0x00000042#32, 0xFFFFFEFF#32, 0, 0⟩,
   ⟨"ST_SHORTREP", 0x00000043#32, 0xFFFFFEFF#32, 0, 0⟩,
   ⟨"LIT_ENC", 0x00000044#32, 0xFFFFFFFF#32, 0, 0⟩,
   ⟨"LIT_ENCM", 0x00000045#32, 0xFFFFFFFF#32, 0, 0⟩,
   ⟨"LIT_DEC", 0x00000046#32, 0xFFFFFFFF#32, 0, 0⟩,
   ⟨"LIT_DECM", 0x00000047#32, 0xFFFFFFFF#32, 0, 0⟩,
   ⟨"LIT_PRICE", 0x00000048#32, 0xFFFFFEFF#32, 0, 0⟩,
   ⟨"LEN_ENC", 0x00000049#32, 0xFFFFFEFF#32, 0, 0⟩,
   ⟨"LEN_DEC", 0x0000004A#32, 0xFFFFFEFF#32, 0, 0⟩,
   ⟨"LEN_PRICE", 0x0000004B#32, 0xFFFFFEFF#32, 0, 0⟩,
   ⟨"DIST_ENC", 0x0000004C#32, 0xFFFFFFFF#32, 0, 0⟩,
   ⟨"DIST_DEC", 0x0000004D#32, 0xFFFFFFFF#32, 0, 0⟩,
   ⟨"POS_SLOT", 0x0000004E#32, 0xFFFFFFFF#32, 0, 0⟩,
   ⟨"REP_USE", 0x00000050#32, 0xFFFFFFFF#32, 0, 0⟩,
   ⟨"REP_PUSH", 0x00000051#32, 0xFFFFFFFF#32, 0, 0⟩]

/-- The parser and encoder rows of the opcode table. -/
def parserRows : List OpRow :=
  [⟨"OPT_GETOPTIMUM", 0x00000058#32, 0xFFFFFFFF#32, 0, 0⟩,
   ⟨"PRICE_FILL_DIST", 0x00000059#32, 0xFFFFFFFF#32, 0, 0⟩,
   ⟨"PRICE_FILL_ALIGN", 0x0000005A#32, 0xFFFFFFFF#32, 0, 0⟩,
   ⟨"PRICE_LEN_TABLE", 0x0000005B#32, 0xFFFFFEFF#32, 0, 0⟩,
   ⟨"PRICE_POSLEN", 0x0000005C#32, 0xFFFFFFFF#32, 0, 0⟩,
   ⟨"PRICE_REP", 0x0000005D#32, 0xFFFFFFFF#32, 0, 0⟩,
   ⟨"PRICE_SHORTREP", 0x0000005E#32, 0xFFFFFFFF#32, 0, 0⟩,
   ⟨"ENC_START", 0x00000060#32, 0xFFFFFFFF#32, 0, 0⟩,
   ⟨"HDR_WRITE", 0x00000061#32, 0xFFFFFFFF#32, 0, 0⟩,
   ⟨"ENC_STEP", 0x00000062#32, 0xFFFFFFFF#32, 0, 0⟩,
   ⟨"ENC_RUN", 0x00000063#32, 0xFFFFFFFF#32, 0, 0⟩,
   ⟨"ENC_SYMBOL", 0x00000064#32, 0xFFFFFFFF#32, 0, 0⟩,
   ⟨"ENC_FINISH", 0x00000065#32, 0xFFFFFFFF#32, 0, 0⟩]

/-- The decoder rows of the opcode table. -/
def decoderRows : List OpRow :=
  [⟨"HDR_READ", 0x00000070#32, 0xFFFFFFFF#32, 0, 0⟩,
   ⟨"DEC_START", 0x00000071#32, 0xFFFFFFFF#32, 0, 0⟩,
   ⟨"DEC_STEP", 0x00000072#32, 0xFFFFFFFF#32, 0, 0⟩,
   ⟨"DEC_RUN", 0x00000073#32, 0xFFFFFFFF#32, 0, 0⟩,
   ⟨"OW_GETBYTE", 0x00000074#32, 0xFFFFFFFF#32, 0, 0⟩,
   ⟨"OW_PUTBYTE", 0x00000075#32, 0xFFFFFFFF#32, 0, 0⟩,
   ⟨"OW_COPY", 0x00000076#32, 0xFFFFFFFF#32, 0, 0⟩]

/-- The opcode table. -/
def opcodeRows : List OpRow := controlRows ++ (coderRows ++ (modelRows ++ (parserRows ++ decoderRows)))

end Sys2Proof.Machine
end

