-- ==== Sys2Proof/Certificates/Slice0/Obligations.lean ====
section
/-! DEFINITION. The claims, each a proposition about `exec`, `step` or the decoder. Every docstring names the rules of
the spec it comes from; the functions the results are compared with are those of Safety.lean. -/

open Sys2Proof Sys2Proof.Machine

/-! ## Encoding -/

/-- Decoding the word of a well-formed command gives the command, every field at every value (R141, R143 to R145, R150). -/
def Obligations.DecodeOfEncode : Prop :=
  ∀ i : Instr, i.wellFormed = true → decode (encode i) = .ok i

/-- A word that decodes is the word of the well-formed command it decodes to: no second word decodes to it (R146, R151). -/
def Obligations.EncodeOfDecode : Prop :=
  ∀ (w : Word) (i : Instr), decode w = .ok i → encode i = w ∧ i.wellFormed = true

/-- A word decodes to a command of a mnemonic exactly when it matches that mnemonic's row of the opcode table, its N in
the row's range; and no word matches two rows (R151, R144). -/
def Obligations.DecodesByTheTable : Prop :=
  (∀ (w : Word) (m : String), (∃ i, decode w = .ok i ∧ mnemonicOf i = m) ↔
      ∃ r ∈ opcodeRows, r.mnemonic = m ∧ r.matches w) ∧
    ∀ w : Word, ∀ r ∈ opcodeRows, ∀ q ∈ opcodeRows, r.matches w → q.matches w → r = q

/-- The three words R152 writes out, and words of R560, R300 and R143 put together from their fields. -/
def Obligations.WrittenWords : Prop :=
  decode 0x00020020#32 = .ok (.rceBit true) ∧ decode 0x00006030#32 = .ok (.btEnc 6#5) ∧
    decode 0x00000149#32 = .ok (.lenEnc true) ∧ decode 0x00000000#32 = .ok .nop ∧
    decode 0x0001F029#32 = .ok (.rcdDirect 31#5) ∧ decode 0x0002012C#32 = .ok (.priceBit true true) ∧
    decode 0x00000149#32 ≠ .ok (.lenEnc false) ∧ decode 0x00000006#32 = .error .unassignedOpc

/-! ## The step and the order of a command's checks -/

/-- When the word of the first transaction on the port decodes to `i`, one step is `exec i` in the state in which the
transaction has been taken from the port and its operands latched into A0..A3 (R40, R140, R142). With no command on the
port a step waits for the host, the model's fault `noCommand` (log entry 3; R650: "After reset the engine waits for the
first command"). -/
def Obligations.StepRunsTheCommand : Prop :=
  (∀ (s : State) (t : Transaction) (rest : List Transaction) (i : Instr), s.host.port = t :: rest →
    decode t.word = .ok i →
    step s = exec i { s with
      host := { s.host with port := rest }
      x := { s.x with a0 := t.a0, a1 := t.a1, a2 := t.a2, a3 := t.a3 } }) ∧
  ∀ s : State, s.host.port = [] → step s = .fault .noCommand

/-- A word that does not decode faults ILLEGAL_CMD with nothing else changed; under a sticky error it is ignored (R146,
R148, R149). The second clause is the model's own choice, not the spec's (DEDUCED, log entry 12): `exec` of an instruction
with N out of its range, which no word decodes to, faults ILLEGAL_CMD too. -/
def Obligations.IllegalWords : Prop :=
  (∀ (s : State) (t : Transaction) (rest : List Transaction) (e : DecodeError), s.host.port = t :: rest →
    decode t.word = .error e →
    step s = .next { s with
      host := { s.host with port := rest }
      status := { s.status with err := if s.status.err = .none then .illegalCmd else s.status.err }
      x := { a0 := t.a0, a1 := t.a1, a2 := t.a2, a3 := t.a3, r0 := 0#32, r1 := 0#32 } }) ∧
  ∀ (i : Instr) (s : State), s.status.err = .none → i.wellFormed = false →
    exec i s = .next { results 0#32 0#32 s with status := { s.status with err := .illegalCmd } }

/-- While STATUS.ERR ≠ 0 only NOP, RESET and REG_READ run; every other command, and every illegal word, returns
R0 = R1 = 0 and changes nothing else; a REG_READ that would fault leaves ERR as it was; so no command but RESET changes
any field of STATUS, and ERR holds the first fault since the last RESET (R148, R611). -/
def Obligations.StickyError : Prop :=
  ∀ s : State, s.status.err ≠ .none →
    (∀ i : Instr, i ≠ .nop → i ≠ .reset → i ≠ .regRead → exec i s = .next (results 0#32 0#32 s)) ∧
    (∀ (t : Transaction) (rest : List Transaction) (e : DecodeError), s.host.port = t :: rest →
      decode t.word = .error e →
      step s = .next { s with
        host := { s.host with port := rest }
        x := { a0 := t.a0, a1 := t.a1, a2 := t.a2, a3 := t.a3, r0 := 0#32, r1 := 0#32 } }) ∧
    exec .nop s = .next (results 0#32 0#32 s) ∧
    (∃ t, exec .reset s = .next t ∧ t.status.err = .none) ∧
    (∀ v, (s.x.a0.toNat, v) ∈ registerRows s → exec .regRead s = .next (results (BitVec.ofNat 32 v) 0#32 s)) ∧
    ((∀ v, (s.x.a0.toNat, v) ∉ registerRows s) → exec .regRead s = .next (results 0#32 0#32 s)) ∧
    ∀ (i : Instr) (t : State), i ≠ .reset → exec i s = .next t → t.status = s.status

/-- The order of the checks of a well-formed command without an error (R149, R620). A command its gate does not accept
faults SEQ_ERROR with nothing else changed, but a RUN command in PHASE DONE of its own mode, which changes nothing
(R147). Accepted, an operand outside the range its command's rule gives faults BOUNDS before any state change (R104,
R142, R329, R389, and the command rules). -/
def Obligations.ChecksInOrder : Prop :=
  ∀ (i : Instr) (s : State), s.status.err = .none → i.wellFormed = true →
    (¬ (gateOf i).accepts s → (gateOf i).isNoOp s → exec i s = .next (results 0#32 0#32 s)) ∧
    (¬ (gateOf i).accepts s → ¬ (gateOf i).isNoOp s →
      exec i s = .next { results 0#32 0#32 s with status := { s.status with err := .seqError } }) ∧
    ((gateOf i).accepts s → ¬ operandsLegal i s →
      exec i s = .next { results 0#32 0#32 s with status := { s.status with err := .bounds } })

/-- A command that raises a fault returns R0 = R1 = 0 and, a stream start aside, leaves PHASE as it was (R610). -/
def Obligations.FaultsReturnZero : Prop :=
  ∀ (i : Instr) (s t : State), s.status.err = .none → exec i s = .next t → t.status.err ≠ .none →
    t.x.r0 = 0#32 ∧ t.x.r1 = 0#32 ∧
      (i ≠ .decStart → i ≠ .encStart → t.status.phase = s.status.phase)

/-! ## Invariants and whole-machine rules -/

/-- Every step keeps the invariant: RAMs in canonical form with their sizes, STATE in 0..11 (R48), PROB in 31..2017
(R281), the derived values and registers a stream start fixes (R42, R72), the output window (R105), and the coders'
ranges at 2^24 or more (R287, R289). -/
def Obligations.StepKeepsInv : Prop :=
  ∀ s t : State, Inv s → step s = .next t → Inv t

/-- The reset state meets the invariant. -/
def Obligations.ResetMeetsInv : Prop := Inv State.reset

/-- RESET: every item at its reset value, the host's streams and port kept (R75, R561, R650, R651). A0..A3 become 0 too,
as R75 lists them (log entry 6). -/
def Obligations.ResetState : Prop :=
  (∀ s : State, exec .reset s = .next { State.reset with host := s.host, dictCap := s.dictCap }) ∧
  State.reset.status = { err := .none, phase := .idle, srcEof := false, endSeen := false, hdrOk := false } ∧
  State.reset.opts = { mode := 0, lc := 3, lp := 0, pb := 2, dictSize := 0x00400000#32, fastBytes := 32, endMark := 0,
                       mfHash := 1, extendFast := 1, outSize := 0xFFFFFFFFFFFFFFFF#64 } ∧
  State.reset.derived = { posStateMask := 0, litPosMask := 0, probCount := 0, numPosStates := 0, lcLatched := 0 } ∧
  State.reset.x = { a0 := 0, a1 := 0, a2 := 0, a3 := 0, r0 := 0, r1 := 0 } ∧
  State.reset.cnt = { nowPos := 0, inCount := 0, outCount := 0 } ∧
  State.reset.cstate = 0 ∧ State.reset.rep = { d0 := 0, d1 := 0, d2 := 0, d3 := 0 } ∧
  State.reset.rce = { low := 0, range := 0, cache := 0, cacheSize := 0 } ∧
  State.reset.rcd = { range := 0, code := 0 } ∧
  State.reset.ow = { size := 0, pos := 0, dictSizeCheck := 0 } ∧
  State.reset.win = { blockSize := 0, keepBefore := 0, keepAfter := 0, lastSafe := 0, bufOffset := 0, pos := 0,
                      streamPos := 0, posLimit := 0, streamEnd := false } ∧
  State.reset.mf = { cycPos := 0, cbs := 0, hashArray := false, hashMask := 0, hashSizeSum := 0, fixHashSize := 0,
                     numHashDirectBytes := 0, minMatchCheck := 0, cutValue := 0, matchMaxLen := 0, numPairs := 0 } ∧
  State.reset.enc = { prevByte := 0, addOffset := 0, longestFound := false, longestLen := 0, longestPairs := 0,
                      optEnd := 0, optCur := 0, matchPriceCount := 0, alignPriceCount := 0, distTableSize := 0,
                      lenTableSize := 0 } ∧
  ramsFree State.reset

/-- What commands leave alone. None but RESET writes A0..A3; none takes a transaction from the port or changes the
end-of-data signal or DICT_CAP; only REG_WRITE, HDR_READ and RESET change an option, the first two only outside a stream
(R7, R41, R44, R72, R140, R520). -/
def Obligations.OperandsAndOptionsKept : Prop :=
  ∀ (i : Instr) (s t : State), exec i s = .next t →
    t.host.port = s.host.port ∧ t.host.srcEnd = s.host.srcEnd ∧ t.dictCap = s.dictCap ∧
    (i ≠ .reset → t.x.a0 = s.x.a0 ∧ t.x.a1 = s.x.a1 ∧ t.x.a2 = s.x.a2 ∧ t.x.a3 = s.x.a3) ∧
    (t.opts ≠ s.opts →
      i = .reset ∨ ((i = .regWrite ∨ i = .hdrRead) ∧ (s.status.phase = .idle ∨ s.status.phase = .done)))

/-- Which commands change STATUS.PHASE, and how (R43, R470, R483, R524, R532, R534, R561). -/
def Obligations.PhaseChanges : Prop :=
  ∀ (i : Instr) (s t : State), exec i s = .next t → t.status.phase ≠ s.status.phase →
    (i = .reset ∧ t.status.phase = .idle) ∨
    (i = .encStart ∧ t.status.phase = .enc ∧ s.opts.mode = 0#1 ∧ (s.status.phase = .idle ∨ s.status.phase = .done)) ∨
    (i = .decStart ∧ t.status.phase = .dec ∧ s.opts.mode = 1#1 ∧ (s.status.phase = .idle ∨ s.status.phase = .done)) ∨
    (t.status.phase = .done ∧ s.status.phase = .enc ∧ (i = .encStep ∨ i = .encRun ∨ i = .encFinish)) ∨
    (t.status.phase = .done ∧ s.status.phase = .dec ∧ (i = .decStep ∨ i = .decRun))

/-- The streams and their counters move together: bytes are only appended to the sink and only taken from the front of
the source, OUT_COUNT and IN_COUNT counting them; a stream start or HDR_READ writes no byte (R46, R110 to R112). -/
def Obligations.StreamAccounting : Prop :=
  ∀ (i : Instr) (s t : State), exec i s = .next t →
    ∃ written taken : List Byte, t.host.sink = written.reverse ++ s.host.sink ∧ s.host.src = taken ++ t.host.src ∧
      (i = .reset ∨ startsStream i → written = []) ∧ (i = .reset → taken = []) ∧
      (i ≠ .reset → ¬ startsStream i → t.cnt.outCount = s.cnt.outCount + BitVec.ofNat 64 written.length ∧
        t.cnt.inCount = s.cnt.inCount + BitVec.ofNat 64 taken.length)

/-- Back-pressure changes nothing but the wait: where a command completes with a sink that takes every byte, it completes
in the same state with a sink that has room for the bytes it writes, and waits for the sink with less (R111, R665). -/
def Obligations.SinkBackPressure : Prop :=
  ∀ (i : Instr) (s t : State) (room : Nat), s.host.sinkRoom = none → exec i s = .next t →
    exec i { s with host := { s.host with sinkRoom := some room } } =
      if t.host.sink.length ≤ s.host.sink.length + room then
        .next { t with host := { t.host with sinkRoom := some (s.host.sink.length + room - t.host.sink.length) } }
      else .fault .sinkWait

/-- The commands without side effects leave everything but R0, R1 and, on a fault, STATUS.ERR (R118). They always end in
a next state. -/
def Obligations.ReadOnlyCommands : Prop :=
  ∀ (i : Instr) (s : State), isReadOnly i = true →
    ∃ r0 r1 e, exec i s = .next { results r0 r1 s with status := { s.status with err := e } } ∧
      (s.status.err ≠ .none → e = s.status.err)

/-- The frame of the unit commands of the coders. Those that code bits (RCE_BIT, RCE_DIRECT, BT_ENC, BT_REVENC, LIT_ENC,
LIT_ENCM, LEN_ENC, DIST_ENC) change only PROB, the range encoder, the sink with OUT_COUNT, DIST_ENC's R0, STATUS.ERR and,
for LEN_ENC, the length prices and counters (R284, R285, R399, R402). Those that decode bits (RCD_BIT, RCD_DIRECT, BT_DEC,
BT_REVDEC, LIT_DEC, LIT_DECM, LEN_DEC, DIST_DEC) change only PROB, the range decoder, the source with IN_COUNT and SRC_EOF,
R0 and STATUS.ERR (R290 to R292). -/
def Obligations.CoderFrame : Prop :=
  (∀ (i : Instr) (s t : State), codesBits i = true → exec i s = .next t →
    t = { s with
      prob := t.prob, rce := t.rce, price := t.price
      host := { s.host with sink := t.host.sink, sinkRoom := t.host.sinkRoom }
      cnt := { s.cnt with outCount := t.cnt.outCount }
      status := { s.status with err := t.status.err }
      x := { s.x with r0 := t.x.r0, r1 := 0#32 } } ∧
    ((∀ sel, i ≠ .lenEnc sel) → t.price = s.price) ∧ (i ≠ .distEnc → t.x.r0 = 0#32)) ∧
  ∀ (i : Instr) (s t : State), readsBits i = true → exec i s = .next t →
    t = { s with
      prob := t.prob, rcd := t.rcd
      host := { s.host with src := t.host.src }
      cnt := { s.cnt with inCount := t.cnt.inCount }
      status := { s.status with err := t.status.err, srcEof := t.status.srcEof }
      x := { s.x with r0 := t.x.r0, r1 := 0#32 } }

/-- The frame of the match finder and the parser: MF_MOVEPOS, MF_SKIP, MF_GETMATCHES and OPT_GETOPTIMUM change the window's
position, offset and limits, WBUF, the cyclic position, SON and HASH and the source; MF_GETMATCHES also MATCHES and
numPairs; OPT_GETOPTIMUM also OPT and the ENC registers. None touches a coder, PROB, a price or the sink (R112, R203, R245,
R249, R250, R450). -/
def Obligations.FinderFrame : Prop :=
  ∀ (i : Instr) (s t : State), i = .mfMovePos ∨ i = .mfSkip ∨ i = .mfGetMatches ∨ i = .optGetOptimum → exec i s = .next t →
    t = { s with
      win := { s.win with bufOffset := t.win.bufOffset, pos := t.win.pos, streamPos := t.win.streamPos,
                          posLimit := t.win.posLimit, streamEnd := t.win.streamEnd }
      mf := { s.mf with cycPos := t.mf.cycPos, numPairs := t.mf.numPairs }
      wbuf := t.wbuf, son := t.son, hash := t.hash, matchBuf := t.matchBuf, opt := t.opt, enc := t.enc
      host := { s.host with src := t.host.src }
      cnt := { s.cnt with inCount := t.cnt.inCount }
      status := { s.status with err := t.status.err, srcEof := t.status.srcEof }
      x := { s.x with r0 := t.x.r0, r1 := t.x.r1 } } ∧
    (i ≠ .optGetOptimum → t.opt = s.opt ∧ t.enc = s.enc) ∧
    (i = .mfMovePos ∨ i = .mfSkip → t.matchBuf = s.matchBuf ∧ t.mf.numPairs = s.mf.numPairs ∧ t.x.r0 = 0#32 ∧ t.x.r1 = 0#32) ∧
    (i = .mfMovePos → (t.win.pos.toNat ≠ s.mf.cbs.toNat → t.son = s.son ∧ t.hash = s.hash))

/-- The frame of the stream commands. An encoder stream command leaves the decoder's registers and OWBUF, the options and
the derived values; a decoder stream command leaves the options and derived values and every encoder register and RAM
(R470 to R493, R525 to R542). -/
def Obligations.StreamFrame : Prop :=
  (∀ (i : Instr) (s t : State), i = .hdrWrite ∨ i = .encStep ∨ i = .encRun ∨ i = .encSymbol ∨ i = .encFinish →
    exec i s = .next t →
    t.opts = s.opts ∧ t.derived = s.derived ∧ t.rcd = s.rcd ∧ t.ow = s.ow ∧ t.owbuf = s.owbuf ∧
      t.status.endSeen = s.status.endSeen ∧ t.status.hdrOk = s.status.hdrOk ∧
      (i = .encSymbol ∨ i = .encFinish ∨ i = .hdrWrite →
        t.win = s.win ∧ t.wbuf = s.wbuf ∧ t.mf = s.mf ∧ t.son = s.son ∧ t.hash = s.hash ∧ t.matchBuf = s.matchBuf ∧
        t.opt = s.opt ∧ t.host.src = s.host.src ∧ t.status.srcEof = s.status.srcEof)) ∧
  ∀ (i : Instr) (s t : State), i = .decStep ∨ i = .decRun ∨ i = .owPutByte ∨ i = .owCopy → exec i s = .next t →
    t.opts = s.opts ∧ t.derived = s.derived ∧ t.win = s.win ∧ t.wbuf = s.wbuf ∧ t.mf = s.mf ∧ t.son = s.son ∧
      t.hash = s.hash ∧ t.matchBuf = s.matchBuf ∧ t.rce = s.rce ∧ t.enc = s.enc ∧ t.opt = s.opt ∧ t.price = s.price ∧
      t.ow.size = s.ow.size ∧ t.ow.dictSizeCheck = s.ow.dictSizeCheck ∧ t.status.hdrOk = s.status.hdrOk ∧
      (i = .owPutByte ∨ i = .owCopy →
        t.prob = s.prob ∧ t.cstate = s.cstate ∧ t.rep = s.rep ∧ t.rcd = s.rcd ∧ t.host.src = s.host.src)

/-- No decoder command reads a price RAM, OPT, the window, the match finder or the range encoder: with other contents there
it does the same (R103, R448). -/
def Obligations.DecoderIgnoresEncoder : Prop :=
  ∀ (i : Instr) (s e : State), gateOf i = .dec ∨ gateOf i = .runD →
    let other (t : State) : State :=
      { t with win := e.win, wbuf := e.wbuf, mf := e.mf, son := e.son, hash := e.hash, matchBuf := e.matchBuf,
               rce := e.rce, enc := e.enc, opt := e.opt, price := e.price }
    exec i (other s) = match exec i s with
      | .next t => .next (other t)
      | .fault f => .fault f
      | .refused r => .refused r

/-! ## Host control -/

/-- NOP, the word 0, sets R0 = R1 = 0 and changes nothing else, with or without an error; after reset it returns
(0, 0, 0) (R560). -/
def Obligations.NopDoesNothing : Prop :=
  decode 0x00000000#32 = .ok .nop ∧ (∀ s : State, exec .nop s = .next (results 0#32 0#32 s)) ∧
    statusNumber State.reset.status = 0

/-- REG_READ gives the value of every assigned register, zero-extended, in every phase and under an error; an unassigned
number faults ILLEGAL_CMD and a number above 255 faults BOUNDS (R60, R70, R562). -/
def Obligations.RegRead : Prop :=
  ∀ s : State,
    (∀ n v, s.x.a0.toNat = n → (n, v) ∈ registerRows s →
      exec .regRead s = .next (results (BitVec.ofNat 32 v) 0#32 s) ∧ v < 2 ^ 32) ∧
    (s.status.err = .none → (∀ v, (s.x.a0.toNat, v) ∉ registerRows s) →
      exec .regRead s = .next { results 0#32 0#32 s with
        status := { s.status with err := if s.x.a0.toNat < 256 then .illegalCmd else .bounds } })

/-- REG_WRITE in PHASE IDLE or DONE stores the low bits of A1, to the register's width, and changes no other option; it
faults BOUNDS, ILLEGAL_CMD and SEQ_ERROR in that order (R60, R71, R72, R563). -/
def Obligations.RegWrite : Prop :=
  ∀ s : State, s.status.err = .none →
    (∀ n w, s.x.a0.toNat = n → (n, w) ∈ optionWidths →
      (s.status.phase = .idle ∨ s.status.phase = .done →
        ∃ o, exec .regWrite s = .next { results 0#32 0#32 s with opts := o } ∧
          optionRows o = (optionRows s.opts).map fun r => if r.1 = n then (n, s.x.a1.toNat % 2 ^ w) else r) ∧
      (s.status.phase = .enc ∨ s.status.phase = .dec →
        exec .regWrite s = .next { results 0#32 0#32 s with status := { s.status with err := .seqError } })) ∧
    ((∀ w, (s.x.a0.toNat, w) ∉ optionWidths) →
      exec .regWrite s = .next { results 0#32 0#32 s with
        status := { s.status with err := if s.x.a0.toNat < 256 then .illegalCmd else .bounds } })

/-! ## The window and the match finder -/

/-- The commands that read one thing. PROB_READ and MATCH_READ give the element, MATCH_READ also the number of words of the
last search; WB_GETBYTE the byte at the offset, WB_AVAIL the number of bytes from the current position to the last one
read, MF_HASH the hashes of the bytes at the current position (R207, R209, R220, R222, R243, R244, R263, R564, R565). -/
def Obligations.ReadCommands : Prop :=
  (∀ s : State, Inv s → Runnable .probRead s →
    exec .probRead s = .next (results (BitVec.ofNat 32 (s.prob.get s.x.a0.toNat).toNat) 0#32 s)) ∧
  (∀ s : State, Runnable .matchRead s →
    exec .matchRead s = .next (results (s.matchBuf.get s.x.a0.toNat) s.mf.numPairs s)) ∧
  (∀ s : State, Inv s → Runnable .wbGetByte s →
    exec .wbGetByte s = .next (results (BitVec.ofNat 32 (windowByte s s.x.a0).toNat) 0#32 s)) ∧
  (∀ s : State, Runnable .wbAvail s → exec .wbAvail s = .next (results (s.win.streamPos - s.win.pos) 0#32 s)) ∧
  ∀ s : State, Inv s → Runnable .mfHash s →
    exec .mfHash s = .next (results (BitVec.ofNat 32 (hashMain s))
      (BitVec.ofNat 32 (if s.mf.hashArray then hashThree s * 2 ^ 16 + hashTwo s else 0)) s)

/-- WB_MATCHLEN counts the equal bytes from the offset on against those `A1 + 1` before, up to the limit, which at the
stream's end is clipped to the bytes left; a compared index outside WBUF faults BOUNDS (R208, R221). -/
def Obligations.MatchLength : Prop :=
  ∀ s : State, Inv s → Runnable .wbMatchLen s → ∀ n : Nat,
    let q := s.win.pos + s.x.a0
    let limit := if s.win.streamEnd ∧ s.win.streamPos.toNat < q.toNat + s.x.a2.toNat then s.win.streamPos.toNat - q.toNat
      else s.x.a2.toNat
    let here (k : Nat) : Nat := (s.win.bufOffset + q + BitVec.ofNat 32 k).toNat
    let back (k : Nat) : Nat := (s.win.bufOffset + q + BitVec.ofNat 32 k - (s.x.a1 + 1#32)).toNat
    let inside (k : Nat) : Prop := here k < s.win.blockSize.toNat ∧ back k < s.win.blockSize.toNat
    n ≤ limit → (∀ k < n, inside k ∧ s.wbuf.get (here k) = s.wbuf.get (back k)) →
    (n = limit ∨ (inside n ∧ s.wbuf.get (here n) ≠ s.wbuf.get (back n)) →
      exec .wbMatchLen s = .next (results (BitVec.ofNat 32 n) 0#32 s)) ∧
    (n < limit ∧ ¬ inside n →
      exec .wbMatchLen s = .next { results 0#32 0#32 s with status := { s.status with err := .bounds } })

/-- MF_MOVEPOS keeps the window faithful. From a state that keeps the window's rules, whether it refills, compacts or
rebases or not, it completes; the next state keeps them; every position still covered holds its byte; and the new bytes
are the next bytes of the source, in order (R203 to R206, R211, R212, R254, R256). What the match finder keeps in HASH and
SON stays kept. -/
def Obligations.WindowFaithful : Prop :=
  ∀ s : State, Inv s → Runnable .mfMovePos s → WindowOk s → RefillReady s → s.win.pos.toNat < s.win.streamPos.toNat →
    ∃ (t : State) (taken : List Byte), exec .mfMovePos s = .next t ∧ WindowOk t ∧ (FinderOk s → FinderOk t) ∧
      let sub := if s.win.pos + 1#32 = 0x7FFFFFFF#32 then 0x7FFFFFFF#32 - s.mf.cbs else 0#32
      t.win.pos = s.win.pos + 1#32 - sub ∧
      (∀ p : Word, sub.toNat < p.toNat → s.win.pos.toNat + 1 ≤ p.toNat + s.win.keepBefore.toNat →
        p.toNat < s.win.streamPos.toNat → byteAt t (p - sub) = byteAt s p) ∧
      s.host.src = taken ++ t.host.src ∧ t.win.streamPos = s.win.streamPos - sub + BitVec.ofNat 32 taken.length ∧
      ∀ k (h : k < taken.length), byteAt t (s.win.streamPos - sub + BitVec.ofNat 32 k) = taken[k]

/-- MF_MOVEPOS where no refill is due only advances the position and the cyclic slot; onto position 0x7FFFFFFF it then takes
the same amount off every stored position, those too old to be followed become 0, and every byte keeps its WBUF index
(R203, R205, R250, R254, R262). -/
def Obligations.MovesAndRebases : Prop :=
  (∀ s : State, Runnable .mfMovePos s → MovesInside s →
    exec .mfMovePos s = .next (advanced (results 0#32 0#32 s))) ∧
  ∀ s : State, Inv s → Runnable .mfMovePos s → s.win.pos + 1#32 = 0x7FFFFFFF#32 →
    (s.win.pos + 1#32).toNat ≤ s.win.posLimit.toNat →
    let sub := 0x7FFFFFFF#32 - s.mf.cbs
    ∃ t, exec .mfMovePos s = .next t ∧
      t = { advanced (results 0#32 0#32 s) with
        son := t.son, hash := t.hash
        win := { s.win with bufOffset := s.win.bufOffset + sub, pos := s.mf.cbs, streamPos := s.win.streamPos - sub,
                            posLimit := s.win.posLimit - sub } } ∧
      (∀ k, (t.son.get k).toNat = (s.son.get k).toNat - sub.toNat) ∧
      (∀ k, (t.hash.get k).toNat = (s.hash.get k).toNat - sub.toNat)

/-- Where no search finds anything. Near the end of the input MF_GETMATCHES and one MF_SKIP step only move (R252); with no
candidate in its buckets the position is inserted as a leaf and its buckets name it (R245, R249); MF_SKIP of 0 does
nothing (R261). -/
def Obligations.SearchWithoutMatch : Prop :=
  (∀ s : State, Runnable .mfGetMatches s → MovesInside s → NearEnd s →
    exec .mfGetMatches s = .next { advanced (results 0#32 0#32 s) with
      mf := { (advanced s).mf with numPairs := 0#32 } }) ∧
  (∀ s : State, Inv s → Runnable .mfGetMatches s → MovesInside s → ¬ NearEnd s → SearchReadable s → NoCandidate s →
    exec .mfGetMatches s = .next { advanced (leafInserted (results 0#32 0#32 s)) with
      mf := { (advanced s).mf with numPairs := 0#32 } }) ∧
  (∀ s : State, Runnable .mfSkip s → s.x.a0 = 0#32 → exec .mfSkip s = .next (results 0#32 0#32 s)) ∧
  (∀ s : State, Runnable .mfSkip s → s.x.a0 = 1#32 → MovesInside s → NearEnd s →
    exec .mfSkip s = .next (advanced (results 0#32 0#32 s))) ∧
  ∀ s : State, Inv s → Runnable .mfSkip s → s.x.a0 = 1#32 → MovesInside s → ¬ NearEnd s → SearchReadable s →
    NoCandidate s → exec .mfSkip s = .next (advanced (leafInserted (results 0#32 0#32 s)))

/-- MF_SKIP builds the tree MF_GETMATCHES builds, and leaves MATCHES and numPairs alone; a skip of `k + 1` is a skip of 1
followed by a skip of `k` (R249, R261). -/
def Obligations.SkipBuildsTheSameTree : Prop :=
  (∀ s t : State, Inv s → exec .mfGetMatches s = .next t → t.status.err = .none →
    exec .mfSkip { s with x := { s.x with a0 := 1#32 } } =
      .next { t with
        matchBuf := s.matchBuf
        mf := { t.mf with numPairs := s.mf.numPairs }
        x := { s.x with a0 := 1#32, r0 := 0#32, r1 := 0#32 } }) ∧
  ∀ (s t u : State) (k : Nat), k + 1 < 2 ^ 32 →
    exec .mfSkip { s with x := { s.x with a0 := 1#32 } } = .next t → t.status.err = .none →
    exec .mfSkip { t with x := { t.x with a0 := BitVec.ofNat 32 k } } = .next u →
    exec .mfSkip { s with x := { s.x with a0 := BitVec.ofNat 32 (k + 1) } } =
      .next { u with x := { u.x with a0 := BitVec.ofNat 32 (k + 1) } }

/-- What MF_GETMATCHES reports, in a state that keeps the window's and the match finder's rules (`WindowOk`, `FinderOk`): an
even number of words R0 = numPairs, R1 the longest length. The lengths strictly rise, the first at least 2 and the last at
most FAST_BYTES; every distance is below DICT_SIZE and names an earlier position; and the bytes of a pair agree with those
at its distance: all of them for the bucket head, else from the length of the pair before it on (from 1 on for the first).
The match finder's rules are kept; and where no refill has to wait, the search completes without a fault (R104, R245, R246,
R251, R257, R260). -/
def Obligations.MatchesRise : Prop :=
  (∀ s t : State, Inv s → WindowOk s → FinderOk s → exec .mfGetMatches s = .next t → s.status.err = .none →
    t.status.err = .none →
    let len (k : Nat) : Nat := (t.matchBuf.get (2 * k)).toNat
    let dist (k : Nat) : Word := t.matchBuf.get (2 * k + 1)
    let back (k : Nat) : Word := s.win.pos - dist k - 1#32
    (∃ n : Nat, n ≤ 272 ∧ t.x.r0.toNat = 2 * n ∧ t.mf.numPairs = t.x.r0 ∧
      (n = 0 → t.x.r1 = 0#32) ∧
      (0 < n → t.x.r1.toNat = len (n - 1) ∧ 2 ≤ len 0 ∧ len (n - 1) ≤ s.opts.fastBytes.toNat) ∧
      (∀ k, k + 1 < n → len k < len (k + 1)) ∧
      ∀ k, k < n → (dist k).toNat < s.opts.dictSize.toNat ∧ Live s (back k) ∧
        ∀ i, (if back k = s.hash.get (mainBucket s) then 0 else if k = 0 then 1 else len (k - 1)) ≤ i → i < len k →
          byteAt s (s.win.pos + BitVec.ofNat 32 i) = byteAt s (back k + BitVec.ofNat 32 i)) ∧
    (s.win.pos.toNat < s.win.streamPos.toNat → FinderOk t)) ∧
  ∀ s : State, Inv s → Runnable .mfGetMatches s → WindowOk s → FinderOk s → RefillReady s →
    s.win.pos.toNat < s.win.streamPos.toNat →
    ∃ t : State, exec .mfGetMatches s = .next t ∧ t.status.err = .none ∧ WindowOk t

/-! ## The range coder, the bit trees and the prices -/

/-- RCE_BIT codes one modelled bit, RCE_DIRECT the N low bits of A0 raw, most significant first, BT_ENC the N low bits of A1
most significant first through the tree at A0, BT_REVENC least significant first (R280, R283 to R285, R300, R301, R320,
R321, R323, R330, R331). -/
def Obligations.BitEncoders : Prop :=
  (∀ (b : Bool) (s : State), Ready (.rceBit b) s →
    exec (.rceBit b) s = .next (codeBit (results 0#32 0#32 s) (.model s.x.a0 b))) ∧
  (∀ (n : BitVec 5) (s : State), Ready (.rceDirect n) s →
    exec (.rceDirect n) s = .next (codePath (results 0#32 0#32 s) (directPath s.x.a0 n.toNat))) ∧
  (∀ (n : BitVec 5) (s : State), Ready (.btEnc n) s →
    exec (.btEnc n) s = .next (codePath (results 0#32 0#32 s) (treePath s.x.a0 n.toNat s.x.a1))) ∧
  ∀ (n : BitVec 5) (s : State), Ready (.btRevEnc n) s →
    exec (.btRevEnc n) s = .next (codePath (results 0#32 0#32 s) (reversePath s.x.a0 n.toNat s.x.a1))

/-- RCD_BIT decodes the bit the decoder's registers decide and RCD_DIRECT the raw bits of its result; BT_DEC and BT_REVDEC
read exactly the bits BT_ENC and BT_REVENC code for the symbol they return; each with a source byte ready for every bit
(R290 to R292, R302, R303, R322, R324, R328, R332, R333). -/
def Obligations.BitDecoders : Prop :=
  (∀ s : State, Inv s → Runnable .rcdBit s → Fed 1 s →
    ∃ b t, Reads (results 0#32 0#32 s) [.model s.x.a0 b] t ∧ exec .rcdBit s = .next (results (bitWord b) 0#32 t)) ∧
  (∀ (n : BitVec 5) (s : State), Runnable (.rcdDirect n) s → Fed n.toNat s →
    ∃ (v : Word) (t : State), v.toNat < 2 ^ n.toNat ∧ Reads (results 0#32 0#32 s) (directPath v n.toNat) t ∧
      exec (.rcdDirect n) s = .next (results v 0#32 t)) ∧
  (∀ (n : BitVec 5) (s : State), Inv s → Runnable (.btDec n) s → Fed n.toNat s →
    ∃ (v : Word) (t : State), v.toNat < 2 ^ n.toNat ∧ Reads (results 0#32 0#32 s) (treePath s.x.a0 n.toNat v) t ∧
      exec (.btDec n) s = .next (results v 0#32 t)) ∧
  ∀ (n : BitVec 5) (s : State), Inv s → Runnable (.btRevDec n) s → Fed n.toNat s →
    ∃ (v : Word) (t : State), v.toNat < 2 ^ n.toNat ∧ Reads (results 0#32 0#32 s) (reversePath s.x.a0 n.toNat v) t ∧
      exec (.btRevDec n) s = .next (results v 0#32 t)

/-- An RCD_BIT that needs a byte its source does not have: at the end of the data it faults TRUNCATED with the bit taken
and PROB adapted, R0 unwritten and SRC_EOF set; before it, the command waits (R110, R291, R302, R613, R665). A bit that
needs no byte completes without one. -/
def Obligations.RangeDecoderWithoutBytes : Prop :=
  ∀ (s : State) (b : Bool), Inv s → Runnable .rcdBit s → s.host.src = [] →
    agrees (results 0#32 0#32 s) (.model s.x.a0 b) →
    let t := bitTaken (results 0#32 0#32 s) (.model s.x.a0 b)
    (2 ^ 24 ≤ t.rcd.range.toNat → exec .rcdBit s = .next (results (bitWord b) 0#32 t)) ∧
    (t.rcd.range.toNat < 2 ^ 24 → s.host.srcEnd = true ∨ s.status.srcEof = true →
      exec .rcdBit s = .next { t with status := { t.status with err := .truncated, srcEof := true } }) ∧
    (t.rcd.range.toNat < 2 ^ 24 → s.host.srcEnd = false → s.status.srcEof = false →
      exec .rcdBit s = .fault .sourceWait)

/-- What the range encoder codes, the range decoder decodes. The bytes a fresh encoder writes for a path of coded bits and
the flush begin with a 0; a decoder started on them (the four bytes after the 0 in RCD.code), with the PROB the encoder
started with, decides exactly the bits of the path, takes exactly the encoder's bytes, and ends with the encoder's PROB
(R282 to R286, R288, R290, R292 to R294). -/
def Obligations.CodedBitsDecodeBack : Prop :=
  ∀ (s : State) (path : List CodedBit), probsInRange s = true →
    s.rce = { low := 0#33, range := 0xFFFFFFFF#32, cache := 0#8, cacheSize := 1#32 } → path.length + 6 < 2 ^ 32 →
    ∃ (b1 b2 b3 b4 : Byte) (rest : List Byte),
      (flushed (codePath s path)).host.sink = (0#8 :: b1 :: b2 :: b3 :: b4 :: rest).reverse ++ s.host.sink ∧
      ∀ (d : State) (tail : List Byte), d.prob = s.prob → d.host.src = rest ++ tail →
        d.rcd = { range := 0xFFFFFFFF#32,
                  code := BitVec.ofNat 32 (b1.toNat * 2 ^ 24 + b2.toNat * 2 ^ 16 + b3.toNat * 2 ^ 8 + b4.toNat) } →
        ∃ t, Reads d path t ∧ t.prob = (codePath s path).prob ∧ t.host.src = tail

/-- The adaptation of an entry: bit 0 raises it by a 32nd of the distance to 2048, bit 1 lowers it by a 32nd; from 1024
every entry stays in 31..2017 (R280, R281). -/
def Obligations.ProbabilityUpdate : Prop :=
  ∀ (p : Prob) (b : Bool), 31 ≤ p.toNat → p.toNat ≤ 2017 →
    (probUpdate p b).toNat = (if b then p.toNat - p.toNat / 32 else p.toNat + (2048 - p.toNat) / 32) ∧
      31 ≤ (probUpdate p b).toNat ∧ (probUpdate p b).toNat ≤ 2017

/-- PROB_PRICES as R295's loop leaves it: entry 0 is 0, and for each `i` from 8 down to 0 the entries
`2^(8−i) .. 2^(9−i) − 1` are `64·i + 64·(2^(9−i) − j) / 2^(8−i)`; BitPrice reads entry p/4 or (2048 − p)/4 (R295, R296). -/
def Obligations.PriceTable : Prop :=
  probPrice 0 = 0#32 ∧
    (∀ i j : Nat, i ≤ 8 → 2 ^ (8 - i) ≤ j → j < 2 ^ (9 - i) →
      probPrice j = BitVec.ofNat 32 (64 * i + 64 * (2 ^ (9 - i) - j) / 2 ^ (8 - i))) ∧
    ∀ (p : Prob) (b : Bool) (s : State), p ≠ 0#11 →
      bitPrice p b s = .ok (probPrice (if b then (2048 - p.toNat) / 4 else p.toNat / 4)) s

/-- PRICE_BIT, BT_PRICE, BT_REVPRICE, LIT_PRICE and LEN_PRICE give the sum of the bit prices along the path the coder of
the same symbol takes, with PROB as it stands (R296, R304, R325, R326, R328, R334, R335, R364, R377, R398, R401). -/
def Obligations.Prices : Prop :=
  (∀ (b : Bool) (s : State), Inv s → Runnable (.priceBit false b) s →
    exec (.priceBit false b) s = .next (results (pathCost s [.model s.x.a0 b]) 0#32 s)) ∧
  (∀ (b : Bool) (s : State), Runnable (.priceBit true b) s →
    exec (.priceBit true b) s = .next (results (bitCost (BitVec.ofNat 11 s.x.a0.toNat) b) 0#32 s)) ∧
  (∀ (n : BitVec 5) (s : State), Inv s → Runnable (.btPrice n) s →
    exec (.btPrice n) s = .next (results (pathCost s (treePath s.x.a0 n.toNat s.x.a1)) 0#32 s)) ∧
  (∀ (n : BitVec 5) (s : State), Inv s → Runnable (.btRevPrice n) s →
    exec (.btRevPrice n) s = .next (results (pathCost s (reversePath s.x.a0 n.toNat s.x.a1)) 0#32 s)) ∧
  (∀ s : State, Inv s → Runnable (.litPrice false) s →
    exec (.litPrice false) s = .next (results (pathCost s (literalPath
      (literalTable s.derived s.x.a1 (BitVec.ofNat 8 s.x.a2.toNat)) (BitVec.ofNat 8 s.x.a0.toNat))) 0#32 s)) ∧
  (∀ s : State, Inv s → Runnable (.litPrice true) s →
    exec (.litPrice true) s = .next (results (pathCost s (matchedPath
      (literalTable s.derived s.x.a1 (BitVec.ofNat 8 s.x.a2.toNat)) (BitVec.ofNat 8 s.x.a3.toNat)
      (BitVec.ofNat 8 s.x.a0.toNat))) 0#32 s)) ∧
  ∀ (sel : Bool) (s : State), Inv s → Runnable (.lenPrice sel) s →
    exec (.lenPrice sel) s = .next (results (pathCost s (lengthPath sel s.x.a0 s.x.a1)) 0#32 s)

/-! ## The model -/

/-- ST_CHAR, ST_MATCH, ST_REP and ST_SHORTREP: the transition table of R355, of A0 with SEL 0, of STATE in place with SEL 1;
the result is in R0 (R351 to R355, R390 to R393). -/
def Obligations.StateCommands : Prop :=
  ∀ (kind : Symbol) (i : Bool → Instr),
    (i = .stChar ∧ kind = .literal 0#8) ∨ (i = .stMatch ∧ kind = .copy 0#32 2#32) ∨ (i = .stRep ∧ kind = .rep 0 2#32) ∨
      (i = .stShortRep ∧ kind = .shortRep) →
    (∀ s : State, Runnable (i false) s →
      exec (i false) s =
        .next (results (BitVec.ofNat 32 (stateAfter (BitVec.ofNat 4 s.x.a0.toNat) kind).toNat) 0#32 s)) ∧
    ∀ s : State, Runnable (i true) s → s.cstate.toNat ≤ 11 →
      exec (i true) s = .next { results (BitVec.ofNat 32 (stateAfter s.cstate kind).toNat) 0#32 s with
        cstate := stateAfter s.cstate kind }

/-- REP_USE moves REP[A0] to the front, the others keeping their order, and returns it; REP_PUSH puts A0 in front and drops
the oldest; nothing else changes (R385, R386, R405, R406). -/
def Obligations.RepCommands : Prop :=
  (∀ s : State, Runnable .repUse s →
    ∃ r : Reps, exec .repUse s = .next { results (s.rep.list.getD s.x.a0.toNat 0#32) 0#32 s with rep := r } ∧
      r.list = s.rep.list.getD s.x.a0.toNat 0#32 :: s.rep.list.eraseIdx s.x.a0.toNat) ∧
  ∀ s : State, Runnable .repPush s →
    ∃ r : Reps, exec .repPush s = .next { results 0#32 0#32 s with rep := r } ∧
      r.list = s.x.a0 :: s.rep.list.take 3

/-- POS_SLOT gives the position slot of A0. A slot from 4 on names the distances from its base on, `2^footerBits` of them
(R370, R404). -/
def Obligations.PositionSlots : Prop :=
  (∀ s : State, Runnable .posSlot s → exec .posSlot s = .next (results (BitVec.ofNat 32 (slotOf s.x.a0.toNat)) 0#32 s)) ∧
  ∀ d : Nat, d < 2 ^ 32 →
    slotOf d < 64 ∧ (d < 4 → slotOf d = d) ∧
      (4 ≤ d → 4 ≤ slotOf d ∧ slotStart (slotOf d) ≤ d ∧ d < slotStart (slotOf d) + 2 ^ footerOf (slotOf d))

/-- LIT_ENC, LIT_ENCM, LEN_ENC and DIST_ENC code the path of their symbol; LEN_ENC then counts its position state's length
prices down, and DIST_ENC returns the slot (R361, R362, R375, R380, R381, R394, R395, R399, R402, R443). -/
def Obligations.SymbolEncoders : Prop :=
  (∀ s : State, Ready .litEnc s →
    exec .litEnc s = .next (codePath (results 0#32 0#32 s) (literalPath
      (literalTable s.derived s.x.a1 (BitVec.ofNat 8 s.x.a2.toNat)) (BitVec.ofNat 8 s.x.a0.toNat)))) ∧
  (∀ s : State, Ready .litEncM s →
    exec .litEncM s = .next (codePath (results 0#32 0#32 s) (matchedPath
      (literalTable s.derived s.x.a1 (BitVec.ofNat 8 s.x.a2.toNat)) (BitVec.ofNat 8 s.x.a3.toNat)
      (BitVec.ofNat 8 s.x.a0.toNat)))) ∧
  (∀ (sel : Bool) (s : State), Ready (.lenEnc sel) s →
    exec (.lenEnc sel) s =
      .next (countedDown sel s.x.a1 (codePath (results 0#32 0#32 s) (lengthPath sel s.x.a0 s.x.a1)))) ∧
  ∀ s : State, Ready .distEnc s →
    exec .distEnc s = .next (results (BitVec.ofNat 32 (slotOf s.x.a0.toNat)) 0#32
      (codePath (results 0#32 0#32 s) (distancePath s.x.a0 s.x.a1)))

/-- LIT_DEC, LIT_DECM, LEN_DEC and DIST_DEC read exactly the bits their encoders code for the symbol they return (R363, R366,
R376, R382, R396, R397, R400, R403). -/
def Obligations.SymbolDecoders : Prop :=
  (∀ s : State, Inv s → Runnable .litDec s → Fed 8 s →
    ∃ (b : Byte) (t : State), Reads (results 0#32 0#32 s) (literalPath
        (literalTable s.derived s.x.a1 (BitVec.ofNat 8 s.x.a2.toNat)) b) t ∧
      exec .litDec s = .next (results (BitVec.ofNat 32 b.toNat) 0#32 t)) ∧
  (∀ s : State, Inv s → Runnable .litDecM s → Fed 8 s →
    ∃ (b : Byte) (t : State), Reads (results 0#32 0#32 s) (matchedPath
        (literalTable s.derived s.x.a1 (BitVec.ofNat 8 s.x.a2.toNat)) (BitVec.ofNat 8 s.x.a3.toNat) b) t ∧
      exec .litDecM s = .next (results (BitVec.ofNat 32 b.toNat) 0#32 t)) ∧
  (∀ (sel : Bool) (s : State), Inv s → Runnable (.lenDec sel) s → Fed 10 s →
    ∃ (v : Word) (t : State), v.toNat ≤ 271 ∧ Reads (results 0#32 0#32 s) (lengthPath sel v s.x.a1) t ∧
      exec (.lenDec sel) s = .next (results v 0#32 t)) ∧
  ∀ s : State, Inv s → Runnable .distDec s → Fed 36 s →
    ∃ (d : Word) (t : State), Reads (results 0#32 0#32 s) (distancePath d s.x.a1) t ∧
      exec .distDec s = .next (results d 0#32 t)

/-! ## The parser -/

/-- OPT_GETOPTIMUM up to its pricing. With decisions pending it gives the next of the list and moves the cursor (part A of
R420); on the last byte of the input it gives the literal. The early exits of a new pass (part B, R420): fewer than two
bytes left, the literal; the longest rep, the first of equal ones, at FAST_BYTES or more, that rep with the match finder moved
past it; else a main match at FAST_BYTES or more, that match at the distance MATCHES names; with no rep and no match of two
bytes, the literal where the byte at REP[0] differs, else the cheaper of literal and short rep (R421). (R410 to R412, R450.) -/
def Obligations.PendingDecision : Prop :=
  (∀ s : State, Inv s → Runnable .optGetOptimum s → s.enc.optEnd ≠ s.enc.optCur → s.enc.optCur.toNat < 4096 →
    exec .optGetOptimum s = .next
      { results ((s.opt.get s.enc.optCur.toNat).posPrev - s.enc.optCur) (s.opt.get s.enc.optCur.toNat).backPrev s with
        enc := { s.enc with optCur := (s.opt.get s.enc.optCur.toNat).posPrev } }) ∧
  (∀ s : State, Runnable .optGetOptimum s → s.enc.optEnd = s.enc.optCur → s.enc.longestFound = true →
    s.win.streamPos = s.win.pos →
    exec .optGetOptimum s = .next { results 1#32 0xFFFFFFFF#32 s with
      enc := { s.enc with optCur := 0#32, optEnd := 0#32, longestFound := false } }) ∧
  (∀ s : State, Runnable .optGetOptimum s → s.enc.optEnd = s.enc.optCur → s.enc.longestFound = false →
    MovesInside s → NearEnd s → s.win.streamPos = s.win.pos + 1#32 →
    exec .optGetOptimum s = .next { advanced (results 1#32 0xFFFFFFFF#32 s) with
      mf := { (advanced s).mf with numPairs := 0#32 }
      enc := { s.enc with optCur := 0#32, optEnd := 0#32, addOffset := s.enc.addOffset + 1#32 } }) ∧
  ∀ (s u : State) (lenMain numPairs : Word), Inv s → Runnable .optGetOptimum s → s.enc.optEnd = s.enc.optCur →
    PassStart s u lenMain numPairs →
    let fast := s.mf.matchMaxLen.toNat
    let skipped (n : Word) (w : State) : State := { w with x := s.x, enc := { w.enc with addOffset := w.enc.addOffset + n } }
    ((u.win.streamPos - u.win.pos + 1#32).toNat < 2 →
      exec .optGetOptimum s = .next (results 1#32 0xFFFFFFFF#32 u)) ∧
    ∀ (l : Nat → Nat) (best : Nat), 2 ≤ (u.win.streamPos - u.win.pos + 1#32).toNat →
      (∀ i < 4, RunsFor u 0xFFFFFFFF#32 (u.rep.list.getD i 0#32) 273 (l i)) →
      best < 4 → (∀ i < 4, l i ≤ l best) → (∀ i < best, l i < l best) →
      (fast ≤ l best → ∀ w : State, exec .mfSkip { u with x := { u.x with a0 := BitVec.ofNat 32 (l best - 1) } } = .next w →
        w.status.err = .none →
        exec .optGetOptimum s =
          .next (results (BitVec.ofNat 32 (l best)) (BitVec.ofNat 32 best) (skipped (BitVec.ofNat 32 (l best - 1)) w))) ∧
      (l best < fast → fast ≤ lenMain.toNat → (numPairs - 1#32).toNat < 548 →
        ∀ w : State, exec .mfSkip { u with x := { u.x with a0 := lenMain - 1#32 } } = .next w → w.status.err = .none →
        exec .optGetOptimum s =
          .next (results lenMain (u.matchBuf.get (numPairs - 1#32).toNat + 4#32) (skipped (lenMain - 1#32) w))) ∧
      (l best < 2 → lenMain.toNat < 2 → windowIndex u 0xFFFFFFFF#32 < u.win.blockSize.toNat →
        windowIndex u (0#32 - u.rep.d0 - 2#32) < u.win.blockSize.toNat →
        let cur := windowByte u 0xFFFFFFFF#32
        let mb := windowByte u (0#32 - u.rep.d0 - 2#32)
        (cur ≠ mb → exec .optGetOptimum s = .next (results 1#32 0xFFFFFFFF#32 u)) ∧
        (cur = mb → ∃ o : Ram OptRec OptRec.zero,
          exec .optGetOptimum s = .next { results 1#32
            (if (pathCost u (symbolBits u u.enc.prevByte mb .shortRep)).toNat <
              (pathCost u (symbolBits u u.enc.prevByte mb (.literal cur))).toNat then 0#32 else 0xFFFFFFFF#32) u with
            opt := o }))

/-- The price refreshes, from PROB as it stands. PRICE_FILL_DIST: every slot price and every distance price of the four
length classes, the slots from distTableSize on keeping their prices; PRICE_FILL_ALIGN: the 16 alignment prices;
PRICE_LEN_TABLE: a position state's length prices and its counter. Nothing else changes but the refreshed tables' counters
(R440 to R442, R451 to R453). -/
def Obligations.PriceRefreshes : Prop :=
  (∀ s : State, Inv s → Runnable .priceFillDist s →
    ∃ slots dists : Ram Word 0#32,
      exec .priceFillDist s = .next { results 0#32 0#32 s with
        price := { s.price with posSlot := slots, dist := dists }
        enc := { s.enc with matchPriceCount := 0#32 } } ∧
      (∀ c slot : Nat, c < 4 → slot < 64 →
        slots.get (64 * c + slot) =
          if slot < s.enc.distTableSize.toNat then
            pathCost s (treePath (BitVec.ofNat 32 (432 + 64 * c)) 6 (BitVec.ofNat 32 slot)) +
              BitVec.ofNat 32 (if 14 ≤ slot then 64 * (footerOf slot - 4) else 0)
          else s.price.posSlot.get (64 * c + slot)) ∧
      ∀ c d : Nat, c < 4 → d < 128 →
        dists.get (128 * c + d) = slots.get (64 * c + slotOf d) +
          if d < 4 then 0#32
          else pathCost s (reversePath (BitVec.ofNat 32 (688 + slotStart (slotOf d) - slotOf d - 1)) (footerOf (slotOf d))
            (BitVec.ofNat 32 (d - slotStart (slotOf d))))) ∧
  (∀ s : State, Inv s → Runnable .priceFillAlign s →
    ∃ align : Ram Word 0#32,
      exec .priceFillAlign s = .next { results 0#32 0#32 s with
        price := { s.price with align := align }
        enc := { s.enc with alignPriceCount := 0#32 } } ∧
      ∀ k : Nat, k < 16 → align.get k = pathCost s (reversePath 802#32 4 (BitVec.ofNat 32 k))) ∧
  ∀ (sel : Bool) (s : State), Inv s → Runnable (.priceLenTable sel) s →
    exec (.priceLenTable sel) s = .next (lengthsRefreshed sel s.x.a0 (results 0#32 0#32 s))

/-- PRICE_POSLEN, PRICE_REP and PRICE_SHORTREP: the table prices of a length and a distance, of a rep's choice bits and
length, and of a short rep's choice bits (R444, R445, R454 to R456). -/
def Obligations.TablePrices : Prop :=
  (∀ s : State, Inv s → Runnable .pricePosLen s →
    let d := s.x.a0.toNat
    let c := min (s.x.a1.toNat - 2) 3
    exec .pricePosLen s = .next (results
      ((if d < 128 then s.price.dist.get (128 * c + d)
        else s.price.posSlot.get (64 * c + slotOf d) + s.price.align.get (d % 16)) +
        s.price.lenMatch.get (272 * s.x.a2.toNat + (s.x.a1.toNat - 2))) 0#32 s)) ∧
  (∀ s : State, Inv s → Runnable .priceRep s →
    exec .priceRep s = .next (results
      (s.price.lenRep.get (272 * s.x.a3.toNat + (s.x.a1.toNat - 2)) +
        pathCost s (repBits s (BitVec.ofNat 4 s.x.a2.toNat) s.x.a3 s.x.a0.toNat)) 0#32 s)) ∧
  ∀ s : State, Inv s → Runnable .priceShortRep s →
    exec .priceShortRep s =
      .next (results (pathCost s (shortRepBits s (BitVec.ofNat 4 s.x.a0.toNat) s.x.a1)) 0#32 s)

/-! ## The encoder -/

/-- ENC_START with an option outside its legal range faults CFG_INVALID and changes nothing else; with every option inside
it does not fault CFG_INVALID (R471, R614). -/
def Obligations.EncStartChecksOptions : Prop :=
  ∀ s : State, s.status.err = .none → Gate.startE.accepts s →
    let outside : Prop := s.opts.dictSize.toNat < 1 ∨ 2 ^ 30 < s.opts.dictSize.toNat ∨ s.dictCap < s.opts.dictSize.toNat ∨
      8 < s.opts.lc.toNat ∨ 4 < s.opts.lp.toNat ∨ 4 < s.opts.pb.toNat ∨
      s.opts.fastBytes.toNat < 5 ∨ 273 < s.opts.fastBytes.toNat
    (outside → exec .encStart s = .next { results 0#32 0#32 s with status := { s.status with err := .cfgInvalid } }) ∧
    (¬ outside → ∀ t : State, exec .encStart s = .next t → t.status.err ≠ .cfgInvalid)

/-- ENC_START with legal options and a source that ends or fills the window: PHASE ENC, the counters, derived values and
coder registers at their initial values, and the window holding the first bytes of the source from position 1 on (R42,
R202, R206, R240, R242, R282, R357, R470). -/
def Obligations.EncStartState : Prop :=
  ∀ s : State, Inv s → s.status.err = .none → Gate.startE.accepts s → encOptionsLegal s.opts s.dictCap = true →
    let size := (s.opts.dictSize.toNat + s.opts.fastBytes.toNat + 4370) * 3 / 2 + 256
    s.host.srcEnd = true ∨ size ≤ s.host.src.length →
    let n := min s.host.src.length size
    ∃ t : State, exec .encStart s = .next t ∧ Inv t ∧ WindowOk t ∧ FinderOk t ∧
      t.status = { err := .none, phase := .enc, srcEof := decide (s.host.src.length < size), endSeen := false, hdrOk := false } ∧
      t.cnt = { nowPos := 0#64, inCount := BitVec.ofNat 64 n, outCount := 0#64 } ∧
      t.derived = { posStateMask := BitVec.ofNat 32 (2 ^ s.opts.pb.toNat - 1),
                    litPosMask := BitVec.ofNat 32 (2 ^ s.opts.lp.toNat - 1),
                    probCount := BitVec.ofNat 32 (1846 + 768 * 2 ^ (s.opts.lc.toNat + s.opts.lp.toNat)),
                    numPosStates := BitVec.ofNat 32 (2 ^ s.opts.pb.toNat), lcLatched := s.opts.lc } ∧
      (∀ k : Nat, t.prob.get k = 1024#11) ∧ t.cstate = 0#4 ∧ t.rep = Reps.zero ∧
      t.rce = { low := 0#33, range := 0xFFFFFFFF#32, cache := 0#8, cacheSize := 1#32 } ∧
      t.rcd = { range := 0#32, code := 0#32 } ∧ t.ow = { size := 0#32, pos := 0#32, dictSizeCheck := 0#32 } ∧
      t.enc = { prevByte := 0#8, addOffset := 0#32, longestFound := false, longestLen := 0#32, longestPairs := 0#32,
                optEnd := 0#32, optCur := 0#32, matchPriceCount := 0#32, alignPriceCount := 0#32,
                distTableSize := BitVec.ofNat 32 (2 * Nat.clog 2 s.opts.dictSize.toNat),
                lenTableSize := BitVec.ofNat 32 (s.opts.fastBytes.toNat - 1) } ∧
      t.win.blockSize = BitVec.ofNat 32 size ∧ t.win.pos = 1#32 ∧ t.win.streamPos = BitVec.ofNat 32 (n + 1) ∧
      t.win.bufOffset = 0xFFFFFFFF#32 ∧ t.win.streamEnd = decide (s.host.src.length < size) ∧
      (∀ k : Nat, (h : k < s.host.src.length) → k < n → byteAt t (BitVec.ofNat 32 (k + 1)) = s.host.src[k]) ∧
      t.mf.cycPos = 0#32 ∧ t.mf.numPairs = 0#32 ∧ (∀ k, t.son.get k = 0#32) ∧ (∀ k, t.hash.get k = 0#32) ∧
      (∀ k, t.matchBuf.get k = 0#32) ∧ (∀ k, t.opt.get k = OptRec.zero) ∧
      t.opts = s.opts ∧ t.host = { s.host with src := s.host.src.drop n } ∧ t.x = (results 0#32 0#32 s).x

/-- The prices an ENC_START leaves, with every entry of PROB at one half: 64 a bit (R440 to R442, R447, R451 to R453). -/
def Obligations.EncStartPrices : Prop :=
  ∀ s t : State, Inv s → s.status.err = .none → exec .encStart s = .next t → t.status.err = .none →
    (∀ c slot : Nat, c < 4 → slot < t.enc.distTableSize.toNat →
      t.price.posSlot.get (64 * c + slot) = BitVec.ofNat 32 (384 + if 14 ≤ slot then 64 * (footerOf slot - 4) else 0)) ∧
    (∀ c d : Nat, c < 4 → d < 128 →
      t.price.dist.get (128 * c + d) = BitVec.ofNat 32
        ((if slotOf d < t.enc.distTableSize.toNat then 384 else 0) + if d < 4 then 0 else 64 * footerOf (slotOf d))) ∧
    (∀ k : Nat, k < 16 → t.price.align.get k = 256#32) ∧
    ∀ ps k : Nat, ps < t.derived.numPosStates.toNat → k < t.enc.lenTableSize.toNat →
      let c := if k < 8 then 256#32 else if k < 16 then 320#32 else 640#32
      t.price.lenMatch.get (272 * ps + k) = c ∧ t.price.lenRep.get (272 * ps + k) = c ∧
        t.price.cntMatch.get ps = t.enc.lenTableSize ∧ t.price.cntRep.get ps = t.enc.lenTableSize

/-- HDR_WRITE writes byte `(PB·5 + LP)·9 + LC` and DICT_SIZE, least significant byte first, before any other byte of the
stream; after one it faults SEQ_ERROR (R113, R484, R497). -/
def Obligations.HeaderWrite : Prop :=
  ∀ s : State, Ready .hdrWrite s →
    (s.cnt.outCount = 0#64 →
      exec .hdrWrite s = .next (emit
        [BitVec.ofNat 8 ((s.opts.pb.toNat * 5 + s.opts.lp.toNat) * 9 + s.opts.lc.toNat),
         BitVec.ofNat 8 (s.opts.dictSize.toNat % 256), BitVec.ofNat 8 (s.opts.dictSize.toNat / 2 ^ 8 % 256),
         BitVec.ofNat 8 (s.opts.dictSize.toNat / 2 ^ 16 % 256), BitVec.ofNat 8 (s.opts.dictSize.toNat / 2 ^ 24)]
        (results 0#32 0#32 s))) ∧
    (s.cnt.outCount ≠ 0#64 →
      exec .hdrWrite s = .next { results 0#32 0#32 s with status := { s.status with err := .seqError } })

/-- ENC_SYMBOL codes the decision (A0, A1): the symbol's bits in their order, STATE, REP, the previous byte, addOffset,
NOW_POS, the length counters and the match counters; ENC_FINISH codes the end marker if END_MARK is 1, flushes the coder
and leaves PHASE DONE (R286, R387, R388, R480, R482, R483, R492, R493). -/
def Obligations.CodesAndFinishes : Prop :=
  (∀ s : State, Ready .encSymbol s → decisionReadable s s.x.a0 s.x.a1 →
    exec .encSymbol s = .next (decisionCoded (results 0#32 0#32 s) s.x.a0 s.x.a1)) ∧
  ∀ s : State, Ready .encFinish s → exec .encFinish s = .next (streamFinished (results 0#32 0#32 s))

/-- ENC_STEP and ENC_RUN. ENC_RUN is ENC_STEP repeated until the stream is done or a fault stops it: where one ENC_STEP leaves
the stream going and ENC_RUN ends it or faults, ENC_RUN ends in that state from the state that ENC_STEP leaves too. Where
they end the stream: on an empty input both finish it, with R0 = R1 = 0. With the last decision pending, no input left and no
price refresh due, ENC_STEP codes it, finishes and reports it, and ENC_RUN does the same with R0 = R1 = 0 (R420, R446, R490,
R491). -/
def Obligations.StepAndRunEndTheStream : Prop :=
  (∀ s : State, Ready .encStep s → s.cnt.nowPos = 0#64 → s.win.streamPos = s.win.pos →
    exec .encStep s = .next (streamFinished (results 0#32 0#32 s)) ∧
    exec .encRun s = .next (streamFinished (results 0#32 0#32 s))) ∧
  (∀ s t u : State, exec .encStep s = .next t → t.status.phase = .enc → t.status.err = .none →
    exec .encRun s = .next u → u.status.phase = .done ∨ u.status.err ≠ .none → exec .encRun t = .next u) ∧
  ∀ s : State, Ready .encStep s → s.cnt.nowPos ≠ 0#64 → s.enc.optEnd ≠ s.enc.optCur → s.enc.optCur.toNat < 4096 →
    let r := s.opt.get s.enc.optCur.toNat
    let len := r.posPrev - s.enc.optCur
    let back := r.backPrev
    (len = 1#32 ∧ (back = 0xFFFFFFFF#32 ∨ back = 0#32)) ∨ (2 ≤ len.toNat ∧ len.toNat ≤ 273) →
    decisionReadable s len back →
    let u := decisionCoded { results 0#32 0#32 s with enc := { s.enc with optCur := r.posPrev } } len back
    (s.enc.addOffset ≠ len → exec .encStep s = .next (results len back u)) ∧
    (s.enc.addOffset = len → s.win.streamPos = s.win.pos → u.enc.matchPriceCount.toNat < 128 →
      u.enc.alignPriceCount.toNat < 16 →
      exec .encStep s = .next (results len back (streamFinished u)) ∧
      exec .encRun s = .next (results 0#32 0#32 (streamFinished u)))

/-- The first ENC_STEP of a stream: the match finder searches at the first position, and whatever the search finds, one
literal is coded, plain and in the context of position 0, with addOffset as it was and NOW_POS 1, and (1, 0xFFFFFFFF)
reported; with no byte left after it, the stream is finished. The search is that of MF_GETMATCHES with its extension beyond
FAST_BYTES, which must stay inside WBUF (R104, R410). Near the end of the input, where the search only moves on (R252), the
whole is a function of the state (R411, R481, R490). -/
def Obligations.FirstByteIsALiteral : Prop :=
  ∀ s : State, Ready .encStep s → s.cnt.nowPos = 0#64 → s.win.streamPos ≠ s.win.pos →
    let coded (m : State) : State :=
      let cur := windowByte m (0#32 - (s.enc.addOffset + 1#32))
      let t := codePath { m with x := { s.x with r0 := 1#32, r1 := 0xFFFFFFFF#32 } }
        (.model (stateEntry s 0 s.cstate 0#32) false :: literalPath (literalTable s.derived 0#32 0#8) cur)
      let u := { t with
        cstate := stateAfter s.cstate (.literal cur)
        enc := { s.enc with prevByte := cur }
        cnt := { t.cnt with nowPos := 1#64 } }
      if m.win.streamPos = m.win.pos then streamFinished u else u
    let readable (m : State) : Prop := windowIndex m (0#32 - (s.enc.addOffset + 1#32)) < s.win.blockSize.toNat
    (∀ m : State, exec .mfGetMatches s = .next m → m.status.err = .none →
      (m.x.r1 = s.mf.matchMaxLen → s.opts.extendFast = 1#1 →
        ∃ more : Nat, RunsFor m (m.x.r1 - 1#32) (m.matchBuf.get (m.x.r0 - 1#32).toNat) (273 - m.x.r1.toNat) more) →
      readable m → exec .encStep s = .next (coded m)) ∧
    let near : State := { advanced s with mf := { (advanced s).mf with numPairs := 0#32 } }
    (MovesInside s → NearEnd s → readable near → exec .encStep s = .next (coded near))

/-- ENC_STEP after the first byte is OPT_GETOPTIMUM followed by ENC_SYMBOL with its decision, the decision left in R0 and R1.
While the match finder stays ahead of NOW_POS that is all. A decision that brings addOffset back to 0 is followed by
PRICE_FILL_DIST if 128 matches have been coded since the last, then by PRICE_FILL_ALIGN if 16 with an align part have, and
then, if no input byte is left, by ENC_FINISH (R446, R450, R490). -/
def Obligations.StepIsParseThenCode : Prop :=
  ∀ s t u : State, s.status.err = .none → s.status.phase = .enc → s.cnt.nowPos ≠ 0#64 →
    exec .optGetOptimum s = .next t → t.status.err = .none →
    exec .encSymbol { t with x := { t.x with a0 := t.x.r0, a1 := t.x.r1 } } = .next u → u.status.err = .none →
    let reported (w : State) : State := { w with x := { s.x with r0 := t.x.r0, r1 := t.x.r1 } }
    (u.enc.addOffset ≠ 0#32 → exec .encStep s = .next (reported u)) ∧
    (u.enc.addOffset = 0#32 → ∀ v w : State,
      (if 128 ≤ u.enc.matchPriceCount.toNat then exec .priceFillDist u = .next v ∧ v.status.err = .none else v = u) →
      (if 16 ≤ v.enc.alignPriceCount.toNat then exec .priceFillAlign v = .next w ∧ w.status.err = .none else w = v) →
      (w.win.streamPos ≠ w.win.pos → exec .encStep s = .next (reported w)) ∧
      (w.win.streamPos = w.win.pos → ∀ z : State, exec .encFinish w = .next z → z.status.err = .none →
        exec .encStep s = .next (reported z)))

/-! ## The decoder -/

/-- HDR_READ: the options of a five-byte header whose first byte is below 225, and HDR_OK; else HEADER_INVALID after all
five bytes, or TRUNCATED where the source ends within them (R113, R484, R520, R521). -/
def Obligations.HeaderRead : Prop :=
  ∀ s : State, s.status.err = .none → Gate.startD.accepts s →
    (∀ (h0 h1 h2 h3 h4 : Byte) (rest : List Byte), s.host.src = h0 :: h1 :: h2 :: h3 :: h4 :: rest →
      let t := { results 0#32 0#32 s with
        host := { s.host with src := rest }
        cnt := { s.cnt with inCount := 5#64, outCount := 0#64 }
        status := { s.status with srcEof := false, hdrOk := false } }
      (h0.toNat < 225 →
        exec .hdrRead s = .next { t with
          opts := { s.opts with
            lc := BitVec.ofNat 4 (h0.toNat % 9), lp := BitVec.ofNat 3 (h0.toNat / 9 % 5)
            pb := BitVec.ofNat 3 (h0.toNat / 45)
            dictSize := BitVec.ofNat 32 (h1.toNat + 2 ^ 8 * h2.toNat + 2 ^ 16 * h3.toNat + 2 ^ 24 * h4.toNat) }
          status := { t.status with hdrOk := true } }) ∧
      (225 ≤ h0.toNat → exec .hdrRead s = .next { t with status := { t.status with err := .headerInvalid } })) ∧
    (s.host.src.length < 5 → s.host.srcEnd = true →
      exec .hdrRead s = .next { results 0#32 0#32 s with
        host := { s.host with src := [] }
        cnt := { s.cnt with inCount := BitVec.ofNat 64 s.host.src.length, outCount := 0#64 }
        status := { s.status with err := .truncated, srcEof := true, hdrOk := false } })

/-- DEC_START: CFG_INVALID with nothing else changed for an option out of range; else PHASE DEC with the counters, derived
values, PROB, output window and range decoder at their initial values, RCD.code holding payload bytes 2 to 5, and the
encoder's RAMs discarded; TRUNCATED where the source ends within the first five (R288, R357, R522 to R524). -/
def Obligations.DecStartState : Prop :=
  ∀ s : State, s.status.err = .none → Gate.startD.accepts s →
    ((8 < s.opts.lc.toNat ∨ 4 < s.opts.lp.toNat ∨ 4 < s.opts.pb.toNat ∨ s.dictCap < s.opts.dictSize.toNat) →
      exec .decStart s = .next { results 0#32 0#32 s with status := { s.status with err := .cfgInvalid } }) ∧
    (s.opts.lc.toNat ≤ 8 → s.opts.lp.toNat ≤ 4 → s.opts.pb.toNat ≤ 4 → s.opts.dictSize.toNat ≤ s.dictCap →
      let probs := 1846 + 768 * 2 ^ (s.opts.lc.toNat + s.opts.lp.toNat)
      let check := max s.opts.dictSize.toNat 1
      let kept := if s.status.hdrOk then s.cnt else { s.cnt with inCount := 0#64, outCount := 0#64 }
      let t (eof : Bool) (taken : Nat) (code : Nat) (err : ErrCode) : State := { State.reset with
        host := { s.host with src := s.host.src.drop taken }
        dictCap := s.dictCap
        opts := s.opts
        derived := { posStateMask := BitVec.ofNat 32 (2 ^ s.opts.pb.toNat - 1),
                     litPosMask := BitVec.ofNat 32 (2 ^ s.opts.lp.toNat - 1), probCount := BitVec.ofNat 32 probs,
                     numPosStates := BitVec.ofNat 32 (2 ^ s.opts.pb.toNat), lcLatched := s.opts.lc }
        status := { err := err, phase := .dec, srcEof := eof, endSeen := false, hdrOk := false }
        x := (results 0#32 0#32 s).x
        cnt := { kept with nowPos := 0#64, inCount := kept.inCount + BitVec.ofNat 64 taken }
        prob := { size := probs, cells := [] }
        rcd := { range := 0xFFFFFFFF#32, code := BitVec.ofNat 32 code }
        ow := { size := BitVec.ofNat 32 (max check 4096), pos := 0#32, dictSizeCheck := BitVec.ofNat 32 check }
        owbuf := { size := max check 4096, cells := [] } }
      (s.status.srcEof && s.status.hdrOk) = false →
        (∀ (b0 b1 b2 b3 b4 : Byte) (rest : List Byte), s.host.src = b0 :: b1 :: b2 :: b3 :: b4 :: rest →
          exec .decStart s = .next (t false 5
            (b1.toNat * 2 ^ 24 + b2.toNat * 2 ^ 16 + b3.toNat * 2 ^ 8 + b4.toNat) .none)) ∧
        (s.host.src.length < 5 → s.host.srcEnd = true →
          exec .decStart s = .next (t true s.host.src.length
            (s.host.src.foldl (fun c b => c * 256 + b.toNat) 0) .truncated)))

/-- DEC_STEP decodes one symbol. With bytes ready, no limit reached and, in a state after a match, a match byte inside the
window, it reads exactly the bits of one legal symbol and does what that symbol does; a rep or short rep at position 0 is DATA_ERROR
as soon as its IsRep bit is read, before any further bit; at OUT_SIZE it stops with kind 5 (R387, R525 to R527, R530, R532 to R534). -/
def Obligations.DecodesOneSymbol : Prop :=
  ∀ s : State, Ready .decStep s →
    (s.opts.outSize.toNat ≤ s.cnt.nowPos.toNat →
      exec .decStep s = .next { results 5#32 0#32 s with status := { s.status with phase := .done } }) ∧
    (s.cnt.nowPos.toNat < s.opts.outSize.toNat → Fed 48 s →
      (7 ≤ s.cstate.toNat → s.rep.d0.toNat < s.ow.size.toNat) →
      let prev := if s.cnt.nowPos = 0#64 then 0#8 else outByte s 0#32
      let mb := outByte s s.rep.d0
      (∃ (sym : Symbol) (t : State), sym.legal ∧
        (s.cnt.nowPos = 0#64 → sym ≠ .shortRep ∧ ∀ (i : Nat) (len : Word), sym ≠ .rep i len) ∧
        Reads (results 0#32 0#32 s) (symbolBits s prev mb sym) t ∧
        exec .decStep s = .next (symbolProduced t sym)) ∨
      (s.cnt.nowPos = 0#64 ∧ ∃ t : State, Reads (results 0#32 0#32 s) (matchStart s true) t ∧
        exec .decStep s = .next { t with status := { t.status with err := .dataError } }))

/-- DEC_RUN is DEC_STEP repeated until the stream is done: where one DEC_STEP leaves the stream going, DEC_RUN is DEC_RUN
from the state that DEC_STEP leaves; where one ends it or faults, DEC_RUN ends there too, with R0 = R1 = 0; at OUT_SIZE it
stops at once. It ends in no other way: where it completes, the stream is done or a fault has stopped the loop (R531,
R534). -/
def Obligations.RunsToTheEnd : Prop :=
  (∀ s : State, Ready .decRun s → s.opts.outSize.toNat ≤ s.cnt.nowPos.toNat →
    exec .decRun s = .next { results 0#32 0#32 s with status := { s.status with phase := .done } }) ∧
  (∀ s t : State, s.status.phase = .dec → exec .decStep s = .next t → t.status.phase = .done →
    exec .decRun s = .next (results 0#32 0#32 t)) ∧
  (∀ s t : State, s.status.phase = .dec → exec .decStep s = .next t → t.status.err ≠ .none →
    exec .decRun s = .next t) ∧
  (∀ s t : State, s.status.phase = .dec → s.status.err = .none → exec .decStep s = .next t → t.status.phase = .dec →
    t.status.err = .none → exec .decRun s = exec .decRun t) ∧
  ∀ s t : State, s.status.phase = .dec → s.status.err = .none → exec .decRun s = .next t →
    t.status.phase = .done ∨ t.status.err ≠ .none

/-- OW_GETBYTE gives the byte at the distance; OW_PUTBYTE appends one byte to the window and the sink, which is then at
distance 0, the byte that was at distance `r` now at `r + 1` (R510 to R512, R540, R541). -/
def Obligations.OutputWindow : Prop :=
  (∀ s : State, Inv s → Runnable .owGetByte s →
    exec .owGetByte s = .next (results (BitVec.ofNat 32 (outByte s s.x.a0).toNat) 0#32 s)) ∧
  ∀ s : State, Ready .owPutByte s →
    let t := outPut (BitVec.ofNat 8 s.x.a0.toNat) (results 0#32 0#32 s)
    exec .owPutByte s = .next t ∧ outByte t 0#32 = BitVec.ofNat 8 s.x.a0.toNat ∧
      ∀ r : Nat, r + 1 < s.ow.size.toNat → outByte t (BitVec.ofNat 32 (r + 1)) = outByte s (BitVec.ofNat 32 r)

/-- OW_COPY appends `A1` bytes, each the byte that stands at distance A0 when it is its turn, so a copy longer than its
distance repeats what it has itself written: byte `k` of the copy is byte `k mod (A0 + 1)` of the last A0 + 1 (R513, R542). -/
def Obligations.CopiesBytes : Prop :=
  ∀ s : State, Ready .owCopy s →
    exec .owCopy s = .next (outCopy s.x.a0 s.x.a1.toNat (results 0#32 0#32 s)) ∧
    (outCopy s.x.a0 s.x.a1.toNat (results 0#32 0#32 s)).host.sink =
      ((List.range s.x.a1.toNat).map fun k =>
        outByte s (s.x.a0 - BitVec.ofNat 32 (k % (s.x.a0.toNat + 1)))).reverse ++ s.host.sink
end

