-- ==== Sys2Proof/Laws/Eng.lean ====
section
/-! SUPPORT. How the engine's computations run: one equation for each primitive, and the three ways a command ends. -/

namespace Sys2Proof.Machine

section
variable {α β : Type}

@[simp] theorem Eng.pure_run (a : α) (s : State) : (pure a : Eng α) s = .ok a s := rfl

theorem Eng.bind_run (f : Eng α) (g : α → Eng β) (s : State) :
    (f >>= g) s = match f s with
      | .ok a t => g a t
      | .error e t => .error e t := by
  show EStateM.bind f g s = _
  unfold EStateM.bind
  cases f s <;> rfl

/-- A computation that begins with one that completes. -/
theorem Eng.bind_ok {f : Eng α} {s t : State} {a : α} (h : f s = .ok a t) (g : α → Eng β) : (f >>= g) s = g a t := by
  rw [Eng.bind_run, h]

/-- A computation that begins with one that ends early. -/
theorem Eng.bind_error {f : Eng α} {s t : State} {e : Stop} (h : f s = .error e t) (g : α → Eng β) :
    (f >>= g) s = .error e t := by
  rw [Eng.bind_run, h]

/-- A sequence completes exactly when both parts do. -/
theorem Eng.bind_eq_ok {f : Eng α} {g : α → Eng β} {s u : State} {b : β} :
    (f >>= g) s = .ok b u ↔ ∃ a t, f s = .ok a t ∧ g a t = .ok b u := by
  cases hf : f s with
  | ok a t => simp [Eng.bind_ok hf]
  | error e t => simp [Eng.bind_error hf]

/-- A sequence ends early when its first part does, or its second. -/
theorem Eng.bind_eq_error {f : Eng α} {g : α → Eng β} {s u : State} {e : Stop} :
    (f >>= g) s = .error e u ↔ f s = .error e u ∨ ∃ a t, f s = .ok a t ∧ g a t = .error e u := by
  cases hf : f s with
  | ok a t => simp [Eng.bind_ok hf]
  | error e' t => simp [Eng.bind_error hf]

@[simp] theorem Eng.bind_look (f : State → α) (g : α → Eng β) (s : State) : (look f >>= g) s = g (f s) s := rfl
@[simp] theorem Eng.bind_put (f : State → State) (g : Unit → Eng β) (s : State) : (put f >>= g) s = g () (f s) := rfl
@[simp] theorem Eng.bind_pure (a : α) (g : α → Eng β) (s : State) : ((pure a : Eng α) >>= g) s = g a s := rfl
@[simp] theorem look_run (f : State → α) (s : State) : look f s = .ok (f s) s := rfl
@[simp] theorem put_run (f : State → State) (s : State) : put f s = .ok () (f s) := rfl
@[simp] theorem raise_run (c : ErrCode) (s : State) : (raise c : Eng α) s = .error .ended (faultEntry c s) := rfl
@[simp] theorem stuck_run (f : Fault) (s : State) : (stuck f : Eng α) s = .error (.stuck f) s := rfl
@[simp] theorem setR0_run (v : Word) (s : State) : setR0 v s = .ok () { s with x := { s.x with r0 := v } } := rfl
@[simp] theorem setR1_run (v : Word) (s : State) : setR1 v s = .ok () { s with x := { s.x with r1 := v } } := rfl
@[simp] theorem Eng.bind_setR0 (v : Word) (g : Unit → Eng β) (s : State) :
    (setR0 v >>= g) s = g () { s with x := { s.x with r0 := v } } := rfl
@[simp] theorem Eng.bind_setR1 (v : Word) (g : Unit → Eng β) (s : State) :
    (setR1 v >>= g) s = g () { s with x := { s.x with r1 := v } } := rfl
@[simp] theorem Eng.bind_opA0 (g : Word → Eng β) (s : State) : (opA0 >>= g) s = g s.x.a0 s := rfl
@[simp] theorem Eng.bind_opA1 (g : Word → Eng β) (s : State) : (opA1 >>= g) s = g s.x.a1 s := rfl
@[simp] theorem Eng.bind_opA2 (g : Word → Eng β) (s : State) : (opA2 >>= g) s = g s.x.a2 s := rfl
@[simp] theorem Eng.bind_opA3 (g : Word → Eng β) (s : State) : (opA3 >>= g) s = g s.x.a3 s := rfl
@[simp] theorem Eng.bind_raise (c : ErrCode) (g : α → Eng β) (s : State) :
    ((raise c : Eng α) >>= g) s = .error .ended (faultEntry c s) := rfl

theorem Eng.ite_run (c : Prop) [Decidable c] (f g : Eng α) (s : State) :
    (if c then f else g) s = if c then f s else g s := by
  split <;> rfl

/-- A check passes, or raises its fault. -/
theorem check_run (ok : Bool) (c : ErrCode) (s : State) :
    check ok c s = if ok then .ok () s else .error .ended (faultEntry c s) := rfl

theorem Eng.bind_check (ok : Bool) (c : ErrCode) (g : Unit → Eng β) (s : State) :
    (check ok c >>= g) s = if ok then g () s else .error .ended (faultEntry c s) := by
  cases ok <;> rfl

/-- A RAM read gives the element, or faults BOUNDS past the RAM's size (R104). -/
theorem ramRead_run {fill : α} (ram : State → Ram α fill) (i : Word) (s : State) :
    ramRead ram i s = if i.toNat < (ram s).size then .ok ((ram s).get i.toNat) s
      else .error .ended (faultEntry .bounds s) := rfl

theorem ramRead_ok {fill : α} {ram : State → Ram α fill} {i : Word} {s : State} (h : i.toNat < (ram s).size) :
    ramRead ram i s = .ok ((ram s).get i.toNat) s := by
  rw [ramRead_run, if_pos h]

/-- A RAM write stores the element, or faults BOUNDS past the RAM's size (R104). -/
theorem ramWrite_run {fill : α} [DecidableEq α] (ram : State → Ram α fill) (store : State → Ram α fill → State)
    (i : Word) (v : α) (s : State) :
    ramWrite ram store i v s = if i.toNat < (ram s).size then .ok () (store s ((ram s).set i.toNat v))
      else .error .ended (faultEntry .bounds s) := rfl

theorem ramWrite_ok {fill : α} [DecidableEq α] {ram : State → Ram α fill} {store : State → Ram α fill → State}
    {i : Word} {v : α} {s : State} (h : i.toNat < (ram s).size) :
    ramWrite ram store i v s = .ok () (store s ((ram s).set i.toNat v)) := by
  rw [ramWrite_run, if_pos h]

end

/-! ## A command -/

/-- The four ends of a command: ignored under a sticky error, illegal, refused by its gate (or a no-op), or its rule's. -/
theorem command_cases (i : Instr) (g : Gate) (body : Eng Unit) (s : State) :
    (s.status.err ≠ .none ∧ runsUnderError i = false ∧ command i g body s = .next (clearResults s)) ∨
    (¬(s.status.err ≠ .none ∧ runsUnderError i = false) ∧ i.wellFormed = false ∧
      command i g body s = .next (faultEntry .illegalCmd (clearResults s))) ∨
    (¬(s.status.err ≠ .none ∧ runsUnderError i = false) ∧ i.wellFormed = true ∧
      ((g.answer (clearResults s) = .run ∧ command i g body s = finish (body (clearResults s))) ∨
       (g.answer (clearResults s) = .skip ∧ command i g body s = .next (clearResults s)) ∨
       (g.answer (clearResults s) = .refuse ∧
          command i g body s = .next (faultEntry .seqError (clearResults s))))) := by
  by_cases h1 : s.status.err ≠ .none ∧ runsUnderError i = false
  · exact .inl ⟨h1.1, h1.2, if_pos h1⟩
  · have e1 : command i g body s = if i.wellFormed = false then .next (faultEntry .illegalCmd (clearResults s))
        else match g.answer (clearResults s) with
          | .run => finish (body (clearResults s))
          | .skip => .next (clearResults s)
          | .refuse => .next (faultEntry .seqError (clearResults s)) := if_neg h1
    cases h2 : i.wellFormed with
    | false => exact .inr (.inl ⟨h1, rfl, by rw [e1, if_pos h2]⟩)
    | true =>
      refine .inr (.inr ⟨h1, rfl, ?_⟩)
      rw [e1, if_neg (by rw [h2]; exact Bool.noConfusion)]
      cases h3 : g.answer (clearResults s) with
      | run => exact .inl ⟨rfl, rfl⟩
      | skip => exact .inr (.inl ⟨rfl, rfl⟩)
      | refuse => exact .inr (.inr ⟨rfl, rfl⟩)

/-- With no error, a legal command its gate accepts runs its rule. -/
theorem command_runs {i : Instr} {g : Gate} {s : State} (he : s.status.err = .none) (hw : i.wellFormed = true)
    (hg : g.answer (clearResults s) = .run) (body : Eng Unit) :
    command i g body s = finish (body (clearResults s)) := by
  rcases command_cases i g body s with h | h | h
  · exact absurd he h.1
  · exact absurd (hw.symm.trans h.2.1) Bool.noConfusion
  · rcases h.2.2 with h | h | h
    · exact h.2
    · exact absurd (hg.symm.trans h.1) (by intro h; cases h)
    · exact absurd (hg.symm.trans h.1) (by intro h; cases h)

@[simp] theorem finish_ok (s : State) : finish (.ok () s) = .next s := rfl
@[simp] theorem finish_ended (s : State) : finish (.error .ended s) = .next s := rfl
@[simp] theorem finish_stuck (f : Fault) (s : State) : finish (.error (.stuck f) s) = .fault f := rfl

/-- A command that answers a next state completed or raised a fault. -/
theorem finish_eq_next {r : EStateM.Result Stop State Unit} {t : State} :
    finish r = .next t ↔ r = .ok () t ∨ r = .error .ended t := by
  cases r with
  | ok a s => simp [finish]
  | error e s => cases e <;> simp [finish]

end Sys2Proof.Machine
end

