-- ==== Sys2Proof/Laws/Ram.lean ====
section
/-! SUPPORT. The laws of a RAM held as cells in canonical form: a read after a write, and that every RAM operation
keeps the form (`Ram.wf`). -/

namespace Sys2Proof.Machine

section
variable {α : Type} {fill : α}

/-- An index below every cell reads as `fill`. -/
theorem cellAt_below [DecidableEq α] {size lo i : Nat} {l : List (Nat × α)} (h : cellsWf fill size lo l = true)
    (hi : i < lo) : cellAt fill l i = fill := by
  cases l with
  | nil => rfl
  | cons c t =>
    obtain ⟨k, v⟩ := c
    simp only [cellsWf, Bool.and_eq_true, decide_eq_true_eq] at h
    simp only [cellAt]
    rw [if_pos (by omega)]

/-- A read gives `fill` or the value of a cell. -/
theorem cellAt_mem (l : List (Nat × α)) (i : Nat) : cellAt fill l i = fill ∨ (i, cellAt fill l i) ∈ l := by
  induction l with
  | nil => exact .inl rfl
  | cons c t ih =>
    obtain ⟨k, v⟩ := c
    simp only [cellAt]
    split
    · exact .inl rfl
    · split
      · next h => subst h; exact .inr (.head _)
      · exact ih.imp id (.tail _)

/-- A read of the element just written. -/
theorem cellAt_cellSet_same [DecidableEq α] {size : Nat} {l : List (Nat × α)} {lo i : Nat} (v : α)
    (h : cellsWf fill size lo l = true) : cellAt fill (cellSet fill l i v) i = v := by
  induction l generalizing lo with
  | nil =>
    simp only [cellSet]
    split
    · next hv => simp [cellAt, hv]
    · simp [cellAt]
  | cons c t ih =>
    obtain ⟨k, u⟩ := c
    simp only [cellsWf, Bool.and_eq_true, decide_eq_true_eq] at h
    simp only [cellSet]
    split
    · next hik =>
      split
      · next hv => simp [cellAt, hik, hv]
      · simp [cellAt]
    · next hik =>
      split
      · next heq =>
        split
        · next hv => rw [cellAt_below h.2 (by omega), hv]
        · simp [cellAt]
      · next hne =>
        simp only [cellAt]
        rw [if_neg hik, if_neg hne]
        exact ih h.2

/-- A read of any other element. -/
theorem cellAt_cellSet_other [DecidableEq α] {size : Nat} {l : List (Nat × α)} {lo i j : Nat} (v : α)
    (h : cellsWf fill size lo l = true) (hij : j ≠ i) : cellAt fill (cellSet fill l i v) j = cellAt fill l j := by
  induction l generalizing lo with
  | nil =>
    simp only [cellSet]
    split
    · rfl
    · simp only [cellAt]
      split <;> rfl
  | cons c t ih =>
    obtain ⟨k, u⟩ := c
    simp only [cellsWf, Bool.and_eq_true, decide_eq_true_eq] at h
    have below : j < k + 1 → cellAt fill t j = fill := fun hj => cellAt_below h.2 hj
    simp only [cellSet]
    split
    · next hik =>
      split
      · rfl
      · simp only [cellAt]
        split
        · rw [if_pos (by omega)]
        · rfl
    · next hik =>
      split
      · next heq =>
        split
        · simp only [cellAt]
          split
          · rw [below (by omega)]
          · rw [if_neg (by omega)]
        · simp only [cellAt]
          split
          · rw [if_pos (by omega)]
          · rw [if_neg (by omega), if_neg (by omega)]
      · simp only [cellAt, ih h.2]

theorem cellsWf_weaken [DecidableEq α] {size lo lo' : Nat} {l : List (Nat × α)} (hl : lo' ≤ lo)
    (h : cellsWf fill size lo l = true) : cellsWf fill size lo' l = true := by
  cases l with
  | nil => rfl
  | cons c t =>
    obtain ⟨k, v⟩ := c
    simp only [cellsWf, Bool.and_eq_true, decide_eq_true_eq] at h ⊢
    exact ⟨⟨⟨by omega, h.1.1.2⟩, h.1.2⟩, h.2⟩

/-- A write keeps the canonical form. -/
theorem cellsWf_cellSet [DecidableEq α] {size lo i : Nat} {l : List (Nat × α)} (v : α)
    (h : cellsWf fill size lo l = true) (hlo : lo ≤ i) (hi : i < size) :
    cellsWf fill size lo (cellSet fill l i v) = true := by
  induction l generalizing lo with
  | nil =>
    simp only [cellSet]
    split
    · rfl
    · next hv => simp [cellsWf, hlo, hi, hv]
  | cons c t ih =>
    obtain ⟨k, u⟩ := c
    have h' := h
    simp only [cellsWf, Bool.and_eq_true, decide_eq_true_eq] at h'
    simp only [cellSet]
    split
    · next hik =>
      split
      · exact h
      · next hv =>
        simp only [cellsWf, Bool.and_eq_true, decide_eq_true_eq]
        exact ⟨⟨⟨hlo, hi⟩, hv⟩, ⟨⟨⟨by omega, h'.1.1.2⟩, h'.1.2⟩, h'.2⟩⟩
    · next hik =>
      split
      · next heq =>
        split
        · exact cellsWf_weaken (by omega) h'.2
        · next hv =>
          simp only [cellsWf, Bool.and_eq_true, decide_eq_true_eq]
          exact ⟨⟨⟨hlo, hi⟩, hv⟩, heq ▸ h'.2⟩
      · next hne =>
        simp only [cellsWf, Bool.and_eq_true, decide_eq_true_eq]
        exact ⟨h'.1, ih h'.2 (by omega)⟩

theorem cellsWf_filterMap [DecidableEq α] {size lo : Nat} {l : List (Nat × α)} (f : α → α)
    (h : cellsWf fill size lo l = true) :
    cellsWf fill size lo (l.filterMap fun c => if f c.2 = fill then none else some (c.1, f c.2)) = true := by
  induction l generalizing lo with
  | nil => rfl
  | cons c t ih =>
    obtain ⟨k, v⟩ := c
    simp only [cellsWf, Bool.and_eq_true, decide_eq_true_eq] at h
    rw [List.filterMap_cons]
    by_cases hv : f v = fill
    · simp only [hv, if_true]
      exact cellsWf_weaken (by omega) (ih h.2)
    · simp only [hv, if_false, cellsWf, Bool.and_eq_true, decide_eq_true_eq]
      exact ⟨⟨⟨h.1.1.1, h.1.1.2⟩, hv⟩, ih h.2⟩

theorem cellAt_filterMap [DecidableEq α] {size lo i : Nat} {l : List (Nat × α)} (f : α → α) (hf : f fill = fill)
    (h : cellsWf fill size lo l = true) :
    cellAt fill (l.filterMap fun c => if f c.2 = fill then none else some (c.1, f c.2)) i = f (cellAt fill l i) := by
  induction l generalizing lo with
  | nil => exact hf.symm
  | cons c t ih =>
    obtain ⟨k, v⟩ := c
    have h' := h
    simp only [cellsWf, Bool.and_eq_true, decide_eq_true_eq] at h'
    have hw := cellsWf_filterMap f h'.2
    rw [List.filterMap_cons]
    by_cases hv : f v = fill
    · simp only [hv, if_true]
      rw [ih h'.2]
      simp only [cellAt]
      split
      · next hik => rw [cellAt_below h'.2 (by omega)]
      · split
        · next heq => rw [cellAt_below h'.2 (by omega), hf, hv]
        · rfl
    · simp only [hv, if_false, cellAt]
      split
      · exact hf.symm
      · split
        · rfl
        · exact ih h'.2

namespace Ram

@[simp] theorem set_size [DecidableEq α] (r : Ram α fill) (i : Nat) (v : α) : (r.set i v).size = r.size := rfl
@[simp] theorem alloc_size (n : Nat) : (Ram.alloc n : Ram α fill).size = n := rfl
@[simp] theorem clear_size (r : Ram α fill) : r.clear.size = r.size := rfl
@[simp] theorem mapElems_size [DecidableEq α] (r : Ram α fill) (f : α → α) : (r.mapElems f).size = r.size := rfl
@[simp] theorem none_size : (Ram.none : Ram α fill).size = 0 := rfl
@[simp] theorem alloc_get (n i : Nat) : (Ram.alloc n : Ram α fill).get i = fill := rfl
@[simp] theorem clear_get (r : Ram α fill) (i : Nat) : r.clear.get i = fill := rfl

/-- A read gives `fill` or the value of a cell. -/
theorem get_mem (r : Ram α fill) (i : Nat) : r.get i = fill ∨ (i, r.get i) ∈ r.cells := cellAt_mem r.cells i

/-- A read after a write to the same element. -/
theorem get_set_same [DecidableEq α] {r : Ram α fill} (h : r.wf = true) (i : Nat) (v : α) : (r.set i v).get i = v :=
  cellAt_cellSet_same v h

/-- A write leaves every other element alone. -/
theorem get_set_other [DecidableEq α] {r : Ram α fill} (h : r.wf = true) {i j : Nat} (hij : j ≠ i) (v : α) :
    (r.set i v).get j = r.get j :=
  cellAt_cellSet_other v h hij

theorem get_mapElems [DecidableEq α] {r : Ram α fill} (h : r.wf = true) (f : α → α) (hf : f fill = fill) (i : Nat) :
    (r.mapElems f).get i = f (r.get i) :=
  cellAt_filterMap f hf h

@[simp] theorem wf_none [DecidableEq α] : (Ram.none : Ram α fill).wf = true := rfl
@[simp] theorem wf_alloc [DecidableEq α] (n : Nat) : (Ram.alloc n : Ram α fill).wf = true := rfl
@[simp] theorem wf_clear [DecidableEq α] (r : Ram α fill) : r.clear.wf = true := rfl

theorem wf_set [DecidableEq α] {r : Ram α fill} (h : r.wf = true) {i : Nat} (hi : i < r.size) (v : α) :
    (r.set i v).wf = true :=
  cellsWf_cellSet v h (Nat.zero_le i) hi

theorem wf_mapElems [DecidableEq α] {r : Ram α fill} (h : r.wf = true) (f : α → α) : (r.mapElems f).wf = true :=
  cellsWf_filterMap f h

end Ram
end

end Sys2Proof.Machine
end

