-- ==== Sys2Proof/Laws/Coder.lean ====
section
/-! SUPPORT. What the range coder and the symbol coders do, in the terms of Safety.lean: the encoder codes a path of
bits, the decoder reads one. -/

namespace Sys2Proof.Machine

/-- Bit 32 of the encoder's low end is its carry (R53). -/
theorem low_carry (low : BitVec 33) : low.getLsbD 32 = decide (2 ^ 32 ≤ low.toNat) := by
  have := low.isLt
  rw [BitVec.getLsbD, Nat.testBit_eq_decide_div_mod_eq]
  congr 1
  apply propext
  omega

theorem sinkWrite_free {s : State} (h : s.host.sinkRoom = none) (b : Byte) : sinkWrite b s = .ok () (emit [b] s) := by
  unfold sinkWrite emit
  rw [h]
  simp [← h]

theorem emit_append (a b : List Byte) (s : State) : emit b (emit a s) = emit (a ++ b) s := by
  simp [emit, BitVec.ofNat_add, BitVec.add_assoc]

/-- The loop of `RceShiftLow` (R283). -/
theorem rceEmit_run (k : Nat) (t carry : Byte) (s : State) (h : s.host.sinkRoom = none) :
    rceEmit (k + 1) t carry s = .ok () (emit ((t + carry) :: List.replicate k (0xFF#8 + carry))
      { s with rce := { s.rce with cacheSize := s.rce.cacheSize - BitVec.ofNat 32 (k + 1) } }) := by
  induction k generalizing t s with
  | zero =>
    simp only [rceEmit]
    rw [Eng.bind_ok (sinkWrite_free h _)]
    simp [emit]
  | succ k ih =>
    refine (Eng.bind_ok (sinkWrite_free h _) _).trans ((ih _ { emit [t + carry] s with rce := { s.rce with cacheSize := s.rce.cacheSize - 1 } } h).trans ?_)
    have hs : s.rce.cacheSize - 1 - BitVec.ofNat 32 (k + 1) = s.rce.cacheSize - BitVec.ofNat 32 (k + 1 + 1) := by
      apply BitVec.eq_of_toNat_eq
      simp
      omega
    rw [← hs]
    exact congrArg (EStateM.Result.ok ()) (emit_append [t + carry] (List.replicate (k + 1) (0xFF#8 + carry))
      { s with rce := { s.rce with cacheSize := s.rce.cacheSize - 1 - BitVec.ofNat 32 (k + 1) } })

theorem bool_byte (c : Bool) : (BitVec.ofBool c).setWidth 8 = if c then 1#8 else 0#8 := by cases c <;> rfl

theorem rceShiftLow_run (s : State) (h : s.host.sinkRoom = none) : rceShiftLow s = .ok () (shiftLowState s) := by
  have hlow : (s.rce.low.setWidth 24).setWidth 33 <<< 8 = BitVec.ofNat 33 (s.rce.low.toNat % 2 ^ 24 * 256) := by
    apply BitVec.eq_of_toNat_eq
    simp [Nat.shiftLeft_eq]
  have hcache : s.rce.low.extractLsb' 24 8 = BitVec.ofNat 8 (s.rce.low.toNat / 2 ^ 24) := by
    apply BitVec.eq_of_toNat_eq
    simp [Nat.shiftRight_eq_div_pow]
  have hset : rceSettled s.rce.low = decide (s.rce.low.toNat < 0xFF000000 ∨ 2 ^ 32 ≤ s.rce.low.toNat) := by
    rw [rceSettled, low_carry, Bool.decide_or]
  unfold rceShiftLow shiftLowState shiftedLow
  rw [Eng.bind_look, hset]
  by_cases hc : s.rce.low.toNat < 0xFF000000 ∨ 2 ^ 32 ≤ s.rce.low.toNat
  · simp only [hc, decide_true, if_true]
    rw [pendingCount, low_carry, bool_byte, Eng.bind_ok (rceEmit_run _ _ _ _ h), Eng.bind_put, put_run]
    have hz : s.rce.cacheSize - BitVec.ofNat 32 ((s.rce.cacheSize - 1).toNat + 1) + 1 = 1#32 := by
      apply BitVec.eq_of_toNat_eq
      simp
      omega
    simp only [emit, settledBytes, decide_eq_true_eq, hlow, hcache, hz]
    rfl
  · simp only [hc, decide_false, if_false]
    simp [emit, hlow]

/-! ## Coding a path -/

@[simp] theorem emit_sinkRoom (bs : List Byte) (s : State) : (emit bs s).host.sinkRoom = s.host.sinkRoom := rfl
@[simp] theorem emit_prob (bs : List Byte) (s : State) : (emit bs s).prob = s.prob := rfl

theorem renormalized_run (s : State) (h : s.host.sinkRoom = none) : rceNormalize s = .ok () (renormalized s) := by
  unfold rceNormalize renormalized
  rw [Eng.bind_look]
  split
  · rw [Eng.bind_put]
    exact rceShiftLow_run _ h
  · rfl

@[simp] theorem shiftLowState_sinkRoom (s : State) : (shiftLowState s).host.sinkRoom = s.host.sinkRoom := rfl
@[simp] theorem shiftLowState_prob (s : State) : (shiftLowState s).prob = s.prob := rfl

@[simp] theorem renormalized_sinkRoom (s : State) : (renormalized s).host.sinkRoom = s.host.sinkRoom := by
  unfold renormalized; split <;> rfl

@[simp] theorem renormalized_prob (s : State) : (renormalized s).prob = s.prob := by
  unfold renormalized; split <;> rfl

@[simp] theorem codeBit_sinkRoom (s : State) (c : CodedBit) : (codeBit s c).host.sinkRoom = s.host.sinkRoom := by
  cases c <;> simp [codeBit]

@[simp] theorem codeBit_prob_size (s : State) (c : CodedBit) : (codeBit s c).prob.size = s.prob.size := by
  cases c <;> simp [codeBit]

theorem adapted_eq (p : Prob) (b : Bool) : probUpdate p b = adapted p b := by
  unfold probUpdate adapted
  cases b <;> simp [Nat.shiftRight_eq_div_pow]

theorem bitBound_eq (range : Word) (p : Prob) :
    bitBound range p = BitVec.ofNat 32 (range.toNat / 2048 * p.toNat) := by
  apply BitVec.eq_of_toNat_eq
  simp [bitBound, Nat.shiftRight_eq_div_pow]

/-- `RceEncodeBit` codes one modelled bit (R284). -/
theorem rceEncodeBit_run {s : State} (h : s.host.sinkRoom = none) {i : Word} (hi : i.toNat < s.prob.size) (b : Bool) :
    rceEncodeBit i b s = .ok () (codeBit s (.model i b)) := by
  unfold rceEncodeBit probRead probWrite
  rw [Eng.bind_ok (ramRead_ok hi), Eng.bind_put]
  refine (Eng.bind_ok (ramWrite_ok (by exact hi)) _).trans ((renormalized_run _ (by exact h)).trans ?_)
  simp only [codeBit, adapted_eq, bitBound_eq, rceNarrow]

/-- One turn of `RceEncodeDirect` codes one raw bit (R285). -/
theorem rceEncodeDirect_step {s : State} (h : s.host.sinkRoom = none) (v : Word) (k : Nat) :
    rceEncodeDirect v (k + 1) s = rceEncodeDirect v k (codeBit s (.direct (v.getLsbD k))) := by
  have hh : s.rce.range >>> 1 = BitVec.ofNat 32 (s.rce.range.toNat / 2) := by
    have := s.rce.range.isLt
    apply BitVec.eq_of_toNat_eq; simp [Nat.shiftRight_eq_div_pow]; omega
  rw [rceEncodeDirect, Eng.bind_put]
  refine (Eng.bind_ok (renormalized_run _ (by exact h)) _).trans ?_
  simp only [codeBit, rceHalve, hh]

@[simp] theorem codePath_nil (s : State) : codePath s [] = s := rfl
@[simp] theorem codePath_cons (s : State) (c : CodedBit) (p : List CodedBit) :
    codePath s (c :: p) = codePath (codeBit s c) p := rfl
theorem codePath_append (s : State) (p q : List CodedBit) : codePath s (p ++ q) = codePath (codePath s p) q :=
  List.foldl_append

@[simp] theorem codePath_sinkRoom (p : List CodedBit) (s : State) :
    (codePath s p).host.sinkRoom = s.host.sinkRoom := by
  induction p generalizing s with
  | nil => rfl
  | cons c p ih => simp [ih]

@[simp] theorem codePath_prob_size (p : List CodedBit) (s : State) : (codePath s p).prob.size = s.prob.size := by
  induction p generalizing s with
  | nil => rfl
  | cons c p ih => simp [ih]

/-- A coded bit's PROB entry, if it has one, lies below `n`. -/
def CodedBit.fits (n : Nat) : CodedBit → Prop
  | .model i _ => i.toNat < n
  | .direct _ => True

/-- Every modelled bit of a path has its entry below `n`. -/
def PathFits (n : Nat) (path : List CodedBit) : Prop := ∀ c ∈ path, c.fits n

theorem pathFits_cons {n : Nat} {c : CodedBit} {p : List CodedBit} :
    PathFits n (c :: p) ↔ c.fits n ∧ PathFits n p :=
  List.forall_mem_cons

theorem pathFits_append {n : Nat} {p q : List CodedBit} : PathFits n (p ++ q) ↔ PathFits n p ∧ PathFits n q :=
  List.forall_mem_append

theorem childNode_ofNat (m : Nat) (b : Bool) : childNode (BitVec.ofNat 32 m) b = BitVec.ofNat 32 (2 * m + b.toNat) := by
  have h0 : BitVec.ofNat 32 m <<< 1 = BitVec.ofNat 32 (2 * m) := by
    apply BitVec.eq_of_toNat_eq; simp [Nat.shiftLeft_eq, Nat.mul_comm]
  have h1 : BitVec.ofNat 32 m <<< 1 &&& bitWord b = 0#32 := by
    apply BitVec.eq_of_getLsbD_eq
    intro i hi
    cases b <;> cases i <;> simp [bitWord]
  rw [childNode, ← BitVec.add_eq_or_of_and_eq_zero _ _ h1, h0, BitVec.ofNat_add]
  cases b <;> rfl

/-- The bits `BtEncode` codes from node `m` on. -/
def treeFrom (base sym : Word) : Nat → Nat → List CodedBit
  | 0, _ => []
  | k + 1, m => .model (base + BitVec.ofNat 32 m) (sym.getLsbD k) :: treeFrom base sym k (2 * m + (sym.getLsbD k).toNat)

theorem treeFrom_eq (base sym : Word) (k m : Nat) :
    treeFrom base sym k m = (List.range k).map fun j =>
      .model (base + BitVec.ofNat 32 (m * 2 ^ j + sym.toNat / 2 ^ (k - j) % 2 ^ j)) (sym.getLsbD (k - 1 - j)) := by
  induction k generalizing m with
  | zero => rfl
  | succ k ih =>
    rw [List.range_succ_eq_map, List.map_cons, List.map_map, treeFrom, ih]
    congr 1
    · simp [Nat.mod_one]
    · apply List.map_congr_left
      intro j hj
      have hj := List.mem_range.mp hj
      have hb : (sym.getLsbD k).toNat = sym.toNat / 2 ^ (k - j) / 2 ^ j % 2 := by
        rw [Nat.div_div_eq_div_mul, ← Nat.pow_add, Nat.sub_add_cancel (by omega), BitVec.getLsbD, Nat.testBit_eq_decide_div_mod_eq]
        have : sym.toNat / 2 ^ k % 2 < 2 := Nat.mod_lt _ (by omega)
        by_cases h : sym.toNat / 2 ^ k % 2 = 1
        · simp [h]
        · simp [h]; omega
      have hm : sym.toNat / 2 ^ (k - j) % 2 ^ (j + 1) =
          sym.toNat / 2 ^ (k - j) / 2 ^ j % 2 * 2 ^ j + sym.toNat / 2 ^ (k - j) % 2 ^ j := by
        rw [Nat.pow_succ, Nat.mod_mul]; ring
      simp only [Function.comp]
      congr 2
      · congr 1
        rw [hb, show k + 1 - (j + 1) = k - j by omega, Nat.succ_eq_add_one, hm]; ring
      · rw [show k + 1 - 1 - j.succ = k - 1 - j by omega]

theorem btEncodeFrom_run (base sym : Word) (k m : Nat) {s : State} (h : s.host.sinkRoom = none)
    (hf : PathFits s.prob.size (treeFrom base sym k m)) :
    btEncodeFrom base sym k (BitVec.ofNat 32 m) s = .ok () (codePath s (treeFrom base sym k m)) := by
  induction k generalizing m s with
  | zero => rfl
  | succ k ih =>
    rw [treeFrom, pathFits_cons] at hf
    rw [btEncodeFrom, childNode_ofNat, Eng.bind_ok (rceEncodeBit_run h hf.1 _), ih _ (by simpa using h) (by simpa using hf.2)]
    rfl

theorem btEncode_run (base sym : Word) (n : Nat) {s : State} (h : s.host.sinkRoom = none)
    (hf : PathFits s.prob.size (treePath base n sym)) :
    btEncode base n sym s = .ok () (codePath s (treePath base n sym)) := by
  have e : treeFrom base sym n 1 = treePath base n sym := by rw [treeFrom_eq]; simp [treePath]
  rw [← e] at hf ⊢
  exact btEncodeFrom_run base sym n 1 h hf

theorem treePath_fits {base : Word} {n m : Nat} (sym : Word) (h : base.toNat + 2 ^ n ≤ m) :
    PathFits m (treePath base n sym) := by
  intro c hc
  obtain ⟨j, hj, rfl⟩ := List.mem_map.mp hc
  have hj := List.mem_range.mp hj
  have h1 : sym.toNat / 2 ^ (n - j) % 2 ^ j < 2 ^ j := Nat.mod_lt _ (Nat.two_pow_pos _)
  have h2 : 2 ^ (j + 1) ≤ 2 ^ n := Nat.pow_le_pow_right (by omega) (by omega)
  rw [Nat.pow_succ] at h2
  show _ < _
  calc _ ≤ base.toNat + (2 ^ j + sym.toNat / 2 ^ (n - j) % 2 ^ j) := by
        simp only [BitVec.toNat_add, BitVec.toNat_ofNat]
        exact le_trans (Nat.mod_le _ _) (Nat.add_le_add_left (Nat.mod_le _ _) _)
    _ < m := by omega
/-- A computation codes a path: with a sink that takes every byte, it codes exactly those bits. -/
def Codes (f : Eng Unit) (path : List CodedBit) : Prop :=
  ∀ s : State, s.host.sinkRoom = none → PathFits s.prob.size path → f s = .ok () (codePath s path)

theorem Codes.nil : Codes (pure ()) [] := fun _ _ _ => rfl

theorem Codes.bit (i : Word) (b : Bool) : Codes (rceEncodeBit i b) [.model i b] := fun _ h hf =>
  rceEncodeBit_run h (hf _ (List.mem_singleton.mpr rfl)) b

theorem Codes.append {f : Eng Unit} {g : Unit → Eng Unit} {p q : List CodedBit} (hf : Codes f p) (hg : Codes (g ()) q) :
    Codes (f >>= g) (p ++ q) := fun s h hp => by
  rw [pathFits_append] at hp
  rw [Eng.bind_ok (hf s h hp.1), codePath_append]
  exact hg _ (by simpa using h) (by simpa using hp.2)

theorem Codes.cons {i : Word} {b : Bool} {g : Unit → Eng Unit} {q : List CodedBit} (hg : Codes (g ()) q) :
    Codes (rceEncodeBit i b >>= g) (.model i b :: q) :=
  (Codes.bit i b).append hg

theorem btEncode_codes (base sym : Word) (n : Nat) : Codes (btEncode base n sym) (treePath base n sym) :=
  fun _ h hf => btEncode_run base sym n h hf

theorem btReverseEncodeFrom_codes (base sym : Word) (left k : Nat) :
    Codes (btReverseEncodeFrom base sym left k (BitVec.ofNat 32 (reverseNode sym k)))
      ((List.range left).map fun j => .model (base + BitVec.ofNat 32 (reverseNode sym (k + j))) (sym.getLsbD (k + j))) := by
  induction left generalizing k with
  | zero => exact Codes.nil
  | succ left ih =>
    rw [List.range_succ_eq_map, List.map_cons, List.map_map, btReverseEncodeFrom, childNode_ofNat]
    refine Codes.cons ?_
    have := ih (k + 1)
    rw [reverseNode] at this
    convert this using 1
    apply List.map_congr_left
    intro j _
    simp only [Function.comp, Nat.succ_eq_add_one]
    rw [show k + (j + 1) = k + 1 + j by omega]

theorem btReverseEncode_codes (base sym : Word) (n : Nat) :
    Codes (btReverseEncode base n sym) (reversePath base n sym) := by
  have := btReverseEncodeFrom_codes base sym n 0
  simpa [btReverseEncode, reversePath, reverseNode] using this

theorem rceEncodeDirect_codes (v : Word) (n : Nat) : Codes (rceEncodeDirect v n) (directPath v n) := by
  induction n with
  | zero => exact Codes.nil
  | succ n ih =>
    intro s h hf
    have e : directPath v (n + 1) = .direct (v.getLsbD n) :: directPath v n := by
      rw [directPath, List.range_succ_eq_map, List.map_cons, List.map_map]
      congr 1
      apply List.map_congr_left
      intro j hj
      have := List.mem_range.mp hj
      simp only [Function.comp, Nat.succ_eq_add_one]
      rw [show n + 1 - 1 - (j + 1) = n - 1 - j by omega]
    rw [e] at hf ⊢
    rw [rceEncodeDirect_step h, codePath_cons]
    exact ih _ (by simpa using h) (by simpa using (pathFits_cons.mp hf).2)

theorem byteWord_bit (b : Byte) (i : Nat) : (b.setWidth 32).getLsbD i = b.getLsbD i := by
  rw [BitVec.getLsbD_setWidth]
  by_cases h : i < 32
  · simp [h]
  · simp [h, BitVec.getLsbD_of_ge b i (by omega)]

theorem litEncodeFrom_eq (lb : Word) (sym : Byte) (k : Nat) (c : Word) :
    litEncodeFrom lb sym k c = btEncodeFrom lb (sym.setWidth 32) k c := by
  induction k generalizing c with
  | zero => rfl
  | succ k ih => simp only [litEncodeFrom, btEncodeFrom, byteWord_bit, ih]

theorem litEncode_codes (lb : Word) (sym : Byte) : Codes (litEncode lb sym) (literalPath lb sym) := by
  rw [litEncode, litEncodeFrom_eq]
  exact btEncode_codes lb (sym.setWidth 32) 8

/-- The bits of a matched literal from node `m` on. -/
def matchedFrom (lb : Word) (mb sym : Byte) : Nat → Nat → Bool → List CodedBit
  | 0, _, _ => []
  | k + 1, m, same =>
    .model (lb + BitVec.ofNat 32 ((if same then 256 * (1 + (mb.getLsbD k).toNat) else 0) + m)) (sym.getLsbD k) ::
      matchedFrom lb mb sym k (2 * m + (sym.getLsbD k).toNat) (same && (mb.getLsbD k == sym.getLsbD k))

theorem litEncodeMatchedFrom_codes (lb : Word) (mb sym : Byte) (k m : Nat) (same : Bool) :
    Codes (litEncodeMatchedFrom lb mb sym k (BitVec.ofNat 32 m) same) (matchedFrom lb mb sym k m same) := by
  induction k generalizing m same with
  | zero => exact Codes.nil
  | succ k ih =>
    rw [litEncodeMatchedFrom, childNode_ofNat, matchedFrom]
    have e : litNode lb (BitVec.ofNat 32 m) same (mb.getLsbD k) =
        lb + BitVec.ofNat 32 ((if same then 256 * (1 + (mb.getLsbD k).toNat) else 0) + m) := by
      unfold litNode
      cases same with
      | false => simp
      | true => cases mb.getLsbD k <;> simp [bitWord, BitVec.ofNat_add, BitVec.add_assoc]
    rw [e]
    exact Codes.cons (ih _ _)

theorem bit_toNat (b : Byte) (k : Nat) : (b.getLsbD k).toNat = b.toNat / 2 ^ k % 2 := by
  rw [BitVec.getLsbD, Nat.testBit_eq_decide_div_mod_eq]
  have : b.toNat / 2 ^ k % 2 < 2 := Nat.mod_lt _ (by omega)
  by_cases h : b.toNat / 2 ^ k % 2 = 1
  · simp [h]
  · simp [h]; omega

theorem half_div (b k : Nat) : b / 2 ^ k = 2 * (b / 2 ^ (k + 1)) + b / 2 ^ k % 2 := by
  rw [Nat.pow_succ, ← Nat.div_div_eq_div_mul]; omega

theorem matchedFrom_eq (lb : Word) (mb sym : Byte) (k : Nat) (hk : k ≤ 8) :
    matchedFrom lb mb sym k (2 ^ (8 - k) + sym.toNat / 2 ^ k) (decide (mb.toNat / 2 ^ k = sym.toNat / 2 ^ k)) =
      (List.range k).map fun i =>
        let j := 8 - k + i
        let node := 2 ^ j + sym.toNat / 2 ^ (8 - j)
        let plane := if mb.toNat / 2 ^ (8 - j) = sym.toNat / 2 ^ (8 - j) then 256 * (1 + (mb.getLsbD (7 - j)).toNat) else 0
        .model (lb + BitVec.ofNat 32 (plane + node)) (sym.getLsbD (7 - j)) := by
  induction k with
  | zero => rfl
  | succ k ih =>
    rw [List.range_succ_eq_map, List.map_cons, List.map_map, matchedFrom]
    congr 1
    · simp only [Nat.add_zero, show 8 - (8 - (k + 1)) = k + 1 by omega, show 7 - (8 - (k + 1)) = k by omega,
        decide_eq_true_eq]
    · have h1 : 2 * (2 ^ (8 - (k + 1)) + sym.toNat / 2 ^ (k + 1)) + (sym.getLsbD k).toNat =
          2 ^ (8 - k) + sym.toNat / 2 ^ k := by
        have hp : 2 ^ (8 - k) = 2 * 2 ^ (8 - (k + 1)) := by
          rw [← Nat.pow_succ']; congr 1; omega
        rw [bit_toNat, hp]
        have := half_div sym.toNat k
        omega
      have h2 : (decide (mb.toNat / 2 ^ (k + 1) = sym.toNat / 2 ^ (k + 1)) && (mb.getLsbD k == sym.getLsbD k)) =
          decide (mb.toNat / 2 ^ k = sym.toNat / 2 ^ k) := by
        have a := half_div mb.toNat k
        have b := half_div sym.toNat k
        have c : (mb.getLsbD k == sym.getLsbD k) = decide (mb.toNat / 2 ^ k % 2 = sym.toNat / 2 ^ k % 2) := by
          rw [← bit_toNat, ← bit_toNat]
          cases mb.getLsbD k <;> cases sym.getLsbD k <;> rfl
        rw [c, ← Bool.decide_and]
        congr 1
        apply propext
        omega
      rw [h1, h2, ih (by omega)]
      apply List.map_congr_left
      intro i _
      simp only [Function.comp, Nat.succ_eq_add_one, show 8 - (k + 1) + (i + 1) = 8 - k + i by omega]

theorem litEncodeMatched_codes (lb : Word) (mb sym : Byte) :
    Codes (litEncodeMatched lb mb sym) (matchedPath lb mb sym) := by
  have e := matchedFrom_eq lb mb sym 8 (by omega)
  have h := litEncodeMatchedFrom_codes lb mb sym 8 1 true
  have hm : mb.toNat / 2 ^ 8 = 0 := Nat.div_eq_of_lt mb.isLt
  have hs : sym.toNat / 2 ^ 8 = 0 := Nat.div_eq_of_lt sym.isLt
  rw [hm, hs] at e
  simp only [Nat.sub_self, Nat.pow_zero, Nat.add_zero, decide_true, Nat.zero_add] at e
  rw [e] at h
  exact h

theorem lenCoder_eq (k : Bool) : lenCoder k = lengthBase k := rfl

theorem lenEncode_codes (k : Bool) (sym ps : Word) : Codes (lenEncode (lenCoder k) sym ps) (lengthPath k sym ps) := by
  unfold lenEncode lengthPath
  split
  · exact Codes.cons (btEncode_codes _ _ _)
  · split
    · exact Codes.cons (Codes.cons (btEncode_codes _ _ _))
    · exact Codes.cons (Codes.cons (btEncode_codes _ _ _))

/-- A distance from 4 on, its slot and its low part (R370). -/
theorem slot_split {d : Nat} (h : 4 ≤ d) :
    let k := Nat.log2 d
    2 ≤ k ∧ slotOf d = 2 * k + d / 2 ^ (k - 1) % 2 ∧ footerOf (slotOf d) = k - 1 ∧
      slotStart (slotOf d) + d % 2 ^ (k - 1) = d := by
  intro k
  have h0 : d ≠ 0 := by omega
  have hk : 2 ≤ k := (Nat.le_log2 h0).mpr (by omega)
  have hlo : 2 ^ k ≤ d := Nat.log2_self_le h0
  have hhi : d < 2 ^ (k + 1) := Nat.lt_log2_self
  have hs : slotOf d = 2 * k + d / 2 ^ (k - 1) % 2 := by
    rw [slotOf, if_neg (by omega)]
  have hp : 2 ^ k = 2 * 2 ^ (k - 1) := by rw [← Nat.pow_succ']; congr 1; omega
  have hq : d / 2 ^ (k - 1) = 2 + d / 2 ^ (k - 1) % 2 := by
    have h1 : 2 ≤ d / 2 ^ (k - 1) := (Nat.le_div_iff_mul_le (Nat.two_pow_pos _)).mpr (by omega)
    have h2 : d / 2 ^ (k - 1) < 4 := (Nat.div_lt_iff_lt_mul (Nat.two_pow_pos _)).mpr (by rw [Nat.pow_succ] at hhi; omega)
    omega
  have hf : footerOf (slotOf d) = k - 1 := by rw [footerOf, hs]; omega
  refine ⟨hk, hs, hf, ?_⟩
  rw [slotStart, hf, hs, show (2 * k + d / 2 ^ (k - 1) % 2) % 2 = d / 2 ^ (k - 1) % 2 by omega, ← hq]
  exact Nat.div_add_mod' d _

theorem slotOf_lt {d : Nat} (h : d < 2 ^ 32) : slotOf d < 64 := by
  by_cases h4 : 4 ≤ d
  · obtain ⟨hk, hs, -, -⟩ := slot_split h4
    have : Nat.log2 d < 32 := (Nat.log2_lt (by omega)).mpr h
    omega
  · rw [slotOf, if_pos (by omega)]; omega

theorem posSlotOf_eq (dist : Word) : posSlotOf dist = BitVec.ofNat 32 (slotOf dist.toNat) := by
  unfold posSlotOf slotOf
  split
  · simp
  · next h =>
    have : (dist.getLsbD (Nat.log2 dist.toNat - 1)).toNat = dist.toNat / 2 ^ (Nat.log2 dist.toNat - 1) % 2 := by
      rw [BitVec.getLsbD, Nat.testBit_eq_decide_div_mod_eq]
      have := Nat.mod_lt (dist.toNat / 2 ^ (Nat.log2 dist.toNat - 1)) (show 2 > 0 by omega)
      by_cases h : dist.toNat / 2 ^ (Nat.log2 dist.toNat - 1) % 2 = 1
      · simp [h]
      · simp [h]; omega
    rw [← this]
    show BitVec.ofNat 32
      (2 * Nat.log2 dist.toNat + (if dist.getLsbD (Nat.log2 dist.toNat - 1) then 1 else 0)) = _
    cases dist.getLsbD (Nat.log2 dist.toNat - 1) <;> rfl

theorem footerBits_eq {slot : Nat} (h : slot < 64) : footerBits (BitVec.ofNat 32 slot) = footerOf slot := by
  unfold footerBits footerOf
  rw [BitVec.toNat_ofNat, Nat.mod_eq_of_lt (by omega), Nat.shiftRight_eq_div_pow]

theorem slotBase_eq {slot : Nat} (h : slot < 64) : slotBase (BitVec.ofNat 32 slot) = BitVec.ofNat 32 (slotStart slot) := by
  revert h
  have : ∀ n : Fin 64, slotBase (BitVec.ofNat 32 n.val) = BitVec.ofNat 32 (slotStart n.val) := by decide
  exact fun h => this ⟨slot, h⟩

theorem specPosTree_eq {slot : Nat} (h : slot < 64) :
    slot < 14 → specPosTree (BitVec.ofNat 32 slot) = BitVec.ofNat 32 (688 + slotStart slot - slot - 1) := by
  have : ∀ n : Fin 64, n.val < 14 → specPosTree (BitVec.ofNat 32 n.val) = BitVec.ofNat 32 (688 + slotStart n.val - n.val - 1) := by decide
  exact this ⟨slot, h⟩

theorem posSlotTree_eq {len : Word} (h : 2 ≤ len.toNat) : posSlotTree len = slotTree len := by
  unfold posSlotTree slotTree lenToPosState minW
  have hs : (len - 2#32).toNat = len.toNat - 2 := by
    rw [BitVec.toNat_sub_of_le (by exact h)]; rfl
  split
  · next hle =>
    have hle : (len - 2#32).toNat ≤ 3 := hle
    rw [Nat.min_eq_left (by omega), ← hs]
    apply BitVec.eq_of_toNat_eq; simp; omega
  · next hle =>
    have hle : ¬ (len - 2#32).toNat ≤ 3 := hle
    rw [Nat.min_eq_right (by omega)]; rfl

theorem lowPart_eq {dist : Word} (h : 4 ≤ dist.toNat) :
    dist - slotBase (posSlotOf dist) = BitVec.ofNat 32 (dist.toNat - slotStart (slotOf dist.toNat)) := by
  rw [posSlotOf_eq, slotBase_eq (slotOf_lt dist.isLt)]
  have := (slot_split h).2.2.2
  have hd := dist.isLt
  apply BitVec.eq_of_toNat_eq
  simp only [BitVec.toNat_sub, BitVec.toNat_ofNat]
  omega

theorem distEncode_run {dist len : Word} (hl : 2 ≤ len.toNat) {s : State} (h : s.host.sinkRoom = none)
    (hf : PathFits s.prob.size (distancePath dist len)) :
    distEncode dist len s = .ok (BitVec.ofNat 32 (slotOf dist.toNat)) (codePath s (distancePath dist len)) := by
  have h64 := slotOf_lt dist.isLt
  have hslot : (BitVec.ofNat 32 (slotOf dist.toNat)).toNat = slotOf dist.toNat := by
    rw [BitVec.toNat_ofNat]; omega
  have hbig : 4 ≤ slotOf dist.toNat → 4 ≤ dist.toNat := by
    intro h; by_contra hc; rw [slotOf, if_pos (by omega)] at h; omega
  unfold distancePath at hf ⊢
  rw [pathFits_append] at hf
  unfold distEncode
  simp only [posSlotTree_eq hl]
  rw [posSlotOf_eq, Eng.bind_ok (btEncode_codes _ _ _ s h hf.1), codePath_append, hslot]
  have h' : (codePath s (treePath (slotTree len) 6 (BitVec.ofNat 32 (slotOf dist.toNat)))).host.sinkRoom = none := by
    simpa using h
  by_cases h4 : slotOf dist.toNat < 4
  · simp [h4]
  · have hd := hbig (by omega)
    have hlow := lowPart_eq hd
    rw [posSlotOf_eq] at hlow
    simp only [h4, if_false] at hf ⊢
    by_cases h14 : slotOf dist.toNat < 14
    · simp only [h14, if_true, hlow, specPosTree_eq h64 h14, footerBits_eq h64] at hf ⊢
      rw [Eng.bind_ok (btReverseEncode_codes _ _ _ _ h' (by simpa using hf.2))]
      rfl
    · have hlt : dist.toNat - slotStart (slotOf dist.toNat) < 2 ^ 32 := by have := dist.isLt; omega
      have e1 : BitVec.ofNat 32 (dist.toNat - slotStart (slotOf dist.toNat)) >>> 4 =
          BitVec.ofNat 32 ((dist.toNat - slotStart (slotOf dist.toNat)) / 16) := by
        apply BitVec.eq_of_toNat_eq
        simp [Nat.shiftRight_eq_div_pow]; omega
      have e2 : BitVec.ofNat 32 (dist.toNat - slotStart (slotOf dist.toNat)) &&& 15#32 =
          BitVec.ofNat 32 ((dist.toNat - slotStart (slotOf dist.toNat)) % 16) := by
        apply BitVec.eq_of_toNat_eq
        simp only [BitVec.toNat_and, BitVec.toNat_ofNat]
        rw [show 15 % 2 ^ 32 = 2 ^ 4 - 1 by rfl, Nat.and_two_pow_sub_one_eq_mod]; omega
      simp only [h14, if_false, hlow, footerBits_eq h64, e1, e2, alignTree] at hf ⊢
      rw [pathFits_append] at hf
      rw [Eng.bind_ok (rceEncodeDirect_codes _ _ _ h' (by simpa using hf.2.1)), codePath_append,
        Eng.bind_ok (btReverseEncode_codes _ _ _ _ (by simpa using h') (by simpa using hf.2.2))]
      rfl

/-! ## Reading a path -/

theorem takeByte_prob (s : State) : (takeByte s).prob = s.prob := by
  unfold takeByte; split <;> rfl
theorem takeByte_status (s : State) : (takeByte s).status = s.status := by
  unfold takeByte; split <;> rfl
theorem takeByte_src (s : State) : (takeByte s).host.src.length + 1 ≥ s.host.src.length := by
  unfold takeByte; split <;> simp_all

@[simp] theorem refilled_prob (s : State) : (refilled s).prob = s.prob := by
  unfold refilled; split
  · exact takeByte_prob s
  · rfl

@[simp] theorem refilled_status (s : State) : (refilled s).status = s.status := by
  unfold refilled; split
  · exact takeByte_status s
  · rfl

theorem refilled_src (s : State) : s.host.src.length ≤ (refilled s).host.src.length + 1 := by
  unfold refilled; split
  · exact takeByte_src s
  · omega

theorem followBit_prob_size (s : State) (c : CodedBit) : (followBit s c).prob.size = s.prob.size := by
  cases c <;> simp [followBit, bitTaken]

theorem followBit_status (s : State) (c : CodedBit) : (followBit s c).status = s.status := by
  cases c <;> simp [followBit, bitTaken]

theorem followBit_src (s : State) (c : CodedBit) : s.host.src.length ≤ (followBit s c).host.src.length + 1 := by
  cases c <;> exact le_trans (by exact Nat.le_refl _) (refilled_src _)

theorem Reads.append {s t u : State} {p q : List CodedBit} (h1 : Reads s p t) (h2 : Reads t q u) :
    Reads s (p ++ q) u := by
  induction p generalizing s with
  | nil => cases h1; exact h2
  | cons c p ih => exact ⟨h1.1, ih h1.2⟩

theorem Reads.kept {s t : State} {p : List CodedBit} (h : Reads s p t) :
    t.status = s.status ∧ t.prob.size = s.prob.size ∧ s.host.src.length ≤ t.host.src.length + p.length := by
  induction p generalizing s with
  | nil => cases h; exact ⟨rfl, rfl, Nat.le_refl _⟩
  | cons c p ih =>
    obtain ⟨h1, h2, h3⟩ := ih h.2
    have := followBit_src s c
    refine ⟨h1.trans (followBit_status s c), h2.trans (followBit_prob_size s c), ?_⟩
    rw [List.length_cons]; omega

/-- A computation decodes: with a source byte ready for each of `bits` bits and PROB entries up to `size`, it completes,
and it has read a path that `R` relates to its result. -/
def Decodes {α : Type} (f : Eng α) (bits size : Nat) (R : α → List CodedBit → Prop) : Prop :=
  ∀ s : State, s.status.srcEof = false → bits ≤ s.host.src.length → size ≤ s.prob.size →
    ∃ a p t, R a p ∧ p.length ≤ bits ∧ Reads s p t ∧ f s = .ok a t

theorem Decodes.pure {α : Type} (a : α) (size : Nat) {R : α → List CodedBit → Prop} (h : R a []) :
    Decodes (pure a) 0 size R := fun s _ _ _ => ⟨a, [], s, h, Nat.le_refl _, rfl, rfl⟩

theorem Decodes.mono {α : Type} {f : Eng α} {bits bits' size size' : Nat} {R R' : α → List CodedBit → Prop}
    (h : Decodes f bits size R) (hb : bits ≤ bits') (hs : size ≤ size') (hR : ∀ a p, R a p → R' a p) :
    Decodes f bits' size' R' := fun s h1 h2 h3 => by
  obtain ⟨a, p, t, r, l, rd, e⟩ := h s h1 (by omega) (by omega)
  exact ⟨a, p, t, hR a p r, by omega, rd, e⟩

theorem Decodes.bind {α β : Type} {f : Eng α} {g : α → Eng β} {b1 b2 size : Nat} {R1 : α → List CodedBit → Prop}
    {R : β → List CodedBit → Prop} (hf : Decodes f b1 size R1)
    (hg : ∀ a p, R1 a p → Decodes (g a) b2 size (fun b q => R b (p ++ q))) : Decodes (f >>= g) (b1 + b2) size R :=
  fun s h1 h2 h3 => by
    obtain ⟨a, p, t, r, l, rd, e⟩ := hf s h1 (by omega) h3
    obtain ⟨k1, k2, k3⟩ := rd.kept
    obtain ⟨b, q, u, r', l', rd', e'⟩ := hg a p r t (by rw [k1]; exact h1) (by omega) (by omega)
    exact ⟨b, p ++ q, u, r', by rw [List.length_append]; omega, rd.append rd', by rw [Eng.bind_ok e]; exact e'⟩

/-- The state after `SrcRead` took a byte (R110). -/
def bytePopped (rest : List Byte) (s : State) : State :=
  { s with host := { s.host with src := rest }, cnt := { s.cnt with inCount := s.cnt.inCount + 1 } }

theorem srcRead_byte {s : State} (h : s.status.srcEof = false) {b : Byte} {rest : List Byte}
    (hs : s.host.src = b :: rest) : srcRead s = .ok (some b) (bytePopped rest s) := by
  unfold srcRead; rw [h, hs]; rfl

theorem srcReadOrTruncated_byte {s : State} (h : s.status.srcEof = false) {b : Byte} {rest : List Byte}
    (hs : s.host.src = b :: rest) : srcReadOrTruncated s = .ok b (bytePopped rest s) := by
  unfold srcReadOrTruncated; rw [Eng.bind_ok (srcRead_byte h hs)]; rfl

theorem rcdNormalize_run {s : State} (h : s.status.srcEof = false) (hs : 1 ≤ s.host.src.length) :
    rcdNormalize s = .ok () (takeByte s) := by
  unfold rcdNormalize takeByte
  cases hb : s.host.src with
  | nil => simp [hb] at hs
  | cons b rest =>
    rw [Eng.bind_ok (srcReadOrTruncated_byte h hb)]
    rfl

theorem rcdNormalizeIfLow_run {s : State} (h : s.status.srcEof = false) (hs : 1 ≤ s.host.src.length) :
    rcdNormalizeIfLow s = .ok () (refilled s) := by
  unfold rcdNormalizeIfLow refilled
  rw [Eng.bind_look]
  split
  · exact rcdNormalize_run h hs
  · rfl

theorem rcdNarrow_eq (bound : Word) (r : RcdRegs) :
    rcdNarrow bound r = (decide (bound.toNat ≤ r.code.toNat),
      if decide (bound.toNat ≤ r.code.toNat) = true then { range := r.range - bound, code := r.code - bound }
      else { r with range := bound }) := by
  unfold rcdNarrow
  by_cases h : r.code < bound
  · have h' : ¬ bound.toNat ≤ r.code.toNat := Nat.not_le.mpr h
    simp [h, h']
  · have h' : bound.toNat ≤ r.code.toNat := Nat.not_lt.mp h
    simp [h, h']

/-- `RcdDecodeBit` reads one modelled bit (R290). -/
theorem rcdDecodeBit_decodes (i : Word) (size : Nat) (hi : i.toNat < size) :
    Decodes (rcdDecodeBit i) 1 size (fun b p => p = [.model i b]) := by
  intro s h1 h2 h3
  have hi' : i.toNat < s.prob.size := by omega
  unfold rcdDecodeBit probRead probWrite
  rw [Eng.bind_ok (ramRead_ok hi'), Eng.bind_look, Eng.bind_put]
  rw [bitBound_eq, rcdNarrow_eq]
  refine ⟨decide ((decodeBound s i).toNat ≤ s.rcd.code.toNat), _, _, rfl, Nat.le_refl _, ⟨rfl, rfl⟩, ?_⟩
  refine (Eng.bind_ok (ramWrite_ok (by exact hi')) _).trans
    ((Eng.bind_ok (rcdNormalizeIfLow_run (by exact h1) (by exact h2)) _).trans ?_)
  rw [adapted_eq]
  rfl

/-- One turn of `RcdDecodeDirect` reads one raw bit (R292). -/
theorem rcdDirectLoop_step {s : State} (h1 : s.status.srcEof = false) (h2 : 1 ≤ s.host.src.length) (k : Nat) (v : Word) :
    ∃ b, agrees s (.direct b) ∧
      rcdDirectLoop (k + 1) v s = rcdDirectLoop k ((v <<< 1) ||| bitWord b) (followBit s (.direct b)) := by
  refine ⟨decide (s.rcd.range.toNat / 2 ≤ s.rcd.code.toNat), rfl, ?_⟩
  rw [rcdDirectLoop, Eng.bind_look, Eng.bind_put]
  have hh : s.rcd.range >>> 1 = BitVec.ofNat 32 (s.rcd.range.toNat / 2) := by
    have := s.rcd.range.isLt
    apply BitVec.eq_of_toNat_eq; simp [Nat.shiftRight_eq_div_pow]; omega
  have hd : rcdHalve s.rcd = (decide (s.rcd.range.toNat / 2 ≤ s.rcd.code.toNat),
      { range := BitVec.ofNat 32 (s.rcd.range.toNat / 2),
        code := if decide (s.rcd.range.toNat / 2 ≤ s.rcd.code.toNat) = true then
          s.rcd.code - BitVec.ofNat 32 (s.rcd.range.toNat / 2) else s.rcd.code }) := by
    have ht : (BitVec.ofNat 32 (s.rcd.range.toNat / 2)).toNat = s.rcd.range.toNat / 2 := by
      have := s.rcd.range.isLt
      rw [BitVec.toNat_ofNat]; omega
    unfold rcdHalve
    simp only [hh, BitVec.le_def, ht]
    by_cases hc : s.rcd.range.toNat / 2 ≤ s.rcd.code.toNat <;> simp [hc]
  rw [hd]
  exact Eng.bind_ok (rcdNormalizeIfLow_run (by exact h1) (by exact h2)) _

end Sys2Proof.Machine
end

