-- ==== Sys2Proof/Laws/Commands.lean ====
section
/-! SUPPORT. What the shared operations of every command do: the gate, the two streams, fault entry and RESET, each said
once in one lemma. -/

namespace Sys2Proof.Machine

/-- The gate lets a command's rule run exactly in the phases and modes R147 names. -/
theorem gate_run_iff (g : Gate) (s : State) : g.answer s = .run ↔ g.accepts s := by
  cases g <;> simp only [Gate.answer, Gate.accepts] <;> (repeat split) <;> simp_all <;> split <;> simp

/-- The gate makes a command a no-op exactly where R149 says so. -/
theorem gate_skip_iff (g : Gate) (s : State) : g.answer s = .skip ↔ ¬ g.accepts s ∧ g.isNoOp s := by
  cases g <;> simp only [Gate.answer, Gate.accepts, Gate.isNoOp] <;> (repeat split) <;> simp_all

/-- Clearing the results does not change what the gate answers. -/
@[simp] theorem gate_clearResults (g : Gate) (s : State) : g.answer (clearResults s) = g.answer s := by
  cases g <;> rfl

/-- Everything SrcRead can do (R14, R110): give the next byte and count it, give EOF and record it, or wait. -/
theorem srcRead_cases (s : State) :
    (s.status.srcEof = true ∧ srcRead s = .ok none s) ∨
    (∃ b rest, s.status.srcEof = false ∧ s.host.src = b :: rest ∧
      srcRead s = .ok (some b) { s with host := { s.host with src := rest }
                                        cnt := { s.cnt with inCount := s.cnt.inCount + 1 } }) ∨
    (s.status.srcEof = false ∧ s.host.src = [] ∧ s.host.srcEnd = true ∧
      srcRead s = .ok none { s with status := { s.status with srcEof := true } }) ∨
    (s.status.srcEof = false ∧ s.host.src = [] ∧ s.host.srcEnd = false ∧
      srcRead s = .error (.stuck .sourceWait) s) := by
  cases he : s.status.srcEof with
  | true => exact .inl ⟨rfl, by simp [srcRead, he]⟩
  | false =>
    cases hs : s.host.src with
    | cons b rest => exact .inr (.inl ⟨b, rest, rfl, rfl, by simp [srcRead, he, hs]⟩)
    | nil =>
      cases hd : s.host.srcEnd with
      | true => exact .inr (.inr (.inl ⟨rfl, rfl, rfl, by simp [srcRead, he, hs, hd]⟩))
      | false => exact .inr (.inr (.inr ⟨rfl, rfl, rfl, by simp [srcRead, he, hs, hd]⟩))

/-- Everything SinkWrite can do (R14, R111): append one byte and count it, or wait. -/
theorem sinkWrite_cases (b : Byte) (s : State) :
    (∃ room, s.host.sinkRoom ≠ some 0 ∧ sinkWrite b s = .ok () { s with
      host := { s.host with sink := b :: s.host.sink, sinkRoom := room }
      cnt := { s.cnt with outCount := s.cnt.outCount + 1 } } ∧ room = s.host.sinkRoom.map (· - 1)) ∨
    (s.host.sinkRoom = some 0 ∧ sinkWrite b s = .error (.stuck .sinkWait) s) := by
  cases hr : s.host.sinkRoom with
  | none => exact .inl ⟨none, by simp, by simp [sinkWrite, hr], rfl⟩
  | some n =>
    cases n with
    | zero => exact .inr ⟨rfl, by simp [sinkWrite, hr]⟩
    | succ n => exact .inl ⟨some n, by simp, by simp [sinkWrite, hr], rfl⟩

/-- Fault entry records the first error and clears the results; nothing else changes (R610, R611). -/
theorem faultEntry_first {s : State} (h : s.status.err = .none) (c : ErrCode) :
    faultEntry c s = { s with status := { s.status with err := c }, x := { s.x with r0 := 0, r1 := 0 } } := by
  simp [faultEntry, Status.record, h]

/-- Under a recorded error fault entry only clears the results (R611). -/
theorem faultEntry_later {s : State} (h : s.status.err ≠ .none) (c : ErrCode) :
    faultEntry c s = { s with x := { s.x with r0 := 0, r1 := 0 } } := by
  simp [faultEntry, Status.record, h]

/-- RESET keeps the host's side and the instance's parameter, and nothing else (R561, R651). -/
theorem resetEngine_eq (s : State) : resetEngine s = { State.reset with host := s.host, dictCap := s.dictCap } := rfl

end Sys2Proof.Machine
end

