-- ==== Sys2Proof/Laws/Finder.lean ====
section
/-! SUPPORT. What the match finder's rules (`FinderOk`) say, read off the cells of HASH and SON, and that empty buckets meet
them. -/

namespace Sys2Proof.Machine

@[simp] theorem standingAt_pos (p : Word) (s : State) : (standingAt p s).win.pos = p := rfl
@[simp] theorem standingAt_bufOffset (p : Word) (s : State) : (standingAt p s).win.bufOffset = s.win.bufOffset := rfl
@[simp] theorem standingAt_wbuf (p : Word) (s : State) : (standingAt p s).wbuf = s.wbuf := rfl
@[simp] theorem standingAt_mf (p : Word) (s : State) : (standingAt p s).mf = s.mf := rfl
@[simp] theorem standingAt_hash (p : Word) (s : State) : (standingAt p s).hash = s.hash := rfl
@[simp] theorem standingAt_self (s : State) : standingAt s.win.pos s = s := rfl

/-- The byte at offset `i` from `p` is the byte of position `p + i`. -/
theorem windowByte_standingAt (p i : Word) (s : State) : windowByte (standingAt p s) i = byteAt s (p + i) := by
  unfold windowByte byteAt windowIndex
  rw [standingAt_wbuf, standingAt_bufOffset, standingAt_pos, BitVec.add_assoc]

/-- The empty value 0 is no position a search follows. -/
theorem not_live_zero (s : State) : ¬ Live s 0#32 := fun h => absurd h.1 (Nat.not_lt_zero _)

/-- What a HASH cell `(k, v)` has to show. -/
def HashCellOk (s : State) (c : Nat × Word) : Prop :=
  c.2.toNat < s.win.pos.toNat ∧ c.2.toNat + s.mf.minMatchCheck.toNat ≤ s.win.streamPos.toNat ∧
    (s.mf.hashArray = true →
      (c.1 < 1024 → hashTwo (standingAt c.2 s) = c.1) ∧
      (1024 ≤ c.1 → c.1 < 66560 → hashThree (standingAt c.2 s) = c.1 - 1024)) ∧
    (s.mf.fixHashSize.toNat ≤ c.1 → mainBucket (standingAt c.2 s) = c.1)

/-- The rules hold where every HASH cell shows its part and SON is empty. -/
theorem finderOk_of_cells {s : State} (hpos : 0 < s.win.pos.toNat) (hhash : ∀ c ∈ s.hash.cells, HashCellOk s c)
    (hson : ∀ k, s.son.get k = 0#32) : FinderOk s := by
  have live : ∀ k, Live s (s.hash.get k) → HashCellOk s (k, s.hash.get k) := fun k h =>
    (s.hash.get_mem k).elim (fun e => absurd (e ▸ h) (not_live_zero s)) (hhash _)
  exact {
    past := ⟨fun k => (s.hash.get_mem k).elim (fun e => by rw [e]; exact hpos) fun h => (hhash _ h).1,
      fun k => by rw [hson]; exact hpos⟩
    older := fun p h => by
      rw [hson, hson]
      exact ⟨Nat.lt_of_le_of_lt (Nat.zero_le _) h.1, Nat.lt_of_le_of_lt (Nat.zero_le _) h.1⟩
    read := fun k h => (live k h).2.1
    short := fun ha => ⟨fun k hk h => ((live k h).2.2.1 ha).1 hk, fun k hk h => by
      exact (((live (1024 + k) h).2.2.1 ha).2 (Nat.le_add_right _ _) (by omega)).trans (Nat.add_sub_cancel_left _ _)⟩
    main := fun k hk h => (live k h).2.2.2 hk }

/-- Empty buckets and trees, as `MfInit` leaves them (R242). -/
theorem finderOk_fresh {s : State} (hpos : 0 < s.win.pos.toNat) (hhash : s.hash.cells = []) (hson : ∀ k, s.son.get k = 0#32) :
    FinderOk s :=
  finderOk_of_cells hpos (by rw [hhash]; intro c h; cases h) hson

end Sys2Proof.Machine
end

