-- ==== Sys2Proof/Laws/Interval.lean ====
section
/-! SUPPORT. The arithmetic of the range coder: the payload as one number, the interval a path of coded bits narrows it to
(R284, R285), and the decoder's registers as the payload read so far less the encoder's number (R290, R292). -/

namespace Sys2Proof.Machine

/-- The number a list of bytes spells, most significant first. -/
def spelled (bs : List Byte) : Nat := bs.foldl (fun a b => a * 256 + b.toNat) 0

theorem spelled_foldl (bs : List Byte) (a : Nat) :
    bs.foldl (fun a b => a * 256 + b.toNat) a = a * 256 ^ bs.length + spelled bs := by
  induction bs generalizing a with
  | nil => simp [spelled]
  | cons b t ih =>
    simp only [spelled, List.foldl_cons, List.length_cons]
    rw [ih, ih (0 * 256 + b.toNat), pow_succ]
    ring

theorem spelled_append (a b : List Byte) : spelled (a ++ b) = spelled a * 256 ^ b.length + spelled b := by
  rw [spelled, List.foldl_append, spelled_foldl]; rfl

theorem spelled_cons (b : Byte) (t : List Byte) : spelled (b :: t) = b.toNat * 256 ^ t.length + spelled t := by
  have := spelled_append [b] t
  simpa [spelled] using this

theorem spelled_lt (bs : List Byte) : spelled bs < 256 ^ bs.length := by
  induction bs with
  | nil => simp [spelled]
  | cons b t ih =>
    rw [spelled_cons, List.length_cons, pow_succ]
    have := b.isLt
    nlinarith [Nat.one_le_pow t.length 256 (by omega)]

theorem spelled_replicate_ff (k : Nat) : spelled (List.replicate k 0xFF#8) + 1 = 256 ^ k := by
  induction k with
  | zero => rfl
  | succ k ih =>
    rw [List.replicate_succ, spelled_cons, List.length_replicate, pow_succ]
    have : (0xFF#8 : Byte).toNat = 255 := rfl
    rw [this]; omega

theorem spelled_replicate_zero (k : Nat) : spelled (List.replicate k 0#8) = 0 := by
  induction k with
  | zero => rfl
  | succ k ih => rw [List.replicate_succ, spelled_cons, ih]; simp

/-- The bytes the encoder has settled on but not written: the cache byte and the 0xFF bytes behind it. -/
def pendingValue (r : RceRegs) : Nat :=
  r.cache.toNat * 256 ^ (r.cacheSize.toNat - 1) + (256 ^ (r.cacheSize.toNat - 1) - 1)

/-- The number the bytes written and pending and `low` spell. -/
def coderValue (w : List Byte) (r : RceRegs) : Nat :=
  (spelled w * 256 ^ r.cacheSize.toNat + pendingValue r) * 2 ^ 32 + r.low.toNat

/-- No carry past the pending bytes. -/
structure CarryFits (r : RceRegs) (range : Nat) : Prop where
  some : 1 ≤ r.cacheSize.toNat
  sum : r.low.toNat + range ≤ 2 ^ 33
  room : pendingValue r * 2 ^ 32 + r.low.toNat + range ≤ 256 ^ r.cacheSize.toNat * 2 ^ 32

theorem pending_step (r : RceRegs) :
    pendingValue r + 1 = (r.cache.toNat + 1) * 256 ^ (r.cacheSize.toNat - 1) := by
  unfold pendingValue
  have := Nat.one_le_pow (r.cacheSize.toNat - 1) 256 (by omega)
  rw [Nat.add_mul]; omega

/-- One `RceShiftLow` multiplies the number by 256. -/
theorem shiftedLow_value (w : List Byte) {r : RceRegs} (h1 : 1 ≤ r.cacheSize.toNat) (h2 : r.cacheSize.toNat + 1 < 2 ^ 32)
    (hc : 2 ^ 32 ≤ r.low.toNat → r.cache.toNat ≠ 255) :
    coderValue (w ++ (shiftedLow r).2) (shiftedLow r).1 = 256 * coderValue w r ∧
      1 ≤ (shiftedLow r).1.cacheSize.toNat ∧ (shiftedLow r).1.cacheSize.toNat ≤ r.cacheSize.toNat + 1 ∧
      (shiftedLow r).1.low.toNat = r.low.toNat % 2 ^ 24 * 256 ∧ (shiftedLow r).1.range = r.range ∧
      (w ++ (shiftedLow r).2).length + (shiftedLow r).1.cacheSize.toNat = w.length + r.cacheSize.toNat + 1 := by
  have hlow := r.low.isLt
  have hm : r.low.toNat % 2 ^ 24 * 256 < 2 ^ 33 := by omega
  have hp := pending_step r
  unfold shiftedLow
  split
  · next hcond =>
    have hs : spelled (settledBytes r) = pendingValue r + (if 2 ^ 32 ≤ r.low.toNat then 1 else 0) ∧
        (settledBytes r).length = r.cacheSize.toNat := by
      have hcs : (r.cacheSize - 1#32).toNat = r.cacheSize.toNat - 1 := by
        rw [BitVec.toNat_sub]; simp; omega
      have hl : (settledBytes r).length = r.cacheSize.toNat := by
        simp only [settledBytes, List.length_cons, List.length_replicate, hcs]; omega
      refine ⟨?_, hl⟩
      have e : r.cacheSize.toNat - 1 + 1 = r.cacheSize.toNat := by omega
      unfold settledBytes
      by_cases hb : 2 ^ 32 ≤ r.low.toNat
      · have hne := hc hb
        have hlt := r.cache.isLt
        simp only [hb, if_true, spelled_cons, List.length_replicate, hcs]
        rw [show (0xFF#8 + 1#8 : Byte) = 0#8 from rfl, spelled_replicate_zero, hp]
        rw [BitVec.toNat_add]
        rw [Nat.mod_eq_of_lt (by simp; omega)]
        rfl
      · simp only [hb, if_false, spelled_cons, List.length_replicate, hcs]
        have := spelled_replicate_ff (r.cacheSize.toNat - 1)
        simp only [BitVec.add_zero]
        unfold pendingValue
        omega
    obtain ⟨hs, hl⟩ := hs
    refine ⟨?_, by simp, by simp, ?_, rfl, ?_⟩
    · simp only [coderValue, spelled_append, hs, hl, pendingValue]
      simp only [BitVec.toNat_ofNat]
      rw [Nat.mod_eq_of_lt hm]
      have : (1 : Nat) % 2 ^ 32 = 1 := by norm_num
      rw [this]
      simp only [Nat.sub_self, pow_zero, pow_one]
      have hq : r.low.toNat / 2 ^ 24 % 2 ^ 8 = r.low.toNat / 2 ^ 24 - if 2 ^ 32 ≤ r.low.toNat then 256 else 0 := by
        split <;> omega
      rw [hq]
      have hpv : pendingValue r = r.cache.toNat * 256 ^ (r.cacheSize.toNat - 1) + (256 ^ (r.cacheSize.toNat - 1) - 1) := rfl
      rw [← hpv]
      generalize spelled w * 256 ^ r.cacheSize.toNat = A
      generalize pendingValue r = B
      split <;> omega
    · simp only [BitVec.toNat_ofNat]; exact Nat.mod_eq_of_lt hm
    · simp only [List.length_append, hl]; simp
  · next hcond =>
    have hcs : (r.cacheSize + 1#32).toNat = r.cacheSize.toNat + 1 := by
      rw [BitVec.toNat_add]; simp; omega
    refine ⟨?_, by simp only [hcs]; omega, by simp only [hcs]; omega, ?_, rfl, by simp only [hcs, List.append_nil]; omega⟩
    · simp only [coderValue, List.append_nil, pendingValue, hcs, BitVec.toNat_ofNat]
      rw [Nat.mod_eq_of_lt hm]
      have hq : r.low.toNat / 2 ^ 24 = 255 := by omega
      have e : r.cacheSize.toNat + 1 - 1 = r.cacheSize.toNat := by omega
      have e2 : 256 ^ r.cacheSize.toNat = 256 ^ (r.cacheSize.toNat - 1) * 256 := by
        rw [← pow_succ]; congr 1; omega
      have e3 := Nat.one_le_pow (r.cacheSize.toNat - 1) 256 (by omega)
      rw [e, pow_succ, e2]
      generalize 256 ^ (r.cacheSize.toNat - 1) = Q at *
      have : r.low.toNat = 255 * 2 ^ 24 + r.low.toNat % 2 ^ 24 := by omega
      generalize r.low.toNat % 2 ^ 24 = L at *
      rw [this]
      obtain ⟨q, rfl⟩ : ∃ q, Q = q + 1 := ⟨Q - 1, by omega⟩
      have s1 : (q + 1) * 256 - 1 = q * 256 + 255 := by omega
      have s2 : q + 1 - 1 = q := rfl
      rw [s1, s2]
      ring
    · simp only [BitVec.toNat_ofNat]; exact Nat.mod_eq_of_lt hm


theorem CarryFits.noCarry {r : RceRegs} {R : Nat} (h : CarryFits r R) (hR : 1 ≤ R) (hc : 2 ^ 32 ≤ r.low.toNat) :
    r.cache.toNat ≠ 255 := by
  intro he
  have hp := pending_step r
  rw [he] at hp
  have e : (255 + 1) * 256 ^ (r.cacheSize.toNat - 1) = 256 ^ r.cacheSize.toNat := by
    have h1 := h.some
    rw [show 255 + 1 = 256 from rfl, ← pow_succ']; congr 1; omega
  have hroom := h.room
  rw [e] at hp
  rw [← hp] at hroom
  omega

theorem shiftedLow_fits {r : RceRegs} {R : Nat} (h : CarryFits r R) (h2 : r.cacheSize.toNat + 1 < 2 ^ 32) (hR : R ≤ 2 ^ 24) :
    CarryFits (shiftedLow r).1 (R * 256) := by
  have hlow := r.low.isLt
  have hm : r.low.toNat % 2 ^ 24 * 256 < 2 ^ 33 := by omega
  have hroom := h.room
  have hsum := h.sum
  have h1 := h.some
  unfold shiftedLow
  split
  · next hcond =>
    refine ⟨by simp, ?_, ?_⟩
    · simp only [BitVec.toNat_ofNat]
      rw [Nat.mod_eq_of_lt hm]; clear hroom; omega
    · simp only [BitVec.toNat_ofNat, pendingValue]
      rw [Nat.mod_eq_of_lt hm]
      have : (1 : Nat) % 2 ^ 32 = 1 := by norm_num
      rw [this]
      simp only [Nat.sub_self, pow_zero, pow_one]
      clear hroom
      omega
  · next hcond =>
    have hcs : (r.cacheSize + 1#32).toNat = r.cacheSize.toNat + 1 := by
      rw [BitVec.toNat_add]; simp; omega
    refine ⟨by simp only [hcs]; omega, ?_, ?_⟩
    · simp only [BitVec.toNat_ofNat]
      rw [Nat.mod_eq_of_lt hm]; clear hroom; omega
    · simp only [pendingValue, hcs, BitVec.toNat_ofNat]
      rw [Nat.mod_eq_of_lt hm]
      have e : r.cacheSize.toNat + 1 - 1 = r.cacheSize.toNat := by omega
      have e2 : 256 ^ r.cacheSize.toNat = 256 ^ (r.cacheSize.toNat - 1) * 256 := by
        rw [← pow_succ]; congr 1; omega
      have e3 := Nat.one_le_pow (r.cacheSize.toNat - 1) 256 (by omega)
      rw [pendingValue, e2] at hroom
      rw [e, pow_succ 256, e2]
      generalize 256 ^ (r.cacheSize.toNat - 1) = Q at *
      obtain ⟨q, rfl⟩ : ∃ q, Q = q + 1 := ⟨Q - 1, by omega⟩
      have s1 : (q + 1) * 256 - 1 = q * 256 + 255 := by omega
      have s2 : q + 1 - 1 = q := rfl
      rw [s1]
      rw [s2] at hroom
      have s3 : r.cache.toNat * ((q + 1) * 256) = r.cache.toNat * (q + 1) * 256 := by ring
      rw [s3]
      have hq : r.low.toNat = 255 * 2 ^ 24 + r.low.toNat % 2 ^ 24 := by clear hroom e2; omega
      rw [hq] at hroom
      generalize r.low.toNat % 2 ^ 24 = L at *
      generalize r.cache.toNat * (q + 1) = C at *
      clear e e2 hcs s1 s2 s3 e3 hq hsum hm hlow h1 h2 hcond
      linarith

/-- An encoder state whose sink holds `w` after `base`. -/
def Wrote (base w : List Byte) (s : State) : Prop := s.host.sink = w.reverse ++ base

theorem shiftLowState_wrote {base w : List Byte} {s : State} (h : Wrote base w s) :
    Wrote base (w ++ (shiftedLow s.rce).2) (shiftLowState s) := by
  unfold Wrote at *
  simp [shiftLowState, emit, h]


theorem adapted_range {p : Prob} (b : Bool) (h : 31 ≤ p.toNat ∧ p.toNat ≤ 2017) :
    31 ≤ (adapted p b).toNat ∧ (adapted p b).toNat ≤ 2017 := by
  unfold adapted
  rw [BitVec.toNat_ofNat]
  cases b
  · simp only [Bool.false_eq_true, if_false]
    rw [Nat.mod_eq_of_lt (by omega)]; omega
  · simp only [if_true]
    rw [Nat.mod_eq_of_lt (by omega)]; omega

theorem cellSet_all {α : Type} [DecidableEq α] {fill : α} (P : α → Prop) (l : List (Nat × α)) (i : Nat) (v : α)
    (hl : ∀ c ∈ l, P c.2) (hv : P v) : ∀ c ∈ cellSet fill l i v, P c.2 := by
  induction l with
  | nil => simp only [cellSet]; split <;> simp_all
  | cons c t ih =>
    obtain ⟨k, u⟩ := c
    have hu := hl (k, u) (List.mem_cons_self ..)
    have ht : ∀ c ∈ t, P c.2 := fun c hc => hl c (List.mem_cons_of_mem _ hc)
    have := ih ht
    simp only [cellSet]
    split
    · split
      · exact hl
      · exact List.forall_mem_cons.mpr ⟨hv, hl⟩
    · split
      · split
        · exact ht
        · exact List.forall_mem_cons.mpr ⟨hv, ht⟩
      · exact List.forall_mem_cons.mpr ⟨hu, this⟩

theorem cellAt_any {α : Type} {fill : α} (P : α → Prop) (hf : P fill) (l : List (Nat × α)) (i : Nat)
    (hl : ∀ c ∈ l, P c.2) : P (cellAt fill l i) := by
  induction l with
  | nil => exact hf
  | cons c t ih =>
    obtain ⟨k, u⟩ := c
    simp only [cellAt]
    split
    · exact hf
    · split
      · exact hl (k, u) (List.mem_cons_self ..)
      · exact ih fun c hc => hl c (List.mem_cons_of_mem _ hc)

/-- The registers of an encoder in the middle of a stream. -/
structure Coding (s : State) : Prop where
  fits : CarryFits s.rce s.rce.range.toNat
  range : 2 ^ 24 ≤ s.rce.range.toNat
  cells : ∀ x ∈ s.prob.cells, 31 ≤ x.2.toNat ∧ x.2.toNat ≤ 2017

theorem Coding.probs {s : State} (h : Coding s) (i : Nat) : 31 ≤ (s.prob.get i).toNat ∧ (s.prob.get i).toNat ≤ 2017 :=
  cellAt_any (fun p : Prob => 31 ≤ p.toNat ∧ p.toNat ≤ 2017) (by decide) _ _ h.cells

/-- The encoder after one coded bit, before its renormalization. -/
def bitCoded (s : State) : CodedBit → State
  | .model i b =>
    let bound := BitVec.ofNat 32 (s.rce.range.toNat / 2048 * (s.prob.get i.toNat).toNat)
    { s with
      prob := s.prob.set i.toNat (adapted (s.prob.get i.toNat) b)
      rce := if b then { s.rce with low := s.rce.low + bound.setWidth 33, range := s.rce.range - bound }
             else { s.rce with range := bound } }
  | .direct b =>
    let half := BitVec.ofNat 32 (s.rce.range.toNat / 2)
    { s with rce := { s.rce with range := half, low := if b then s.rce.low + half.setWidth 33 else s.rce.low } }

theorem codeBit_eq (s : State) (c : CodedBit) : codeBit s c = renormalized (bitCoded s c) := by cases c <;> rfl

/-- What the number and the range become when a bit is coded: the part of the interval the bit names. -/
theorem bitCoded_interval {s : State} (h : Coding s) (c : CodedBit) :
    ∃ k : Nat, 0 < k ∧ k < s.rce.range.toNat ∧
      (match c with
        | .model i _ => k = s.rce.range.toNat / 2048 * (s.prob.get i.toNat).toNat
        | .direct _ => k = s.rce.range.toNat / 2) ∧
      (match c with
        | .model _ b | .direct b =>
          (bitCoded s c).rce.low.toNat = s.rce.low.toNat + (if b then k else 0) ∧
          (b = false → (bitCoded s c).rce.range.toNat = k) ∧
          (b = true → (bitCoded s c).rce.range.toNat ≤ s.rce.range.toNat - k ∧
            s.rce.range.toNat - k ≤ (bitCoded s c).rce.range.toNat + 1)) ∧
      2 ^ 16 ≤ (bitCoded s c).rce.range.toNat ∧
      (bitCoded s c).rce.cache = s.rce.cache ∧ (bitCoded s c).rce.cacheSize = s.rce.cacheSize := by
  have hr := h.range
  have hlt := s.rce.range.isLt
  have hsum := h.fits.sum
  cases c with
  | model i b =>
    have hp := h.probs i.toNat
    refine ⟨s.rce.range.toNat / 2048 * (s.prob.get i.toNat).toNat, ?_, ?_, rfl, ?_⟩
    · exact Nat.mul_pos (by omega) (by omega)
    · calc _ ≤ s.rce.range.toNat / 2048 * 2017 := Nat.mul_le_mul_left _ hp.2
        _ < _ := by omega
    · have hb : s.rce.range.toNat / 2048 * (s.prob.get i.toNat).toNat < s.rce.range.toNat :=
        lt_of_le_of_lt (Nat.mul_le_mul_left _ hp.2) (by omega)
      have hb0 : 2 ^ 16 ≤ s.rce.range.toNat / 2048 * (s.prob.get i.toNat).toNat :=
        le_trans (by omega) (Nat.mul_le_mul_left (s.rce.range.toNat / 2048) hp.1)
      have hb1 : s.rce.range.toNat / 2048 * (s.prob.get i.toNat).toNat + 2 ^ 16 ≤ s.rce.range.toNat :=
        le_trans (Nat.add_le_add_right (Nat.mul_le_mul_left _ hp.2) _) (by omega)
      simp only [bitCoded]
      generalize s.rce.range.toNat / 2048 * (s.prob.get i.toNat).toNat = k at *
      have ht : (BitVec.ofNat 32 k).toNat = k := by rw [BitVec.toNat_ofNat]; omega
      cases b <;> simp [ht, BitVec.toNat_add, BitVec.toNat_sub] <;> omega
  | direct b =>
    refine ⟨s.rce.range.toNat / 2, by omega, by omega, rfl, ?_⟩
    simp only [bitCoded]
    have hk : s.rce.range.toNat / 2 ≤ s.rce.range.toNat := by omega
    have hk2 : s.rce.range.toNat - s.rce.range.toNat / 2 ≤ s.rce.range.toNat / 2 + 1 := by omega
    have hk3 : s.rce.range.toNat / 2 ≤ s.rce.range.toNat - s.rce.range.toNat / 2 := by omega
    have hk4 : 2 ^ 16 ≤ s.rce.range.toNat / 2 := by omega
    generalize s.rce.range.toNat / 2 = k at *
    have ht : (BitVec.ofNat 32 k).toNat = k := by rw [BitVec.toNat_ofNat]; omega
    cases b <;> simp [ht, BitVec.toNat_add] <;> omega


/-- What the renormalization does to the number: nothing, or a multiplication by 256. -/
theorem renormalized_value {base w : List Byte} {s : State} (hw : Wrote base w s)
    (hf : CarryFits s.rce s.rce.range.toNat) (h0 : 0 < s.rce.range.toNat) (h2 : s.rce.cacheSize.toNat + 1 < 2 ^ 32) :
    ∃ (w' : List Byte) (n : Nat), Wrote base w' (renormalized s) ∧ (n = if s.rce.range.toNat < 2 ^ 24 then 1 else 0) ∧
      coderValue w' (renormalized s).rce = 256 ^ n * coderValue w s.rce ∧
      (renormalized s).rce.range.toNat = 256 ^ n * s.rce.range.toNat ∧
      CarryFits (renormalized s).rce (renormalized s).rce.range.toNat ∧
      (renormalized s).rce.cacheSize.toNat ≤ s.rce.cacheSize.toNat + 1 ∧
      w'.length + (renormalized s).rce.cacheSize.toNat = w.length + s.rce.cacheSize.toNat + n ∧
      (renormalized s).prob = s.prob := by
  unfold renormalized
  split
  · next hlt =>
    have hsh : (s.rce.range <<< 8).toNat = 256 * s.rce.range.toNat := by
      rw [BitVec.toNat_shiftLeft, Nat.shiftLeft_eq]; omega
    have hf' : CarryFits { s.rce with range := s.rce.range <<< 8 } s.rce.range.toNat := ⟨hf.some, hf.sum, hf.room⟩
    have hv := shiftedLow_value w (r := { s.rce with range := s.rce.range <<< 8 }) hf.some h2 (hf.noCarry h0)
    have hfit := shiftedLow_fits hf' h2 (by omega)
    refine ⟨w ++ (shiftedLow { s.rce with range := s.rce.range <<< 8 }).2, 1, ?_, rfl, ?_, ?_, ?_, ?_, ?_, rfl⟩
    · exact shiftLowState_wrote (s := { s with rce := { s.rce with range := s.rce.range <<< 8 } }) hw
    · rw [pow_one]; exact hv.1
    · rw [pow_one, ← hsh]; exact congrArg BitVec.toNat hv.2.2.2.2.1
    · have hr : (shiftLowState { s with rce := { s.rce with range := s.rce.range <<< 8 } }).rce.range.toNat =
          s.rce.range.toNat * 256 := by
        rw [Nat.mul_comm, ← hsh]; exact congrArg BitVec.toNat hv.2.2.2.2.1
      rw [hr]; exact hfit
    · exact hv.2.2.1
    · exact hv.2.2.2.2.2
  · exact ⟨w, 0, hw, rfl, by simp, by simp, hf, by omega, rfl, rfl⟩


theorem bitCoded_coding {s : State} (h : Coding s) (c : CodedBit) :
    CarryFits (bitCoded s c).rce (bitCoded s c).rce.range.toNat ∧
      (∀ x ∈ (bitCoded s c).prob.cells, 31 ≤ x.2.toNat ∧ x.2.toNat ≤ 2017) ∧
      ∃ j, (bitCoded s c).rce.low.toNat = s.rce.low.toNat + j ∧
        j + (bitCoded s c).rce.range.toNat ≤ s.rce.range.toNat := by
  obtain ⟨k, hk0, hk, -, hint, hpos, hcache, hcs⟩ := bitCoded_interval h c
  have hs := h.fits.sum
  have hr := h.fits.room
  have hpv : pendingValue (bitCoded s c).rce = pendingValue s.rce := by unfold pendingValue; rw [hcache, hcs]
  have hsum : ∃ j, (bitCoded s c).rce.low.toNat = s.rce.low.toNat + j ∧
      j + (bitCoded s c).rce.range.toNat ≤ s.rce.range.toNat := by
    cases c with
    | model i b =>
      cases b
      · exact ⟨0, by simpa using hint.1, by have := hint.2.1 rfl; omega⟩
      · exact ⟨k, by simpa using hint.1, by have := hint.2.2 rfl; omega⟩
    | direct b =>
      cases b
      · exact ⟨0, by simpa using hint.1, by have := hint.2.1 rfl; omega⟩
      · exact ⟨k, by simpa using hint.1, by have := hint.2.2 rfl; omega⟩
  refine ⟨⟨by rw [hcs]; exact h.fits.some, ?_, ?_⟩, ?_, hsum⟩
  · obtain ⟨j, h1, h2⟩ := hsum
    clear hr hpv
    omega
  · obtain ⟨j, h1, h2⟩ := hsum
    rw [hpv, hcs, h1]; linarith
  · cases c with
    | model i b => exact cellSet_all (fun p : Prob => 31 ≤ p.toNat ∧ p.toNat ≤ 2017) _ _ _ h.cells (adapted_range b (h.probs i.toNat))
    | direct b => exact h.cells

/-- One coded bit, in the middle of a stream: the value, the range and the bytes after it. -/
theorem codeBit_value {base w : List Byte} {s : State} (hw : Wrote base w s) (h : Coding s)
    (h2 : s.rce.cacheSize.toNat + 1 < 2 ^ 32) (c : CodedBit) :
    ∃ (w' : List Byte) (n j : Nat), Wrote base w' (codeBit s c) ∧
      (n = if (bitCoded s c).rce.range.toNat < 2 ^ 24 then 1 else 0) ∧
      coderValue w' (codeBit s c).rce = 256 ^ n * (coderValue w s.rce + j) ∧
      (codeBit s c).rce.range.toNat = 256 ^ n * (bitCoded s c).rce.range.toNat ∧
      (bitCoded s c).rce.low.toNat = s.rce.low.toNat + j ∧
      j + (bitCoded s c).rce.range.toNat ≤ s.rce.range.toNat ∧
      Coding (codeBit s c) ∧ (codeBit s c).rce.cacheSize.toNat ≤ s.rce.cacheSize.toNat + 1 ∧
      w'.length + (codeBit s c).rce.cacheSize.toNat = w.length + s.rce.cacheSize.toNat + n ∧
      (codeBit s c).prob = (bitCoded s c).prob := by
  obtain ⟨k, hk0, hk, -, hint, hpos, hcache, hcs⟩ := bitCoded_interval h c
  obtain ⟨hfit, hcells, j, hj, hj2⟩ := bitCoded_coding h c
  have hw1 : Wrote base w (bitCoded s c) := by cases c <;> exact hw
  obtain ⟨w', n, h1, h2', h3, h4, h5, h6, h7, h8⟩ :=
    renormalized_value hw1 hfit (by omega) (by rw [hcs]; exact h2)
  rw [← codeBit_eq] at h1 h3 h4 h5 h6 h7 h8
  have hv : coderValue w (bitCoded s c).rce = coderValue w s.rce + j := by
    have hpv : pendingValue (bitCoded s c).rce = pendingValue s.rce := by unfold pendingValue; rw [hcache, hcs]
    unfold coderValue
    rw [hpv, hcs, hj, Nat.add_assoc]
  refine ⟨w', n, j, h1, h2', by rw [h3, hv], h4, hj, hj2, ⟨h5, ?_, ?_⟩, by rw [hcs] at h6; exact h6,
    by rw [hcs] at h7; exact h7, h8⟩
  · rw [h4, h2']
    split
    · rw [pow_one]; omega
    · rw [pow_zero]; omega
  · rw [h8]; exact hcells

/-- The whole path: the value it adds to stays inside the interval it started with. -/
theorem codePath_value {base : List Byte} (path : List CodedBit) {w : List Byte} {s : State} (hw : Wrote base w s)
    (h : Coding s) (h2 : s.rce.cacheSize.toNat + path.length < 2 ^ 32) :
    ∃ (w' : List Byte) (n : Nat), Wrote base w' (codePath s path) ∧ Coding (codePath s path) ∧
      256 ^ n * coderValue w s.rce ≤ coderValue w' (codePath s path).rce ∧
      coderValue w' (codePath s path).rce < 256 ^ n * (coderValue w s.rce + s.rce.range.toNat) ∧
      w'.length + (codePath s path).rce.cacheSize.toNat = w.length + s.rce.cacheSize.toNat + n ∧
      (codePath s path).rce.cacheSize.toNat ≤ s.rce.cacheSize.toNat + path.length := by
  induction path generalizing w s with
  | nil =>
    have := h.range
    exact ⟨w, 0, hw, h, by simp, by simp; omega, by simp, by simp⟩
  | cons c p ih =>
    simp only [List.length_cons] at h2
    obtain ⟨w1, n1, j, h1, -, hv, hr, -, hj, hc, hs, hl, -⟩ := codeBit_value hw h (by omega) c
    obtain ⟨w', n, g1, g2, g3, g4, g5, g6⟩ := ih h1 hc (by omega)
    refine ⟨w', n + n1, g1, g2, ?_, ?_, ?_, ?_⟩
    · refine le_trans ?_ g3
      rw [hv, pow_add, Nat.mul_assoc]
      exact Nat.mul_le_mul_left _ (Nat.mul_le_mul_left _ (Nat.le_add_right _ _))
    · refine lt_of_lt_of_le g4 ?_
      rw [hv, hr, pow_add, Nat.mul_assoc, ← Nat.mul_add]
      exact Nat.mul_le_mul_left _ (Nat.mul_le_mul_left _ (by omega))
    · simp only [codePath_cons]; omega
    · simp only [codePath_cons, List.length_cons]; omega

theorem Wrote.unique {base w w' : List Byte} {s : State} (h : Wrote base w s) (h' : Wrote base w' s) : w = w' := by
  unfold Wrote at *
  rw [h] at h'
  exact List.reverse_injective (List.append_cancel_right h')

/-- The decoder takes the bit the encoder coded, where the payload read so far lies in the bit's interval. -/
theorem bitTaken_agrees {s d : State} (h : Coding s) (hr : d.rcd.range = s.rce.range) (hp : d.prob = s.prob) (c : CodedBit)
    {j : Nat} (hj : (bitCoded s c).rce.low.toNat = s.rce.low.toNat + j) (h1 : j ≤ d.rcd.code.toNat)
    (h2 : d.rcd.code.toNat < j + (bitCoded s c).rce.range.toNat) :
    agrees d c ∧ (bitTaken d c).rcd.range = (bitCoded s c).rce.range ∧
      (bitTaken d c).rcd.code.toNat = d.rcd.code.toNat - j ∧ (bitTaken d c).prob = (bitCoded s c).prob ∧
      (bitTaken d c).host = d.host ∧ (bitTaken d c).status = d.status := by
  obtain ⟨k, hk0, hk, hke, hint, hpos, hcache, hcs⟩ := bitCoded_interval h c
  have hlt := s.rce.range.isLt
  cases c with
  | model i b =>
    have hb : decodeBound d i = BitVec.ofNat 32 k := by
      unfold decodeBound; rw [hr, hp, hke]
    have hbe : (BitVec.ofNat 32 k).toNat = k := by rw [BitVec.toNat_ofNat]; omega
    have hke' : k = s.rce.range.toNat / 2048 * (s.prob.get i.toNat).toNat := hke
    cases b with
    | false =>
      have hj0 : j = 0 := by have := hint.1; simp at this; omega
      have hrk := hint.2.1 rfl
      refine ⟨?_, ?_, ?_, ?_, rfl, rfl⟩
      · simp only [agrees, hb, hbe]; simp; omega
      · simp [bitTaken, bitCoded, hb, hke']
      · simp [bitTaken, hj0]
      · simp [bitTaken, bitCoded, hp]
    | true =>
      have hjk : j = k := by have := hint.1; simp at this; omega
      refine ⟨?_, ?_, ?_, ?_, rfl, rfl⟩
      · simp only [agrees, hb, hbe]; simp; omega
      · simp [bitTaken, bitCoded, hb, hke', hr]
      · simp only [bitTaken, hb, if_true, BitVec.toNat_sub, hbe]
        have := d.rcd.code.isLt
        omega
      · simp [bitTaken, bitCoded, hp]
  | direct b =>
    have hke' : k = s.rce.range.toNat / 2 := hke
    have hbe : (BitVec.ofNat 32 (s.rce.range.toNat / 2)).toNat = s.rce.range.toNat / 2 := by
      rw [BitVec.toNat_ofNat]; omega
    have hrange : (bitCoded s (.direct b)).rce.range.toNat = s.rce.range.toNat / 2 := by
      simp only [bitCoded]; exact hbe
    cases b with
    | false =>
      have hj0 : j = 0 := by have := hint.1; simp at this; omega
      refine ⟨?_, ?_, ?_, ?_, rfl, rfl⟩
      · simp only [agrees, hr]; simp; omega
      · simp [bitTaken, bitCoded, hr]
      · simp [bitTaken, hj0]
      · simp [bitTaken, bitCoded, hp]
    | true =>
      have hjk : j = k := by have := hint.1; simp at this; omega
      refine ⟨?_, ?_, ?_, ?_, rfl, rfl⟩
      · simp only [agrees, hr]; simp; omega
      · simp [bitTaken, bitCoded, hr]
      · simp only [bitTaken, hr, if_true, BitVec.toNat_sub, hbe]
        have := d.rcd.code.isLt
        omega
      · simp [bitTaken, bitCoded, hp]

theorem le_of_scaled {q v x t : Nat} (ht : t < q) (h : q * v ≤ x * q + t) : v ≤ x := by
  by_contra hc
  have h1 : q * (x + 1) ≤ q * v := Nat.mul_le_mul_left q (by omega)
  rw [Nat.mul_add, Nat.mul_comm q x] at h1
  omega

theorem lt_of_scaled {q u x t : Nat} (h : x * q + t < q * u) : x < u := by
  by_contra hc
  have h1 : q * u ≤ q * x := Nat.mul_le_mul_left q (by omega)
  rw [Nat.mul_comm q x] at h1
  omega

/-- A decoder that has read the first bytes of the payload reads back the path. -/
theorem reads_codePath {base tail : List Byte} (path : List CodedBit) {w : List Byte} {s d : State} {rest : List Byte} {x : Nat}
    (hw : Wrote base w s) (h : Coding s) (h2 : s.rce.cacheSize.toNat + path.length < 2 ^ 32)
    (hr : d.rcd.range = s.rce.range) (hp : d.prob = s.prob) (hsrc : d.host.src = rest ++ tail)
    (hx : d.rcd.code.toNat + coderValue w s.rce = x) {w' : List Byte} (hw' : Wrote base w' (codePath s path))
    (hlen : w'.length + (codePath s path).rce.cacheSize.toNat = w.length + s.rce.cacheSize.toNat + rest.length)
    (hval : x * 256 ^ rest.length + spelled rest = coderValue w' (codePath s path).rce) :
    ∃ t, Reads d path t ∧ t.prob = (codePath s path).prob ∧ t.host.src = tail := by
  induction path generalizing w s d rest x with
  | nil =>
    have hww := hw.unique hw'
    subst hww
    have : rest = [] := by
      apply List.eq_nil_of_length_eq_zero
      simp only [codePath_nil] at hlen; omega
    subst this
    exact ⟨d, rfl, hp, by simpa using hsrc⟩
  | cons c p ih =>
    simp only [List.length_cons] at h2
    simp only [codePath_cons] at hw' hlen hval
    obtain ⟨w1, n1, j, h1, hn1, hv, hrg, hlow, hj, hc, hs, hl, hpr⟩ := codeBit_value hw h (by omega) c
    obtain ⟨w2, n2, g1, -, g3, g4, g5, -⟩ := codePath_value p h1 hc (by omega)
    obtain rfl := g1.unique hw'
    have hn : rest.length = n2 + n1 := by omega
    have hlt := spelled_lt rest
    rw [← hval, hv, hn, pow_add] at g3
    rw [← hval, hv, hrg, hn, pow_add] at g4
    rw [hn, pow_add] at hlt
    rw [← Nat.mul_assoc] at g3
    rw [← Nat.mul_add, ← Nat.mul_assoc (256 ^ n2) (256 ^ n1)] at g4
    have lo : coderValue w s.rce + j ≤ x := le_of_scaled hlt g3
    have hi : x < coderValue w s.rce + j + (bitCoded s c).rce.range.toNat := lt_of_scaled g4
    obtain ⟨ha, hbr, hbc, hbp, hbh, hbs⟩ := bitTaken_agrees h hr hp c hlow (by omega) (by omega)
    by_cases hnorm : (bitCoded s c).rce.range.toNat < 2 ^ 24
    · rw [if_pos hnorm] at hn1
      subst hn1
      obtain ⟨y, rest', rfl⟩ : ∃ y rest', rest = y :: rest' := by
        cases rest with
        | nil => simp at hn
        | cons y r => exact ⟨y, r, rfl⟩
      have hf : followBit d c = { bitTaken d c with
          host := { d.host with src := rest' ++ tail }
          cnt := { (bitTaken d c).cnt with inCount := (bitTaken d c).cnt.inCount + 1 }
          rcd := { range := (bitTaken d c).rcd.range <<< 8,
                   code := ((bitTaken d c).rcd.code <<< 8) ||| y.setWidth 32 } } := by
        have hlt' : (bitTaken d c).rcd.range.toNat < 2 ^ 24 := by rw [hbr]; exact hnorm
        unfold followBit refilled
        rw [if_pos hlt']
        unfold takeByte
        rw [hbh, hsrc]
        rfl
      have hcode : (((bitTaken d c).rcd.code <<< 8) ||| y.setWidth 32).toNat = (d.rcd.code.toNat - j) * 256 + y.toNat := by
        rw [BitVec.toNat_or, BitVec.toNat_shiftLeft, hbc, BitVec.toNat_setWidth, Nat.shiftLeft_eq]
        have hy := y.isLt
        rw [Nat.mod_eq_of_lt (by omega), Nat.mod_eq_of_lt (by omega), Nat.mul_comm, ← Nat.two_pow_add_eq_or_of_lt hy, Nat.mul_comm]
      obtain ⟨t, ht⟩ := ih (d := followBit d c) (rest := rest') (x := x * 256 + y.toNat) h1 hc (by omega)
        (by
          rw [hf]
          apply BitVec.eq_of_toNat_eq
          show ((bitTaken d c).rcd.range <<< 8).toNat = _
          rw [hrg, hbr, BitVec.toNat_shiftLeft, Nat.shiftLeft_eq]
          omega)
        (by rw [hf, hpr]; exact hbp) (by rw [hf])
        (by
          rw [hf]
          show (((bitTaken d c).rcd.code <<< 8) ||| y.setWidth 32).toNat + _ = _
          rw [hcode, hv]
          omega)
        hw' (by simp only [List.length_cons] at hlen hn; omega)
        (by
          rw [← hval, spelled_cons, List.length_cons, pow_succ]
          ring)
      exact ⟨t, ⟨ha, ht.1⟩, by simpa using ht.2.1, ht.2.2⟩
    · rw [if_neg hnorm] at hn1
      subst hn1
      have hf : followBit d c = bitTaken d c := by
        unfold followBit refilled
        rw [hbr, if_neg hnorm]
      obtain ⟨t, ht⟩ := ih (d := followBit d c) (rest := rest) (x := x) h1 hc (by omega)
        (by
          rw [hf]
          apply BitVec.eq_of_toNat_eq
          rw [hrg, hbr]
          omega)
        (by rw [hf, hpr]; exact hbp) (by rw [hf, hbh]; exact hsrc)
        (by
          rw [hf, hbc, hv]
          omega)
        hw' (by omega) hval
      exact ⟨t, ⟨ha, ht.1⟩, by simpa using ht.2.1, ht.2.2⟩

theorem shiftedLow_zero {r : RceRegs} (h : r.low.toNat = 0) :
    (shiftedLow r).1.cache = 0#8 ∧ (shiftedLow r).1.cacheSize = 1#32 ∧ (shiftedLow r).1.low.toNat = 0 := by
  unfold shiftedLow
  rw [if_pos (by rw [h]; omega)]
  simp [h]

theorem shiftLowState_zero {s : State} (h : s.rce.low.toNat = 0) (w : List Byte) :
    coderValue w (shiftLowState s).rce = spelled w * 256 * 2 ^ 32 ∧ (shiftLowState s).rce.cacheSize.toNat = 1 := by
  obtain ⟨f1, f2, f3⟩ := shiftedLow_zero h
  have e : (shiftLowState s).rce = (shiftedLow s.rce).1 := rfl
  have o : (1#32).toNat = 1 := rfl
  refine ⟨?_, by rw [e, f2]; rfl⟩
  unfold coderValue pendingValue
  rw [e, f1, f2, f3, o]
  simp

/-- One byte output of the flush, with no carry. -/
theorem flush_step {base w : List Byte} {s : State} (hw : Wrote base w s) (h1 : 1 ≤ s.rce.cacheSize.toNat)
    (h2 : s.rce.cacheSize.toNat + 1 < 2 ^ 32) (hc : 2 ^ 32 ≤ s.rce.low.toNat → s.rce.cache.toNat ≠ 255) :
    ∃ w', Wrote base w' (shiftLowState s) ∧ coderValue w' (shiftLowState s).rce = 256 * coderValue w s.rce ∧
      1 ≤ (shiftLowState s).rce.cacheSize.toNat ∧ (shiftLowState s).rce.cacheSize.toNat ≤ s.rce.cacheSize.toNat + 1 ∧
      (shiftLowState s).rce.low.toNat = s.rce.low.toNat % 2 ^ 24 * 256 ∧
      w'.length + (shiftLowState s).rce.cacheSize.toNat = w.length + s.rce.cacheSize.toNat + 1 := by
  have hv := shiftedLow_value w h1 h2 hc
  exact ⟨_, shiftLowState_wrote hw, hv.1, hv.2.1, hv.2.2.1, hv.2.2.2.1, hv.2.2.2.2.2⟩

/-- The flush writes out the value. -/
theorem flushed_value {base w : List Byte} {s : State} (hw : Wrote base w s) (h : Coding s)
    (h2 : s.rce.cacheSize.toNat + 5 < 2 ^ 32) :
    ∃ w', Wrote base w' (flushed s) ∧ spelled w' = coderValue w s.rce ∧
      w'.length = w.length + s.rce.cacheSize.toNat + 4 := by
  have hr := h.range
  have hl := s.rce.low.isLt
  obtain ⟨w1, a1, a2, a3, a4, a5, a6⟩ := flush_step hw h.fits.some (by omega) (h.fits.noCarry (by omega))
  obtain ⟨w2, b1, b2, b3, b4, b5, b6⟩ := flush_step a1 a3 (by omega) (by omega)
  obtain ⟨w3, c1, c2, c3, c4, c5, c6⟩ := flush_step b1 b3 (by omega) (by omega)
  obtain ⟨w4, d1, d2, d3, d4, d5, d6⟩ := flush_step c1 c3 (by omega) (by omega)
  obtain ⟨w5, e1, e2, e3, e4, e5, e6⟩ := flush_step d1 d3 (by omega) (by omega)
  have z : (shiftLowState (shiftLowState (shiftLowState (shiftLowState s)))).rce.low.toNat = 0 := by omega
  obtain ⟨f1, f2⟩ := shiftLowState_zero z w5
  refine ⟨w5, e1, ?_, ?_⟩
  · rw [f1, d2, c2, b2, a2] at e2
    omega
  · omega

end Sys2Proof.Machine
end

