-- ==== Sys2Proof/Laws/Loops.lean ====
section
/-! SUPPORT. The counted loops (log entry 4): past the end of its RAM a further turn of a parser loop does what the model
does when the count is used up, and an ENC_RUN that ends does so with any larger count. -/

namespace Sys2Proof.Machine

/-- Past the end of MATCHES every count gives the same BOUNDS (R104). -/
theorem skipPairs_past_end {l offs : Word} {s : State} (h : s.matchBuf.size ≤ offs.toNat) :
    ∀ n : Nat, skipPairs l n offs s = raise .bounds s
  | 0 => rfl
  | _ + 1 => Eng.bind_error (show matchRead offs s = _ from if_neg (Nat.not_lt.mpr h)) _

/-- Past the end of OPT an edge faults BOUNDS (R104), so a turn of `matchEdges` or `matchEdgesAt` has no successor there. -/
theorem relax_past_end {k c : Word} {f : OptRec → OptRec} {s : State} (h : s.opt.size ≤ k.toNat) :
    relax k c f s = raise .bounds s :=
  Eng.bind_error (show optRead k s = _ from if_neg (Nat.not_lt.mpr h)) _

/-- A fault or a wait that ends the loop of ENC_RUN ends it with one turn more too. -/
theorem encRunLoop_error {e : Stop} {t : State} : ∀ {n : Nat} {s : State},
    encRunLoop n s = .error e t → encRunLoop (n + 1) s = .error e t
  | 0, _, h => by cases h
  | n + 1, s, h => by
    rw [encRunLoop] at h ⊢
    obtain h | ⟨a, u, hu, h⟩ := Eng.bind_eq_error.mp h
    · exact Eng.bind_error h _
    · rw [Eng.bind_ok hu]
      rw [Eng.bind_look] at h ⊢
      split at h
      · cases h
      · rw [if_neg (by assumption)]
        exact encRunLoop_error h

/-- A stream that the loop of ENC_RUN finishes it finishes with one turn more too (R491). -/
theorem encRunLoop_done {t : State} (ht : t.status.phase = .done) : ∀ {n : Nat} {s : State}, s.status.phase ≠ .done →
    encRunLoop n s = .ok () t → encRunLoop (n + 1) s = .ok () t
  | 0, s, hs, h => by
    cases h
    exact absurd ht hs
  | n + 1, s, _, h => by
    rw [encRunLoop] at h ⊢
    obtain ⟨a, u, hu, h⟩ := Eng.bind_eq_ok.mp h
    rw [Eng.bind_ok hu]
    rw [Eng.bind_look] at h ⊢
    split at h
    · rw [if_pos (by assumption)]
      exact h
    · rw [if_neg (by assumption)]
      exact encRunLoop_done ht (by assumption) h

end Sys2Proof.Machine
end

