-- ==== Sys2Proof/Laws/Memory.lean ====
section
/-! SUPPORT. Every operation over the RAMs and the streams keeps the canonical form of the RAMs (`Memory.wf`), and the
reset state has it. -/

namespace Sys2Proof.Machine

/-- The canonical form, RAM by RAM. -/
theorem memory_wf_iff (s : State) : Memory.wf s = true ↔
    s.prob.wf = true ∧ s.wbuf.wf = true ∧ s.son.wf = true ∧ s.hash.wf = true ∧ s.matchBuf.wf = true ∧ s.opt.wf = true ∧
    s.price.posSlot.wf = true ∧ s.price.dist.wf = true ∧ s.price.align.wf = true ∧ s.price.lenMatch.wf = true ∧
    s.price.lenRep.wf = true ∧ s.price.cntMatch.wf = true ∧ s.price.cntRep.wf = true ∧ s.owbuf.wf = true := by
  simp only [Memory.wf, Bool.and_eq_true]
  tauto

/-- The reset state's RAMs are in canonical form. -/
theorem reset_memory_wf : Memory.wf State.reset = true := rfl

/-- RESET leaves the RAMs in canonical form. -/
theorem resetEngine_memory_wf (s : State) : Memory.wf (resetEngine s) = true := rfl

/-- A fault changes no RAM. -/
@[simp] theorem faultEntry_memory_wf (c : ErrCode) (s : State) : Memory.wf (faultEntry c s) = Memory.wf s := rfl

/-- The state an engine computation ends in. -/
def endState {α : Type} : EStateM.Result Stop State α → State
  | .ok _ t => t
  | .error _ t => t

/-- A computation that keeps the canonical form, however it ends. -/
def KeepsMemory {α : Type} (f : Eng α) : Prop := ∀ s, Memory.wf s = true → Memory.wf (endState (f s)) = true

namespace KeepsMemory
variable {α β : Type}

theorem pure (a : α) : KeepsMemory (pure a : Eng α) := fun _ h => h

theorem look (f : State → α) : KeepsMemory (look f) := fun _ h => h

theorem raise (c : ErrCode) : KeepsMemory (raise c : Eng α) := fun _ h => h

theorem stuck (e : Fault) : KeepsMemory (stuck e : Eng α) := fun _ h => h

theorem put {f : State → State} (hf : ∀ s, Memory.wf s = true → Memory.wf (f s) = true) : KeepsMemory (put f) := hf

theorem check (ok : Bool) (c : ErrCode) : KeepsMemory (check ok c) := fun s h => by
  rw [check_run]; cases ok <;> exact h

theorem bind {f : Eng α} {g : α → Eng β} (hf : KeepsMemory f) (hg : ∀ a, KeepsMemory (g a)) : KeepsMemory (f >>= g) :=
  fun s h => by
    have h' := hf s h
    rw [Eng.bind_run]
    cases e : f s with
    | ok a t => rw [e] at h'; exact hg a t h'
    | error e' t => rw [e] at h'; exact h'

/-- A RAM read changes nothing. -/
theorem ramRead {fill : α} (ram : State → Ram α fill) (i : Word) : KeepsMemory (ramRead ram i) := fun s h => by
  rw [ramRead_run]; split <;> exact h

/-- A RAM write keeps the form, where putting the written RAM back does. -/
theorem ramWrite {fill : α} [DecidableEq α] {ram : State → Ram α fill} {store : State → Ram α fill → State}
    (get : ∀ s, Memory.wf s = true → (ram s).wf = true)
    (back : ∀ s r, Memory.wf s = true → r.wf = true → Memory.wf (store s r) = true) (i : Word) (v : α) :
    KeepsMemory (ramWrite ram store i v) := fun s h => by
  rw [ramWrite_run]
  split
  · next hi => exact back s _ h (Ram.wf_set (get s h) hi v)
  · exact h

theorem probWrite (i : Word) (v : Prob) : KeepsMemory (probWrite i v) :=
  ramWrite (fun s h => by obtain ⟨h0, _, _, _, _, _, _, _, _, _, _, _, _, _⟩ := (memory_wf_iff s).1 h; exact h0)
    (fun s r h hr => by
      obtain ⟨_, h1, h2, h3, h4, h5, h6, h7, h8, h9, h10, h11, h12, h13⟩ := (memory_wf_iff s).1 h
      exact (memory_wf_iff _).2 ⟨hr, h1, h2, h3, h4, h5, h6, h7, h8, h9, h10, h11, h12, h13⟩) i v

theorem wbufWrite (i : Word) (v : Byte) : KeepsMemory (wbufWrite i v) :=
  ramWrite (fun s h => by obtain ⟨_, h1, _, _, _, _, _, _, _, _, _, _, _, _⟩ := (memory_wf_iff s).1 h; exact h1)
    (fun s r h hr => by
      obtain ⟨h0, _, h2, h3, h4, h5, h6, h7, h8, h9, h10, h11, h12, h13⟩ := (memory_wf_iff s).1 h
      exact (memory_wf_iff _).2 ⟨h0, hr, h2, h3, h4, h5, h6, h7, h8, h9, h10, h11, h12, h13⟩) i v

theorem sonWrite (i v : Word) : KeepsMemory (sonWrite i v) :=
  ramWrite (fun s h => by obtain ⟨_, _, h2, _, _, _, _, _, _, _, _, _, _, _⟩ := (memory_wf_iff s).1 h; exact h2)
    (fun s r h hr => by
      obtain ⟨h0, h1, _, h3, h4, h5, h6, h7, h8, h9, h10, h11, h12, h13⟩ := (memory_wf_iff s).1 h
      exact (memory_wf_iff _).2 ⟨h0, h1, hr, h3, h4, h5, h6, h7, h8, h9, h10, h11, h12, h13⟩) i v

theorem hashWrite (i v : Word) : KeepsMemory (hashWrite i v) :=
  ramWrite (fun s h => by obtain ⟨_, _, _, h3, _, _, _, _, _, _, _, _, _, _⟩ := (memory_wf_iff s).1 h; exact h3)
    (fun s r h hr => by
      obtain ⟨h0, h1, h2, _, h4, h5, h6, h7, h8, h9, h10, h11, h12, h13⟩ := (memory_wf_iff s).1 h
      exact (memory_wf_iff _).2 ⟨h0, h1, h2, hr, h4, h5, h6, h7, h8, h9, h10, h11, h12, h13⟩) i v

theorem matchWrite (i v : Word) : KeepsMemory (matchWrite i v) :=
  ramWrite (fun s h => by obtain ⟨_, _, _, _, h4, _, _, _, _, _, _, _, _, _⟩ := (memory_wf_iff s).1 h; exact h4)
    (fun s r h hr => by
      obtain ⟨h0, h1, h2, h3, _, h5, h6, h7, h8, h9, h10, h11, h12, h13⟩ := (memory_wf_iff s).1 h
      exact (memory_wf_iff _).2 ⟨h0, h1, h2, h3, hr, h5, h6, h7, h8, h9, h10, h11, h12, h13⟩) i v

theorem optWrite (i : Word) (v : OptRec) : KeepsMemory (optWrite i v) :=
  ramWrite (fun s h => by obtain ⟨_, _, _, _, _, h5, _, _, _, _, _, _, _, _⟩ := (memory_wf_iff s).1 h; exact h5)
    (fun s r h hr => by
      obtain ⟨h0, h1, h2, h3, h4, _, h6, h7, h8, h9, h10, h11, h12, h13⟩ := (memory_wf_iff s).1 h
      exact (memory_wf_iff _).2 ⟨h0, h1, h2, h3, h4, hr, h6, h7, h8, h9, h10, h11, h12, h13⟩) i v

theorem posSlotPriceWrite (i v : Word) : KeepsMemory (posSlotPriceWrite i v) :=
  ramWrite (fun s h => by obtain ⟨_, _, _, _, _, _, h6, _, _, _, _, _, _, _⟩ := (memory_wf_iff s).1 h; exact h6)
    (fun s r h hr => by
      obtain ⟨h0, h1, h2, h3, h4, h5, _, h7, h8, h9, h10, h11, h12, h13⟩ := (memory_wf_iff s).1 h
      exact (memory_wf_iff _).2 ⟨h0, h1, h2, h3, h4, h5, hr, h7, h8, h9, h10, h11, h12, h13⟩) i v

theorem distPriceWrite (i v : Word) : KeepsMemory (distPriceWrite i v) :=
  ramWrite (fun s h => by obtain ⟨_, _, _, _, _, _, _, h7, _, _, _, _, _, _⟩ := (memory_wf_iff s).1 h; exact h7)
    (fun s r h hr => by
      obtain ⟨h0, h1, h2, h3, h4, h5, h6, _, h8, h9, h10, h11, h12, h13⟩ := (memory_wf_iff s).1 h
      exact (memory_wf_iff _).2 ⟨h0, h1, h2, h3, h4, h5, h6, hr, h8, h9, h10, h11, h12, h13⟩) i v

theorem alignPriceWrite (i v : Word) : KeepsMemory (alignPriceWrite i v) :=
  ramWrite (fun s h => by obtain ⟨_, _, _, _, _, _, _, _, h8, _, _, _, _, _⟩ := (memory_wf_iff s).1 h; exact h8)
    (fun s r h hr => by
      obtain ⟨h0, h1, h2, h3, h4, h5, h6, h7, _, h9, h10, h11, h12, h13⟩ := (memory_wf_iff s).1 h
      exact (memory_wf_iff _).2 ⟨h0, h1, h2, h3, h4, h5, h6, h7, hr, h9, h10, h11, h12, h13⟩) i v

theorem owbufWrite (i : Word) (v : Byte) : KeepsMemory (owbufWrite i v) :=
  ramWrite (fun s h => by obtain ⟨_, _, _, _, _, _, _, _, _, _, _, _, _, h13⟩ := (memory_wf_iff s).1 h; exact h13)
    (fun s r h hr => by
      obtain ⟨h0, h1, h2, h3, h4, h5, h6, h7, h8, h9, h10, h11, h12, _⟩ := (memory_wf_iff s).1 h
      exact (memory_wf_iff _).2 ⟨h0, h1, h2, h3, h4, h5, h6, h7, h8, h9, h10, h11, h12, hr⟩) i v

theorem lenPriceWrite (k : Bool) (i v : Word) : KeepsMemory (lenPriceWrite k i v) := by
  cases k with
  | true =>
    show KeepsMemory (Machine.ramWrite (fun s => s.price.lenRep)
      (fun s r => { s with price := { s.price with lenRep := r } }) i v)
    exact ramWrite
      (fun s h => by obtain ⟨_, _, _, _, _, _, _, _, _, _, h10, _, _, _⟩ := (memory_wf_iff s).1 h; exact h10)
      (fun s r h hr => by
        obtain ⟨h0, h1, h2, h3, h4, h5, h6, h7, h8, h9, _, h11, h12, h13⟩ := (memory_wf_iff s).1 h
        exact (memory_wf_iff _).2 ⟨h0, h1, h2, h3, h4, h5, h6, h7, h8, h9, hr, h11, h12, h13⟩) i v
  | false =>
    show KeepsMemory (Machine.ramWrite (fun s => s.price.lenMatch)
      (fun s r => { s with price := { s.price with lenMatch := r } }) i v)
    exact ramWrite
      (fun s h => by obtain ⟨_, _, _, _, _, _, _, _, _, h9, _, _, _, _⟩ := (memory_wf_iff s).1 h; exact h9)
      (fun s r h hr => by
        obtain ⟨h0, h1, h2, h3, h4, h5, h6, h7, h8, _, h10, h11, h12, h13⟩ := (memory_wf_iff s).1 h
        exact (memory_wf_iff _).2 ⟨h0, h1, h2, h3, h4, h5, h6, h7, h8, hr, h10, h11, h12, h13⟩) i v

theorem lenCounterWrite (k : Bool) (i v : Word) : KeepsMemory (lenCounterWrite k i v) := by
  cases k with
  | true =>
    show KeepsMemory (Machine.ramWrite (fun s => s.price.cntRep)
      (fun s r => { s with price := { s.price with cntRep := r } }) i v)
    exact ramWrite
      (fun s h => by obtain ⟨_, _, _, _, _, _, _, _, _, _, _, _, h12, _⟩ := (memory_wf_iff s).1 h; exact h12)
      (fun s r h hr => by
        obtain ⟨h0, h1, h2, h3, h4, h5, h6, h7, h8, h9, h10, h11, _, h13⟩ := (memory_wf_iff s).1 h
        exact (memory_wf_iff _).2 ⟨h0, h1, h2, h3, h4, h5, h6, h7, h8, h9, h10, h11, hr, h13⟩) i v
  | false =>
    show KeepsMemory (Machine.ramWrite (fun s => s.price.cntMatch)
      (fun s r => { s with price := { s.price with cntMatch := r } }) i v)
    exact ramWrite
      (fun s h => by obtain ⟨_, _, _, _, _, _, _, _, _, _, _, h11, _, _⟩ := (memory_wf_iff s).1 h; exact h11)
      (fun s r h hr => by
        obtain ⟨h0, h1, h2, h3, h4, h5, h6, h7, h8, h9, h10, _, h12, h13⟩ := (memory_wf_iff s).1 h
        exact (memory_wf_iff _).2 ⟨h0, h1, h2, h3, h4, h5, h6, h7, h8, h9, h10, hr, h12, h13⟩) i v

/-- A source read touches no RAM. -/
theorem srcRead : KeepsMemory srcRead := fun s h => by
  unfold Machine.srcRead
  split
  · exact h
  · split
    · exact h
    · split <;> exact h

/-- A sink write touches no RAM. -/
theorem sinkWrite (b : Byte) : KeepsMemory (sinkWrite b) := fun s h => by
  unfold Machine.sinkWrite
  split <;> exact h

end KeepsMemory
end Sys2Proof.Machine
end

