-- ==== Sys2Proof/Laws/PerInstr.lean ====
section
/-! SUPPORT. Per-instruction facts, one lemma a constructor: a well-formed command's word decodes to the command. -/

namespace Sys2Proof.Laws.RoundTrip

/-- The word of the instruction decodes to the instruction, every field at every value its encoding admits. -/
def Statement (i : Instr) : Prop := i.wellFormed = true → decode (encode i) = .ok i

theorem nop : Statement .nop := fun _ => by decide

theorem reset : Statement .reset := fun _ => by decide

theorem regRead : Statement .regRead := fun _ => by decide

theorem regWrite : Statement .regWrite := fun _ => by decide

theorem probRead : Statement .probRead := fun _ => by decide

theorem matchRead : Statement .matchRead := fun _ => by decide

theorem wbGetByte : Statement .wbGetByte := fun _ => by decide

theorem wbMatchLen : Statement .wbMatchLen := fun _ => by decide

theorem wbAvail : Statement .wbAvail := fun _ => by decide

theorem mfGetMatches : Statement .mfGetMatches := fun _ => by decide

theorem mfSkip : Statement .mfSkip := fun _ => by decide

theorem mfMovePos : Statement .mfMovePos := fun _ => by decide

theorem mfHash : Statement .mfHash := fun _ => by decide

theorem rceBit (b : Bool) : Statement (.rceBit b) := fun _ => by revert b; decide

theorem rceDirect (n : BitVec 5) : Statement (.rceDirect n) := by revert n; unfold Statement; decide

theorem rcdBit : Statement .rcdBit := fun _ => by decide

theorem rcdDirect (n : BitVec 5) : Statement (.rcdDirect n) := by revert n; unfold Statement; decide

theorem priceBit (sel b : Bool) : Statement (.priceBit sel b) := fun _ => by revert sel b; decide

theorem btEnc (n : BitVec 5) : Statement (.btEnc n) := by revert n; unfold Statement; decide

theorem btRevEnc (n : BitVec 5) : Statement (.btRevEnc n) := by revert n; unfold Statement; decide

theorem btDec (n : BitVec 5) : Statement (.btDec n) := by revert n; unfold Statement; decide

theorem btRevDec (n : BitVec 5) : Statement (.btRevDec n) := by revert n; unfold Statement; decide

theorem btPrice (n : BitVec 5) : Statement (.btPrice n) := by revert n; unfold Statement; decide

theorem btRevPrice (n : BitVec 5) : Statement (.btRevPrice n) := by revert n; unfold Statement; decide

theorem stChar (sel : Bool) : Statement (.stChar sel) := fun _ => by revert sel; decide

theorem stMatch (sel : Bool) : Statement (.stMatch sel) := fun _ => by revert sel; decide

theorem stRep (sel : Bool) : Statement (.stRep sel) := fun _ => by revert sel; decide

theorem stShortRep (sel : Bool) : Statement (.stShortRep sel) := fun _ => by revert sel; decide

theorem litEnc : Statement .litEnc := fun _ => by decide

theorem litEncM : Statement .litEncM := fun _ => by decide

theorem litDec : Statement .litDec := fun _ => by decide

theorem litDecM : Statement .litDecM := fun _ => by decide

theorem litPrice (sel : Bool) : Statement (.litPrice sel) := fun _ => by revert sel; decide

theorem lenEnc (sel : Bool) : Statement (.lenEnc sel) := fun _ => by revert sel; decide

theorem lenDec (sel : Bool) : Statement (.lenDec sel) := fun _ => by revert sel; decide

theorem lenPrice (sel : Bool) : Statement (.lenPrice sel) := fun _ => by revert sel; decide

theorem distEnc : Statement .distEnc := fun _ => by decide

theorem distDec : Statement .distDec := fun _ => by decide

theorem posSlot : Statement .posSlot := fun _ => by decide

theorem repUse : Statement .repUse := fun _ => by decide

theorem repPush : Statement .repPush := fun _ => by decide

theorem optGetOptimum : Statement .optGetOptimum := fun _ => by decide

theorem priceFillDist : Statement .priceFillDist := fun _ => by decide

theorem priceFillAlign : Statement .priceFillAlign := fun _ => by decide

theorem priceLenTable (sel : Bool) : Statement (.priceLenTable sel) := fun _ => by revert sel; decide

theorem pricePosLen : Statement .pricePosLen := fun _ => by decide

theorem priceRep : Statement .priceRep := fun _ => by decide

theorem priceShortRep : Statement .priceShortRep := fun _ => by decide

theorem encStart : Statement .encStart := fun _ => by decide

theorem hdrWrite : Statement .hdrWrite := fun _ => by decide

theorem encStep : Statement .encStep := fun _ => by decide

theorem encRun : Statement .encRun := fun _ => by decide

theorem encSymbol : Statement .encSymbol := fun _ => by decide

theorem encFinish : Statement .encFinish := fun _ => by decide

theorem hdrRead : Statement .hdrRead := fun _ => by decide

theorem decStart : Statement .decStart := fun _ => by decide

theorem decStep : Statement .decStep := fun _ => by decide

theorem decRun : Statement .decRun := fun _ => by decide

theorem owGetByte : Statement .owGetByte := fun _ => by decide

theorem owPutByte : Statement .owPutByte := fun _ => by decide

theorem owCopy : Statement .owCopy := fun _ => by decide

end Sys2Proof.Laws.RoundTrip
end

