-- ==== Sys2Proof/Laws/Reader.lean ====
section
/-! SUPPORT. The decoders of symbols read the paths of the symbols they return (`Decodes`): one lemma a decoder. -/

namespace Sys2Proof.Machine

/-- The low `k` bits of a symbol decide its tree path. -/
theorem treeFrom_congr (base : Word) {a b : Word} (k m : Nat) (h : ∀ j < k, a.getLsbD j = b.getLsbD j) :
    treeFrom base a k m = treeFrom base b k m := by
  induction k generalizing m with
  | zero => rfl
  | succ k ih =>
    rw [treeFrom, treeFrom, h k (by omega), ih _ (fun j hj => h j (by omega))]

theorem ofNat_bit (v k j : Nat) (b : Bool) (hv : v < 2 ^ k) (hk : k < 32) (hj : j ≤ k) :
    (BitVec.ofNat 32 (b.toNat * 2 ^ k + v)).getLsbD j = if j = k then b else (BitVec.ofNat 32 v).getLsbD j := by
  simp only [BitVec.getLsbD_ofNat]
  rw [Nat.mul_comm, Nat.testBit_two_pow_mul_add _ hv]
  by_cases h : j = k
  · subst h; simp [hk]; cases b <;> simp
  · simp [h, show j < k by omega]

theorem treeFrom_length (base sym : Word) (k m : Nat) : (treeFrom base sym k m).length = k := by
  induction k generalizing m with
  | zero => rfl
  | succ k ih => simp [treeFrom, ih]

theorem node_fits {base : Word} {m n size : Nat} (hm : m < n) (h : base.toNat + n ≤ size) :
    (base + BitVec.ofNat 32 m).toNat < size := by
  have : (base + BitVec.ofNat 32 m).toNat ≤ base.toNat + m := by
    rw [BitVec.toNat_add, BitVec.toNat_ofNat]
    exact le_trans (Nat.mod_le _ _) (Nat.add_le_add_left (Nat.mod_le _ _) _)
  omega

theorem btDecodeFrom_decodes (base : Word) (k m size : Nat) (hk : k < 32)
    (hm : 0 < k → base.toNat + (m + 1) * 2 ^ (k - 1) ≤ size) :
    Decodes (btDecodeFrom base k (BitVec.ofNat 32 m)) k size (fun r p =>
      ∃ v < 2 ^ k, r = BitVec.ofNat 32 (m * 2 ^ k + v) ∧ p = treeFrom base (BitVec.ofNat 32 v) k m) := by
  induction k generalizing m with
  | zero => exact Decodes.pure _ _ ⟨0, by omega, by simp, rfl⟩
  | succ k ih =>
    have hm := hm (by omega)
    rw [Nat.add_sub_cancel] at hm
    rw [btDecodeFrom, Nat.add_comm k 1]
    have hp : 2 ^ (1 + k) = 2 * 2 ^ k := by rw [Nat.add_comm, Nat.pow_succ']
    have hpos := Nat.two_pow_pos k
    have hle : m + 1 ≤ (m + 1) * 2 ^ k := Nat.le_mul_of_pos_right _ hpos
    refine Decodes.bind (rcdDecodeBit_decodes _ size (node_fits (n := m + 1) (by omega) (by omega))) ?_
    rintro b _ rfl
    rw [childNode_ofNat]
    have hb : b.toNat ≤ 1 := Bool.toNat_le b
    refine (ih (2 * m + b.toNat) (by omega) ?_).mono (Nat.le_refl _) (Nat.le_refl _) ?_
    · intro h0
      have h2 : 2 ^ k = 2 * 2 ^ (k - 1) := by rw [← Nat.pow_succ']; congr 1; omega
      have : (2 * m + b.toNat + 1) * 2 ^ (k - 1) ≤ (2 * (m + 1)) * 2 ^ (k - 1) := Nat.mul_le_mul_right _ (by omega)
      have h3 : (m + 1) * 2 ^ k = (2 * (m + 1)) * 2 ^ (k - 1) := by rw [h2]; ring
      omega
    · rintro r p ⟨v, hv, rfl, rfl⟩
      refine ⟨b.toNat * 2 ^ k + v, ?_, ?_, ?_⟩
      · nlinarith
      · congr 1; rw [hp]; ring
      · have e : (BitVec.ofNat 32 (b.toNat * 2 ^ k + v)).getLsbD k = b := by
          rw [ofNat_bit v k k b hv (by omega) (Nat.le_refl _), if_pos rfl]
        rw [Nat.add_comm 1 k, treeFrom, e, List.singleton_append]
        congr 1
        apply treeFrom_congr
        intro j hj
        rw [ofNat_bit v k j b hv (by omega) (by omega), if_neg (by omega)]

/-- `BtDecode` reads the path of the symbol it returns (R322). -/
theorem btDecode_decodes (base : Word) (n size : Nat) (h1 : 1 ≤ n) (hn : n < 32) (h : base.toNat + 2 ^ n ≤ size) :
    Decodes (btDecode base n) n size (fun r p => r.toNat < 2 ^ n ∧ p = treePath base n r) := by
  rw [btDecode]
  have hp : 2 ^ n < 2 ^ 32 := Nat.pow_lt_pow_right (by omega) hn
  have h2 : 2 ^ n = 2 * 2 ^ (n - 1) := by rw [← Nat.pow_succ']; congr 1; omega
  refine Decodes.bind (b2 := 0) (btDecodeFrom_decodes base n 1 size hn (fun _ => by omega)) ?_
  rintro _ p ⟨v, hv, rfl, rfl⟩
  have e : BitVec.ofNat 32 (1 * 2 ^ n + v) - 1#32 <<< n = BitVec.ofNat 32 v := by
    rw [Nat.one_mul, BitVec.ofNat_add]
    have : 1#32 <<< n = BitVec.ofNat 32 (2 ^ n) := by
      apply BitVec.eq_of_toNat_eq; simp [Nat.shiftLeft_eq]
    rw [this, BitVec.add_comm, BitVec.add_sub_cancel]
  rw [e]
  refine Decodes.pure _ _ ⟨?_, ?_⟩
  · rw [BitVec.toNat_ofNat]; omega
  · rw [List.append_nil, treeFrom_eq]; simp [treePath]

theorem reverseNode_congr {a b : Word} (k : Nat) (h : ∀ j < k, a.getLsbD j = b.getLsbD j) :
    reverseNode a k = reverseNode b k := by
  induction k with
  | zero => rfl
  | succ k ih => rw [reverseNode, reverseNode, h k (by omega), ih fun j hj => h j (by omega)]

theorem reverseNode_lt (a : Word) (k : Nat) : reverseNode a k < 2 ^ (k + 1) := by
  induction k with
  | zero => simp [reverseNode]
  | succ k ih =>
    have := Bool.toNat_le (a.getLsbD k)
    rw [reverseNode, Nat.pow_succ]; omega

/-- `BtReverseDecode` from its `k`-th bit on. -/
theorem btReverseDecodeFrom_decodes (base : Word) (left k size v : Nat) (hk : k + left < 32) (hv : v < 2 ^ k)
    (hm : base.toNat + 2 ^ (k + left) ≤ size) :
    Decodes (btReverseDecodeFrom base left k (BitVec.ofNat 32 (reverseNode (BitVec.ofNat 32 v) k)) (BitVec.ofNat 32 v))
      left size (fun r p => ∃ w < 2 ^ (k + left), r = BitVec.ofNat 32 w ∧
        (∀ j < k, (BitVec.ofNat 32 w).getLsbD j = (BitVec.ofNat 32 v).getLsbD j) ∧
        p = (List.range left).map fun j => .model (base + BitVec.ofNat 32 (reverseNode r (k + j))) (r.getLsbD (k + j))) := by
  induction left generalizing k v with
  | zero => exact Decodes.pure _ _ ⟨v, by simpa using hv, rfl, fun _ _ => rfl, rfl⟩
  | succ left ih =>
    rw [btReverseDecodeFrom, Nat.add_comm left 1]
    have hle : 2 ^ (k + 1) ≤ 2 ^ (k + (1 + left)) := Nat.pow_le_pow_right (by omega) (by omega)
    rw [Nat.add_comm left 1] at hm
    have hn := reverseNode_lt (BitVec.ofNat 32 v) k
    refine Decodes.bind (rcdDecodeBit_decodes _ size (node_fits (n := 2 ^ (k + 1)) hn (by omega))) ?_
    rintro b _ rfl
    have hb : b.toNat ≤ 1 := Bool.toNat_le b
    have hw : b.toNat * 2 ^ k + v < 2 ^ (k + 1) := by rw [Nat.pow_succ]; nlinarith
    have hbit := fun j hj => ofNat_bit v k j b hv (by omega) hj
    have hor : BitVec.ofNat 32 v ||| bitWord b <<< k = BitVec.ofNat 32 (b.toNat * 2 ^ k + v) := by
      have hz : bitWord b <<< k &&& BitVec.ofNat 32 v = 0#32 := by
        apply BitVec.eq_of_getLsbD_eq
        intro i hi
        rw [BitVec.getLsbD_and, BitVec.getLsbD_shiftLeft]
        by_cases h : i < k
        · simp [h]
        · simp only [BitVec.getLsbD_ofNat]
          rw [Nat.testBit_lt_two_pow (lt_of_lt_of_le hv (Nat.pow_le_pow_right (by omega) (by omega)))]
          simp
      have hs : bitWord b <<< k = BitVec.ofNat 32 (b.toNat * 2 ^ k) := by
        cases b
        · simp [bitWord]
        · apply BitVec.eq_of_toNat_eq; simp [bitWord, Nat.shiftLeft_eq]
      rw [BitVec.or_comm, ← BitVec.add_eq_or_of_and_eq_zero _ _ hz, hs, ← BitVec.ofNat_add]
    have hnode : childNode (BitVec.ofNat 32 (reverseNode (BitVec.ofNat 32 v) k)) b =
        BitVec.ofNat 32 (reverseNode (BitVec.ofNat 32 (b.toNat * 2 ^ k + v)) (k + 1)) := by
      rw [childNode_ofNat, reverseNode, hbit k (Nat.le_refl _), if_pos rfl,
        reverseNode_congr (a := BitVec.ofNat 32 (b.toNat * 2 ^ k + v)) (b := BitVec.ofNat 32 v) k
          (fun j hj => by rw [hbit j (by omega), if_neg (by omega)])]
    rw [hor, hnode]
    refine (ih (k + 1) _ (by omega) hw (by rw [show k + 1 + left = k + (1 + left) by omega]; exact hm)).mono
      (Nat.le_refl _) (Nat.le_refl _) ?_
    rintro r p ⟨w, h1, rfl, h2, rfl⟩
    refine ⟨w, by rw [show k + (1 + left) = k + 1 + left by omega]; exact h1, rfl, ?_, ?_⟩
    · intro j hj
      rw [h2 j (by omega), hbit j (by omega), if_neg (by omega)]
    · have e1 : (BitVec.ofNat 32 w).getLsbD k = b := by rw [h2 k (by omega), hbit k (Nat.le_refl _), if_pos rfl]
      have e2 : reverseNode (BitVec.ofNat 32 w) k = reverseNode (BitVec.ofNat 32 v) k :=
        reverseNode_congr k fun j hj => by rw [h2 j (by omega), hbit j (by omega), if_neg (by omega)]
      rw [Nat.add_comm 1 left, List.range_succ_eq_map, List.map_cons, List.map_map, List.singleton_append]
      congr 1
      · rw [Nat.add_zero, e1, e2]
      · apply List.map_congr_left
        intro j _
        simp only [Function.comp, Nat.succ_eq_add_one]
        rw [show k + (j + 1) = k + 1 + j by omega]

/-- `BtReverseDecode` reads the path of the symbol it returns (R324). -/
theorem btReverseDecode_decodes (base : Word) (n size : Nat) (hn : n < 32) (h : base.toNat + 2 ^ n ≤ size) :
    Decodes (btReverseDecode base n) n size (fun r p => r.toNat < 2 ^ n ∧ p = reversePath base n r) := by
  have := btReverseDecodeFrom_decodes base n 0 size 0 (by omega) (by omega) (by simpa using h)
  refine Decodes.mono (by exact this) (Nat.le_refl _) (Nat.le_refl _) ?_
  rintro r p ⟨w, hw, rfl, -, rfl⟩
  rw [Nat.zero_add] at hw
  refine ⟨?_, ?_⟩
  · have : 2 ^ n < 2 ^ 32 := Nat.pow_lt_pow_right (by omega) hn
    rw [BitVec.toNat_ofNat]; omega
  · simp [reversePath]

/-- `RcdDecodeDirect` with `v` read so far. -/
theorem rcdDirectLoop_decodes (k : Nat) (v size : Nat) (n : Nat) (hk : n + k < 32) (hv : v < 2 ^ n) :
    Decodes (rcdDirectLoop k (BitVec.ofNat 32 v)) k size (fun r p =>
      ∃ w < 2 ^ k, r = BitVec.ofNat 32 (v * 2 ^ k + w) ∧ p = directPath (BitVec.ofNat 32 w) k) := by
  induction k generalizing v n with
  | zero => exact Decodes.pure _ _ ⟨0, by omega, by simp, rfl⟩
  | succ k ih =>
    intro s h1 h2 h3
    obtain ⟨b, hb, e⟩ := rcdDirectLoop_step h1 (by omega) k (BitVec.ofNat 32 v)
    have hle : b.toNat ≤ 1 := Bool.toNat_le b
    have hchild : BitVec.ofNat 32 v <<< 1 ||| bitWord b = BitVec.ofNat 32 (2 * v + b.toNat) := childNode_ofNat v b
    rw [hchild] at e
    have hk' := followBit_src s (.direct b)
    obtain ⟨r, p, t, ⟨w, hw, rfl, rfl⟩, hl, hr, he⟩ := ih (2 * v + b.toNat) (n + 1) (by omega)
      (by rw [Nat.pow_succ]; omega) (followBit s (.direct b)) (by rw [followBit_status]; exact h1) (by omega)
      (by rw [followBit_prob_size]; exact h3)
    have hw' : b.toNat * 2 ^ k + w < 2 ^ (k + 1) := by rw [Nat.pow_succ]; nlinarith
    refine ⟨_, .direct b :: directPath (BitVec.ofNat 32 w) k, t, ⟨b.toNat * 2 ^ k + w, hw', rfl, ?_⟩, ?_, ⟨hb, hr⟩, ?_⟩
    · have hbit := fun j hj => ofNat_bit w k j b hw (by omega) hj
      have e1 : directPath (BitVec.ofNat 32 (b.toNat * 2 ^ k + w)) (k + 1) =
          .direct ((BitVec.ofNat 32 (b.toNat * 2 ^ k + w)).getLsbD k) :: directPath (BitVec.ofNat 32 w) k := by
        rw [directPath, List.range_succ_eq_map, List.map_cons, List.map_map]
        congr 1
        apply List.map_congr_left
        intro j hj
        have := List.mem_range.mp hj
        simp only [Function.comp, Nat.succ_eq_add_one]
        rw [show k + 1 - 1 - (j + 1) = k - 1 - j by omega, hbit _ (by omega), if_neg (by omega)]
      rw [e1, hbit k (Nat.le_refl _), if_pos rfl]
    · rw [List.length_cons]; omega
    · rw [e, he]
      congr 2
      rw [Nat.pow_succ]; ring

/-- `RcdDecodeDirect` reads the raw bits of the value it returns (R292). -/
theorem rcdDecodeDirect_decodes (n size : Nat) (hn : n < 32) :
    Decodes (rcdDecodeDirect n) n size (fun r p => r.toNat < 2 ^ n ∧ p = directPath r n) := by
  refine Decodes.mono (by exact rcdDirectLoop_decodes n 0 size 0 (by omega) (by omega)) (Nat.le_refl _) (Nat.le_refl _) ?_
  rintro r p ⟨w, hw, rfl, rfl⟩
  have : 2 ^ n < 2 ^ 32 := Nat.pow_lt_pow_right (by omega) hn
  rw [Nat.zero_mul, Nat.zero_add]
  exact ⟨by rw [BitVec.toNat_ofNat]; omega, rfl⟩

theorem litDecodeFrom_eq (lb : Word) (k : Nat) (c : Word) : litDecodeFrom lb k c = btDecodeFrom lb k c := by
  induction k generalizing c with
  | zero => rfl
  | succ k ih => simp only [litDecodeFrom, btDecodeFrom, ih]

/-- `LitDecode` reads the plain literal path of the byte it returns (R363). -/
theorem litDecode_decodes (lb : Word) (size : Nat) (h : lb.toNat + 256 ≤ size) :
    Decodes (litDecode lb) 8 size (fun sym p => p = literalPath lb sym) := by
  rw [litDecode, litDecodeFrom_eq]
  refine Decodes.bind (b2 := 0) (btDecodeFrom_decodes lb 8 1 size (by omega) (fun _ => by omega)) ?_
  rintro _ p ⟨v, hv, rfl, rfl⟩
  refine Decodes.pure _ _ ?_
  have e : lowByte (BitVec.ofNat 32 (1 * 2 ^ 8 + v) - 256#32) = BitVec.ofNat 8 v := by
    have : BitVec.ofNat 32 (1 * 2 ^ 8 + v) - 256#32 = BitVec.ofNat 32 v := by
      rw [Nat.one_mul, BitVec.ofNat_add, BitVec.add_comm]
      exact BitVec.add_sub_cancel _ _
    rw [this, lowByte]
    apply BitVec.eq_of_toNat_eq; simp
  have e2 : (BitVec.ofNat 8 v).setWidth 32 = BitVec.ofNat 32 v := by
    apply BitVec.eq_of_toNat_eq; simp; omega
  rw [List.append_nil, e, literalPath, e2, treeFrom_eq]
  simp [treePath]

theorem matchedFrom_congr (lb : Word) (mb : Byte) {a b : Byte} (k m : Nat) (same : Bool)
    (h : ∀ j < k, a.getLsbD j = b.getLsbD j) : matchedFrom lb mb a k m same = matchedFrom lb mb b k m same := by
  induction k generalizing m same with
  | zero => rfl
  | succ k ih => rw [matchedFrom, matchedFrom, h k (by omega), ih _ _ fun j hj => h j (by omega)]

theorem litNode_eq (lb : Word) (m : Nat) (same bit : Bool) :
    litNode lb (BitVec.ofNat 32 m) same bit = lb + BitVec.ofNat 32 ((if same then 256 * (1 + bit.toNat) else 0) + m) := by
  unfold litNode
  cases same with
  | false => simp
  | true => cases bit <;> simp [bitWord, BitVec.ofNat_add, BitVec.add_assoc]

theorem ofNat8_bit (v k j : Nat) (b : Bool) (hv : v < 2 ^ k) (hk : k < 8) (hj : j ≤ k) :
    (BitVec.ofNat 8 (b.toNat * 2 ^ k + v)).getLsbD j = if j = k then b else (BitVec.ofNat 8 v).getLsbD j := by
  simp only [BitVec.getLsbD_ofNat]
  rw [Nat.mul_comm, Nat.testBit_two_pow_mul_add _ hv]
  by_cases h : j = k
  · subst h; simp [hk]; cases b <;> simp
  · simp [h, show j < k by omega]

theorem litDecodeMatchedFrom_decodes (lb : Word) (mb : Byte) (k m size : Nat) (same : Bool) (hk : k ≤ 8)
    (hm : m < 2 ^ (9 - k)) (h : lb.toNat + 768 ≤ size) :
    Decodes (litDecodeMatchedFrom lb mb k (BitVec.ofNat 32 m) same) k size (fun r p =>
      ∃ v < 2 ^ k, r = BitVec.ofNat 32 (m * 2 ^ k + v) ∧ p = matchedFrom lb mb (BitVec.ofNat 8 v) k m same) := by
  induction k generalizing m same with
  | zero => exact Decodes.pure _ _ ⟨0, by omega, by simp, rfl⟩
  | succ k ih =>
    have h256 : 2 ^ (9 - (k + 1)) ≤ 2 ^ 8 := Nat.pow_le_pow_right (by omega) (by omega)
    have h8 : 2 ^ (9 - k) = 2 * 2 ^ (9 - (k + 1)) := by rw [← Nat.pow_succ']; congr 1; omega
    rw [litDecodeMatchedFrom, litNode_eq, Nat.add_comm k 1]
    have hbm : (mb.getLsbD k).toNat ≤ 1 := Bool.toNat_le _
    refine Decodes.bind (rcdDecodeBit_decodes _ size (node_fits (n := 768) ?_ h)) ?_
    · split <;> omega
    rintro b _ rfl
    have hb : b.toNat ≤ 1 := Bool.toNat_le b
    rw [childNode_ofNat]
    refine (ih (2 * m + b.toNat) (same && (mb.getLsbD k == b)) (by omega) (by omega)).mono
      (Nat.le_refl _) (Nat.le_refl _) ?_
    rintro r p ⟨v, hv, rfl, rfl⟩
    have hp : 2 ^ (1 + k) = 2 * 2 ^ k := by rw [Nat.add_comm, Nat.pow_succ']
    refine ⟨b.toNat * 2 ^ k + v, by nlinarith, ?_, ?_⟩
    · congr 1; rw [hp]; ring
    · have e : (BitVec.ofNat 8 (b.toNat * 2 ^ k + v)).getLsbD k = b := by
        rw [ofNat8_bit v k k b hv (by omega) (Nat.le_refl _), if_pos rfl]
      rw [Nat.add_comm 1 k, matchedFrom, e, List.singleton_append]
      congr 1
      apply matchedFrom_congr
      intro j hj
      rw [ofNat8_bit v k j b hv (by omega) (by omega), if_neg (by omega)]

/-- `LitDecodeMatched` reads the matched literal path of the byte it returns (R363). -/
theorem litDecodeMatched_decodes (lb : Word) (mb : Byte) (size : Nat) (h : lb.toNat + 768 ≤ size) :
    Decodes (litDecodeMatched lb mb) 8 size (fun sym p => p = matchedPath lb mb sym) := by
  rw [litDecodeMatched]
  refine Decodes.bind (b2 := 0) (litDecodeMatchedFrom_decodes lb mb 8 1 size true (by omega) (by omega) h) ?_
  rintro _ p ⟨v, hv, rfl, rfl⟩
  refine Decodes.pure _ _ ?_
  have e : lowByte (BitVec.ofNat 32 (1 * 2 ^ 8 + v) - 256#32) = BitVec.ofNat 8 v := by
    have : BitVec.ofNat 32 (1 * 2 ^ 8 + v) - 256#32 = BitVec.ofNat 32 v := by
      rw [Nat.one_mul, BitVec.ofNat_add, BitVec.add_comm]
      exact BitVec.add_sub_cancel _ _
    rw [this, lowByte]
    apply BitVec.eq_of_toNat_eq; simp
  have e' := matchedFrom_eq lb mb (BitVec.ofNat 8 v) 8 (by omega)
  have hm : mb.toNat / 2 ^ 8 = 0 := Nat.div_eq_of_lt mb.isLt
  have hs : (BitVec.ofNat 8 v).toNat / 2 ^ 8 = 0 := Nat.div_eq_of_lt (BitVec.isLt _)
  rw [hm, hs] at e'
  simp only [Nat.sub_self, Nat.pow_zero, Nat.add_zero, decide_true, Nat.zero_add] at e'
  rw [List.append_nil, e, e']
  rfl

/-- `LenDecode` reads the length path of the symbol it returns (R376). -/
theorem lenDecode_decodes (k : Bool) (ps : Word) (size : Nat) (hps : ps.toNat ≤ 15) (h : 1846 ≤ size) :
    Decodes (lenDecode (lenCoder k) ps) 10 size (fun r p => r.toNat ≤ 271 ∧ p = lengthPath k r ps) := by
  have hb : (lengthBase k).toNat ≤ 1332 := by cases k <;> decide
  have hlow : (lengthBase k + 2#32 + 8#32 * ps).toNat ≤ 1332 + 2 + 8 * 15 := by
    simp only [BitVec.toNat_add, BitVec.toNat_mul, BitVec.toNat_ofNat]; omega
  have hmid : (lengthBase k + 130#32 + 8#32 * ps).toNat ≤ 1332 + 130 + 8 * 15 := by
    simp only [BitVec.toNat_add, BitVec.toNat_mul, BitVec.toNat_ofNat]; omega
  have hhigh : (lengthBase k + 258#32).toNat ≤ 1332 + 258 := by
    simp only [BitVec.toNat_add, BitVec.toNat_ofNat]; omega
  have hone : (lengthBase k + 1#32).toNat ≤ 1333 := by
    simp only [BitVec.toNat_add, BitVec.toNat_ofNat]; omega
  rw [lenDecode, lenCoder_eq]
  refine Decodes.bind (b1 := 1) (b2 := 9) (rcdDecodeBit_decodes _ size (by omega)) ?_
  rintro c _ rfl
  cases c with
  | false =>
    refine (btDecode_decodes (lengthBase k + 2#32 + 8#32 * ps) 3 size (by omega) (by omega) (by omega)).mono (by omega) (Nat.le_refl _) ?_
    rintro r p ⟨hr, rfl⟩
    exact ⟨by omega, by rw [lengthPath, if_pos (by omega)]; rfl⟩
  | true =>
    refine Decodes.mono (Decodes.bind (b1 := 1) (b2 := 8) (rcdDecodeBit_decodes _ size (by omega))
      (R := fun r p => r.toNat ≤ 271 ∧ [CodedBit.model (lengthBase k) true] ++ p = lengthPath k r ps) ?_) (by omega) (Nat.le_refl _) (fun _ _ h => h)
    rintro c _ rfl
    cases c with
    | false =>
      refine Decodes.mono (Decodes.bind (b1 := 3) (b2 := 0)
        (btDecode_decodes (lengthBase k + 130#32 + 8#32 * ps) 3 size (by omega) (by omega) (by omega))
        (R := fun r p => r.toNat ≤ 271 ∧ [CodedBit.model (lengthBase k) true] ++ ([CodedBit.model (lengthBase k + 1#32) false] ++ p) = lengthPath k r ps) ?_) (by omega) (Nat.le_refl _) (fun _ _ h => h)
      rintro r p ⟨hr, rfl⟩
      have e : (8#32 + r).toNat = 8 + r.toNat := by rw [BitVec.toNat_add, BitVec.toNat_ofNat]; omega
      refine Decodes.pure _ _ ⟨by omega, ?_⟩
      rw [lengthPath, if_neg (by omega), if_pos (by omega), BitVec.add_comm 8#32 r, BitVec.add_sub_cancel]
      simp
    | true =>
      refine Decodes.mono (Decodes.bind (b1 := 8) (b2 := 0)
        (btDecode_decodes (lengthBase k + 258#32) 8 size (by omega) (by omega) (by omega))
        (R := fun r p => r.toNat ≤ 271 ∧ [CodedBit.model (lengthBase k) true] ++ ([CodedBit.model (lengthBase k + 1#32) true] ++ p) = lengthPath k r ps) ?_) (by omega) (Nat.le_refl _) (fun _ _ h => h)
      rintro r p ⟨hr, rfl⟩
      have e : (16#32 + r).toNat = 16 + r.toNat := by rw [BitVec.toNat_add, BitVec.toNat_ofNat]; omega
      refine Decodes.pure _ _ ⟨by omega, ?_⟩
      rw [lengthPath, if_neg (by omega), if_neg (by omega), BitVec.add_comm 16#32 r, BitVec.add_sub_cancel]
      simp

/-- A slot from 4 on and a low part name a distance of that slot (R370). -/
theorem slotOf_join {slot low : Nat} (h4 : 4 ≤ slot) (h64 : slot < 64) (hl : low < 2 ^ footerOf slot) :
    slotOf (slotStart slot + low) = slot ∧ slotStart slot + low < 2 ^ 32 := by
  have hk : footerOf slot = slot / 2 - 1 := rfl
  have hp : 2 ^ (slot / 2) = 2 * 2 ^ (slot / 2 - 1) := by rw [← Nat.pow_succ']; congr 1; omega
  have hp1 : 2 ^ (slot / 2 + 1) = 4 * 2 ^ (slot / 2 - 1) := by rw [Nat.pow_succ, hp]; ring
  have hs : slotStart slot = 2 * 2 ^ (slot / 2 - 1) + slot % 2 * 2 ^ (slot / 2 - 1) := by rw [slotStart, hk]; ring
  have hm : slot % 2 * 2 ^ (slot / 2 - 1) ≤ 1 * 2 ^ (slot / 2 - 1) := Nat.mul_le_mul_right _ (by omega)
  rw [hk] at hl
  have hlo : 2 ^ (slot / 2) ≤ slotStart slot + low := by omega
  have hhi : slotStart slot + low < 2 ^ (slot / 2 + 1) := by omega
  have hlog : Nat.log2 (slotStart slot + low) = slot / 2 := by
    apply Nat.le_antisymm
    · exact Nat.lt_succ_iff.mp ((Nat.log2_lt (by have := Nat.two_pow_pos (slot / 2); omega)).mpr hhi)
    · exact (Nat.le_log2 (by have := Nat.two_pow_pos (slot / 2); omega)).mpr hlo
  have h2 : 2 ^ 2 ≤ 2 ^ (slot / 2) := Nat.pow_le_pow_right (by omega) (by omega)
  refine ⟨?_, lt_of_lt_of_le hhi (Nat.pow_le_pow_right (by omega) (by omega))⟩
  rw [slotOf, if_neg (by omega), hlog]
  have hd : (slotStart slot + low) / 2 ^ (slot / 2 - 1) = 2 + slot % 2 := by
    rw [slotStart, hk, Nat.mul_comm, Nat.mul_add_div (Nat.two_pow_pos _), Nat.div_eq_of_lt hl, Nat.add_zero]
  rw [hd]; omega

theorem footerOf_le {slot : Nat} (h : slot < 64) : footerOf slot ≤ 30 := by unfold footerOf; omega

/-- `DistDecode` reads the distance path of the distance it returns (R382). -/
theorem distDecode_decodes (len : Word) (size : Nat) (hl : 2 ≤ len.toNat) (h : 1846 ≤ size) :
    Decodes (distDecode len) 36 size (fun d p => p = distancePath d len) := by
  have htree : (slotTree len).toNat ≤ 432 + 64 * 3 := by
    rw [slotTree, BitVec.toNat_ofNat]
    have := Nat.min_le_right (len.toNat - 2) 3
    exact le_trans (Nat.mod_le _ _) (by omega)
  rw [distDecode, posSlotTree_eq hl]
  refine Decodes.bind (b1 := 6) (b2 := 30) (btDecode_decodes _ 6 size (by omega) (by omega) (by omega)) ?_
  rintro slot _ ⟨hs, rfl⟩
  obtain ⟨v, hs', rfl⟩ : ∃ v : Nat, v < 64 ∧ slot = BitVec.ofNat 32 v := ⟨slot.toNat, hs, by simp⟩
  have hvt : (BitVec.ofNat 32 v).toNat = v := by rw [BitVec.toNat_ofNat]; omega
  rw [hvt]
  by_cases h4 : v < 4
  · rw [if_pos h4]
    refine (Decodes.pure _ size ?_).mono (Nat.zero_le _) (Nat.le_refl _) (fun _ _ h => h)
    have : slotOf v = v := by rw [slotOf, if_pos h4]
    simp [distancePath, hvt, this, h4]
  · rw [if_neg h4]
    have hf := footerOf_le hs'
    by_cases h14 : v < 14
    · rw [if_pos h14, specPosTree_eq hs' h14, footerBits_eq hs', slotBase_eq hs']
      have hsize : ∀ n : Fin 14, 4 ≤ n.val → (BitVec.ofNat 32 (688 + slotStart n.val - n.val - 1)).toNat + 2 ^ footerOf n.val ≤ 1846 ∧ footerOf n.val ≤ 5 := by decide
      have hz := hsize ⟨v, h14⟩ (by simpa using h4)
      refine Decodes.mono (Decodes.bind (b1 := footerOf v) (b2 := 0)
        (btReverseDecode_decodes _ _ size (by omega) (le_trans hz.1 h))
        (R := fun d p => treePath (slotTree len) 6 (BitVec.ofNat 32 v) ++ p = distancePath d len) ?_)
        (by have := hz.2; simp only at this; omega) (Nat.le_refl _) (fun _ _ h => h)
      rintro low p ⟨hlow, rfl⟩
      refine Decodes.pure _ _ ?_
      obtain ⟨hj, hj2⟩ := slotOf_join (by omega) hs' hlow
      have hd : (BitVec.ofNat 32 (slotStart v) + low).toNat = slotStart v + low.toNat := by
        rw [BitVec.toNat_add, BitVec.toNat_ofNat]; omega
      simp only [distancePath, hd, hj, h4, h14, if_true, if_false, List.append_nil, Nat.add_sub_cancel_left]
      congr 2
      simp
    · rw [if_neg h14, footerBits_eq hs', slotBase_eq hs']
      have h5 : 6 ≤ footerOf v := by unfold footerOf; omega
      refine Decodes.mono (Decodes.bind (b1 := footerOf v - 4) (b2 := 4)
        (rcdDecodeDirect_decodes _ size (by omega))
        (R := fun d p => treePath (slotTree len) 6 (BitVec.ofNat 32 v) ++ p = distancePath d len) ?_)
        (by omega) (Nat.le_refl _) (fun _ _ h => h)
      rintro high _ ⟨hhigh, rfl⟩
      refine Decodes.mono (Decodes.bind (b1 := 4) (b2 := 0)
        (btReverseDecode_decodes alignTree 4 size (by omega) (by have : alignTree.toNat = 802 := rfl; omega))
        (R := fun d p => treePath (slotTree len) 6 (BitVec.ofNat 32 v) ++ (directPath high (footerOf v - 4) ++ p) = distancePath d len) ?_)
        (by omega) (Nat.le_refl _) (fun _ _ h => h)
      rintro low p ⟨hlow, rfl⟩
      refine Decodes.pure _ _ ?_
      have hpow : 2 ^ footerOf v = 2 ^ (footerOf v - 4) * 16 := by
        rw [show (16 : Nat) = 2 ^ 4 by rfl, ← Nat.pow_add, Nat.sub_add_cancel (by omega)]
      have hlow : low.toNat < 16 := hlow
      obtain ⟨hj, hj2⟩ := slotOf_join (slot := v) (low := high.toNat * 16 + low.toNat) (by omega) hs' (by omega)
      have hd : (BitVec.ofNat 32 (slotStart v) + high <<< 4 + low).toNat = slotStart v + (high.toNat * 16 + low.toNat) := by
        have : (high <<< 4).toNat = high.toNat * 16 := by
          rw [BitVec.toNat_shiftLeft, Nat.shiftLeft_eq]
          exact Nat.mod_eq_of_lt (by omega)
        rw [BitVec.toNat_add, BitVec.toNat_add, BitVec.toNat_ofNat, this]; omega
      simp only [distancePath, hd, hj, h4, h14, if_false, List.append_nil, Nat.add_sub_cancel_left]
      rw [show (high.toNat * 16 + low.toNat) / 16 = high.toNat by omega,
        show (high.toNat * 16 + low.toNat) % 16 = low.toNat by omega]
      simp [alignTree]

end Sys2Proof.Machine
end

