-- ==== Sys2Proof/Laws/State.lean ====
section
/-! SUPPORT. What each named update of the state does to each of its fields, one lemma a field, true by `rfl`. -/

namespace Sys2Proof.Machine

/-! ### `clearResults` -/

@[simp] theorem clearResults_host (s : State) : (clearResults s).host = s.host := rfl
@[simp] theorem clearResults_dictCap (s : State) : (clearResults s).dictCap = s.dictCap := rfl
@[simp] theorem clearResults_opts (s : State) : (clearResults s).opts = s.opts := rfl
@[simp] theorem clearResults_derived (s : State) : (clearResults s).derived = s.derived := rfl
@[simp] theorem clearResults_status (s : State) : (clearResults s).status = s.status := rfl
@[simp] theorem clearResults_x (s : State) : (clearResults s).x = { s.x with r0 := 0, r1 := 0 } := rfl
@[simp] theorem clearResults_cnt (s : State) : (clearResults s).cnt = s.cnt := rfl
@[simp] theorem clearResults_cstate (s : State) : (clearResults s).cstate = s.cstate := rfl
@[simp] theorem clearResults_rep (s : State) : (clearResults s).rep = s.rep := rfl
@[simp] theorem clearResults_prob (s : State) : (clearResults s).prob = s.prob := rfl
@[simp] theorem clearResults_win (s : State) : (clearResults s).win = s.win := rfl
@[simp] theorem clearResults_wbuf (s : State) : (clearResults s).wbuf = s.wbuf := rfl
@[simp] theorem clearResults_mf (s : State) : (clearResults s).mf = s.mf := rfl
@[simp] theorem clearResults_son (s : State) : (clearResults s).son = s.son := rfl
@[simp] theorem clearResults_hash (s : State) : (clearResults s).hash = s.hash := rfl
@[simp] theorem clearResults_matchBuf (s : State) : (clearResults s).matchBuf = s.matchBuf := rfl
@[simp] theorem clearResults_rce (s : State) : (clearResults s).rce = s.rce := rfl
@[simp] theorem clearResults_rcd (s : State) : (clearResults s).rcd = s.rcd := rfl
@[simp] theorem clearResults_enc (s : State) : (clearResults s).enc = s.enc := rfl
@[simp] theorem clearResults_opt (s : State) : (clearResults s).opt = s.opt := rfl
@[simp] theorem clearResults_price (s : State) : (clearResults s).price = s.price := rfl
@[simp] theorem clearResults_ow (s : State) : (clearResults s).ow = s.ow := rfl
@[simp] theorem clearResults_owbuf (s : State) : (clearResults s).owbuf = s.owbuf := rfl

/-! ### `faultEntry` -/

@[simp] theorem faultEntry_host (c : ErrCode) (s : State) : (faultEntry c s).host = s.host := rfl
@[simp] theorem faultEntry_dictCap (c : ErrCode) (s : State) : (faultEntry c s).dictCap = s.dictCap := rfl
@[simp] theorem faultEntry_opts (c : ErrCode) (s : State) : (faultEntry c s).opts = s.opts := rfl
@[simp] theorem faultEntry_derived (c : ErrCode) (s : State) : (faultEntry c s).derived = s.derived := rfl
@[simp] theorem faultEntry_status (c : ErrCode) (s : State) : (faultEntry c s).status = s.status.record c := rfl
@[simp] theorem faultEntry_x (c : ErrCode) (s : State) : (faultEntry c s).x = { s.x with r0 := 0, r1 := 0 } := rfl
@[simp] theorem faultEntry_cnt (c : ErrCode) (s : State) : (faultEntry c s).cnt = s.cnt := rfl
@[simp] theorem faultEntry_cstate (c : ErrCode) (s : State) : (faultEntry c s).cstate = s.cstate := rfl
@[simp] theorem faultEntry_rep (c : ErrCode) (s : State) : (faultEntry c s).rep = s.rep := rfl
@[simp] theorem faultEntry_prob (c : ErrCode) (s : State) : (faultEntry c s).prob = s.prob := rfl
@[simp] theorem faultEntry_win (c : ErrCode) (s : State) : (faultEntry c s).win = s.win := rfl
@[simp] theorem faultEntry_wbuf (c : ErrCode) (s : State) : (faultEntry c s).wbuf = s.wbuf := rfl
@[simp] theorem faultEntry_mf (c : ErrCode) (s : State) : (faultEntry c s).mf = s.mf := rfl
@[simp] theorem faultEntry_son (c : ErrCode) (s : State) : (faultEntry c s).son = s.son := rfl
@[simp] theorem faultEntry_hash (c : ErrCode) (s : State) : (faultEntry c s).hash = s.hash := rfl
@[simp] theorem faultEntry_matchBuf (c : ErrCode) (s : State) : (faultEntry c s).matchBuf = s.matchBuf := rfl
@[simp] theorem faultEntry_rce (c : ErrCode) (s : State) : (faultEntry c s).rce = s.rce := rfl
@[simp] theorem faultEntry_rcd (c : ErrCode) (s : State) : (faultEntry c s).rcd = s.rcd := rfl
@[simp] theorem faultEntry_enc (c : ErrCode) (s : State) : (faultEntry c s).enc = s.enc := rfl
@[simp] theorem faultEntry_opt (c : ErrCode) (s : State) : (faultEntry c s).opt = s.opt := rfl
@[simp] theorem faultEntry_price (c : ErrCode) (s : State) : (faultEntry c s).price = s.price := rfl
@[simp] theorem faultEntry_ow (c : ErrCode) (s : State) : (faultEntry c s).ow = s.ow := rfl
@[simp] theorem faultEntry_owbuf (c : ErrCode) (s : State) : (faultEntry c s).owbuf = s.owbuf := rfl

/-! ### `latch` -/

@[simp] theorem latch_host (t : Transaction) (s : State) : (latch t s).host = s.host := rfl
@[simp] theorem latch_dictCap (t : Transaction) (s : State) : (latch t s).dictCap = s.dictCap := rfl
@[simp] theorem latch_opts (t : Transaction) (s : State) : (latch t s).opts = s.opts := rfl
@[simp] theorem latch_derived (t : Transaction) (s : State) : (latch t s).derived = s.derived := rfl
@[simp] theorem latch_status (t : Transaction) (s : State) : (latch t s).status = s.status := rfl
@[simp] theorem latch_x (t : Transaction) (s : State) : (latch t s).x = { s.x with a0 := t.a0, a1 := t.a1, a2 := t.a2, a3 := t.a3 } := rfl
@[simp] theorem latch_cnt (t : Transaction) (s : State) : (latch t s).cnt = s.cnt := rfl
@[simp] theorem latch_cstate (t : Transaction) (s : State) : (latch t s).cstate = s.cstate := rfl
@[simp] theorem latch_rep (t : Transaction) (s : State) : (latch t s).rep = s.rep := rfl
@[simp] theorem latch_prob (t : Transaction) (s : State) : (latch t s).prob = s.prob := rfl
@[simp] theorem latch_win (t : Transaction) (s : State) : (latch t s).win = s.win := rfl
@[simp] theorem latch_wbuf (t : Transaction) (s : State) : (latch t s).wbuf = s.wbuf := rfl
@[simp] theorem latch_mf (t : Transaction) (s : State) : (latch t s).mf = s.mf := rfl
@[simp] theorem latch_son (t : Transaction) (s : State) : (latch t s).son = s.son := rfl
@[simp] theorem latch_hash (t : Transaction) (s : State) : (latch t s).hash = s.hash := rfl
@[simp] theorem latch_matchBuf (t : Transaction) (s : State) : (latch t s).matchBuf = s.matchBuf := rfl
@[simp] theorem latch_rce (t : Transaction) (s : State) : (latch t s).rce = s.rce := rfl
@[simp] theorem latch_rcd (t : Transaction) (s : State) : (latch t s).rcd = s.rcd := rfl
@[simp] theorem latch_enc (t : Transaction) (s : State) : (latch t s).enc = s.enc := rfl
@[simp] theorem latch_opt (t : Transaction) (s : State) : (latch t s).opt = s.opt := rfl
@[simp] theorem latch_price (t : Transaction) (s : State) : (latch t s).price = s.price := rfl
@[simp] theorem latch_ow (t : Transaction) (s : State) : (latch t s).ow = s.ow := rfl
@[simp] theorem latch_owbuf (t : Transaction) (s : State) : (latch t s).owbuf = s.owbuf := rfl

/-! ### `accept` -/

@[simp] theorem accept_host (t : Transaction) (rest : List Transaction) (s : State) : (accept t rest s).host = { s.host with port := rest } := rfl
@[simp] theorem accept_dictCap (t : Transaction) (rest : List Transaction) (s : State) : (accept t rest s).dictCap = s.dictCap := rfl
@[simp] theorem accept_opts (t : Transaction) (rest : List Transaction) (s : State) : (accept t rest s).opts = s.opts := rfl
@[simp] theorem accept_derived (t : Transaction) (rest : List Transaction) (s : State) : (accept t rest s).derived = s.derived := rfl
@[simp] theorem accept_status (t : Transaction) (rest : List Transaction) (s : State) : (accept t rest s).status = s.status := rfl
@[simp] theorem accept_x (t : Transaction) (rest : List Transaction) (s : State) : (accept t rest s).x = { s.x with a0 := t.a0, a1 := t.a1, a2 := t.a2, a3 := t.a3 } := rfl
@[simp] theorem accept_cnt (t : Transaction) (rest : List Transaction) (s : State) : (accept t rest s).cnt = s.cnt := rfl
@[simp] theorem accept_cstate (t : Transaction) (rest : List Transaction) (s : State) : (accept t rest s).cstate = s.cstate := rfl
@[simp] theorem accept_rep (t : Transaction) (rest : List Transaction) (s : State) : (accept t rest s).rep = s.rep := rfl
@[simp] theorem accept_prob (t : Transaction) (rest : List Transaction) (s : State) : (accept t rest s).prob = s.prob := rfl
@[simp] theorem accept_win (t : Transaction) (rest : List Transaction) (s : State) : (accept t rest s).win = s.win := rfl
@[simp] theorem accept_wbuf (t : Transaction) (rest : List Transaction) (s : State) : (accept t rest s).wbuf = s.wbuf := rfl
@[simp] theorem accept_mf (t : Transaction) (rest : List Transaction) (s : State) : (accept t rest s).mf = s.mf := rfl
@[simp] theorem accept_son (t : Transaction) (rest : List Transaction) (s : State) : (accept t rest s).son = s.son := rfl
@[simp] theorem accept_hash (t : Transaction) (rest : List Transaction) (s : State) : (accept t rest s).hash = s.hash := rfl
@[simp] theorem accept_matchBuf (t : Transaction) (rest : List Transaction) (s : State) : (accept t rest s).matchBuf = s.matchBuf := rfl
@[simp] theorem accept_rce (t : Transaction) (rest : List Transaction) (s : State) : (accept t rest s).rce = s.rce := rfl
@[simp] theorem accept_rcd (t : Transaction) (rest : List Transaction) (s : State) : (accept t rest s).rcd = s.rcd := rfl
@[simp] theorem accept_enc (t : Transaction) (rest : List Transaction) (s : State) : (accept t rest s).enc = s.enc := rfl
@[simp] theorem accept_opt (t : Transaction) (rest : List Transaction) (s : State) : (accept t rest s).opt = s.opt := rfl
@[simp] theorem accept_price (t : Transaction) (rest : List Transaction) (s : State) : (accept t rest s).price = s.price := rfl
@[simp] theorem accept_ow (t : Transaction) (rest : List Transaction) (s : State) : (accept t rest s).ow = s.ow := rfl
@[simp] theorem accept_owbuf (t : Transaction) (rest : List Transaction) (s : State) : (accept t rest s).owbuf = s.owbuf := rfl

/-! ### `present` -/

@[simp] theorem present_host (t : Transaction) (s : State) : (present t s).host = { s.host with port := t :: s.host.port } := rfl
@[simp] theorem present_dictCap (t : Transaction) (s : State) : (present t s).dictCap = s.dictCap := rfl
@[simp] theorem present_opts (t : Transaction) (s : State) : (present t s).opts = s.opts := rfl
@[simp] theorem present_derived (t : Transaction) (s : State) : (present t s).derived = s.derived := rfl
@[simp] theorem present_status (t : Transaction) (s : State) : (present t s).status = s.status := rfl
@[simp] theorem present_x (t : Transaction) (s : State) : (present t s).x = s.x := rfl
@[simp] theorem present_cnt (t : Transaction) (s : State) : (present t s).cnt = s.cnt := rfl
@[simp] theorem present_cstate (t : Transaction) (s : State) : (present t s).cstate = s.cstate := rfl
@[simp] theorem present_rep (t : Transaction) (s : State) : (present t s).rep = s.rep := rfl
@[simp] theorem present_prob (t : Transaction) (s : State) : (present t s).prob = s.prob := rfl
@[simp] theorem present_win (t : Transaction) (s : State) : (present t s).win = s.win := rfl
@[simp] theorem present_wbuf (t : Transaction) (s : State) : (present t s).wbuf = s.wbuf := rfl
@[simp] theorem present_mf (t : Transaction) (s : State) : (present t s).mf = s.mf := rfl
@[simp] theorem present_son (t : Transaction) (s : State) : (present t s).son = s.son := rfl
@[simp] theorem present_hash (t : Transaction) (s : State) : (present t s).hash = s.hash := rfl
@[simp] theorem present_matchBuf (t : Transaction) (s : State) : (present t s).matchBuf = s.matchBuf := rfl
@[simp] theorem present_rce (t : Transaction) (s : State) : (present t s).rce = s.rce := rfl
@[simp] theorem present_rcd (t : Transaction) (s : State) : (present t s).rcd = s.rcd := rfl
@[simp] theorem present_enc (t : Transaction) (s : State) : (present t s).enc = s.enc := rfl
@[simp] theorem present_opt (t : Transaction) (s : State) : (present t s).opt = s.opt := rfl
@[simp] theorem present_price (t : Transaction) (s : State) : (present t s).price = s.price := rfl
@[simp] theorem present_ow (t : Transaction) (s : State) : (present t s).ow = s.ow := rfl
@[simp] theorem present_owbuf (t : Transaction) (s : State) : (present t s).owbuf = s.owbuf := rfl

/-! ### STATUS -/

@[simp] theorem Status.record_phase (t : Status) (c : ErrCode) : (t.record c).phase = t.phase := by
  unfold Status.record; split <;> rfl

@[simp] theorem Status.record_srcEof (t : Status) (c : ErrCode) : (t.record c).srcEof = t.srcEof := by
  unfold Status.record; split <;> rfl

@[simp] theorem Status.record_endSeen (t : Status) (c : ErrCode) : (t.record c).endSeen = t.endSeen := by
  unfold Status.record; split <;> rfl

@[simp] theorem Status.record_hdrOk (t : Status) (c : ErrCode) : (t.record c).hdrOk = t.hdrOk := by
  unfold Status.record; split <;> rfl

/-- The first error is recorded (R610). -/
theorem Status.record_err_first {t : Status} (h : t.err = .none) (c : ErrCode) : (t.record c).err = c := by
  unfold Status.record; rw [if_pos h]

/-- A later error is not (R611). -/
theorem Status.record_err_later {t : Status} (h : t.err ≠ .none) (c : ErrCode) : (t.record c).err = t.err := by
  unfold Status.record; rw [if_neg h]

end Sys2Proof.Machine
end

