-- ==== Sys2Proof/Tests/Slice0.lean ====
section
/-! SUPPORT. The model's own tests: ill-formed commands are refused, command words written out from R141 and R150 decode,
single commands on small states give the results of the spec's examples (cited beside each), and a witness for the
hypotheses of every obligation. -/

namespace Sys2Proof.Tests
open Sys2Proof Sys2Proof.Machine
set_option Elab.async false

/-! ## Well-formedness: each check refuses an ill-formed command and lets its boundary through (R144) -/

theorem test_count_zero_refused :
    (Instr.rceDirect 0#5).wellFormed = false ∧ (Instr.rcdDirect 0#5).wellFormed = false ∧
    (Instr.btEnc 0#5).wellFormed = false ∧ (Instr.btRevEnc 0#5).wellFormed = false ∧
    (Instr.btDec 0#5).wellFormed = false ∧ (Instr.btRevDec 0#5).wellFormed = false ∧
    (Instr.btPrice 0#5).wellFormed = false ∧ (Instr.btRevPrice 0#5).wellFormed = false := by decide

theorem test_count_nine_refused :
    (Instr.btEnc 9#5).wellFormed = false ∧ (Instr.btRevEnc 9#5).wellFormed = false ∧
    (Instr.btDec 9#5).wellFormed = false ∧ (Instr.btRevDec 9#5).wellFormed = false ∧
    (Instr.btPrice 9#5).wellFormed = false ∧ (Instr.btRevPrice 9#5).wellFormed = false := by decide

theorem test_count_bounds_accepted :
    (Instr.rceDirect 1#5).wellFormed = true ∧ (Instr.rcdDirect 31#5).wellFormed = true ∧
    (Instr.btEnc 1#5).wellFormed = true ∧ (Instr.btPrice 8#5).wellFormed = true := by decide

/-! ## Decoding: a word for every constructor, put together from the fields of R141 and the map of R150 -/

theorem test_decode_control :
    decode 0x00000000#32 = .ok .nop ∧
    decode 0x00000001#32 = .ok .reset ∧
    decode 0x00000002#32 = .ok .regRead ∧
    decode 0x00000003#32 = .ok .regWrite ∧
    decode 0x00000004#32 = .ok .probRead ∧
    decode 0x00000005#32 = .ok .matchRead := by decide

theorem test_decode_window :
    decode 0x00000010#32 = .ok .wbGetByte ∧
    decode 0x00000011#32 = .ok .wbMatchLen ∧
    decode 0x00000012#32 = .ok .wbAvail := by decide

theorem test_decode_matchFinder :
    decode 0x00000018#32 = .ok .mfGetMatches ∧
    decode 0x00000019#32 = .ok .mfSkip ∧
    decode 0x0000001A#32 = .ok .mfMovePos ∧
    decode 0x0000001B#32 = .ok .mfHash := by decide

theorem test_decode_rangeCoder :
    decode 0x00020020#32 = .ok (.rceBit true) ∧
    decode 0x0001F021#32 = .ok (.rceDirect 31#5) ∧
    decode 0x00000028#32 = .ok .rcdBit ∧
    decode 0x0001F029#32 = .ok (.rcdDirect 31#5) ∧
    decode 0x0002012C#32 = .ok (.priceBit true true) := by decide

theorem test_decode_bitTree :
    decode 0x00008030#32 = .ok (.btEnc 8#5) ∧
    decode 0x00008031#32 = .ok (.btRevEnc 8#5) ∧
    decode 0x00008032#32 = .ok (.btDec 8#5) ∧
    decode 0x00008033#32 = .ok (.btRevDec 8#5) ∧
    decode 0x00008034#32 = .ok (.btPrice 8#5) ∧
    decode 0x00008035#32 = .ok (.btRevPrice 8#5) := by decide

theorem test_decode_states :
    decode 0x00000140#32 = .ok (.stChar true) ∧
    decode 0x00000141#32 = .ok (.stMatch true) ∧
    decode 0x00000142#32 = .ok (.stRep true) ∧
    decode 0x00000143#32 = .ok (.stShortRep true) := by decide

theorem test_decode_literals :
    decode 0x00000044#32 = .ok .litEnc ∧
    decode 0x00000045#32 = .ok .litEncM ∧
    decode 0x00000046#32 = .ok .litDec ∧
    decode 0x00000047#32 = .ok .litDecM ∧
    decode 0x00000148#32 = .ok (.litPrice true) := by decide

theorem test_decode_lengths :
    decode 0x00000149#32 = .ok (.lenEnc true) ∧
    decode 0x0000014A#32 = .ok (.lenDec true) ∧
    decode 0x0000014B#32 = .ok (.lenPrice true) := by decide

theorem test_decode_distances :
    decode 0x0000004C#32 = .ok .distEnc ∧
    decode 0x0000004D#32 = .ok .distDec ∧
    decode 0x0000004E#32 = .ok .posSlot ∧
    decode 0x00000050#32 = .ok .repUse ∧
    decode 0x00000051#32 = .ok .repPush := by decide

theorem test_decode_parser :
    decode 0x00000058#32 = .ok .optGetOptimum ∧
    decode 0x00000059#32 = .ok .priceFillDist ∧
    decode 0x0000005A#32 = .ok .priceFillAlign ∧
    decode 0x0000015B#32 = .ok (.priceLenTable true) ∧
    decode 0x0000005C#32 = .ok .pricePosLen ∧
    decode 0x0000005D#32 = .ok .priceRep ∧
    decode 0x0000005E#32 = .ok .priceShortRep := by decide

theorem test_decode_encoder :
    decode 0x00000060#32 = .ok .encStart ∧
    decode 0x00000061#32 = .ok .hdrWrite ∧
    decode 0x00000062#32 = .ok .encStep ∧
    decode 0x00000063#32 = .ok .encRun ∧
    decode 0x00000064#32 = .ok .encSymbol ∧
    decode 0x00000065#32 = .ok .encFinish := by decide

theorem test_decode_decoder :
    decode 0x00000070#32 = .ok .hdrRead ∧
    decode 0x00000071#32 = .ok .decStart ∧
    decode 0x00000072#32 = .ok .decStep ∧
    decode 0x00000073#32 = .ok .decRun ∧
    decode 0x00000074#32 = .ok .owGetByte ∧
    decode 0x00000075#32 = .ok .owPutByte ∧
    decode 0x00000076#32 = .ok .owCopy := by decide

/-- One command of each family, its word written bit by bit: RES 14 bits, B, N 5 bits, SEL 4 bits, OPC 8 bits. -/
theorem test_decode_bit_by_bit :
    decode 0b00000000000000000000000000000000#32 = .ok .nop ∧
    decode 0b00000000000000000000000000010010#32 = .ok .wbAvail ∧
    decode 0b00000000000000000000000000011001#32 = .ok .mfSkip ∧
    decode 0b00000000000000100000000000100000#32 = .ok (.rceBit true) ∧
    decode 0b00000000000000010011000000101001#32 = .ok (.rcdDirect 19#5) ∧
    decode 0b00000000000000000101000000110011#32 = .ok (.btRevDec 5#5) ∧
    decode 0b00000000000000000000000101000010#32 = .ok (.stRep true) ∧
    decode 0b00000000000000000000000001000111#32 = .ok .litDecM ∧
    decode 0b00000000000000000000000101001011#32 = .ok (.lenPrice true) ∧
    decode 0b00000000000000000000000001001101#32 = .ok .distDec ∧
    decode 0b00000000000000000000000101011011#32 = .ok (.priceLenTable true) ∧
    decode 0b00000000000000000000000001100101#32 = .ok .encFinish ∧
    decode 0b00000000000000000000000001110110#32 = .ok .owCopy := by decide

/-- R146: each reason a word is no command. -/
theorem test_decode_rejects :
    decode 0x00040000#32 = .error .reservedBits ∧ decode 0x80000000#32 = .error .reservedBits ∧
    decode 0x00000006#32 = .error .unassignedOpc ∧ decode 0x00000080#32 = .error .unassignedOpc ∧
    decode 0x00000240#32 = .error .selOutOfRange ∧ decode 0x00000100#32 = .error .selOutOfRange ∧
    decode 0x00000030#32 = .error .countOutOfRange ∧ decode 0x00009030#32 = .error .countOutOfRange ∧
    decode 0x00001000#32 = .error .countOutOfRange ∧ decode 0x00020000#32 = .error .bitOutOfRange := by decide

theorem test_table_word : decodeTableWord 32 0x6030 = some (.btEnc 6#5) ∧ decodeTableWord 32 0x6 = none := by decide

/-! ## Small states -/

/-- Whether an outcome is a next state with a property. -/
def answers (P : State → Bool) (o : Host.Outcome State Fault Refusal) : Bool :=
  match o with
  | .next t => P t
  | .fault _ => false
  | .refused _ => false

theorem answers_next {P : State → Bool} {o : Host.Outcome State Fault Refusal} (h : answers P o = true) :
    ∃ t, o = .next t ∧ P t = true := by
  cases o with
  | next t => exact ⟨t, rfl, h⟩
  | fault f => cases h
  | refused r => cases h

/-- A second command after a first that completes. -/
def andThen (o : Host.Outcome State Fault Refusal) (i : Instr) : Host.Outcome State Fault Refusal :=
  match o with
  | .next t => exec i t
  | .fault f => .fault f
  | .refused r => .refused r

/-- A state with its operand registers set. -/
def withOps (a0 a1 a2 a3 : Word) (s : State) : State :=
  { s with x := { s.x with a0 := a0, a1 := a1, a2 := a2, a3 := a3 } }

/-- Bytes as the cells of a RAM, from index 0. -/
def asCells (l : List Byte) : List (Nat × Byte) := (List.range l.length).zip l

/-- "abcabcabcabc". -/
def abc : List Byte := [0x61, 0x62, 0x63, 0x61, 0x62, 0x63, 0x61, 0x62, 0x63, 0x61, 0x62, 0x63]

/-- The window of the default options holding `n` bytes, the whole input, at position `pos` (R201, R202, R206). -/
def testWindow (n : Nat) (pos : Word) : WinRegs :=
  { blockSize := 6298315#32, keepBefore := 4198400#32, keepAfter := 306#32, lastSafe := 6298009#32
    bufOffset := 0xFFFFFFFF#32, pos := pos, streamPos := BitVec.ofNat 32 (n + 1), posLimit := BitVec.ofNat 32 (n + 1)
    streamEnd := true }

/-- The default options' encoder on an input, at window position `pos`, its price tables still 0 (R470: probCount 7990,
MF.cbs 0x400001, hashMask 0x1FFFFF, hashSizeSum 2163712, distTableSize 44, lenTableSize 31). -/
def encStream (input : List Byte) (pos : Word) : State :=
  { State.reset with
    status := { Status.reset with phase := .enc, srcEof := true }
    derived := { posStateMask := 3#32, litPosMask := 0#32, probCount := 7990#32, numPosStates := 4#32, lcLatched := 3#4 }
    cnt := { Counters.reset with inCount := BitVec.ofNat 64 input.length }
    prob := Ram.alloc 7990
    win := testWindow input.length pos
    wbuf := { size := 6298315, cells := asCells input }
    mf := { cycPos := 0#32, cbs := 0x400001#32, hashArray := true, hashMask := 0x1FFFFF#32, hashSizeSum := 2163712#32
            fixHashSize := 66560#32, numHashDirectBytes := 0#32, minMatchCheck := 4#32, cutValue := 32#32
            matchMaxLen := 32#32, numPairs := 0#32 }
    son := Ram.alloc 0x800002
    hash := Ram.alloc 2163712
    matchBuf := Ram.alloc 548
    rce := { low := 0#33, range := 0xFFFFFFFF#32, cache := 0#8, cacheSize := 1#32 }
    enc := { EncRegs.reset with distTableSize := 44#32, lenTableSize := 31#32 }
    opt := Ram.alloc 4096
    price := { posSlot := Ram.alloc 256, dist := Ram.alloc 512, align := Ram.alloc 16, lenMatch := Ram.alloc 4352
               lenRep := Ram.alloc 4352, cntMatch := Ram.alloc 16, cntRep := Ram.alloc 16 } }

/-- "abcabcabcabc" at position 1. -/
def encS : State := encStream abc 1#32

/-- The default options' decoder with RCD.code loaded and the rest of the payload ready (R524). -/
def decStream (code : Word) (rest : List Byte) : State :=
  { State.reset with
    host := { HostSide.reset with src := rest }
    opts := { Options.reset with mode := 1#1 }
    status := { Status.reset with phase := .dec }
    derived := { posStateMask := 3#32, litPosMask := 0#32, probCount := 7990#32, numPosStates := 4#32, lcLatched := 3#4 }
    cnt := { Counters.reset with inCount := 5#64 }
    prob := Ram.alloc 7990
    rcd := { range := 0xFFFFFFFF#32, code := code }
    ow := { size := 0x400000#32, pos := 0#32, dictSizeCheck := 0x400000#32 }
    owbuf := Ram.alloc 0x400000 }

/-- A decoder with 64 zero bytes ready. -/
def decS : State := decStream 0#32 (List.replicate 64 0#8)

/-- What an encoder state has to show for the invariant, each part decidable. -/
abbrev EncShape (s : State) : Prop :=
  Memory.wf s = true ∧ s.cstate.toNat ≤ 11 ∧ probsInRange s = true ∧ s.prob.size = s.derived.probCount.toNat ∧
  s.opts.lc.toNat ≤ 8 ∧ s.opts.lp.toNat ≤ 4 ∧ s.opts.pb.toNat ≤ 4 ∧ s.status.phase = .enc ∧
  s.opts.mode = 0#1 ∧ encOptionsLegal s.opts s.dictCap = true ∧ s.derived = derivedOf s.opts ∧
  (s.wbuf.size = s.win.blockSize.toNat ∧ s.son.size = 2 * s.mf.cbs.toNat ∧ s.hash.size = s.mf.hashSizeSum.toNat ∧
    s.matchBuf.size = 548 ∧ s.opt.size = 4096 ∧
    s.price.posSlot.size = 256 ∧ s.price.dist.size = 512 ∧ s.price.align.size = 16 ∧
    s.price.lenMatch.size = 4352 ∧ s.price.lenRep.size = 4352 ∧
    s.price.cntMatch.size = 16 ∧ s.price.cntRep.size = 16) ∧
  (s.mf = mfRegsOf s.opts.dictSize (s.opts.fastBytes.setWidth 32) (decide (s.opts.mfHash = 1#1)) s.mf ∧
    s.mf.cycPos.toNat < s.mf.cbs.toNat ∧
    s.enc.distTableSize = BitVec.ofNat 32 (2 * dictLog s.opts.dictSize) ∧
    s.enc.lenTableSize = s.opts.fastBytes.setWidth 32 - 1#32 ∧
    s.win.keepBefore = s.opts.dictSize + 4096#32 ∧
    s.win.keepAfter = s.opts.fastBytes.setWidth 32 + 274#32 ∧
    s.win.lastSafe = s.win.blockSize - s.win.keepAfter ∧
    s.win.blockSize = s.win.keepBefore + s.win.keepAfter + (((s.win.keepBefore + s.win.keepAfter) >>> 1) + 256#32)) ∧
  s.owbuf.size = s.ow.size.toNat ∧ s.ow.size = 0#32 ∧ 2 ^ 24 ≤ s.rce.range.toNat

theorem encInv {s : State} (h : EncShape s) : Inv s := by
  obtain ⟨hm, hc, hp, hps, hlc, hlp, hpb, hph, hmode, hopt, hd, hram, hreg, how, how0, hr⟩ := h
  exact {
    memory := hm, coderState := hc, probs := hp, probSize := hps, derived := .inr ⟨s.opts, hlc, hlp, hpb, hd⟩
    idle := fun h => by rw [hph] at h; cases h
    encOptions := fun _ => ⟨hmode, hopt, hd⟩
    encRams := fun _ => hram
    encRegs := fun _ => hreg
    decOptions := fun h => by rw [hph] at h; cases h
    output := ⟨how, fun h => absurd how0 h⟩
    decRegs := fun h => by rw [hph] at h; cases h
    encRange := fun _ _ => hr
    decRange := fun h => by rw [hph] at h; cases h }

/-- What a decoder state has to show for the invariant. -/
abbrev DecShape (s : State) : Prop :=
  Memory.wf s = true ∧ s.cstate.toNat ≤ 11 ∧ probsInRange s = true ∧ s.prob.size = s.derived.probCount.toNat ∧
  s.opts.lc.toNat ≤ 8 ∧ s.opts.lp.toNat ≤ 4 ∧ s.opts.pb.toNat ≤ 4 ∧ s.status.phase = .dec ∧
  s.opts.mode = 1#1 ∧ decOptionsLegal s.opts s.dictCap = true ∧ s.derived = derivedOf s.opts ∧
  s.owbuf.size = s.ow.size.toNat ∧ s.ow.pos.toNat < s.ow.size.toNat ∧
  s.ow.dictSizeCheck = (freshOw s.opts).dictSizeCheck ∧ s.ow.size = (freshOw s.opts).size ∧ 2 ^ 24 ≤ s.rcd.range.toNat

theorem decInv {s : State} (h : DecShape s) : Inv s := by
  obtain ⟨hm, hc, hp, hps, hlc, hlp, hpb, hph, hmode, hopt, hd, how, hpos, hcheck, hsize, hr⟩ := h
  exact {
    memory := hm, coderState := hc, probs := hp, probSize := hps, derived := .inr ⟨s.opts, hlc, hlp, hpb, hd⟩
    idle := fun h => by rw [hph] at h; cases h
    encOptions := fun h => by rw [hph] at h; cases h
    encRams := fun h => by rw [hph] at h; cases h
    encRegs := fun h => by rw [hph] at h; cases h
    decOptions := fun _ => ⟨hmode, hopt, hd⟩
    output := ⟨how, fun _ => hpos⟩
    decRegs := fun _ => ⟨hcheck, hsize⟩
    encRange := fun h => by rw [hph] at h; cases h
    decRange := fun _ _ => hr }

/-! ## Host control: the examples of R560 to R565 -/

theorem test_nop : answers (fun t => decide (t.x.r0 = 0#32) && decide (t.x.r1 = 0#32) && decide (t.status.word = 0#32))
    (exec .nop State.reset) = true := by decide +kernel

/-- R561: from PHASE ENC with LC = 1. -/
theorem test_reset : answers (fun t => decide (t.status.phase = .idle) && decide (t.opts.lc = 3#4) &&
    decide (t.derived.probCount = 0#32)) (exec .reset { encS with opts := { encS.opts with lc := 1#4 } }) = true := by
  decide +kernel

theorem test_regRead_id : answers (fun t => decide (t.x.r0 = 0x4C5A3737#32)) (exec .regRead State.reset) = true := by
  decide +kernel

theorem test_regRead_unassigned : answers (fun t => decide (t.status.err = .illegalCmd))
    (exec .regRead (withOps 0x0C#32 0#32 0#32 0#32 State.reset)) = true := by decide +kernel

theorem test_regWrite_width : answers (fun t => decide (t.opts.fastBytes = 0x100#9))
    (exec .regWrite (withOps 6#32 0x300#32 0#32 0#32 State.reset)) = true := by decide +kernel

theorem test_regWrite_readOnly : answers (fun t => decide (t.status.err = .illegalCmd))
    (exec .regWrite (withOps 0x10#32 0#32 0#32 0#32 State.reset)) = true := by decide +kernel

theorem test_probRead : answers (fun t => decide (t.x.r0 = 1024#32)) (exec .probRead encS) = true := by decide +kernel

theorem test_probRead_idle : answers (fun t => decide (t.status.err = .bounds)) (exec .probRead State.reset) = true := by
  decide +kernel

theorem test_matchRead : answers (fun t => decide (t.x.r0 = 9#32) && decide (t.x.r1 = 2#32))
    (exec .matchRead { encS with matchBuf := { size := 548, cells := [(0, 9#32), (1, 2#32)] },
                                 mf := { encS.mf with numPairs := 2#32 } }) = true := by decide +kernel

theorem test_matchRead_idle : answers (fun t => decide (t.status.err = .bounds)) (exec .matchRead State.reset) = true := by
  decide +kernel

/-! ## Window and match finder: the examples of R220 to R222 and R260 to R263 -/

/-- "ABCABC". -/
def abcUpper : List Byte := [0x41, 0x42, 0x43, 0x41, 0x42, 0x43]

theorem test_wbGetByte : answers (fun t => decide (t.x.r0 = 0x41#32)) (exec .wbGetByte (encStream abcUpper 1#32)) = true := by
  decide +kernel

theorem test_wbGetByte_outside : answers (fun t => decide (t.status.err = .bounds))
    (exec .wbGetByte (withOps 0xFFFFFFFF#32 0#32 0#32 0#32 (encStream abcUpper 1#32))) = true := by decide +kernel

theorem test_wbMatchLen : answers (fun t => decide (t.x.r0 = 3#32))
    (exec .wbMatchLen (withOps 3#32 2#32 3#32 0#32 (encStream abcUpper 1#32))) = true := by decide +kernel

theorem test_wbMatchLen_clipped : answers (fun t => decide (t.x.r0 = 3#32))
    (exec .wbMatchLen (withOps 3#32 2#32 5#32 0#32 (encStream abcUpper 1#32))) = true := by decide +kernel

theorem test_wbAvail : answers (fun t => decide (t.x.r0 = 6#32)) (exec .wbAvail (encStream abcUpper 1#32)) = true := by
  decide +kernel

/-- R261: MF_SKIP of 3, then MF_GETMATCHES, returns (9, 2). -/
theorem test_mfSkip_mfGetMatches : answers (fun t => decide (t.x.r0 = 2#32) && decide (t.x.r1 = 9#32) &&
    decide (t.matchBuf.get 0 = 9#32) && decide (t.matchBuf.get 1 = 2#32))
    (andThen (exec .mfSkip (withOps 3#32 0#32 0#32 0#32 encS)) .mfGetMatches) = true := by decide +kernel

theorem test_mfGetMatches_first : answers (fun t => decide (t.x.r0 = 0#32) && decide (t.win.pos = 2#32))
    (exec .mfGetMatches encS) = true := by decide +kernel

theorem test_mfMovePos : answers (fun t => decide (t.win.pos = 2#32)) (exec .mfMovePos encS) = true := by decide +kernel

theorem test_mfHash : answers (fun t => decide (t.x.r0 = 0x1F0B6C#32) && decide (t.x.r1 = 0x32AC01AC#32))
    (exec .mfHash encS) = true := by decide +kernel

/-! ## Range coder and prices: the examples of R297 and R300 to R304 -/

theorem test_rceBit_zero : answers (fun t => decide (t.rce.range = 0x7FFFFC00#32) && decide (t.rce.low = 0#33) &&
    decide (t.prob.get 0 = 1056#11)) (exec (.rceBit false) encS) = true := by decide +kernel

theorem test_rceBit_one : answers (fun t => decide (t.rce.range = 0x800003FF#32) && decide (t.rce.low = 0x7FFFFC00#33) &&
    decide (t.prob.get 0 = 992#11)) (exec (.rceBit true) encS) = true := by decide +kernel

theorem test_rceDirect : answers (fun t => decide (t.rce.range = 0x1FFFFFFF#32) && decide (t.rce.low = 0x9FFFFFFE#33))
    (exec (.rceDirect 3#5) (withOps 5#32 0#32 0#32 0#32 encS)) = true := by decide +kernel

/-- R303: the payload of the three bits 101, flushed: 00 9F FF FF FE. -/
theorem test_rceDirect_payload : answers (fun t => decide (t.host.sink.reverse = [0x00, 0x9F, 0xFF, 0xFF, 0xFE]))
    (andThen (exec (.rceDirect 3#5) (withOps 5#32 0#32 0#32 0#32 encS)) .encFinish) = true := by decide +kernel

theorem test_rcdBit : answers (fun t => decide (t.x.r0 = 0#32) && decide (t.rcd.range = 0x7FFFFC00#32) &&
    decide (t.prob.get 0 = 1056#11)) (exec .rcdBit (decStream 0x207FFC00#32 [0#8])) = true := by decide +kernel

theorem test_rcdDirect : answers (fun t => decide (t.x.r0 = 5#32))
    (exec (.rcdDirect 3#5) (decStream 0x9FFFFFFE#32 [])) = true := by decide +kernel

theorem test_priceBit : answers (fun t => decide (t.x.r0 = 2#32))
    (exec (.priceBit true true) (withOps 31#32 0#32 0#32 0#32 State.reset)) = true := by decide +kernel

theorem test_priceBit_bounds : answers (fun t => decide (t.status.err = .bounds))
    (exec (.priceBit true true) (withOps 2048#32 0#32 0#32 0#32 State.reset)) = true := by decide +kernel

/-- R295's table at its ends. -/
theorem test_probPrices : probPrice 1 = 576#32 ∧ probPrice 2 = 512#32 ∧ probPrice 256 = 64#32 ∧ probPrice 511 = 0#32 := by
  decide +kernel

/-! ## Bit trees: the examples of R330 to R335 -/

theorem test_btEnc : answers (fun t => decide (t.prob.get 1 = 992#11) && decide (t.prob.get 3 = 992#11) &&
    decide (t.prob.get 7 = 1056#11) && decide (t.rce.low = 0xBFFFFC00#33) && decide (t.rce.range = 0x20000000#32))
    (exec (.btEnc 3#5) (withOps 0#32 6#32 0#32 0#32 encS)) = true := by decide +kernel

theorem test_btRevEnc : answers (fun t => decide (t.prob.get 1 = 1056#11) && decide (t.prob.get 2 = 992#11) &&
    decide (t.prob.get 5 = 992#11) && decide (t.rce.low = 0x5FFFFC00#33) && decide (t.rce.range = 0x20000000#32))
    (exec (.btRevEnc 3#5) (withOps 0#32 6#32 0#32 0#32 encS)) = true := by decide +kernel

theorem test_btDec : answers (fun t => decide (t.x.r0 = 6#32)) (exec (.btDec 3#5) (decStream 0xBFFFFC00#32 [])) = true := by
  decide +kernel

theorem test_btRevDec : answers (fun t => decide (t.x.r0 = 6#32))
    (exec (.btRevDec 3#5) (decStream 0x5FFFFC00#32 [])) = true := by decide +kernel

/-- The tree after `BT_ENC n=3 a0=0 a1=5`: PROB[1] = 992, PROB[3] = 1056, PROB[6] = 992. -/
def afterFive : State := { encS with prob := { size := 7990, cells := [(1, 992#11), (3, 1056#11), (6, 992#11)] } }

theorem test_btPrice : answers (fun t => decide (t.x.r0 = 186#32)) (exec (.btPrice 3#5) (withOps 0#32 5#32 0#32 0#32 afterFive)) =
      true ∧
    answers (fun t => decide (t.x.r0 = 196#32)) (exec (.btPrice 3#5) (withOps 0#32 2#32 0#32 0#32 afterFive)) = true := by
  decide +kernel

theorem test_btRevPrice : answers (fun t => decide (t.x.r0 = 186#32))
    (exec (.btRevPrice 3#5) (withOps 0#32 6#32 0#32 0#32
      { encS with prob := { size := 7990, cells := [(1, 1056#11), (2, 992#11), (5, 992#11)] } })) = true := by
  decide +kernel

/-! ## The model: the examples of R390 to R406 -/

theorem test_stChar : answers (fun t => decide (t.x.r0 = 4#32))
      (exec (.stChar false) (withOps 10#32 0#32 0#32 0#32 State.reset)) = true ∧
    answers (fun t => decide (t.status.err = .bounds))
      (exec (.stChar false) (withOps 12#32 0#32 0#32 0#32 State.reset)) = true := by decide +kernel

theorem test_stMatch : answers (fun t => decide (t.x.r0 = 7#32))
      (exec (.stMatch false) (withOps 6#32 0#32 0#32 0#32 State.reset)) = true ∧
    answers (fun t => decide (t.x.r0 = 10#32))
      (exec (.stMatch false) (withOps 7#32 0#32 0#32 0#32 State.reset)) = true := by decide +kernel

theorem test_stRep : answers (fun t => decide (t.x.r0 = 8#32))
      (exec (.stRep false) (withOps 0#32 0#32 0#32 0#32 State.reset)) = true ∧
    answers (fun t => decide (t.x.r0 = 11#32))
      (exec (.stRep false) (withOps 9#32 0#32 0#32 0#32 State.reset)) = true := by decide +kernel

theorem test_stShortRep : answers (fun t => decide (t.x.r0 = 9#32))
      (exec (.stShortRep false) (withOps 3#32 0#32 0#32 0#32 State.reset)) = true ∧
    answers (fun t => decide (t.x.r0 = 11#32) && decide (t.cstate = 11#4))
      (exec (.stShortRep true) { encS with cstate := 8#4 }) = true := by decide +kernel

theorem test_litEnc : answers (fun t => decide (t.rce.low = 0x40FFFC00#33) && decide (t.rce.range = 0x01000000#32) &&
    decide ([1847, 1848, 1851, 1856, 1866, 1886, 1926, 2006].map t.prob.get =
      [1056#11, 992#11, 1056#11, 1056#11, 1056#11, 1056#11, 1056#11, 992#11]))
    (exec .litEnc (withOps 0x41#32 0#32 0#32 0#32 encS)) = true := by decide +kernel

theorem test_litEncM : answers (fun t => decide ([257, 514, 261, 266, 276, 296, 592, 160].map (fun k => t.prob.get (3382 + k)) =
      [1056#11, 992#11, 1056#11, 1056#11, 1056#11, 1056#11, 1056#11, 992#11]))
    (exec .litEncM (withOps 0x41#32 1#32 0x41#32 0x43#32 encS)) = true := by decide +kernel

theorem test_litDec : answers (fun t => decide (t.x.r0 = 0x41#32)) (exec .litDec (decStream 0x40FFFC00#32 [0#8])) = true := by
  decide +kernel

theorem test_litDecM : answers (fun t => decide (t.x.r0 = 0x41#32))
    (exec .litDecM (withOps 0#32 1#32 0x41#32 0x43#32 (decStream 0x40FFFC00#32 [0#8]))) = true := by decide +kernel

theorem test_litPrice : answers (fun t => decide (t.x.r0 = 512#32))
      (exec (.litPrice false) (withOps 0x41#32 0#32 0#32 0#32 encS)) = true ∧
    answers (fun t => decide (t.x.r0 = 512#32))
      (exec (.litPrice true) (withOps 0x41#32 0#32 0#32 0x42#32 encS)) = true := by decide +kernel

/-- With the counter of position state 1 at 31, as after ENC_START. -/
theorem test_lenEnc : answers (fun t => decide ([818, 819, 957, 958, 961].map t.prob.get =
      [992#11, 1056#11, 1056#11, 992#11, 1056#11]) && decide (t.price.cntMatch.get 1 = 30#32))
    (exec (.lenEnc false) (withOps 10#32 1#32 0#32 0#32
      { encS with price := { encS.price with cntMatch := { size := 16, cells := [(1, 31#32)] } } })) = true := by
  decide +kernel

theorem test_lenDec : answers (fun t => decide (t.x.r0 = 10#32))
    (exec (.lenDec false) (withOps 0#32 1#32 0#32 0#32 (decStream 0x8FFFFC00#32 [0#8]))) = true := by decide +kernel

theorem test_lenPrice : answers (fun t => decide (t.x.r0 = 320#32))
      (exec (.lenPrice false) (withOps 8#32 0#32 0#32 0#32 encS)) = true ∧
    answers (fun t => decide (t.x.r0 = 640#32))
      (exec (.lenPrice true) (withOps 271#32 3#32 0#32 0#32 encS)) = true := by decide +kernel

/-- R402's rows of distance 5 and 200, the first with its flushed payload. -/
theorem test_distEnc : answers (fun t => decide (t.prob.get 688 = 992#11) &&
      decide (t.host.sink.reverse = [0x00, 0x11, 0xFF, 0xFC, 0x00]))
      (andThen (exec .distEnc (withOps 5#32 3#32 0#32 0#32 encS)) .encFinish) = true ∧
    answers (fun t => decide (t.x.r0 = 15#32)) (exec .distEnc (withOps 200#32 5#32 0#32 0#32 encS)) = true := by
  decide +kernel

theorem test_distDec : answers (fun t => decide (t.x.r0 = 5#32))
    (exec .distDec (withOps 0#32 3#32 0#32 0#32 (decStream 0x11FFFC00#32 [0#8]))) = true := by decide +kernel

theorem test_posSlot : [4, 5, 6, 8, 15, 127, 128, 255, 256, 0x7FFFFFFF, 0x80000000, 0xC0000000].map slotOf =
      [4, 4, 5, 6, 7, 13, 14, 15, 16, 61, 62, 63] ∧
    answers (fun t => decide (t.x.r0 = 63#32))
      (exec .posSlot (withOps 0xC0000000#32 0#32 0#32 0#32 State.reset)) = true := by decide +kernel

/-- REP = [10, 20, 30, 40]. -/
def repsS : State := { encS with rep := { d0 := 10#32, d1 := 20#32, d2 := 30#32, d3 := 40#32 } }

theorem test_repUse : answers (fun t => decide (t.x.r0 = 30#32) && decide (t.rep.list = [30#32, 10#32, 20#32, 40#32]))
    (exec .repUse (withOps 2#32 0#32 0#32 0#32 repsS)) = true := by decide +kernel

theorem test_repPush : answers (fun t => decide (t.rep.list = [7#32, 10#32, 20#32, 30#32]))
    (exec .repPush (withOps 7#32 0#32 0#32 0#32 repsS)) = true := by decide +kernel

/-! ## Parser and prices: R420 and the examples of R451 to R456 -/

/-- A pending list of one decision: two positions on, back 0. -/
def pendingS : State :=
  { encS with opt := { size := 4096, cells := [(0, { OptRec.zero with posPrev := 2#32 })] }, enc := { encS.enc with optEnd := 2#32 } }

theorem test_optGetOptimum : answers (fun t => decide (t.x.r0 = 2#32) && decide (t.x.r1 = 0#32) && decide (t.enc.optCur = 2#32))
    (exec .optGetOptimum pendingS) = true := by decide +kernel

theorem test_priceFillAlign : answers (fun t => decide ((List.range 16).map t.price.align.get = List.replicate 16 256#32))
    (exec .priceFillAlign encS) = true := by decide +kernel

theorem test_priceLenTable : answers (fun t => decide ([0, 7, 8, 15, 16, 30].map t.price.lenMatch.get =
      [256#32, 256#32, 320#32, 320#32, 640#32, 640#32]) && decide (t.price.cntMatch.get 0 = 31#32))
    (exec (.priceLenTable false) encS) = true := by decide +kernel

/-- The prices ENC_START leaves that R454 and R455 read. -/
def pricedS : State :=
  { encS with price := { encS.price with
      posSlot := { size := 256, cells := [(207, 512#32)] }
      dist := { size := 512, cells := [(0, 384#32)] }
      align := { size := 16, cells := [(8, 256#32)] }
      lenMatch := { size := 4352, cells := [(0, 256#32), (3, 256#32)] }
      lenRep := { size := 4352, cells := [(0, 256#32)] } } }

theorem test_pricePosLen : answers (fun t => decide (t.x.r0 = 640#32))
      (exec .pricePosLen (withOps 0#32 2#32 0#32 0#32 pricedS)) = true ∧
    answers (fun t => decide (t.x.r0 = 1024#32))
      (exec .pricePosLen (withOps 200#32 5#32 0#32 0#32 pricedS)) = true := by decide +kernel

theorem test_priceRep : answers (fun t => decide (t.x.r0 = 384#32))
      (exec .priceRep (withOps 0#32 2#32 0#32 0#32 pricedS)) = true ∧
    answers (fun t => decide (t.x.r0 = 448#32))
      (exec .priceRep (withOps 3#32 2#32 0#32 0#32 pricedS)) = true := by decide +kernel

theorem test_priceShortRep : answers (fun t => decide (t.x.r0 = 128#32)) (exec .priceShortRep encS) = true := by
  decide +kernel

/-! ## Encoder: the examples of R470, R490, R491, R493 and R497 -/

/-- After RESET, on input "A"; and the distance prices of R451. -/
theorem test_encStart : answers (fun t => decide (t.status.phase = .enc) && decide (t.derived.probCount = 7990#32) &&
      decide (t.mf.cbs = 0x400001#32) && decide (t.mf.hashMask = 0x1FFFFF#32) && decide (t.enc.distTableSize = 44#32) &&
      decide (t.enc.lenTableSize = 31#32) && decide (t.win.pos = 1#32) && decide (t.win.streamPos = 2#32) &&
      decide (t.rce.range = 0xFFFFFFFF#32) && decide (t.price.posSlot.get 0 = 384#32) &&
      decide (t.price.posSlot.get 207 = 512#32) && decide (t.price.dist.get 0 = 384#32))
    (exec .encStart { State.reset with host := { HostSide.reset with src := [0x41] } }) = true := by decide +kernel

theorem test_hdrWrite : answers (fun t => decide (t.host.sink.reverse = [0x5D, 0x00, 0x00, 0x40, 0x00]))
      (exec .hdrWrite encS) = true ∧
    answers (fun t => decide (t.host.sink.reverse = [0x12, 0x00, 0x00, 0x01, 0x00]))
      (exec .hdrWrite { encS with opts := { encS.opts with lc := 0#4, lp := 2#3, pb := 0#3, dictSize := 0x10000#32 } }) = true := by
  decide +kernel

/-- Input "A": one ENC_STEP codes it and ends the stream. -/
theorem test_encStep : answers (fun t => decide (t.x.r0 = 1#32) && decide (t.x.r1 = 0xFFFFFFFF#32) &&
      decide (t.status.phase = .done) && decide (t.host.sink.reverse = [0x00, 0x20, 0x7F, 0xFC, 0x00, 0x00]))
    (exec .encStep (encStream [0x41] 1#32)) = true := by decide +kernel

theorem test_encRun : answers (fun t => decide (t.x.r0 = 0#32) &&
      decide (t.status.phase = .done) && decide (t.host.sink.reverse = [0x00, 0x20, 0x7F, 0xFC, 0x00, 0x00]))
    (exec .encRun (encStream [0x41] 1#32)) = true := by decide +kernel

/-- The literal "A", the match finder one byte ahead of NOW_POS. -/
theorem test_encSymbol : answers (fun t => decide (t.enc.prevByte = 0x41#8) && decide (t.enc.addOffset = 0#32) &&
      decide (t.host.sink.reverse = [0x00, 0x20, 0x7F, 0xFC, 0x00, 0x00]))
    (andThen (exec .encSymbol (withOps 1#32 0xFFFFFFFF#32 0#32 0#32
      { encStream [0x41] 2#32 with enc := { encS.enc with addOffset := 1#32 } })) .encFinish) = true := by decide +kernel

/-- R493: the end marker only. -/
theorem test_encFinish : answers (fun t => decide (t.host.sink.reverse =
      [0x00, 0x83, 0xFF, 0xFB, 0xFF, 0xFF, 0xC0, 0x00, 0x00, 0x00]) && decide (t.status.phase = .done))
    (exec .encFinish { encStream [0x41] 1#32 with opts := { encS.opts with endMark := 1#1 } }) = true := by decide +kernel

/-! ## Decoder: the examples of R520, R524, R530, R531 and R540 to R542 -/

/-- A decoder before its stream, with bytes ready. -/
def beforeDec (src : List Byte) : State :=
  { State.reset with host := { HostSide.reset with src := src }, opts := { Options.reset with mode := 1#1 } }

theorem test_hdrRead : answers (fun t => decide (t.opts.lc = 0#4) && decide (t.opts.lp = 2#3) && decide (t.opts.pb = 0#3) &&
      decide (t.opts.dictSize = 0x10000#32) && t.status.hdrOk && decide (t.cnt.inCount = 5#64))
    (exec .hdrRead (beforeDec [0x12, 0x00, 0x00, 0x01, 0x00])) = true := by decide +kernel

theorem test_hdrRead_invalid : answers (fun t => decide (t.status.err = .headerInvalid))
    (exec .hdrRead (beforeDec [0xE1, 0x00, 0x00, 0x40, 0x00])) = true := by decide +kernel

theorem test_decStart : answers (fun t => decide (t.status.phase = .dec) && decide (t.rcd.range = 0xFFFFFFFF#32) &&
      decide (t.rcd.code = 0x309888A7#32) && decide (t.ow.dictSizeCheck = 0x400000#32) && decide (t.ow.size = 0x400000#32))
    (exec .decStart (beforeDec [0x00, 0x30, 0x98, 0x88, 0xA7, 0xEA, 0x25, 0x00, 0x00])) = true := by decide +kernel

/-- The payload of R490, decoded back. -/
theorem test_decStep : answers (fun t => decide (t.x.r0 = 0#32) && decide (t.x.r1 = 1#32) && decide (t.host.sink = [0x41]))
    (exec .decStep (decStream 0x207FFC00#32 [0#8])) = true := by decide +kernel

/-- R531: the whole stream of "abcabcabcabc" with its end marker. -/
theorem test_decRun : answers (fun t => decide (t.host.sink.reverse = abc) && t.status.endSeen &&
      decide (t.status.phase = .done) && decide (t.cstate = 10#4) &&
      decide (t.rep.list = [0xFFFFFFFF#32, 2#32, 0#32, 0#32]))
    (exec .decRun (decStream 0x309888A7#32 [0xEB, 0x62, 0x81, 0xA3, 0xFF, 0xFF, 0x61, 0x64, 0x00, 0x00])) = true := by
  decide +kernel

/-- The decoder after two OW_PUTBYTEs, 0x61 and 0x62. -/
def twoBytes : State :=
  { decS with
    owbuf := { size := 0x400000, cells := [(0, 0x61#8), (1, 0x62#8)] }, ow := { decS.ow with pos := 2#32 }
    cnt := { decS.cnt with nowPos := 2#64 } }

theorem test_owGetByte : answers (fun t => decide (t.x.r0 = 0x62#32)) (exec .owGetByte twoBytes) = true ∧
    answers (fun t => decide (t.x.r0 = 0#32)) (exec .owGetByte (withOps 2#32 0#32 0#32 0#32 twoBytes)) = true := by
  decide +kernel

theorem test_owPutByte : answers (fun t => decide (t.host.sink = [0x41]) && decide (t.cnt.nowPos = 1#64) &&
      decide (t.ow.pos = 1#32)) (exec .owPutByte (withOps 0x41#32 0#32 0#32 0#32 decS)) = true := by decide +kernel

theorem test_owCopy : answers (fun t => decide (t.host.sink.reverse = [0x61, 0x62, 0x61, 0x62, 0x61]) &&
      decide (t.cnt.nowPos = 7#64)) (exec .owCopy (withOps 1#32 5#32 0#32 0#32 twoBytes)) = true := by decide +kernel

/-! ## The step -/

/-- A presented command runs, with its operands latched (R140, R142); an illegal word faults (R146). -/
theorem test_step : answers (fun t => decide (t.x.r0 = 0x4C5A3737#32)) (step (State.reset.withFetchWord 32 2)) = true ∧
    answers (fun t => decide (t.status.err = .illegalCmd)) (step (State.reset.withFetchWord 32 6)) = true := by
  decide +kernel

/-- From reset with nothing presented the engine waits for the host (R650; log entry 3). -/
theorem test_step_waits : step State.reset = .fault .noCommand := rfl

/-! ## Witnesses: for every obligation with hypotheses, a state and operands that meet them together, each clause at a
boundary of its range -/

/-- A transaction with no operands. -/
def bare (w : Word) : Transaction := { word := w, a0 := 0#32, a1 := 0#32, a2 := 0#32, a3 := 0#32 }

/-- A state with one command presented. -/
def withPort (t : Transaction) (s : State) : State := { s with host := { s.host with port := [t] } }

/-- A state in which an error is recorded. -/
def withErr (e : ErrCode) (s : State) : State := { s with status := { s.status with err := e } }

/-- An encoder state in which a command is ready. -/
theorem encReady {i : Instr} {s : State} (h : EncShape s) (he : s.status.err = .none) (hw : i.wellFormed = true)
    (hg : (gateOf i).accepts s) (ho : operandsLegal i s) (hr : s.host.sinkRoom = none) : Ready i s :=
  ⟨encInv h, ⟨he, hw, hg, ho⟩, hr⟩

theorem witness_encInv : Inv encS := encInv (by decide +kernel)
theorem witness_decInv : Inv decS := decInv (by decide +kernel)

theorem witness_DecodeOfEncode : (Instr.btEnc 8#5).wellFormed = true ∧ (Instr.rceDirect 31#5).wellFormed = true ∧
    (Instr.priceBit true true).wellFormed = true := by decide

theorem witness_EncodeOfDecode : decode 0x0001F021#32 = .ok (.rceDirect 31#5) := by decide

theorem witness_DecodesByTheTable :
    (∃ i, decode 0x00008030#32 = .ok i ∧ mnemonicOf i = "BT_ENC") ∧
    (⟨"BT_ENC", 0x00000030#32, 0xFFFE0FFF#32, 1, 8⟩ : OpRow) ∈ opcodeRows ∧
    (⟨"BT_ENC", 0x00000030#32, 0xFFFE0FFF#32, 1, 8⟩ : OpRow).matches 0x00008030#32 := by
  refine ⟨⟨.btEnc 8#5, by decide, by decide⟩, by decide, ?_⟩
  unfold OpRow.matches
  decide

theorem witness_StepRunsTheCommand :
    (withPort (bare 0x6030#32) encS).host.port = [bare 0x6030#32] ∧ decode (bare 0x6030#32).word = .ok (.btEnc 6#5) ∧
    State.reset.host.port = [] := ⟨rfl, by decide, rfl⟩

theorem witness_IllegalWords :
    (withPort (bare 0x6#32) State.reset).host.port = [bare 0x6#32] ∧ decode (bare 0x6#32).word = .error .unassignedOpc ∧
    State.reset.status.err = .none ∧ (Instr.btEnc 9#5).wellFormed = false := ⟨rfl, by decide, rfl, by decide⟩

theorem witness_StickyError :
    (withErr .bounds encS).status.err ≠ .none ∧ Instr.encRun ≠ .nop ∧ Instr.encRun ≠ .reset ∧ Instr.encRun ≠ .regRead ∧
    (withPort (bare 0x6#32) (withErr .bounds encS)).host.port = [bare 0x6#32] ∧
    ((withOps 0x27#32 0#32 0#32 0#32 (withErr .bounds encS)).x.a0.toNat, 0) ∈
      registerRows (withOps 0x27#32 0#32 0#32 0#32 (withErr .bounds encS)) ∧
    (∀ v, ((withOps 0x28#32 0#32 0#32 0#32 (withErr .bounds encS)).x.a0.toNat, v) ∉
      registerRows (withOps 0x28#32 0#32 0#32 0#32 (withErr .bounds encS))) := by
  refine ⟨by decide, by decide, by decide, by decide, rfl, by decide +kernel, fun v h => ?_⟩
  simp [registerRows, optionRows, readOnlyRows, withOps] at h

theorem witness_ChecksInOrder :
    (State.reset.status.err = .none ∧ Instr.encRun.wellFormed = true ∧
      ¬ (gateOf .encRun).accepts { State.reset with status := { Status.reset with phase := .done } } ∧
      (gateOf .encRun).isNoOp { State.reset with status := { Status.reset with phase := .done } }) ∧
    (¬ (gateOf .encRun).accepts State.reset ∧ ¬ (gateOf .encRun).isNoOp State.reset) ∧
    ((gateOf .probRead).accepts encS ∧ ¬ operandsLegal .probRead (withOps 7990#32 0#32 0#32 0#32 encS)) := by
  simp only [gateOf, Gate.accepts, Gate.isNoOp, operandsLegal]
  decide +kernel

theorem witness_FaultsReturnZero : encS.status.err = .none ∧
    ∃ t, exec .probRead (withOps 7990#32 0#32 0#32 0#32 encS) = .next t ∧ t.status.err ≠ .none := by
  refine ⟨rfl, ?_⟩
  obtain ⟨t, h, ht⟩ := answers_next (P := fun t => decide (t.status.err ≠ .none))
    (o := exec .probRead (withOps 7990#32 0#32 0#32 0#32 encS)) (by decide +kernel)
  exact ⟨t, h, of_decide_eq_true ht⟩

theorem witness_StepKeepsInv : Inv (withPort (bare 0x20020#32) encS) ∧ ∃ t, step (withPort (bare 0x20020#32) encS) = .next t := by
  refine ⟨encInv (by decide +kernel), ?_⟩
  obtain ⟨t, h, -⟩ := answers_next (P := fun _ => true) (o := step (withPort (bare 0x20020#32) encS)) (by decide +kernel)
  exact ⟨t, h⟩

/-- A command that changes an option, and one that changes the phase. -/
theorem witness_OperandsAndOptionsKept : ∃ t, exec .regWrite (withOps 2#32 1#32 0#32 0#32 State.reset) = .next t ∧
    t.opts ≠ State.reset.opts := by
  obtain ⟨t, h, ht⟩ := answers_next (P := fun t => decide (t.opts ≠ State.reset.opts))
    (o := exec .regWrite (withOps 2#32 1#32 0#32 0#32 State.reset)) (by decide +kernel)
  exact ⟨t, h, of_decide_eq_true ht⟩

theorem witness_PhaseChanges : ∃ t, exec .encFinish encS = .next t ∧ t.status.phase ≠ encS.status.phase := by
  obtain ⟨t, h, ht⟩ := answers_next (P := fun t => decide (t.status.phase ≠ encS.status.phase))
    (o := exec .encFinish encS) (by decide +kernel)
  exact ⟨t, h, of_decide_eq_true ht⟩

theorem witness_StreamAccounting :
    (∃ t, exec .encFinish encS = .next t ∧ t.host.sink ≠ encS.host.sink) ∧
    ∃ t, exec (.rcdDirect 31#5) decS = .next t ∧ t.host.src ≠ decS.host.src := by
  obtain ⟨t, h, ht⟩ := answers_next (P := fun t => decide (t.host.sink ≠ encS.host.sink))
    (o := exec .encFinish encS) (by decide +kernel)
  obtain ⟨u, g, hu⟩ := answers_next (P := fun t => decide (t.host.src ≠ decS.host.src))
    (o := exec (.rcdDirect 31#5) decS) (by decide +kernel)
  exact ⟨⟨t, h, of_decide_eq_true ht⟩, u, g, of_decide_eq_true hu⟩

/-- Five bytes written, with room for five and for four. -/
theorem witness_SinkBackPressure : encS.host.sinkRoom = none ∧
    ∃ t, exec .encFinish encS = .next t ∧ t.host.sink.length ≤ encS.host.sink.length + 5 ∧
      ¬ t.host.sink.length ≤ encS.host.sink.length + 4 := by
  refine ⟨rfl, ?_⟩
  obtain ⟨t, h, ht⟩ := answers_next (P := fun t => decide (t.host.sink.length = 5)) (o := exec .encFinish encS) (by decide +kernel)
  have e : encS.host.sink.length = 0 := rfl
  have := of_decide_eq_true ht
  exact ⟨t, h, by omega, by omega⟩

theorem witness_ReadOnlyCommands : isReadOnly .posSlot = true ∧ isReadOnly (.stChar false) = true := by decide

theorem witness_CoderFrame :
    (codesBits .distEnc = true ∧ ∃ t, exec .distEnc (withOps 5#32 3#32 0#32 0#32 encS) = .next t) ∧
    readsBits .distDec = true ∧ ∃ t, exec .distDec (withOps 0#32 3#32 0#32 0#32 decS) = .next t := by
  obtain ⟨t, h, -⟩ := answers_next (P := fun _ => true) (o := exec .distEnc (withOps 5#32 3#32 0#32 0#32 encS)) (by decide +kernel)
  obtain ⟨u, g, -⟩ := answers_next (P := fun _ => true) (o := exec .distDec (withOps 0#32 3#32 0#32 0#32 decS)) (by decide +kernel)
  exact ⟨⟨by decide, t, h⟩, by decide, u, g⟩

theorem witness_FinderFrame :
    (∃ t, exec .mfMovePos encS = .next t) ∧ (∃ t, exec .mfSkip (withOps 1#32 0#32 0#32 0#32 encS) = .next t) ∧
    (∃ t, exec .mfGetMatches encS = .next t) ∧ (∃ t, exec .optGetOptimum pendingS = .next t) ∧
    encS.win.pos.toNat ≠ encS.mf.cbs.toNat := by
  obtain ⟨t, h, -⟩ := answers_next (P := fun _ => true) (o := exec .mfMovePos encS) (by decide +kernel)
  obtain ⟨u, g, -⟩ := answers_next (P := fun _ => true) (o := exec .mfSkip (withOps 1#32 0#32 0#32 0#32 encS)) (by decide +kernel)
  obtain ⟨v, k, -⟩ := answers_next (P := fun _ => true) (o := exec .mfGetMatches encS) (by decide +kernel)
  obtain ⟨w, l, -⟩ := answers_next (P := fun _ => true) (o := exec .optGetOptimum pendingS) (by decide +kernel)
  exact ⟨⟨t, h⟩, ⟨u, g⟩, ⟨v, k⟩, ⟨w, l⟩, by decide⟩

theorem witness_StreamFrame :
    (∃ t, exec .hdrWrite encS = .next t) ∧ (∃ t, exec .encStep encS = .next t) ∧ (∃ t, exec .encFinish encS = .next t) ∧
    (∃ t, exec .decStep decS = .next t) ∧ ∃ t, exec .owPutByte decS = .next t := by
  obtain ⟨t, h, -⟩ := answers_next (P := fun _ => true) (o := exec .hdrWrite encS) (by decide +kernel)
  obtain ⟨u, g, -⟩ := answers_next (P := fun _ => true) (o := exec .encStep encS) (by decide +kernel)
  obtain ⟨v, k, -⟩ := answers_next (P := fun _ => true) (o := exec .encFinish encS) (by decide +kernel)
  obtain ⟨w, l, -⟩ := answers_next (P := fun _ => true) (o := exec .decStep decS) (by decide +kernel)
  obtain ⟨x, m, -⟩ := answers_next (P := fun _ => true) (o := exec .owPutByte decS) (by decide +kernel)
  exact ⟨⟨t, h⟩, ⟨u, g⟩, ⟨v, k⟩, ⟨w, l⟩, x, m⟩

theorem witness_DecoderIgnoresEncoder : gateOf .decStep = .runD ∧ gateOf .litDec = .dec := ⟨rfl, rfl⟩

/-- The lowest and the highest register, and the first number past them (R60). -/
theorem witness_RegRead :
    (0x00, 0x4C5A3737) ∈ registerRows State.reset ∧ (0x27, 0) ∈ registerRows State.reset ∧
    State.reset.status.err = .none ∧
    (∀ v, ((withOps 0x28#32 0#32 0#32 0#32 State.reset).x.a0.toNat, v) ∉ registerRows State.reset) ∧
    (∀ v, ((withOps 256#32 0#32 0#32 0#32 State.reset).x.a0.toNat, v) ∉ registerRows State.reset) := by
  refine ⟨by decide +kernel, by decide +kernel, rfl, fun v h => ?_, fun v h => ?_⟩ <;>
    simp [registerRows, optionRows, readOnlyRows, withOps] at h

theorem witness_RegWrite :
    State.reset.status.err = .none ∧ (0x01, 1) ∈ optionWidths ∧ (0x0B, 1) ∈ optionWidths ∧
    State.reset.status.phase = .idle ∧ encS.status.phase = .enc ∧
    (∀ w, ((withOps 0x0C#32 0#32 0#32 0#32 State.reset).x.a0.toNat, w) ∉ optionWidths) := by
  refine ⟨rfl, by decide, by decide, rfl, rfl, fun v h => ?_⟩
  simp [optionWidths, withOps] at h

theorem witness_ReadCommands :
    Runnable .probRead (withOps 7989#32 0#32 0#32 0#32 encS) ∧ Runnable .matchRead (withOps 547#32 0#32 0#32 0#32 encS) ∧
    Runnable .wbGetByte encS ∧ Runnable .wbAvail encS ∧ Runnable .mfHash encS := by
  simp only [Runnable, gateOf, Gate.accepts, operandsLegal, windowIndex]
  decide +kernel

/-- Six equal bytes three positions on, cut by the limit; and a limit past the window's end. -/
theorem witness_MatchLength :
    Runnable .wbMatchLen (withOps 3#32 2#32 6#32 0#32 encS) ∧
    (∀ k < 6, encS.wbuf.get (3 + k) = encS.wbuf.get k) ∧
    (encS.wbuf.get 1 ≠ encS.wbuf.get 0) ∧
    ¬ (withOps 0#32 0#32 1#32 0#32 encS).win.bufOffset + (withOps 0#32 0#32 1#32 0#32 encS).win.pos - 1#32 <
      (withOps 0#32 0#32 1#32 0#32 encS).win.blockSize := by
  simp only [Runnable, gateOf, Gate.accepts, operandsLegal]
  decide +kernel

/-- A window filled to its end, its refill due with the next position. -/
def fullWindow : State :=
  { encS with
    status := { encS.status with srcEof := false }
    win := { encS.win with pos := 6298010#32, streamPos := 6298316#32, posLimit := 6298010#32, streamEnd := false } }

/-- Positions a little below the rebasing point, WBUF index 8 at position 0x7FFFFFFE. -/
def highWindow : State :=
  { encS with win := { encS.win with bufOffset := 0x8000000A#32, pos := 0x7FFFFFFE#32, streamPos := 0x80000003#32,
                                     posLimit := 0x80000003#32 } }

theorem inside_of {s : State} (h : ∀ p : Nat, 1 ≤ p → p < s.win.streamPos.toNat →
    (s.win.bufOffset.toNat + p) % 2 ^ 32 < s.win.blockSize.toNat) (p : Word) (h1 : 1 ≤ p.toNat)
    (h2 : p.toNat < s.win.streamPos.toNat) : (s.win.bufOffset + p).toNat < s.win.blockSize.toNat := by
  rw [BitVec.toNat_add]; exact h p.toNat h1 h2

theorem windowOk_encS : WindowOk encS where
  filled := by decide +kernel
  ahead := by decide +kernel
  inside := fun p h1 _ h3 => inside_of (s := encS) (fun p h1 h2 => by
    have e1 : encS.win.streamPos.toNat = 13 := rfl
    have e2 : encS.win.bufOffset.toNat = 0xFFFFFFFF := rfl
    have e3 : encS.win.blockSize.toNat = 6298315 := rfl
    omega) p h1 h3
  lookAhead := fun h => by cases h
  limit := fun h => by cases h
  below := by decide +kernel

theorem windowOk_full : WindowOk fullWindow where
  filled := by decide +kernel
  ahead := by decide +kernel
  inside := fun p h1 _ h3 => inside_of (s := fullWindow) (fun p h1 h2 => by
    have e1 : fullWindow.win.streamPos.toNat = 6298316 := rfl
    have e2 : fullWindow.win.bufOffset.toNat = 0xFFFFFFFF := rfl
    have e3 : fullWindow.win.blockSize.toNat = 6298315 := rfl
    omega) p h1 h3
  lookAhead := fun _ => by decide +kernel
  limit := fun _ => by decide +kernel
  below := by decide +kernel

theorem witness_WindowFaithful :
    (Inv encS ∧ Runnable .mfMovePos encS ∧ WindowOk encS ∧ RefillReady encS ∧ encS.win.pos.toNat < encS.win.streamPos.toNat) ∧
    Inv fullWindow ∧ Runnable .mfMovePos fullWindow ∧ WindowOk fullWindow ∧ RefillReady fullWindow ∧
      fullWindow.win.pos.toNat < fullWindow.win.streamPos.toNat ∧ FinderOk fullWindow := by
  refine ⟨⟨encInv (by decide +kernel), ?_, windowOk_encS, .inl rfl, by decide +kernel⟩,
    encInv (by decide +kernel), ?_, windowOk_full, .inr (.inr (.inl rfl)), by decide +kernel,
    finderOk_fresh (by decide +kernel) rfl fun _ => rfl⟩ <;>
    exact ⟨rfl, rfl, rfl, trivial⟩

theorem witness_MovesAndRebases :
    (Runnable .mfMovePos encS ∧ MovesInside encS) ∧
    Inv highWindow ∧ Runnable .mfMovePos highWindow ∧ highWindow.win.pos + 1#32 = 0x7FFFFFFF#32 ∧
      (highWindow.win.pos + 1#32).toNat ≤ highWindow.win.posLimit.toNat := by
  refine ⟨⟨⟨rfl, rfl, rfl, trivial⟩, ?_⟩, encInv (by decide +kernel), ⟨rfl, rfl, rfl, trivial⟩, by decide +kernel, by decide +kernel⟩
  unfold MovesInside
  decide +kernel

/-- Three bytes from the end (R252: fewer than minMatchCheck). -/
def nearEndS : State := encStream abc 10#32

theorem witness_SearchWithoutMatch :
    (Runnable .mfGetMatches nearEndS ∧ MovesInside nearEndS ∧ NearEnd nearEndS) ∧
    (Inv encS ∧ Runnable .mfGetMatches encS ∧ MovesInside encS ∧ ¬ NearEnd encS ∧ SearchReadable encS ∧ NoCandidate encS) ∧
    (Runnable .mfSkip encS ∧ encS.x.a0 = 0#32) ∧
    (Runnable .mfSkip (withOps 1#32 0#32 0#32 0#32 nearEndS) ∧ MovesInside (withOps 1#32 0#32 0#32 0#32 nearEndS) ∧
      NearEnd (withOps 1#32 0#32 0#32 0#32 nearEndS)) ∧
    Inv (withOps 1#32 0#32 0#32 0#32 encS) ∧ Runnable .mfSkip (withOps 1#32 0#32 0#32 0#32 encS) ∧
      NoCandidate (withOps 1#32 0#32 0#32 0#32 encS) := by
  refine ⟨⟨⟨rfl, rfl, rfl, trivial⟩, ?_, ?_⟩, ⟨witness_encInv, ⟨rfl, rfl, rfl, trivial⟩, ?_, ?_, ?_, ?_⟩,
    ⟨⟨rfl, rfl, rfl, trivial⟩, rfl⟩, ⟨⟨rfl, rfl, rfl, trivial⟩, ?_, ?_⟩, encInv (by decide +kernel),
    ⟨rfl, rfl, rfl, trivial⟩, ?_⟩ <;>
  first
    | (unfold MovesInside; decide +kernel)
    | (unfold NearEnd; decide +kernel)
    | (unfold SearchReadable windowIndex; decide +kernel)
    | (unfold NoCandidate; decide +kernel)

theorem witness_SkipBuildsTheSameTree :
    Inv encS ∧ (∃ t, exec .mfGetMatches encS = .next t ∧ t.status.err = .none) ∧
    ∃ t, exec .mfSkip (withOps 1#32 0#32 0#32 0#32 encS) = .next t ∧ t.status.err = .none ∧
      ∃ u, exec .mfSkip (withOps 2#32 0#32 0#32 0#32 t) = .next u := by
  refine ⟨witness_encInv, ?_, ?_⟩
  · obtain ⟨t, h, ht⟩ := answers_next (P := fun t => decide (t.status.err = .none)) (o := exec .mfGetMatches encS) (by decide +kernel)
    exact ⟨t, h, of_decide_eq_true ht⟩
  · obtain ⟨t, h, ht⟩ := answers_next
      (P := fun t => decide (t.status.err = .none) && answers (fun _ => true) (exec .mfSkip (withOps 2#32 0#32 0#32 0#32 t)))
      (o := exec .mfSkip (withOps 1#32 0#32 0#32 0#32 encS)) (by decide +kernel)
    rw [Bool.and_eq_true] at ht
    obtain ⟨u, g, -⟩ := answers_next ht.2
    exact ⟨t, h, of_decide_eq_true ht.1, u, g⟩

/-- "abcabcabcabc" at position 4 with position 1 inserted, as MF_SKIP 1 and two MF_MOVEPOS leave it (the hashes of "abca"
are those of R263's example), so that the search finds the match of R260's example. -/
def foundS : State :=
  { encStream abc 4#32 with
    mf := { encS.mf with cycPos := 3#32 }
    hash := { size := 2163712, cells := [(0x1AC, 1#32), (1024 + 0x32AC, 1#32), (66560 + 0x1F0B6C, 1#32)] } }

theorem windowOk_foundS : WindowOk foundS where
  filled := by decide +kernel
  ahead := by decide +kernel
  inside := fun p h1 _ h3 => inside_of (s := foundS) (fun p h1 h2 => by
    have e1 : foundS.win.streamPos.toNat = 13 := rfl
    have e2 : foundS.win.bufOffset.toNat = 0xFFFFFFFF := rfl
    have e3 : foundS.win.blockSize.toNat = 6298315 := rfl
    omega) p h1 h3
  lookAhead := fun h => by cases h
  limit := fun h => by cases h
  below := by decide +kernel

theorem finderOk_foundS : FinderOk foundS :=
  finderOk_of_cells (by decide +kernel) (by unfold HashCellOk; decide +kernel) fun _ => rfl

/-- R260: the fourth search of "abcabcabcabc" reports (9, 2). -/
theorem test_foundS : answers (fun t => decide (t.x.r0 = 2#32) && decide (t.x.r1 = 9#32) &&
    decide (t.matchBuf.get 0 = 9#32) && decide (t.matchBuf.get 1 = 2#32)) (exec .mfGetMatches foundS) = true := by
  decide +kernel

/-- A search that finds nothing and one that finds a match. -/
theorem witness_MatchesRise :
    (Inv encS ∧ WindowOk encS ∧ FinderOk encS ∧ encS.status.err = .none ∧
      ∃ t, exec .mfGetMatches encS = .next t ∧ t.status.err = .none) ∧
    (Inv foundS ∧ WindowOk foundS ∧ FinderOk foundS ∧ foundS.status.err = .none ∧
      ∃ t, exec .mfGetMatches foundS = .next t ∧ t.status.err = .none ∧ t.x.r0 = 2#32) ∧
    Runnable .mfGetMatches foundS ∧ RefillReady foundS ∧ foundS.win.pos.toNat < foundS.win.streamPos.toNat := by
  obtain ⟨t, h, ht⟩ := answers_next (P := fun t => decide (t.status.err = .none)) (o := exec .mfGetMatches encS) (by decide +kernel)
  obtain ⟨u, g, hu⟩ := answers_next (P := fun t => decide (t.status.err = .none ∧ t.x.r0 = 2#32))
    (o := exec .mfGetMatches foundS) (by decide +kernel)
  exact ⟨⟨witness_encInv, windowOk_encS, finderOk_fresh (by decide +kernel) rfl fun _ => rfl, rfl, t, h, of_decide_eq_true ht⟩,
    ⟨encInv (by decide +kernel), windowOk_foundS, finderOk_foundS, rfl, u, g, of_decide_eq_true hu⟩,
    ⟨rfl, rfl, rfl, trivial⟩, .inl rfl, by decide +kernel⟩

theorem witness_BitEncoders :
    Ready (.rceBit true) (withOps 7989#32 0#32 0#32 0#32 encS) ∧ Ready (.rceDirect 31#5) encS ∧
    Ready (.btEnc 8#5) (withOps 7734#32 255#32 0#32 0#32 encS) ∧ Ready (.btRevEnc 1#5) (withOps 7988#32 1#32 0#32 0#32 encS) := by
  refine ⟨encReady (by decide +kernel) rfl rfl rfl ?_ rfl, encReady (by decide +kernel) rfl rfl rfl ?_ rfl,
    encReady (by decide +kernel) rfl rfl rfl ?_ rfl, encReady (by decide +kernel) rfl rfl rfl ?_ rfl⟩ <;>
    (simp only [operandsLegal]; try decide +kernel)

theorem witness_BitDecoders :
    (Inv decS ∧ Runnable .rcdBit decS ∧ Fed 1 decS) ∧ (Runnable (.rcdDirect 31#5) decS ∧ Fed 31 decS) ∧
    (Runnable (.btDec 8#5) decS ∧ Fed 8 decS) ∧ Runnable (.btRevDec 1#5) decS ∧ Fed 1 decS := by
  refine ⟨⟨witness_decInv, ?_⟩, ?_⟩ <;> simp only [Runnable, gateOf, Gate.accepts, operandsLegal, Fed] <;> decide +kernel

/-- No byte ready: with a range that needs none, and with one that needs one, at the end of the data and before it. -/
def dryS (range : Word) (atEnd : Bool) : State :=
  { decStream 0#32 [] with
    rcd := { range := range, code := 0#32 }, host := { (decStream 0#32 []).host with srcEnd := atEnd } }

theorem witness_RangeDecoderWithoutBytes :
    (Inv (dryS 0xFFFFFFFF#32 true) ∧ Runnable .rcdBit (dryS 0xFFFFFFFF#32 true) ∧ (dryS 0xFFFFFFFF#32 true).host.src = [] ∧
      agrees (results 0#32 0#32 (dryS 0xFFFFFFFF#32 true)) (.model 0#32 false) ∧
      2 ^ 24 ≤ (bitTaken (results 0#32 0#32 (dryS 0xFFFFFFFF#32 true)) (.model 0#32 false)).rcd.range.toNat) ∧
    (Inv (dryS 0x1000000#32 true) ∧ Runnable .rcdBit (dryS 0x1000000#32 true) ∧
      agrees (results 0#32 0#32 (dryS 0x1000000#32 true)) (.model 0#32 false) ∧
      (bitTaken (results 0#32 0#32 (dryS 0x1000000#32 true)) (.model 0#32 false)).rcd.range.toNat < 2 ^ 24 ∧
      (dryS 0x1000000#32 true).host.srcEnd = true) ∧
    Inv (dryS 0x1000000#32 false) ∧ Runnable .rcdBit (dryS 0x1000000#32 false) ∧
      agrees (results 0#32 0#32 (dryS 0x1000000#32 false)) (.model 0#32 false) ∧
      (dryS 0x1000000#32 false).host.srcEnd = false ∧ (dryS 0x1000000#32 false).status.srcEof = false := by
  refine ⟨⟨decInv (by decide +kernel), ?_⟩, ⟨decInv (by decide +kernel), ?_⟩, decInv (by decide +kernel), ?_⟩ <;>
    simp only [Runnable, gateOf, Gate.accepts, operandsLegal, agrees] <;> decide +kernel

/-- A fresh encoder, a path of both kinds of bits, and a decoder started on what it writes. -/
theorem witness_CodedBitsDecodeBack :
    probsInRange encS = true ∧ encS.rce = { low := 0#33, range := 0xFFFFFFFF#32, cache := 0#8, cacheSize := 1#32 } ∧
    (flushed (codePath encS [.model 3#32 true, .direct true])).host.sink = [0xFF, 0xFD, 0xFF, 0xBF, 0x00] ∧
    (decStream 0xBFFFFDFF#32 []).prob = encS.prob ∧ (decStream 0xBFFFFDFF#32 []).rcd = { range := 0xFFFFFFFF#32, code := 0xBFFFFDFF#32 } := by
  decide +kernel

theorem witness_ProbabilityUpdate : 31 ≤ (31#11 : Prob).toNat ∧ (2017#11 : Prob).toNat ≤ 2017 := by decide

theorem witness_PriceTable : (0 : Nat) ≤ 8 ∧ 2 ^ (8 - 0) ≤ 511 ∧ 511 < 2 ^ (9 - 0) ∧ 2 ^ (8 - 8) ≤ 1 ∧ (2047#11 : Prob) ≠ 0#11 := by
  decide

theorem witness_Prices :
    Runnable (.priceBit false true) (withOps 7989#32 0#32 0#32 0#32 encS) ∧
    Runnable (.priceBit true true) (withOps 2047#32 0#32 0#32 0#32 State.reset) ∧
    Runnable (.btPrice 8#5) (withOps 7734#32 255#32 0#32 0#32 encS) ∧
    Runnable (.btRevPrice 1#5) (withOps 7988#32 1#32 0#32 0#32 encS) ∧
    Runnable (.litPrice false) (withOps 255#32 0#32 255#32 0#32 encS) ∧
    Runnable (.litPrice true) (withOps 255#32 0#32 255#32 255#32 encS) ∧
    Runnable (.lenPrice true) (withOps 271#32 3#32 0#32 0#32 encS) := by
  simp only [Runnable, gateOf, Gate.accepts, operandsLegal]
  decide +kernel

theorem witness_StateCommands :
    Runnable (.stChar false) (withOps 11#32 0#32 0#32 0#32 State.reset) ∧
    Runnable (.stShortRep true) { encS with cstate := 11#4 } ∧ ({ encS with cstate := 11#4 } : State).cstate.toNat ≤ 11 :=
  ⟨⟨rfl, rfl, trivial, .inr (by decide)⟩, ⟨rfl, rfl, .inl rfl, .inl rfl⟩, by decide⟩

theorem witness_RepCommands : Runnable .repUse (withOps 3#32 0#32 0#32 0#32 repsS) ∧ Runnable .repPush repsS := by
  simp only [Runnable, gateOf, Gate.accepts, operandsLegal]
  decide +kernel

theorem witness_PositionSlots : Runnable .posSlot (withOps 0xFFFFFFFF#32 0#32 0#32 0#32 State.reset) ∧ 0xFFFFFFFF < 2 ^ 32 := by
  simp only [Runnable, gateOf, Gate.accepts, operandsLegal]
  decide +kernel

theorem witness_SymbolEncoders :
    Ready .litEnc (withOps 255#32 0#32 255#32 0#32 encS) ∧ Ready .litEncM (withOps 255#32 0#32 255#32 255#32 encS) ∧
    Ready (.lenEnc true) (withOps 271#32 3#32 0#32 0#32 encS) ∧ Ready .distEnc (withOps 0xFFFFFFFF#32 273#32 0#32 0#32 encS) := by
  refine ⟨encReady (by decide +kernel) rfl rfl rfl ?_ rfl, encReady (by decide +kernel) rfl rfl rfl ?_ rfl,
    encReady (by decide +kernel) rfl rfl rfl ?_ rfl, encReady (by decide +kernel) rfl rfl rfl ?_ rfl⟩ <;>
    (simp only [operandsLegal]; decide +kernel)

theorem witness_SymbolDecoders :
    (Inv (withOps 0#32 3#32 255#32 255#32 decS) ∧ Runnable .litDec (withOps 0#32 3#32 255#32 255#32 decS) ∧
      Fed 8 (withOps 0#32 3#32 255#32 255#32 decS)) ∧
    Runnable .litDecM (withOps 0#32 3#32 255#32 255#32 decS) ∧
    (Runnable (.lenDec true) (withOps 0#32 3#32 0#32 0#32 decS) ∧ Fed 10 (withOps 0#32 3#32 0#32 0#32 decS)) ∧
    Runnable .distDec (withOps 0#32 273#32 0#32 0#32 decS) ∧ Fed 36 (withOps 0#32 273#32 0#32 0#32 decS) := by
  refine ⟨⟨decInv (by decide +kernel), ?_⟩, ?_⟩ <;> simp only [Runnable, gateOf, Gate.accepts, operandsLegal, Fed] <;>
    decide +kernel

/-- The last byte of the input not yet passed, one byte before the end. -/
def lastByteS : State := encStream abc 12#32

/-- A new pass that uses a kept search: its longest length, and every rep at distance `d`. -/
def keptS (input : List Byte) (pos : Word) (len d : Word) : State :=
  { encStream input pos with
    rep := { d0 := d, d1 := d, d2 := d, d3 := d }
    enc := { encS.enc with longestFound := true, longestLen := len, longestPairs := 2#32, addOffset := 1#32 } }

/-- The state in which the pass of `keptS` looks for its first decision. -/
def begunS (input : List Byte) (pos : Word) (len d : Word) : State :=
  { keptS input pos len d with
    enc := { (keptS input pos len d).enc with optCur := 0#32, optEnd := 0#32, longestFound := false } }

/-- One byte, then forty of another. -/
def oneThenRun : List Byte := 0x62#8 :: List.replicate 40 0x61#8

/-- The four runs of equal reps. -/
theorem repRuns {s : State} {n : Nat} {d : Word} (h : RunsFor s 0xFFFFFFFF#32 d 273 n) (hr : s.rep = ⟨d, d, d, d⟩) :
    ∀ i < 4, RunsFor s 0xFFFFFFFF#32 (s.rep.list.getD i 0#32) 273 n := by
  intro i hi
  have : s.rep.list.getD i 0#32 = d := by
    rw [hr]
    match i, hi with
    | 0, _ | 1, _ | 2, _ | 3, _ => rfl
  rw [this]
  exact h

/-- A list pending, a pass with nothing left, and one on the last byte; the state of a pass begun with a kept search and with
a fresh one; a rep of 39 bytes, a kept match of 32, a lone literal, and a byte equal to the one at REP[0]. -/
theorem witness_PendingDecision :
    (Inv pendingS ∧ Runnable .optGetOptimum pendingS ∧ pendingS.enc.optEnd ≠ pendingS.enc.optCur ∧
      pendingS.enc.optCur.toNat < 4096) ∧
    (Runnable .optGetOptimum { encStream abc 13#32 with enc := { encS.enc with longestFound := true } } ∧
      (encStream abc 13#32).win.streamPos = (encStream abc 13#32).win.pos) ∧
    (Runnable .optGetOptimum lastByteS ∧ lastByteS.enc.optEnd = lastByteS.enc.optCur ∧ lastByteS.enc.longestFound = false ∧
      MovesInside lastByteS ∧ NearEnd lastByteS ∧ lastByteS.win.streamPos = lastByteS.win.pos + 1#32) ∧
    (∃ u, Inv foundS ∧ Runnable .optGetOptimum foundS ∧ foundS.enc.optEnd = foundS.enc.optCur ∧
      PassStart foundS u 9#32 2#32) ∧
    (∀ input pos len d, PassStart (keptS input pos len d) (begunS input pos len d) len 2#32) ∧
    (Inv (keptS oneThenRun 4#32 0#32 0#32) ∧ Runnable .optGetOptimum (keptS oneThenRun 4#32 0#32 0#32) ∧
      (keptS oneThenRun 4#32 0#32 0#32).enc.optEnd = (keptS oneThenRun 4#32 0#32 0#32).enc.optCur ∧
      (∀ i < 4, RunsFor (begunS oneThenRun 4#32 0#32 0#32) 0xFFFFFFFF#32
        ((begunS oneThenRun 4#32 0#32 0#32).rep.list.getD i 0#32) 273 39) ∧
      ∃ w, exec .mfSkip (withOps 38#32 0#32 0#32 0#32 (begunS oneThenRun 4#32 0#32 0#32)) = .next w ∧ w.status.err = .none) ∧
    (Inv (keptS oneThenRun 4#32 32#32 1#32) ∧
      (∀ i < 4, RunsFor (begunS oneThenRun 4#32 32#32 1#32) 0xFFFFFFFF#32
        ((begunS oneThenRun 4#32 32#32 1#32).rep.list.getD i 0#32) 273 0) ∧
      ∃ w, exec .mfSkip (withOps 31#32 0#32 0#32 0#32 (begunS oneThenRun 4#32 32#32 1#32)) = .next w ∧ w.status.err = .none) ∧
    (windowByte (begunS oneThenRun 4#32 0#32 1#32) 0xFFFFFFFF#32 ≠ windowByte (begunS oneThenRun 4#32 0#32 1#32) (0#32 - 1#32 - 2#32)) ∧
    (∀ i < 4, RunsFor (begunS [0x61, 0x62, 0x61, 0x63] 4#32 0#32 1#32) 0xFFFFFFFF#32
      ((begunS [0x61, 0x62, 0x61, 0x63] 4#32 0#32 1#32).rep.list.getD i 0#32) 273 1) ∧
    windowByte (begunS [0x61, 0x62, 0x61, 0x63] 4#32 0#32 1#32) 0xFFFFFFFF#32 =
      windowByte (begunS [0x61, 0x62, 0x61, 0x63] 4#32 0#32 1#32) (0#32 - 1#32 - 2#32) := by
  obtain ⟨m, g, hm⟩ := answers_next (P := fun t => decide (t.status.err = .none ∧ t.x.r0 = 2#32 ∧ t.x.r1 = 9#32))
    (o := exec .mfGetMatches foundS) (by decide +kernel)
  have hm := of_decide_eq_true hm
  obtain ⟨v, k, hv⟩ := answers_next (P := fun t => decide (t.status.err = .none))
    (o := exec .mfSkip (withOps 38#32 0#32 0#32 0#32 (begunS oneThenRun 4#32 0#32 0#32))) (by decide +kernel)
  obtain ⟨w, l, hw⟩ := answers_next (P := fun t => decide (t.status.err = .none))
    (o := exec .mfSkip (withOps 31#32 0#32 0#32 0#32 (begunS oneThenRun 4#32 32#32 1#32))) (by decide +kernel)
  refine ⟨⟨encInv (by decide +kernel), ⟨rfl, rfl, rfl, trivial⟩, by decide, by decide⟩, ⟨⟨rfl, rfl, rfl, trivial⟩, rfl⟩,
    ⟨⟨rfl, rfl, rfl, trivial⟩, rfl, rfl, ?_, ?_, rfl⟩,
    ⟨_, encInv (by decide +kernel), ⟨rfl, rfl, rfl, trivial⟩, rfl, .inr ⟨rfl, m, g, hm.1, hm.2.1.symm, rfl, ?_⟩⟩,
    fun _ _ _ _ => .inl ⟨rfl, rfl, rfl, rfl⟩,
    ⟨encInv (by decide +kernel), ⟨rfl, rfl, rfl, trivial⟩, rfl, repRuns ?_ rfl, v, k, of_decide_eq_true hv⟩,
    ⟨encInv (by decide +kernel), repRuns ?_ rfl, w, l, of_decide_eq_true hw⟩, by decide +kernel, repRuns ?_ rfl, by decide +kernel⟩
  · unfold MovesInside; decide +kernel
  · unfold NearEnd; decide +kernel
  · rw [hm.2.2, if_neg (by decide)]
  all_goals unfold RunsFor; decide +kernel

theorem witness_PriceRefreshes :
    Inv encS ∧ Runnable .priceFillDist encS ∧ Runnable .priceFillAlign encS ∧
    Inv (withOps 3#32 0#32 0#32 0#32 encS) ∧ Runnable (.priceLenTable true) (withOps 3#32 0#32 0#32 0#32 encS) := by
  refine ⟨witness_encInv, ⟨rfl, rfl, rfl, trivial⟩, ⟨rfl, rfl, rfl, trivial⟩, encInv (by decide +kernel), rfl, rfl, rfl, ?_⟩
  simp only [operandsLegal]
  decide +kernel

theorem witness_TablePrices :
    Inv (withOps 127#32 2#32 3#32 3#32 encS) ∧ Runnable .pricePosLen (withOps 127#32 2#32 3#32 0#32 encS) ∧
    Runnable .pricePosLen (withOps 128#32 273#32 3#32 0#32 encS) ∧
    Runnable .priceRep (withOps 3#32 273#32 11#32 3#32 encS) ∧ Runnable .priceShortRep (withOps 11#32 3#32 0#32 0#32 encS) := by
  refine ⟨encInv (by decide +kernel), ?_⟩
  simp only [Runnable, gateOf, Gate.accepts, operandsLegal]
  decide +kernel

theorem witness_EncStartChecksOptions :
    State.reset.status.err = .none ∧ Gate.startE.accepts State.reset ∧
    (({ Options.reset with dictSize := 0#32 } : Options).dictSize.toNat < 1 ∧
      2 ^ 30 < ({ Options.reset with dictSize := 0x40000001#32 } : Options).dictSize.toNat ∧
      8 < ({ Options.reset with lc := 9#4 } : Options).lc.toNat ∧
      ({ Options.reset with fastBytes := 4#9 } : Options).fastBytes.toNat < 5 ∧
      273 < ({ Options.reset with fastBytes := 274#9 } : Options).fastBytes.toNat) ∧
    (1 ≤ State.reset.opts.dictSize.toNat ∧ State.reset.opts.dictSize.toNat ≤ 2 ^ 30 ∧
      State.reset.opts.dictSize.toNat ≤ State.reset.dictCap ∧ State.reset.opts.lc.toNat ≤ 8 ∧
      State.reset.opts.lp.toNat ≤ 4 ∧ State.reset.opts.pb.toNat ≤ 4 ∧ 5 ≤ State.reset.opts.fastBytes.toNat ∧
      State.reset.opts.fastBytes.toNat ≤ 273) := by
  simp only [Gate.accepts]
  decide +kernel

theorem resetInv : Inv State.reset where
  memory := rfl
  coderState := by decide
  probs := rfl
  probSize := rfl
  derived := .inl rfl
  idle := fun _ => ⟨rfl, rfl, rfl, rfl, rfl, rfl, rfl, rfl, rfl⟩
  encOptions := fun h => by cases h
  encRams := fun h => by cases h
  encRegs := fun h => by cases h
  decOptions := fun h => by cases h
  output := ⟨rfl, fun h => absurd rfl h⟩
  decRegs := fun h => by cases h
  encRange := fun h => by cases h
  decRange := fun h => by cases h

theorem witness_EncStartState :
    Inv State.reset ∧ State.reset.status.err = .none ∧ Gate.startE.accepts State.reset ∧
    encOptionsLegal State.reset.opts State.reset.dictCap = true ∧ State.reset.host.srcEnd = true :=
  ⟨resetInv, rfl, ⟨.inl rfl, rfl⟩, by decide +kernel, rfl⟩

theorem witness_EncStartPrices : Inv State.reset ∧ State.reset.status.err = .none ∧
    ∃ t, exec .encStart State.reset = .next t ∧ t.status.err = .none := by
  obtain ⟨t, h, ht⟩ := answers_next (P := fun t => decide (t.status.err = .none)) (o := exec .encStart State.reset) (by decide +kernel)
  exact ⟨resetInv, rfl, t, h, of_decide_eq_true ht⟩

theorem witness_HeaderWrite :
    (Ready .hdrWrite encS ∧ encS.cnt.outCount = 0#64) ∧
    Ready .hdrWrite { encS with cnt := { encS.cnt with outCount := 1#64 } } :=
  ⟨⟨encReady (by decide +kernel) rfl rfl rfl trivial rfl, rfl⟩, encReady (by decide +kernel) rfl rfl rfl trivial rfl⟩

/-- A literal, a short rep, a rep and a match of the longest length, each decision readable. -/
theorem witness_CodesAndFinishes :
    (Ready .encSymbol (withOps 1#32 0xFFFFFFFF#32 0#32 0#32 encS) ∧ decisionReadable encS 1#32 0xFFFFFFFF#32) ∧
    (Ready .encSymbol (withOps 1#32 0#32 0#32 0#32 encS) ∧ decisionReadable encS 1#32 0#32) ∧
    (Ready .encSymbol (withOps 2#32 3#32 0#32 0#32 encS) ∧ decisionReadable encS 2#32 3#32) ∧
    (Ready .encSymbol (withOps 273#32 0xFFFFFFFF#32 0#32 0#32 encS) ∧ decisionReadable encS 273#32 0xFFFFFFFF#32) ∧
    Ready .encFinish encS := by
  refine ⟨⟨encReady (by decide +kernel) rfl rfl rfl ?_ rfl, ?_⟩, ⟨encReady (by decide +kernel) rfl rfl rfl ?_ rfl, ?_⟩,
    ⟨encReady (by decide +kernel) rfl rfl rfl ?_ rfl, ?_⟩, ⟨encReady (by decide +kernel) rfl rfl rfl ?_ rfl, ?_⟩,
    encReady (by decide +kernel) rfl rfl rfl trivial rfl⟩ <;>
    (simp only [operandsLegal, decisionReadable, windowIndex]; decide +kernel)

/-- A pending literal one byte back, the match finder one or two bytes ahead. -/
def pendingEnd (ahead : Word) : State :=
  { encStream abc 13#32 with
    opt := { size := 4096, cells := [(0, { OptRec.zero with posPrev := 1#32, backPrev := 0xFFFFFFFF#32 })] }
    enc := { encS.enc with optEnd := 1#32, addOffset := ahead }, cnt := { encS.cnt with nowPos := 11#64 } }

/-- A literal coded with one more to come: ENC_STEP leaves the stream going, and ENC_RUN ends it. -/
theorem witness_encRunLoop : ∃ t u, exec .encStep (encStream [0x41, 0x42] 1#32) = .next t ∧ t.status.phase = .enc ∧
    t.status.err = .none ∧ exec .encRun (encStream [0x41, 0x42] 1#32) = .next u ∧ u.status.phase = .done := by
  obtain ⟨t, h, ht⟩ := answers_next (P := fun t => decide (t.status.phase = .enc ∧ t.status.err = .none))
    (o := exec .encStep (encStream [0x41, 0x42] 1#32)) (by decide +kernel)
  obtain ⟨u, g, hu⟩ := answers_next (P := fun u => decide (u.status.phase = .done))
    (o := exec .encRun (encStream [0x41, 0x42] 1#32)) (by decide +kernel)
  exact ⟨t, u, h, (of_decide_eq_true ht).1, (of_decide_eq_true ht).2, g, of_decide_eq_true hu⟩

theorem witness_StepAndRunEndTheStream :
    (Ready .encStep (encStream [] 1#32) ∧ (encStream [] 1#32).cnt.nowPos = 0#64 ∧
      (encStream [] 1#32).win.streamPos = (encStream [] 1#32).win.pos) ∧
    (Ready .encStep (pendingEnd 2#32) ∧ (pendingEnd 2#32).cnt.nowPos ≠ 0#64 ∧
      (pendingEnd 2#32).enc.optEnd ≠ (pendingEnd 2#32).enc.optCur ∧ (pendingEnd 2#32).enc.optCur.toNat < 4096 ∧
      decisionReadable (pendingEnd 2#32) 1#32 0xFFFFFFFF#32 ∧ (pendingEnd 2#32).enc.addOffset ≠ 1#32) ∧
    Ready .encStep (pendingEnd 1#32) ∧ decisionReadable (pendingEnd 1#32) 1#32 0xFFFFFFFF#32 ∧
      (pendingEnd 1#32).enc.addOffset = 1#32 ∧ (pendingEnd 1#32).win.streamPos = (pendingEnd 1#32).win.pos ∧
      (decisionCoded { results 0#32 0#32 (pendingEnd 1#32) with
        enc := { (pendingEnd 1#32).enc with optCur := 1#32 } } 1#32 0xFFFFFFFF#32).enc.matchPriceCount.toNat < 128 ∧
      (decisionCoded { results 0#32 0#32 (pendingEnd 1#32) with
        enc := { (pendingEnd 1#32).enc with optCur := 1#32 } } 1#32 0xFFFFFFFF#32).enc.alignPriceCount.toNat < 16 := by
  refine ⟨⟨encReady (by decide +kernel) rfl rfl rfl trivial rfl, rfl, rfl⟩,
    ⟨encReady (by decide +kernel) rfl rfl rfl trivial rfl, by decide, by decide, by decide, ?_, by decide⟩,
    encReady (by decide +kernel) rfl rfl rfl trivial rfl, ?_, rfl, rfl, by decide +kernel, by decide +kernel⟩ <;>
    (simp only [decisionReadable, windowIndex]; decide +kernel)

/-- Forty equal bytes at position 2, position 1 inserted, no byte coded: a host's MF_MOVEPOS or MF_GETMATCHES came first. The
search finds FAST_BYTES bytes and extends them. -/
def aheadS : State :=
  { encStream (List.replicate 40 0x61#8) 2#32 with
    mf := { encS.mf with cycPos := 1#32 }
    hash := { size := 2163712, cells := [(431, 1#32), (13487, 1#32), (2100591, 1#32)] } }

/-- A search that finds nothing, one whose longest length is extended by 7 bytes to the end of the input, and one near the
end. -/
theorem witness_FirstByteIsALiteral :
    (Ready .encStep encS ∧ encS.cnt.nowPos = 0#64 ∧ encS.win.streamPos ≠ encS.win.pos ∧
      ∃ m, exec .mfGetMatches encS = .next m ∧ m.status.err = .none ∧ m.x.r1 ≠ encS.mf.matchMaxLen ∧
        windowIndex m (0#32 - (encS.enc.addOffset + 1#32)) < encS.win.blockSize.toNat) ∧
    (Ready .encStep aheadS ∧ aheadS.cnt.nowPos = 0#64 ∧ aheadS.win.streamPos ≠ aheadS.win.pos ∧ aheadS.opts.extendFast = 1#1 ∧
      ∃ m, exec .mfGetMatches aheadS = .next m ∧ m.status.err = .none ∧ m.x.r1 = aheadS.mf.matchMaxLen ∧
        RunsFor m (m.x.r1 - 1#32) (m.matchBuf.get (m.x.r0 - 1#32).toNat) (273 - m.x.r1.toNat) 7 ∧
        windowIndex m (0#32 - (aheadS.enc.addOffset + 1#32)) < aheadS.win.blockSize.toNat) ∧
    (Ready .encStep (encStream [0x41] 1#32) ∧ (encStream [0x41] 1#32).cnt.nowPos = 0#64 ∧
      (encStream [0x41] 1#32).win.streamPos ≠ (encStream [0x41] 1#32).win.pos ∧ MovesInside (encStream [0x41] 1#32) ∧
      NearEnd (encStream [0x41] 1#32) ∧
      windowIndex (advanced (encStream [0x41] 1#32)) (0#32 - ((encStream [0x41] 1#32).enc.addOffset + 1#32)) <
        (encStream [0x41] 1#32).win.blockSize.toNat) := by
  obtain ⟨m, h, hm⟩ := answers_next (P := fun m => decide (m.status.err = .none ∧ m.x.r1 ≠ encS.mf.matchMaxLen ∧
    windowIndex m (0#32 - (encS.enc.addOffset + 1#32)) < encS.win.blockSize.toNat))
    (o := exec .mfGetMatches encS) (by unfold windowIndex; decide +kernel)
  obtain ⟨n, g, hn⟩ := answers_next (P := fun m => decide (m.status.err = .none ∧ m.x.r1 = aheadS.mf.matchMaxLen ∧
    m.x.r0 = 2#32 ∧ m.matchBuf.get 1 = 0#32 ∧ m.win = { aheadS.win with pos := 3#32 } ∧ m.wbuf = aheadS.wbuf))
    (o := exec .mfGetMatches aheadS) (by decide +kernel)
  obtain ⟨e1, e2, e3, e4, e5, e6⟩ := of_decide_eq_true hn
  refine ⟨⟨encReady (by decide +kernel) rfl rfl rfl trivial rfl, rfl, by decide, m, h, of_decide_eq_true hm⟩,
    ⟨encReady (by decide +kernel) rfl rfl rfl trivial rfl, rfl, by decide, rfl, n, g, e1, e2, ?_, ?_⟩,
    encReady (by decide +kernel) rfl rfl rfl trivial rfl, rfl, by decide, ?_, ?_, ?_⟩
  · rw [e2, e3, show (2#32 - 1#32).toNat = 1 from rfl, e4]
    unfold RunsFor
    rw [e5, e6]
    decide +kernel
  · unfold windowIndex
    rw [e5]
    decide +kernel
  · unfold MovesInside; decide +kernel
  · unfold NearEnd; decide +kernel
  · unfold windowIndex; decide +kernel

/-- The outcome of OPT_GETOPTIMUM and of ENC_SYMBOL with its decision, both without an error and with `P` of what the second
leaves. -/
theorem parseThenCode {s : State} (P : State → Prop) [DecidablePred P]
    (h : answers (fun t => decide (t.status.err = .none) && answers (fun u => decide (u.status.err = .none ∧ P u))
      (exec .encSymbol { t with x := { t.x with a0 := t.x.r0, a1 := t.x.r1 } })) (exec .optGetOptimum s) = true) :
    ∃ t u, exec .optGetOptimum s = .next t ∧ t.status.err = .none ∧
      exec .encSymbol { t with x := { t.x with a0 := t.x.r0, a1 := t.x.r1 } } = .next u ∧ u.status.err = .none ∧ P u := by
  obtain ⟨t, h, ht⟩ := answers_next h
  rw [Bool.and_eq_true] at ht
  obtain ⟨u, g, hu⟩ := answers_next ht.2
  exact ⟨t, u, h, of_decide_eq_true ht.1, g, of_decide_eq_true hu⟩

/-- The pending literal with one byte left and both price refreshes due. -/
def refreshDue : State :=
  { pendingEnd 1#32 with
    win := testWindow 12 12#32
    enc := { (pendingEnd 1#32).enc with matchPriceCount := 128#32, alignPriceCount := 16#32 } }

/-- A decision that leaves the match finder ahead; one after which both refreshes are due and a byte is left; and one that
ends the stream. -/
theorem witness_StepIsParseThenCode :
    ((pendingEnd 2#32).status.err = .none ∧ (pendingEnd 2#32).status.phase = .enc ∧ (pendingEnd 2#32).cnt.nowPos ≠ 0#64 ∧
      ∃ t u, exec .optGetOptimum (pendingEnd 2#32) = .next t ∧ t.status.err = .none ∧
        exec .encSymbol { t with x := { t.x with a0 := t.x.r0, a1 := t.x.r1 } } = .next u ∧ u.status.err = .none ∧
        u.enc.addOffset ≠ 0#32) ∧
    (∃ t u v w, exec .optGetOptimum refreshDue = .next t ∧ t.status.err = .none ∧
      exec .encSymbol { t with x := { t.x with a0 := t.x.r0, a1 := t.x.r1 } } = .next u ∧ u.status.err = .none ∧
      u.enc.addOffset = 0#32 ∧ 128 ≤ u.enc.matchPriceCount.toNat ∧ exec .priceFillDist u = .next v ∧ v.status.err = .none ∧
      16 ≤ v.enc.alignPriceCount.toNat ∧ exec .priceFillAlign v = .next w ∧ w.status.err = .none ∧
      w.win.streamPos ≠ w.win.pos) ∧
    ∃ t u z, exec .optGetOptimum (pendingEnd 1#32) = .next t ∧ t.status.err = .none ∧
      exec .encSymbol { t with x := { t.x with a0 := t.x.r0, a1 := t.x.r1 } } = .next u ∧ u.status.err = .none ∧
      u.enc.addOffset = 0#32 ∧ u.enc.matchPriceCount.toNat < 128 ∧ u.enc.alignPriceCount.toNat < 16 ∧
      u.win.streamPos = u.win.pos ∧ exec .encFinish u = .next z ∧ z.status.err = .none := by
  obtain ⟨t1, u1, h1⟩ := parseThenCode (s := pendingEnd 2#32) (fun u => u.enc.addOffset ≠ 0#32) (by decide +kernel)
  obtain ⟨t2, u2, h2, k2, l2, m2, e2, f2, g2⟩ := parseThenCode (s := refreshDue)
    (fun u => u.enc.addOffset = 0#32 ∧ 128 ≤ u.enc.matchPriceCount.toNat ∧
      answers (fun v => decide (v.status.err = .none ∧ 16 ≤ v.enc.alignPriceCount.toNat) &&
        answers (fun w => decide (w.status.err = .none ∧ w.win.streamPos ≠ w.win.pos)) (exec .priceFillAlign v))
        (exec .priceFillDist u) = true) (by decide +kernel)
  obtain ⟨v, hv, gv⟩ := answers_next g2
  rw [Bool.and_eq_true] at gv
  obtain ⟨w, hw, gw⟩ := answers_next gv.2
  obtain ⟨p, q⟩ := of_decide_eq_true gv.1
  obtain ⟨p', q'⟩ := of_decide_eq_true gw
  obtain ⟨t3, u3, h3, k3, l3, m3, e3, f3, g3, i3, j3⟩ := parseThenCode (s := pendingEnd 1#32)
    (fun u => u.enc.addOffset = 0#32 ∧ u.enc.matchPriceCount.toNat < 128 ∧ u.enc.alignPriceCount.toNat < 16 ∧
      u.win.streamPos = u.win.pos ∧ answers (fun z => decide (z.status.err = .none)) (exec .encFinish u) = true)
    (by decide +kernel)
  obtain ⟨z, hz, gz⟩ := answers_next j3
  exact ⟨⟨rfl, rfl, by decide, t1, u1, h1⟩, ⟨t2, u2, v, w, h2, k2, l2, m2, e2, f2, hv, p, q, hw, p', q'⟩,
    t3, u3, z, h3, k3, l3, m3, e3, f3, g3, i3, hz, of_decide_eq_true gz⟩

/-- First bytes 224 and 225, and four bytes only. -/
theorem witness_HeaderRead :
    (beforeDec [224, 0, 0, 0, 0]).status.err = .none ∧ Gate.startD.accepts (beforeDec [224, 0, 0, 0, 0]) ∧
    (224#8).toNat < 225 ∧ 225 ≤ (225#8).toNat ∧
    (beforeDec [93, 0, 0, 0]).host.src.length < 5 ∧ (beforeDec [93, 0, 0, 0]).host.srcEnd = true :=
  ⟨rfl, ⟨.inl rfl, rfl⟩, by decide, by decide, by decide, rfl⟩

theorem witness_DecStartState :
    (beforeDec []).status.err = .none ∧ Gate.startD.accepts (beforeDec []) ∧
    8 < ({ Options.reset with lc := 9#4 } : Options).lc.toNat ∧
    ((beforeDec []).opts.lc.toNat ≤ 8 ∧ (beforeDec []).opts.lp.toNat ≤ 4 ∧ (beforeDec []).opts.pb.toNat ≤ 4 ∧
      (beforeDec []).opts.dictSize.toNat ≤ (beforeDec []).dictCap ∧
      ((beforeDec []).status.srcEof && (beforeDec []).status.hdrOk) = false ∧
      (beforeDec [0, 1, 2, 3]).host.src.length < 5 ∧ (beforeDec [0, 1, 2, 3]).host.srcEnd = true) :=
  ⟨rfl, ⟨.inl rfl, rfl⟩, by decide, by decide, by decide, by decide, by decide +kernel, rfl, by decide, rfl⟩

/-- At the declared length, below it in a state after a literal, and below it in one after a match. -/
theorem witness_DecodesOneSymbol :
    (Ready .decStep { decS with opts := { decS.opts with outSize := 0#64 } } ∧
      ({ decS with opts := { decS.opts with outSize := 0#64 } } : State).opts.outSize.toNat ≤ decS.cnt.nowPos.toNat) ∧
    (Ready .decStep decS ∧ decS.cnt.nowPos.toNat < decS.opts.outSize.toNat ∧ Fed 48 decS ∧
      (7 ≤ decS.cstate.toNat → decS.rep.d0.toNat < decS.ow.size.toNat)) ∧
    Ready .decStep { decS with cstate := 7#4, rep := { decS.rep with d0 := 0x3FFFFF#32 } } ∧
      (0x3FFFFF#32).toNat < decS.ow.size.toNat := by
  refine ⟨⟨⟨decInv (by decide +kernel), ⟨rfl, rfl, rfl, trivial⟩, rfl⟩, by decide⟩,
    ⟨⟨witness_decInv, ⟨rfl, rfl, rfl, trivial⟩, rfl⟩, by decide +kernel, ⟨rfl, by decide +kernel⟩, fun h => absurd h (by decide)⟩,
    ⟨decInv (by decide +kernel), ⟨rfl, rfl, rfl, trivial⟩, rfl⟩, by decide⟩

/-- A literal decoded with more to come. -/
theorem witness_decRunLoop : decS.status.phase = .dec ∧ decS.status.err = .none ∧
    ∃ t, exec .decStep decS = .next t ∧ t.status.phase = .dec ∧ t.status.err = .none := by
  obtain ⟨t, h, ht⟩ := answers_next (P := fun t => decide (t.status.phase = .dec ∧ t.status.err = .none))
    (o := exec .decStep decS) (by decide +kernel)
  exact ⟨rfl, rfl, t, h, (of_decide_eq_true ht).1, (of_decide_eq_true ht).2⟩

theorem witness_RunsToTheEnd :
    (Ready .decRun { decS with opts := { decS.opts with outSize := 0#64 } } ∧
      ({ decS with opts := { decS.opts with outSize := 0#64 } } : State).opts.outSize.toNat ≤ decS.cnt.nowPos.toNat) ∧
    (decS.status.phase = .dec ∧ ∃ t, exec .decStep { decS with opts := { decS.opts with outSize := 1#64 } } = .next t ∧
      t.status.phase = .done) ∧
    (∃ t, exec .decStep (decStream 0xFFFFFFFF#32 [0, 0, 0]) = .next t ∧ t.status.err ≠ .none) ∧
    ∃ t, exec .decRun (decStream 0xFFFFFFFF#32 [0, 0, 0]) = .next t := by
  obtain ⟨t, h, ht⟩ := answers_next (P := fun t => decide (t.status.phase = .done))
    (o := exec .decStep { decS with opts := { decS.opts with outSize := 1#64 } }) (by decide +kernel)
  obtain ⟨u, g, hu⟩ := answers_next (P := fun t => decide (t.status.err ≠ .none))
    (o := exec .decStep (decStream 0xFFFFFFFF#32 [0, 0, 0])) (by decide +kernel)
  obtain ⟨v, k, -⟩ := answers_next (P := fun _ => true)
    (o := exec .decRun (decStream 0xFFFFFFFF#32 [0, 0, 0])) (by decide +kernel)
  exact ⟨⟨⟨decInv (by decide +kernel), ⟨rfl, rfl, rfl, trivial⟩, rfl⟩, by decide⟩,
    ⟨rfl, t, h, of_decide_eq_true ht⟩, ⟨u, g, of_decide_eq_true hu⟩, v, k⟩

theorem witness_OutputWindow :
    (Inv (withOps 0x3FFFFF#32 0#32 0#32 0#32 decS) ∧ Runnable .owGetByte (withOps 0x3FFFFF#32 0#32 0#32 0#32 decS)) ∧
    Ready .owPutByte (withOps 255#32 0#32 0#32 0#32 decS) := by
  refine ⟨⟨decInv (by decide +kernel), rfl, rfl, trivial, ?_⟩, decInv (by decide +kernel), ⟨rfl, rfl, rfl, ?_⟩, rfl⟩ <;>
    (simp only [operandsLegal]; decide +kernel)

/-- The farthest distance and the longest copy. -/
theorem witness_CopiesBytes : Ready .owCopy (withOps 1#32 273#32 0#32 0#32 twoBytes) := by
  refine ⟨decInv (by decide +kernel), ⟨rfl, rfl, rfl, ?_⟩, rfl⟩
  simp only [operandsLegal]
  decide +kernel


end Sys2Proof.Tests
end

section
/-! SUPPORT. Computations that leave a part of the state as it was, however they end, composed in the shape of the
model's `do` blocks. -/

namespace Sys2Proof.Machine

/-- A computation leaves what `π` shows of the state as it was, however it ends. -/
def Keeps {α γ : Type} (π : State → γ) (f : Eng α) : Prop := ∀ s, π (endState (f s)) = π s

namespace Keeps
variable {α β γ δ : Type} {π : State → γ}

theorem pure (a : α) : Keeps π (pure a : Eng α) := fun _ => rfl

theorem look (f : State → α) : Keeps π (look f) := fun _ => rfl

theorem put {f : State → State} (h : ∀ s, π (f s) = π s) : Keeps π (put f) := h

theorem bind {f : Eng α} {g : α → Eng β} (hf : Keeps π f) (hg : ∀ a, Keeps π (g a)) : Keeps π (f >>= g) := fun s => by
  have h := hf s
  rw [Eng.bind_run]
  cases e : f s with
  | ok a t => rw [e] at h; exact (hg a t).trans h
  | error e' t => rw [e] at h; exact h

/-- A read changes nothing, so only the rest counts. -/
theorem look_bind {f : State → α} {g : α → Eng β} (hg : ∀ a, Keeps π (g a)) : Keeps π (Machine.look f >>= g) :=
  (Keeps.look f).bind hg

theorem raise (h : ∀ c s, π (faultEntry c s) = π s) (c : ErrCode) : Keeps π (raise c : Eng α) := h c

theorem check (h : ∀ c s, π (faultEntry c s) = π s) (ok : Bool) (c : ErrCode) : Keeps π (check ok c) := fun s => by
  rw [check_run]
  cases ok
  · exact h c s
  · rfl

theorem ite {c : Prop} [Decidable c] {f g : Eng α} (hf : Keeps π f) (hg : Keeps π g) :
    Keeps π (if c then f else g) := by
  split
  · exact hf
  · exact hg

/-- `let x ← if c then f else g`, then `k x`. -/
theorem ite_bind {c : Prop} [Decidable c] {f g : Eng α} {k : α → Eng β} (hf : Keeps π f) (hg : Keeps π g)
    (hk : ∀ a, Keeps π (k a)) : Keeps π (if c then f >>= k else g >>= k) :=
  ite (hf.bind hk) (hg.bind hk)

/-- `if c then f`, then `k`. -/
theorem when {c : Prop} [Decidable c] {f : Eng Unit} {k : Unit → Eng β} (hf : Keeps π f) (hk : ∀ u, Keeps π (k u)) :
    Keeps π (if c then f >>= k else k ()) :=
  ite (hf.bind hk) (hk ())

/-- `if c then do let x ← f; g x`, then `k`. -/
theorem when_bind {c : Prop} [Decidable c] {f : Eng α} {g : α → Eng Unit} {k : Unit → Eng β} (hf : Keeps π f)
    (hg : ∀ a, Keeps π (g a)) (hk : ∀ u, Keeps π (k u)) :
    Keeps π (if c then (f >>= fun a => g a >>= k) else k ()) :=
  ite (hf.bind fun a => (hg a).bind hk) (hk ())

/-- What is kept of the state keeps every part of it. -/
theorem comp {f : Eng α} (h : Keeps π f) (ρ : γ → δ) : Keeps (ρ ∘ π) f := fun s => congrArg ρ (h s)

/-- A command keeps what its rule keeps, where clearing the results and fault entry keep it. -/
theorem command {i : Instr} {g : Gate} {body : Eng Unit} {s t : State} (hn : command i g body s = .next t)
    (h : Keeps π body) (hclear : ∀ s, π (clearResults s) = π s) (hfault : ∀ c s, π (faultEntry c s) = π s) :
    π t = π s := by
  have run : finish (body (clearResults s)) = .next t → π t = π s := fun hr => by
    have hb := (h (clearResults s)).trans (hclear s)
    rcases finish_eq_next.1 hr with e | e <;> rw [e] at hb <;> exact hb
  rcases command_cases i g body s with ⟨_, _, e⟩ | ⟨_, _, e⟩ | ⟨_, _, ⟨_, e⟩ | ⟨_, e⟩ | ⟨_, e⟩⟩ <;> rw [e] at hn
  · cases hn; exact hclear s
  · cases hn; exact (hfault _ _).trans (hclear s)
  · exact run hn
  · cases hn; exact hclear s
  · cases hn; exact (hfault _ _).trans (hclear s)

end Keeps
end Sys2Proof.Machine
end

section
/-! SUPPORT. The operands, the options, the command port, the end-of-data signal and DICT_CAP: no rule of the engine but
HDR_READ's, REG_WRITE's and RESET's writes one of them. One lemma a function of the model, in its order. -/

namespace Sys2Proof.Machine

/-- What the host alone gives: the command port, the end-of-data signal, DICT_CAP and A0..A3. -/
def hostInputs (s : State) : List Transaction × Bool × Nat × Word × Word × Word × Word :=
  (s.host.port, s.host.srcEnd, s.dictCap, s.x.a0, s.x.a1, s.x.a2, s.x.a3)

theorem hostInputs_eq_iff {s t : State} : hostInputs t = hostInputs s ↔
    t.host.port = s.host.port ∧ t.host.srcEnd = s.host.srcEnd ∧ t.dictCap = s.dictCap ∧
    t.x.a0 = s.x.a0 ∧ t.x.a1 = s.x.a1 ∧ t.x.a2 = s.x.a2 ∧ t.x.a3 = s.x.a3 := by
  simp [hostInputs]

/-- The host's inputs and the options. -/
def settings (s : State) : (List Transaction × Bool × Nat × Word × Word × Word × Word) × Options :=
  (hostInputs s, s.opts)

namespace KeepsSettings
variable {α : Type}

/-! ### The shared operations -/

theorem raise (c : ErrCode) : Keeps settings (raise c : Eng α) := .raise (fun _ _ => rfl) c

theorem check (ok : Bool) (c : ErrCode) : Keeps settings (check ok c) := .check (fun _ _ => rfl) ok c

theorem ramRead {fill : α} (ram : State → Ram α fill) (i : Word) : Keeps settings (ramRead ram i) := fun s => by
  rw [ramRead_run]
  split <;> rfl

theorem ramWrite {fill : α} [DecidableEq α] {ram : State → Ram α fill} {store : State → Ram α fill → State}
    (h : ∀ s r, settings (store s r) = settings s) (i : Word) (v : α) : Keeps settings (ramWrite ram store i v) :=
  fun s => by
    rw [ramWrite_run]
    split
    · exact h s _
    · rfl

theorem probRead (i : Word) : Keeps settings (probRead i) := ramRead _ i
theorem probWrite (i : Word) (v : Prob) : Keeps settings (probWrite i v) := ramWrite (fun _ _ => by rfl) i v
theorem wbufRead (i : Word) : Keeps settings (wbufRead i) := ramRead _ i
theorem wbufWrite (i : Word) (v : Byte) : Keeps settings (wbufWrite i v) := ramWrite (fun _ _ => by rfl) i v
theorem sonRead (i : Word) : Keeps settings (sonRead i) := ramRead _ i
theorem sonWrite (i v : Word) : Keeps settings (sonWrite i v) := ramWrite (fun _ _ => by rfl) i v
theorem hashRead (i : Word) : Keeps settings (hashRead i) := ramRead _ i
theorem hashWrite (i v : Word) : Keeps settings (hashWrite i v) := ramWrite (fun _ _ => by rfl) i v
theorem matchRead (i : Word) : Keeps settings (matchRead i) := ramRead _ i
theorem matchWrite (i v : Word) : Keeps settings (matchWrite i v) := ramWrite (fun _ _ => by rfl) i v
theorem optRead (i : Word) : Keeps settings (optRead i) := ramRead _ i
theorem optWrite (i : Word) (v : OptRec) : Keeps settings (optWrite i v) := ramWrite (fun _ _ => by rfl) i v
theorem owbufWrite (i : Word) (v : Byte) : Keeps settings (owbufWrite i v) := ramWrite (fun _ _ => by rfl) i v
theorem posSlotPriceRead (i : Word) : Keeps settings (posSlotPriceRead i) := ramRead _ i
theorem posSlotPriceWrite (i v : Word) : Keeps settings (posSlotPriceWrite i v) := ramWrite (fun _ _ => by rfl) i v
theorem distPriceRead (i : Word) : Keeps settings (distPriceRead i) := ramRead _ i
theorem distPriceWrite (i v : Word) : Keeps settings (distPriceWrite i v) := ramWrite (fun _ _ => by rfl) i v
theorem alignPriceRead (i : Word) : Keeps settings (alignPriceRead i) := ramRead _ i
theorem alignPriceWrite (i v : Word) : Keeps settings (alignPriceWrite i v) := ramWrite (fun _ _ => by rfl) i v
theorem lenPriceRead (k : Bool) (i : Word) : Keeps settings (lenPriceRead k i) := .ite (ramRead _ i) (ramRead _ i)
theorem lenPriceWrite (k : Bool) (i v : Word) : Keeps settings (lenPriceWrite k i v) :=
  .ite (ramWrite (fun _ _ => by rfl) i v) (ramWrite (fun _ _ => by rfl) i v)
theorem lenCounterRead (k : Bool) (i : Word) : Keeps settings (lenCounterRead k i) := .ite (ramRead _ i) (ramRead _ i)
theorem lenCounterWrite (k : Bool) (i v : Word) : Keeps settings (lenCounterWrite k i v) :=
  .ite (ramWrite (fun _ _ => by rfl) i v) (ramWrite (fun _ _ => by rfl) i v)

theorem srcRead : Keeps settings srcRead := fun s => by
  rcases srcRead_cases s with ⟨_, e⟩ | ⟨_, _, _, _, e⟩ | ⟨_, _, _, e⟩ | ⟨_, _, _, e⟩ <;> rw [e] <;> rfl

theorem sinkWrite (b : Byte) : Keeps settings (sinkWrite b) := fun s => by
  rcases sinkWrite_cases b s with ⟨_, _, e, _⟩ | ⟨_, e⟩ <;> rw [e] <;> rfl

theorem psCheck (v : Word) : Keeps settings (psCheck v) := fun s => check _ _ s
theorem probCheck : Keeps settings probCheck := fun s => check _ _ s
theorem probIndexCheck (v : Word) : Keeps settings (probIndexCheck v) := fun s => check _ _ s
theorem treeCheck (base : Word) (n : Nat) : Keeps settings (treeCheck base n) := fun s => check _ _ s

/-! ### The range coder and the bit trees -/

theorem probPriceRead (j : Nat) : Keeps settings (probPriceRead j) := fun s => by
  unfold Machine.probPriceRead
  split <;> rfl

theorem bitPrice (p : Prob) (b : Bool) : Keeps settings (bitPrice p b) := .ite (probPriceRead _) (probPriceRead _)

theorem rceEmit : ∀ (k : Nat) (t carry : Byte), Keeps settings (rceEmit k t carry)
  | 0, _, _ => .pure ()
  | k + 1, _, _ => .bind (sinkWrite _) fun _ => .bind (.put fun _ => rfl) fun _ => rceEmit k _ _

theorem rceShiftLow : Keeps settings rceShiftLow :=
  .look_bind fun _ => .when_bind (rceEmit _ _ _) (fun _ => .put fun _ => rfl) fun _ => .put fun _ => rfl

theorem rceNormalize : Keeps settings rceNormalize :=
  .look_bind fun _ => .ite (.bind (.put fun _ => rfl) fun _ => rceShiftLow) (.pure ())

theorem rceEncodeBit (i : Word) (b : Bool) : Keeps settings (rceEncodeBit i b) :=
  .bind (probRead _) fun _ => .bind (.put fun _ => rfl) fun _ => .bind (probWrite _ _) fun _ => rceNormalize

theorem rceEncodeDirect (v : Word) : ∀ n : Nat, Keeps settings (rceEncodeDirect v n)
  | 0 => .pure ()
  | n + 1 => .bind (.put fun _ => rfl) fun _ => .bind rceNormalize fun _ => rceEncodeDirect v n

theorem rceFlush : Keeps settings rceFlush :=
  .bind rceShiftLow fun _ => .bind rceShiftLow fun _ => .bind rceShiftLow fun _ => .bind rceShiftLow fun _ =>
    rceShiftLow

theorem srcReadOrTruncated : Keeps settings srcReadOrTruncated :=
  .bind srcRead fun
    | some b => .pure b
    | none => raise _

theorem rcdLoad : ∀ n : Nat, Keeps settings (rcdLoad n)
  | 0 => .pure ()
  | n + 1 => .bind srcReadOrTruncated fun _ => .bind (.put fun _ => rfl) fun _ => rcdLoad n

theorem rcdInit : Keeps settings rcdInit := .bind (.put fun _ => rfl) fun _ => rcdLoad 5

theorem rcdNormalize : Keeps settings rcdNormalize :=
  .bind srcReadOrTruncated fun _ => .bind (.put fun _ => rfl) fun _ => .put fun _ => rfl

theorem rcdNormalizeIfLow : Keeps settings rcdNormalizeIfLow := .look_bind fun _ => .ite rcdNormalize (.pure ())

theorem rcdDecodeBit (i : Word) : Keeps settings (rcdDecodeBit i) :=
  .bind (probRead _) fun _ => .look_bind fun _ => .bind (.put fun _ => rfl) fun _ => .bind (probWrite _ _) fun _ =>
    .bind rcdNormalizeIfLow fun _ => .pure _

theorem rcdDirectLoop : ∀ (n : Nat) (v : Word), Keeps settings (rcdDirectLoop n v)
  | 0, v => .pure v
  | n + 1, _ => .look_bind fun _ => .bind (.put fun _ => rfl) fun _ => .bind rcdNormalizeIfLow fun _ =>
    rcdDirectLoop n _

theorem rcdDecodeDirect (n : Nat) : Keeps settings (rcdDecodeDirect n) := rcdDirectLoop n _

theorem btEncodeFrom (base sym : Word) : ∀ (k : Nat) (m : Word), Keeps settings (btEncodeFrom base sym k m)
  | 0, _ => .pure ()
  | k + 1, _ => .bind (rceEncodeBit _ _) fun _ => btEncodeFrom base sym k _

theorem btEncode (base : Word) (n : Nat) (sym : Word) : Keeps settings (btEncode base n sym) :=
  btEncodeFrom base sym n _

theorem btDecodeFrom (base : Word) : ∀ (k : Nat) (m : Word), Keeps settings (btDecodeFrom base k m)
  | 0, m => .pure m
  | k + 1, _ => .bind (rcdDecodeBit _) fun _ => btDecodeFrom base k _

theorem btDecode (base : Word) (n : Nat) : Keeps settings (btDecode base n) :=
  .bind (btDecodeFrom base n _) fun _ => .pure _

theorem btReverseEncodeFrom (base sym : Word) :
    ∀ (left k : Nat) (m : Word), Keeps settings (btReverseEncodeFrom base sym left k m)
  | 0, _, _ => .pure ()
  | left + 1, _, _ => .bind (rceEncodeBit _ _) fun _ => btReverseEncodeFrom base sym left _ _

theorem btReverseEncode (base : Word) (n : Nat) (sym : Word) : Keeps settings (btReverseEncode base n sym) :=
  btReverseEncodeFrom base sym n _ _

theorem btReverseDecodeFrom (base : Word) :
    ∀ (left k : Nat) (m sym : Word), Keeps settings (btReverseDecodeFrom base left k m sym)
  | 0, _, _, sym => .pure sym
  | left + 1, _, _, _ => .bind (rcdDecodeBit _) fun _ => btReverseDecodeFrom base left _ _ _

theorem btReverseDecode (base : Word) (n : Nat) : Keeps settings (btReverseDecode base n) :=
  btReverseDecodeFrom base n _ _ _

theorem nodePrice (i : Word) (b : Bool) : Keeps settings (nodePrice i b) := .bind (probRead _) fun _ => bitPrice _ _

theorem btPriceFrom (base sym : Word) : ∀ (k : Nat) (m price : Word), Keeps settings (btPriceFrom base sym k m price)
  | 0, _, price => .pure price
  | k + 1, _, _ => .bind (nodePrice _ _) fun _ => btPriceFrom base sym k _ _

theorem btPrice (base : Word) (n : Nat) (sym : Word) : Keeps settings (btPrice base n sym) := btPriceFrom base sym n _ _

theorem btReversePriceFrom (base sym : Word) :
    ∀ (left k : Nat) (m price : Word), Keeps settings (btReversePriceFrom base sym left k m price)
  | 0, _, _, price => .pure price
  | left + 1, _, _, _ => .bind (nodePrice _ _) fun _ => btReversePriceFrom base sym left _ _ _

theorem btReversePrice (base : Word) (n : Nat) (sym : Word) : Keeps settings (btReversePrice base n sym) :=
  btReversePriceFrom base sym n _ _ _

/-! ### The symbol coders -/

theorem cstateSet (v : CState) : Keeps settings (cstateSet v) := fun _ => rfl

theorem litEncodeFrom (lb : Word) (sym : Byte) : ∀ (n : Nat) (c : Word), Keeps settings (litEncodeFrom lb sym n c)
  | 0, _ => .pure ()
  | n + 1, _ => .bind (rceEncodeBit _ _) fun _ => litEncodeFrom lb sym n _

theorem litEncode (lb : Word) (sym : Byte) : Keeps settings (litEncode lb sym) := litEncodeFrom lb sym 8 _

theorem litEncodeMatchedFrom (lb : Word) (mb sym : Byte) :
    ∀ (n : Nat) (c : Word) (same : Bool), Keeps settings (litEncodeMatchedFrom lb mb sym n c same)
  | 0, _, _ => .pure ()
  | n + 1, _, _ => .bind (rceEncodeBit _ _) fun _ => litEncodeMatchedFrom lb mb sym n _ _

theorem litEncodeMatched (lb : Word) (mb sym : Byte) : Keeps settings (litEncodeMatched lb mb sym) :=
  litEncodeMatchedFrom lb mb sym 8 _ _

theorem litDecodeFrom (lb : Word) : ∀ (n : Nat) (c : Word), Keeps settings (litDecodeFrom lb n c)
  | 0, c => .pure c
  | n + 1, _ => .bind (rcdDecodeBit _) fun _ => litDecodeFrom lb n _

theorem litDecode (lb : Word) : Keeps settings (litDecode lb) := .bind (litDecodeFrom lb 8 _) fun _ => .pure _

theorem litDecodeMatchedFrom (lb : Word) (mb : Byte) :
    ∀ (n : Nat) (c : Word) (same : Bool), Keeps settings (litDecodeMatchedFrom lb mb n c same)
  | 0, c, _ => .pure c
  | n + 1, _, _ => .bind (rcdDecodeBit _) fun _ => litDecodeMatchedFrom lb mb n _ _

theorem litDecodeMatched (lb : Word) (mb : Byte) : Keeps settings (litDecodeMatched lb mb) :=
  .bind (litDecodeMatchedFrom lb mb 8 _ _) fun _ => .pure _

theorem litPriceFrom (lb : Word) (mb sym : Byte) :
    ∀ (n : Nat) (c : Word) (same : Bool) (price : Word), Keeps settings (litPriceFrom lb mb sym n c same price)
  | 0, _, _, price => .pure price
  | n + 1, _, _, _ => .bind (nodePrice _ _) fun _ => litPriceFrom lb mb sym n _ _ _

theorem litPrice (lb : Word) (matched : Bool) (mb sym : Byte) : Keeps settings (litPrice lb matched mb sym) :=
  litPriceFrom lb mb sym 8 _ _ _

theorem lenEncode (l sym ps : Word) : Keeps settings (lenEncode l sym ps) :=
  .ite (.bind (rceEncodeBit _ _) fun _ => btEncode _ _ _)
    (.ite (.bind (rceEncodeBit _ _) fun _ => .bind (rceEncodeBit _ _) fun _ => btEncode _ _ _)
      (.bind (rceEncodeBit _ _) fun _ => .bind (rceEncodeBit _ _) fun _ => btEncode _ _ _))

theorem lenDecode (l ps : Word) : Keeps settings (lenDecode l ps) :=
  .bind (rcdDecodeBit _) fun _ => .ite
    (.bind (rcdDecodeBit _) fun _ =>
      .ite (.bind (btDecode _ _) fun _ => .pure _) (.bind (btDecode _ _) fun _ => .pure _))
    (btDecode _ _)

theorem lenPrice (l sym ps : Word) : Keeps settings (lenPrice l sym ps) :=
  .ite (.bind (nodePrice _ _) fun _ => .bind (btPrice _ _ _) fun _ => .pure _)
    (.ite (.bind (nodePrice _ _) fun _ => .bind (nodePrice _ _) fun _ => .bind (btPrice _ _ _) fun _ => .pure _)
      (.bind (nodePrice _ _) fun _ => .bind (nodePrice _ _) fun _ => .bind (btPrice _ _ _) fun _ => .pure _))

theorem distEncode (dist len : Word) : Keeps settings (distEncode dist len) :=
  .bind (btEncode _ _ _) fun _ => .ite (.pure _)
    (.ite (.bind (btReverseEncode _ _ _) fun _ => .pure _)
      (.bind (rceEncodeDirect _ _) fun _ => .bind (btReverseEncode _ _ _) fun _ => .pure _))

theorem distDecode (len : Word) : Keeps settings (distDecode len) :=
  .bind (btDecode _ _) fun _ => .ite (.pure _)
    (.ite (.bind (btReverseDecode _ _) fun _ => .pure _)
      (.bind (rcdDecodeDirect _) fun _ => .bind (btReverseDecode _ _) fun _ => .pure _))

theorem repUse (i : Word) : Keeps settings (repUse i) :=
  .look_bind fun _ => .bind (.put fun _ => rfl) fun _ => .pure _

theorem repPush (d : Word) : Keeps settings (repPush d) := fun _ => rfl

/-! ### The window and the match finder -/

theorem winCreate (keepBefore keepAfter reserve : Word) : Keeps settings (winCreate keepBefore keepAfter reserve) :=
  fun _ => rfl

theorem winReadLoop : ∀ n : Nat, Keeps settings (winReadLoop n)
  | 0 => .pure ()
  | n + 1 => .look_bind fun _ => .ite (.pure ()) (.bind srcRead fun
    | none => .put fun _ => rfl
    | some _ => .bind (wbufWrite _ _) fun _ => .bind (.put fun _ => rfl) fun _ => winReadLoop n)

theorem winReadBlock : Keeps settings winReadBlock :=
  .look_bind fun _ => .ite (.pure ()) (.look_bind fun _ => winReadLoop _)

theorem winInit : Keeps settings winInit := .bind (.put fun _ => rfl) fun _ => winReadBlock

theorem winMoveBytes (offset : Word) : ∀ (n : Nat) (i : Word), Keeps settings (winMoveBytes offset n i)
  | 0, _ => .pure ()
  | n + 1, _ => .bind (wbufRead _) fun _ => .bind (wbufWrite _ _) fun _ => winMoveBytes offset n _

theorem winMoveBlock : Keeps settings winMoveBlock :=
  .look_bind fun _ => .bind (winMoveBytes _ _ _) fun _ => .put fun _ => rfl

theorem winMovePos : Keeps settings winMovePos :=
  .bind (.put fun _ => rfl) fun _ => .look_bind fun _ => .ite (.when winMoveBlock fun _ => winReadBlock) (.pure ())

theorem winReduceOffsets (sub : Word) : Keeps settings (winReduceOffsets sub) := fun _ => rfl

theorem winGetByte (i : Word) : Keeps settings (winGetByte i) := .look_bind fun _ => wbufRead _

theorem winCompare (p d : Word) : ∀ (left : Nat) (n : Word), Keeps settings (winCompare p d left n)
  | 0, n => .pure n
  | left + 1, _ => .bind (wbufRead _) fun _ => .bind (wbufRead _) fun _ => .ite (winCompare p d left _) (.pure _)

theorem winMatchLen (i r limit : Word) : Keeps settings (winMatchLen i r limit) :=
  .look_bind fun _ => winCompare _ _ _ _

theorem winIndexCheck (i : Word) : Keeps settings (winIndexCheck i) := fun s => check _ _ s

theorem mfCreate : Keeps settings mfCreate :=
  .look_bind fun _ => .look_bind fun _ => .look_bind fun _ => .bind (winCreate _ _ _) fun _ => .put fun _ => rfl

theorem mfInit : Keeps settings mfInit :=
  .bind winInit fun _ => .bind (.put fun _ => rfl) fun _ => .bind (winReduceOffsets _) fun _ => .put fun _ => rfl

theorem mfHashAt (c : Word) : Keeps settings (mfHashAt c) :=
  .look_bind fun _ => .bind (wbufRead _) fun _ => .bind (wbufRead _) fun _ =>
    .ite (.bind (wbufRead _) fun _ => .bind (wbufRead _) fun _ => .pure _) (.pure _)

theorem mfNormalize : Keeps settings mfNormalize :=
  .look_bind fun _ => .bind (.put fun _ => rfl) fun _ => winReduceOffsets _

theorem mfMovePos : Keeps settings mfMovePos :=
  .bind (.put fun _ => rfl) fun _ => .bind winMovePos fun _ => .look_bind fun _ => .ite mfNormalize (.pure ())

theorem mfExtend (pby c : Word) : ∀ (n : Nat) (len : Word), Keeps settings (mfExtend pby c n len)
  | 0, len => .pure len
  | n + 1, _ => .bind (wbufRead _) fun _ => .bind (wbufRead _) fun _ => .ite (mfExtend pby c n _) (.pure _)

theorem mfPutPair (off len dist : Word) : Keeps settings (mfPutPair off len dist) :=
  .bind (matchWrite _ _) fun _ => matchWrite _ _

theorem mfCloseWalk (p : WalkPos) : Keeps settings (mfCloseWalk p) := .bind (sonWrite _ _) fun _ => sonWrite _ _

theorem mfGraft (p : WalkPos) (cp : Word) : Keeps settings (mfGraft p cp) :=
  .bind (sonRead _) fun _ => .bind (sonWrite _ _) fun _ => .bind (sonRead _) fun _ => sonWrite _ _

theorem mfDescend (w : Walk) (p : WalkPos) (cp pby len : Word) : Keeps settings (mfDescend w p cp pby len) :=
  .bind (wbufRead _) fun _ => .bind (wbufRead _) fun _ =>
    .ite (.bind (sonWrite _ _) fun _ => .bind (sonRead _) fun _ => .pure _)
      (.bind (sonWrite _ _) fun _ => .bind (sonRead _) fun _ => .pure _)

theorem mfCandidateLen (w : Walk) (p : WalkPos) (pby : Word) : Keeps settings (mfCandidateLen w p pby) :=
  .bind (wbufRead _) fun _ => .bind (wbufRead _) fun _ => .ite (.bind (mfExtend _ _ _ _) fun _ => .pure _) (.pure _)

theorem mfWalkCollect (w : Walk) : ∀ (n : Nat) (p : WalkPos), Keeps settings (mfWalkCollect w n p)
  | 0, _ => .bind (mfCloseWalk _) fun _ => .pure _
  | n + 1, _ => .ite (.bind (mfCloseWalk _) fun _ => .pure _)
    (.look_bind fun _ => .look_bind fun _ => .look_bind fun _ => .bind (mfCandidateLen _ _ _) fun _ => .ite
      (.bind (mfPutPair _ _ _) fun _ => .ite (.bind (mfGraft _ _) fun _ => .pure _)
        (.bind (mfDescend _ _ _ _ _) fun _ => mfWalkCollect w n _))
      (.bind (mfDescend _ _ _ _ _) fun _ => mfWalkCollect w n _))

theorem mfWalkSkip (w : Walk) : ∀ (n : Nat) (p : WalkPos), Keeps settings (mfWalkSkip w n p)
  | 0, _ => mfCloseWalk _
  | n + 1, _ => .ite (mfCloseWalk _)
    (.look_bind fun _ => .look_bind fun _ => .look_bind fun _ => .bind (mfCandidateLen _ _ _) fun _ =>
      .ite (mfGraft _ _) (.bind (mfDescend _ _ _ _ _) fun _ => mfWalkSkip w n _))

theorem mfHeadMatches (w : Walk) (head : Word) : Keeps settings (mfHeadMatches w head) :=
  .ite (.pure _) (.look_bind fun _ => .bind (wbufRead _) fun _ => .bind (wbufRead _) fun _ => .pure _)

theorem mfHead2 (w : Walk) (head2 : Word) : Keeps settings (mfHead2 w head2) :=
  .bind (mfHeadMatches _ _) fun _ =>
    .ite (.look_bind fun _ => .bind (mfPutPair _ _ _) fun _ => .pure _) (.pure _)

theorem mfHead3 (w : Walk) (off maxLen head2 head3 : Word) : Keeps settings (mfHead3 w off maxLen head2 head3) :=
  .bind (mfHeadMatches _ _) fun _ =>
    .ite (.look_bind fun _ => .bind (mfPutPair _ _ _) fun _ => .pure _) (.pure _)

theorem mfShortHeads (w : Walk) (h : Hashes) (curMatch : Word) : Keeps settings (mfShortHeads w h curMatch) :=
  .look_bind fun _ => .bind (hashRead _) fun _ => .bind (hashRead _) fun _ => .bind (hashWrite _ _) fun _ =>
    .bind (hashWrite _ _) fun _ => .bind (mfHead2 _ _) fun _ => .bind (mfHead3 _ _ _ _ _) fun _ =>
      .ite (.pure _) (.pure _)

theorem mfDirectHead (w : Walk) (curMatch off maxLen : Word) : Keeps settings (mfDirectHead w curMatch off maxLen) :=
  .look_bind fun _ => .ite
    (.look_bind fun _ => .bind (wbufRead _) fun _ => .bind (wbufRead _) fun _ =>
      .ite (.look_bind fun _ => .bind (mfPutPair _ _ _) fun _ => .pure _) (.pure _))
    (.pure _)

theorem mfSearch (lenLimit : Word) : Keeps settings (mfSearch lenLimit) :=
  .look_bind fun _ => .look_bind fun _ => .bind (mfHashAt _) fun _ => .bind (hashRead _) fun _ =>
    .ite_bind (mfShortHeads _ _ _) (.pure _) fun _ => .bind (hashWrite _ _) fun _ =>
      .bind (mfDirectHead _ _ _ _) fun _ => mfWalkCollect _ _ _

theorem mfGetMatches : Keeps settings mfGetMatches :=
  .look_bind fun
    | none => .bind mfMovePos fun _ => .bind (.put fun _ => rfl) fun _ => .pure _
    | some _ => .bind (mfSearch _) fun _ => .bind mfMovePos fun _ => .bind (.put fun _ => rfl) fun _ => .pure _

theorem mfInsert (lenLimit : Word) : Keeps settings (mfInsert lenLimit) :=
  .look_bind fun _ => .look_bind fun _ => .bind (mfHashAt _) fun _ =>
    .when_bind (hashWrite _ _) (fun _ => hashWrite _ _) fun _ => .bind (hashRead _) fun _ =>
      .bind (hashWrite _ _) fun _ => mfWalkSkip _ _ _

theorem mfSkipOne : Keeps settings mfSkipOne :=
  .look_bind fun
    | none => mfMovePos
    | some _ => .bind (mfInsert _) fun _ => mfMovePos

theorem mfSkip : ∀ n : Nat, Keeps settings (mfSkip n)
  | 0 => .pure ()
  | n + 1 => .bind mfSkipOne fun _ => mfSkip n

theorem mfHashCheck : Keeps settings mfHashCheck := fun s => check _ _ s

/-! ### The price tables -/

theorem forUp {body : Word → Eng Unit} (h : ∀ i, Keeps settings (body i)) :
    ∀ (n : Nat) (i : Word), Keeps settings (forUp body n i)
  | 0, _ => .pure ()
  | n + 1, i => .bind (h i) fun _ => forUp h n _

theorem specPosPrices : ∀ (n : Nat) (i : Word), Keeps settings (specPosPrices n i)
  | 0, _ => .pure _
  | n + 1, _ => .bind (btReversePrice _ _ _) fun _ => .bind (specPosPrices n _) fun _ => .pure _

theorem fillSlot (lps slot : Word) : Keeps settings (fillSlot lps slot) :=
  .bind (btPrice _ _ _) fun _ => posSlotPriceWrite _ _

theorem fillSlotDirect (lps slot : Word) : Keeps settings (fillSlotDirect lps slot) :=
  .bind (posSlotPriceRead _) fun _ => posSlotPriceWrite _ _

theorem fillDistNear (lps i : Word) : Keeps settings (fillDistNear lps i) :=
  .bind (posSlotPriceRead _) fun _ => distPriceWrite _ _

theorem fillDistFar (lps : Word) : ∀ (l : List Word) (i : Word), Keeps settings (fillDistFar lps l i)
  | [], _ => .pure ()
  | _ :: l, _ => .bind (posSlotPriceRead _) fun _ => .bind (distPriceWrite _ _) fun _ => fillDistFar lps l _

theorem fillClass (tmp : List Word) (lps : Word) : Keeps settings (fillClass tmp lps) :=
  .look_bind fun _ => .bind (forUp (fillSlot _) _ _) fun _ => .bind (forUp (fillSlotDirect _) _ _) fun _ =>
    .bind (forUp (fillDistNear _) _ _) fun _ => fillDistFar _ _ _

theorem fillDistancesPrices : Keeps settings fillDistancesPrices :=
  .bind (specPosPrices _ _) fun _ => .bind (forUp (fillClass _) _ _) fun _ => .put fun _ => rfl

theorem fillAlign (i : Word) : Keeps settings (fillAlign i) :=
  .bind (btReversePrice _ _ _) fun _ => alignPriceWrite _ _

theorem fillAlignPrices : Keeps settings fillAlignPrices := .bind (forUp fillAlign _ _) fun _ => .put fun _ => rfl

theorem fillLen (k : Bool) (ps i : Word) : Keeps settings (fillLen k ps i) :=
  .bind (lenPrice _ _ _) fun _ => lenPriceWrite _ _ _

theorem updateLenTable (k : Bool) (ps : Word) : Keeps settings (updateLenTable k ps) :=
  .look_bind fun _ => .bind (forUp (fillLen _ _) _ _) fun _ => lenCounterWrite _ _ _

theorem lenCountDown (k : Bool) (ps : Word) : Keeps settings (lenCountDown k ps) :=
  .bind (lenCounterRead _ _) fun _ => .bind (lenCounterWrite _ _ _) fun _ => .ite (updateLenTable _ _) (.pure ())

theorem shortRepPrice (st : CState) (ps : Word) : Keeps settings (shortRepPrice st ps) :=
  .bind (nodePrice _ _) fun _ => .look_bind fun _ => .bind (nodePrice _ _) fun _ => .pure _

theorem pureRepPrice (i : Word) (st : CState) (ps : Word) : Keeps settings (pureRepPrice i st ps) :=
  .ite (.bind (nodePrice _ _) fun _ => .look_bind fun _ => .bind (nodePrice _ _) fun _ => .pure _)
    (.ite (.bind (nodePrice _ _) fun _ => .bind (nodePrice _ _) fun _ => .pure _)
      (.bind (nodePrice _ _) fun _ => .bind (nodePrice _ _) fun _ => .bind (nodePrice _ _) fun _ => .pure _))

theorem repPrice (i len : Word) (st : CState) (ps : Word) : Keeps settings (repPrice i len st ps) :=
  .bind (lenPriceRead _ _) fun _ => .bind (pureRepPrice _ _ _) fun _ => .pure _

theorem distPrice (d lps : Word) : Keeps settings (distPrice d lps) :=
  .ite (distPriceRead _) (.bind (posSlotPriceRead _) fun _ => .bind (alignPriceRead _) fun _ => .pure _)

theorem posLenPrice (d len ps : Word) : Keeps settings (posLenPrice d len ps) :=
  .bind (distPrice _ _) fun _ => .bind (lenPriceRead _ _) fun _ => .pure _

/-! ### The parser -/

theorem extendMatch (lenRes numPairs : Word) : Keeps settings (extendMatch lenRes numPairs) :=
  .look_bind fun _ => .look_bind fun _ =>
    .ite (.bind (matchRead _) fun _ => .bind (winMatchLen _ _ _) fun _ => .pure _) (.pure _)

theorem readMatchDistances : Keeps settings readMatchDistances :=
  .bind mfGetMatches fun _ => .ite_bind (.pure _) (.bind (matchRead _) fun _ => extendMatch _ _) fun _ =>
    .bind (.put fun _ => rfl) fun _ => .pure _

theorem encMovePos (n : Word) : Keeps settings (encMovePos n) :=
  .ite (.bind (mfSkip _) fun _ => .put fun _ => rfl) (.pure ())

theorem optModify (k : Word) (f : OptRec → OptRec) : Keeps settings (optModify k f) :=
  .bind (optRead _) fun _ => optWrite _ _

theorem relax (k c : Word) (f : OptRec → OptRec) : Keeps settings (relax k c f) :=
  .bind (optRead _) fun _ => .ite (optWrite _ _) (.pure ())

theorem extendTurns : ∀ (n : Nat) (lenEnd : Word), Keeps settings (extendTurns n lenEnd)
  | 0, _ => .pure ()
  | n + 1, _ => .bind (optModify _ _) fun _ => extendTurns n _

theorem extendTo (lenEnd k : Word) : Keeps settings (extendTo lenEnd k) := .bind (extendTurns _ _) fun _ => .pure _

theorem expandRecord (r : OptRec) (posMem : Word) : Keeps settings (expandRecord r posMem) :=
  .ite (.bind (optModify _ _) fun _ => .ite (optModify _ _) (.pure ())) (.pure ())

theorem backwardLoop : ∀ (n : Nat) (cur posMem backMem : Word), Keeps settings (backwardLoop n cur posMem backMem)
  | 0, _, _, _ => raise _
  | n + 1, _, _, _ => .bind (optRead _) fun _ => .bind (expandRecord _ _) fun _ => .bind (optRead _) fun _ =>
    .bind (optWrite _ _) fun _ => .ite (.pure ()) (backwardLoop n _ _ _)

theorem backward (cur : Word) : Keeps settings (backward cur) :=
  .bind (.put fun _ => rfl) fun _ => .bind (optRead _) fun _ => .bind (backwardLoop _ _ _ _) fun _ =>
    .bind (optRead _) fun _ => .bind (.put fun _ => rfl) fun _ => .pure _

theorem repLengths (reps : Reps) : Keeps settings (repLengths reps) :=
  .bind (winMatchLen _ _ _) fun _ => .bind (winMatchLen _ _ _) fun _ => .bind (winMatchLen _ _ _) fun _ =>
    .bind (winMatchLen _ _ _) fun _ => .pure _

theorem infinityFrom : ∀ (n : Nat) (l : Word), Keeps settings (infinityFrom n l)
  | 0, _ => .pure ()
  | n + 1, _ => .bind (optModify _ _) fun _ => infinityFrom n _

theorem repEdges (price ps back : Word) : ∀ (n : Nat) (l : Word), Keeps settings (repEdges price ps back n l)
  | 0, _ => .pure ()
  | n + 1, _ => .bind (lenPriceRead _ _) fun _ => .bind (relax _ _ _) fun _ => repEdges price ps back n _

theorem repEdgesOf (repMatchPrice ps : Word) (st : CState) (lens : Reps) (i : Nat) :
    Keeps settings (repEdgesOf repMatchPrice ps st lens i) :=
  .ite (.bind (pureRepPrice _ _ _) fun _ => repEdges _ _ _ _ _) (.pure ())

theorem skipPairs (l : Word) : ∀ (n : Nat) (offs : Word), Keeps settings (skipPairs l n offs)
  | 0, _ => raise _
  | n + 1, _ => .bind (matchRead _) fun _ => .ite (skipPairs l n _) (.pure _)

theorem matchEdges (normalMatchPrice numPairs ps : Word) :
    ∀ (n : Nat) (l offs : Word), Keeps settings (matchEdges normalMatchPrice numPairs ps n l offs)
  | 0, _, _ => raise _
  | n + 1, _, _ => .bind (matchRead _) fun _ => .bind (posLenPrice _ _ _) fun _ => .bind (relax _ _ _) fun _ =>
    .bind (matchRead _) fun _ => .ite (.ite (.pure ()) (matchEdges _ _ _ n _ _)) (matchEdges _ _ _ n _ _)

theorem literalPrice (st : CState) (ps position : Word) (prev matchByte curByte : Byte) :
    Keeps settings (literalPrice st ps position prev matchByte curByte) :=
  .look_bind fun _ => .bind (nodePrice _ _) fun _ => .look_bind fun _ => .bind (litPrice _ _ _ _) fun _ => .pure _

theorem isMatchPrice (st : CState) (ps : Word) (b : Bool) : Keeps settings (isMatchPrice st ps b) :=
  .look_bind fun _ => nodePrice _ _

theorem arrive (cur : Word) : Keeps settings (arrive cur) :=
  .bind (optRead _) fun _ => .ite_bind
    (.ite (.bind (optRead _) fun _ => .pure _) (.bind (optRead _) fun _ => .pure _))
    (.bind (optRead _) fun _ => .pure _)
    fun _ => .ite (.bind (optRead _) fun _ => .pure _) (.bind (optRead _) fun _ => .pure _)

theorem nodeAt (cur position : Word) (st : CState) (reps : Reps) : Keeps settings (nodeAt cur position st reps) :=
  .bind (optRead _) fun _ => .bind (winGetByte _) fun _ => .bind (winGetByte _) fun _ => .look_bind fun _ =>
    .bind (winGetByte _) fun _ => .bind (literalPrice _ _ _ _ _ _) fun _ => .bind (isMatchPrice _ _ _) fun _ =>
      .bind (nodePrice _ _) fun _ => .look_bind fun _ => .look_bind fun _ => .pure _

theorem literalEdge (nd : Node) : Keeps settings (literalEdge nd) :=
  .bind (optRead _) fun _ => .ite (.bind (optWrite _ _) fun _ => .pure _) (.pure _)

theorem shortRepEdge (nd : Node) : Keeps settings (shortRepEdge nd) :=
  .bind (optRead _) fun _ => .ite
    (.bind (shortRepPrice _ _) fun _ => .ite (.bind (optWrite _ _) fun _ => .pure _) (.pure _))
    (.pure _)

theorem repStartPrice (st : CState) (ps : Word) : Keeps settings (repStartPrice st ps) :=
  .bind (isMatchPrice _ _ _) fun _ => .bind (nodePrice _ _) fun _ => .pure _

theorem litRep0Edge (nd : Node) (lenEnd : Word) : Keeps settings (litRep0Edge nd lenEnd) :=
  .look_bind fun _ => .bind (winMatchLen _ _ _) fun _ => .ite
    (.look_bind fun _ => .bind (repStartPrice _ _) fun _ => .bind (extendTo _ _) fun _ =>
      .bind (repPrice _ _ _ _) fun _ => .bind (relax _ _ _) fun _ => .pure _)
    (.pure _)

theorem tripleEdge (nd : Node) (lenEnd : Word) (st2 : CState) (price len d back : Word) :
    Keeps settings (tripleEdge nd lenEnd st2 price len d back) :=
  .ite
    (.look_bind fun _ => .bind (winMatchLen _ _ _) fun _ => .ite
      (.look_bind fun _ => .look_bind fun _ => .bind (nodePrice _ _) fun _ => .bind (winGetByte _) fun _ =>
        .look_bind fun _ => .bind (winGetByte _) fun _ => .bind (winGetByte _) fun _ =>
          .bind (litPrice _ _ _ _) fun _ => .look_bind fun _ => .bind (repStartPrice _ _) fun _ =>
            .bind (extendTo _ _) fun _ => .bind (repPrice _ _ _ _) fun _ => .bind (relax _ _ _) fun _ => .pure _)
      (.pure _))
    (.pure _)

theorem repEdgesAt (nd : Node) (ri : Word) : ∀ (n : Nat) (l lenEnd : Word), Keeps settings (repEdgesAt nd ri n l lenEnd)
  | 0, _, _ => .pure _
  | n + 1, _, _ => .bind (extendTo _ _) fun _ => .bind (repPrice _ _ _ _) fun _ => .bind (relax _ _ _) fun _ =>
    repEdgesAt nd ri n _ _

theorem repTurn (nd : Node) (ri : Nat) (lenEnd startLen : Word) : Keeps settings (repTurn nd ri lenEnd startLen) :=
  .bind (winMatchLen _ _ _) fun _ => .ite
    (.bind (repEdgesAt _ _ _ _ _) fun _ => .bind (repPrice _ _ _ _) fun _ => .bind (tripleEdge _ _ _ _ _ _ _) fun _ =>
      .pure _)
    (.pure _)

theorem repTurns (nd : Node) (lenEnd : Word) : Keeps settings (repTurns nd lenEnd) :=
  .bind (repTurn _ _ _ _) fun _ => .bind (repTurn _ _ _ _) fun _ => .bind (repTurn _ _ _ _) fun _ => repTurn _ _ _ _

theorem clipMatches (newLen numPairs avail : Word) : Keeps settings (clipMatches newLen numPairs avail) :=
  .ite (.bind (skipPairs _ _ _) fun _ => .bind (matchWrite _ _) fun _ => .pure _) (.pure _)

theorem matchEdgesAt (nd : Node) (normalMatchPrice numPairs : Word) :
    ∀ (n : Nat) (len offs lenEnd : Word), Keeps settings (matchEdgesAt nd normalMatchPrice numPairs n len offs lenEnd)
  | 0, _, _, _ => raise _
  | n + 1, _, _, _ => .bind (matchRead _) fun _ => .bind (posLenPrice _ _ _) fun _ => .bind (relax _ _ _) fun _ =>
    .bind (matchRead _) fun _ => .ite
      (.bind (tripleEdge _ _ _ _ _ _ _) fun _ => .ite (.pure _) (matchEdgesAt _ _ _ n _ _ _))
      (matchEdgesAt _ _ _ n _ _ _)

theorem matchTurn (nd : Node) (newLen numPairs startLen lenEnd : Word) :
    Keeps settings (matchTurn nd newLen numPairs startLen lenEnd) :=
  .bind (clipMatches _ _ _) fun _ => .ite
    (.bind (nodePrice _ _) fun _ => .bind (extendTo _ _) fun _ => .bind (skipPairs _ _ _) fun _ =>
      matchEdgesAt _ _ _ _ _ _ _)
    (.pure _)

theorem edgesFrom (nd : Node) (newLen numPairs lenEnd : Word) : Keeps settings (edgesFrom nd newLen numPairs lenEnd) :=
  .bind (literalEdge _) fun _ => .bind (shortRepEdge _) fun _ => .ite (.pure _)
    (.ite_bind (litRep0Edge _ _) (.pure _) fun _ => .bind (repTurns _ _) fun _ => matchTurn _ _ _ _ _)

theorem forwardPass : ∀ (n : Nat) (last lenEnd position : Word), Keeps settings (forwardPass n last lenEnd position)
  | 0, _, _, _ => raise _
  | n + 1, _, _, _ => .ite (backward _) (.bind readMatchDistances fun _ => .look_bind fun _ => .ite
    (.bind (.put fun _ => rfl) fun _ => backward _)
    (.bind (arrive _) fun _ => .bind (optModify _ _) fun _ => .bind (nodeAt _ _ _ _) fun _ =>
      .bind (edgesFrom _ _ _ _) fun _ => forwardPass n _ _ _))

theorem firstEdges (position lenMain numPairs : Word) (lens : Reps) (curByte matchByte : Byte) :
    Keeps settings (firstEdges position lenMain numPairs lens curByte matchByte) :=
  .look_bind fun _ => .bind (optModify _ _) fun _ => .look_bind fun _ => .look_bind fun _ =>
    .bind (literalPrice _ _ _ _ _ _) fun _ => .bind (optModify _ _) fun _ => .bind (isMatchPrice _ _ _) fun _ =>
      .bind (nodePrice _ _) fun _ => .when_bind (shortRepPrice _ _) (fun _ => relax _ _ _) fun _ => .ite
        (.bind (optRead _) fun _ => .pure _)
        (.bind (optModify _ _) fun _ => .look_bind fun _ => .bind (optModify _ _) fun _ =>
          .bind (infinityFrom _ _) fun _ => .bind (repEdgesOf _ _ _ _ _) fun _ => .bind (repEdgesOf _ _ _ _ _) fun _ =>
            .bind (repEdgesOf _ _ _ _ _) fun _ => .bind (repEdgesOf _ _ _ _ _) fun _ => .bind (nodePrice _ _) fun _ =>
              .when_bind (skipPairs _ _ _) (fun _ => matchEdges _ _ _ _ _ _) fun _ => forwardPass _ _ _ _)

theorem passStart : Keeps settings passStart :=
  .look_bind fun _ => .ite (.bind (.put fun _ => rfl) fun _ => .pure _) readMatchDistances

theorem newPass (position : Word) : Keeps settings (newPass position) :=
  .bind (.put fun _ => rfl) fun _ => .bind passStart fun _ => .look_bind fun _ => .ite (.pure _)
    (.look_bind fun _ => .bind (repLengths _) fun _ => .look_bind fun _ => .ite
      (.bind (encMovePos _) fun _ => .pure _)
      (.ite (.bind (matchRead _) fun _ => .bind (encMovePos _) fun _ => .pure _)
        (.bind (winGetByte _) fun _ => .bind (winGetByte _) fun _ => .ite (.pure _) (firstEdges _ _ _ _ _ _))))

theorem getOptimum (position : Word) : Keeps settings (getOptimum position) :=
  .look_bind fun _ => .ite (.bind (optRead _) fun _ => .bind (.put fun _ => rfl) fun _ => .pure _) (newPass _)

/-! ### The encoder -/

theorem setPhase (p : Phase) : Keeps settings (setPhase p) := fun _ => rfl

theorem fillLenTables : Keeps settings fillLenTables :=
  .look_bind fun _ => .bind (forUp (updateLenTable _) _ _) fun _ => forUp (updateLenTable _) _ _

theorem encStart : Keeps settings encStart :=
  .look_bind fun _ => .bind (check _ _) fun _ => .bind (.put fun _ => rfl) fun _ => .bind mfCreate fun _ =>
    .bind (.put fun _ => rfl) fun _ => .bind (setPhase _) fun _ => .bind mfInit fun _ =>
      .bind fillDistancesPrices fun _ => .bind fillAlignPrices fun _ => fillLenTables

theorem encodeLiteral (ps : Word) : Keeps settings (encodeLiteral ps) :=
  .look_bind fun _ => .look_bind fun _ => .bind (rceEncodeBit _ _) fun _ => .look_bind fun _ =>
    .bind (winGetByte _) fun _ => .look_bind fun _ => .look_bind fun _ => .look_bind fun _ => .ite
      (.bind (litEncode _ _) fun _ => .bind (.put fun _ => rfl) fun _ => cstateSet _)
      (.look_bind fun _ => .bind (winGetByte _) fun _ => .bind (litEncodeMatched _ _ _) fun _ =>
        .bind (.put fun _ => rfl) fun _ => cstateSet _)

theorem encodeRepChoice (st : CState) (ps len back : Word) : Keeps settings (encodeRepChoice st ps len back) :=
  .ite (.bind (rceEncodeBit _ _) fun _ => .look_bind fun _ => rceEncodeBit _ _)
    (.bind (rceEncodeBit _ _) fun _ => .ite (rceEncodeBit _ _) (.bind (rceEncodeBit _ _) fun _ => rceEncodeBit _ _))

theorem encodeRep (ps len back : Word) : Keeps settings (encodeRep ps len back) :=
  .look_bind fun _ => .bind (rceEncodeBit _ _) fun _ => .bind (encodeRepChoice _ _ _ _) fun _ => .ite
    (.bind (cstateSet _) fun _ => .bind (repUse _) fun _ => .pure ())
    (.bind (lenEncode _ _ _) fun _ => .bind (lenCountDown _ _) fun _ => .bind (cstateSet _) fun _ =>
      .bind (repUse _) fun _ => .pure ())

theorem encodeMatch (ps len dist : Word) : Keeps settings (encodeMatch ps len dist) :=
  .look_bind fun _ => .bind (rceEncodeBit _ _) fun _ => .bind (lenEncode _ _ _) fun _ =>
    .bind (lenCountDown _ _) fun _ => .bind (distEncode _ _) fun _ => .when (.put fun _ => rfl) fun _ =>
      .bind (repPush _) fun _ => .bind (.put fun _ => rfl) fun _ => cstateSet _

theorem encodeCopy (ps len back : Word) : Keeps settings (encodeCopy ps len back) :=
  .look_bind fun _ => .look_bind fun _ => .bind (rceEncodeBit _ _) fun _ =>
    .ite_bind (encodeRep _ _ _) (encodeMatch _ _ _) fun _ => .look_bind fun _ => .bind (winGetByte _) fun _ =>
      .put fun _ => rfl

theorem encodeSymbol (len back : Word) : Keeps settings (encodeSymbol len back) :=
  .look_bind fun _ => .look_bind fun _ => .ite_bind (encodeLiteral _) (encodeCopy _ _ _) fun _ => .put fun _ => rfl

theorem encodeFirstByte : Keeps settings encodeFirstByte :=
  .bind readMatchDistances fun _ => .look_bind fun _ => .look_bind fun _ => .bind (rceEncodeBit _ _) fun _ =>
    .bind (cstateSet _) fun _ => .look_bind fun _ => .bind (winGetByte _) fun _ => .look_bind fun _ =>
      .bind (litEncode _ _) fun _ => .put fun _ => rfl

theorem encodeEndMarker : Keeps settings encodeEndMarker :=
  .look_bind fun _ => .look_bind fun _ => .look_bind fun _ => .look_bind fun _ => .bind (rceEncodeBit _ _) fun _ =>
    .bind (rceEncodeBit _ _) fun _ => .bind (cstateSet _) fun _ => .bind (lenEncode _ _ _) fun _ =>
      .bind (lenCountDown _ _) fun _ => .bind (distEncode _ _) fun _ => .pure ()

theorem encFinishStream : Keeps settings encFinishStream :=
  .look_bind fun _ => .when encodeEndMarker fun _ => .bind rceFlush fun _ => setPhase _

theorem finishIfEmpty : Keeps settings finishIfEmpty := .look_bind fun _ => .ite encFinishStream (.pure ())

theorem afterDecision : Keeps settings afterDecision :=
  .look_bind fun _ => .ite (.when fillDistancesPrices fun _ => .when fillAlignPrices fun _ => finishIfEmpty) (.pure ())

theorem setR0 (v : Word) : Keeps settings (setR0 v) := fun _ => rfl

theorem setR1 (v : Word) : Keeps settings (setR1 v) := fun _ => rfl

theorem encFirstStep : Keeps settings encFirstStep :=
  .look_bind fun _ => .ite encFinishStream
    (.bind encodeFirstByte fun _ => .bind (setR0 _) fun _ => .bind (setR1 _) fun _ => finishIfEmpty)

theorem encNextStep : Keeps settings encNextStep :=
  .look_bind fun _ => .bind (getOptimum _) fun _ => .bind (encodeSymbol _ _) fun _ => .bind (setR0 _) fun _ =>
    .bind (setR1 _) fun _ => afterDecision

theorem encStep : Keeps settings encStep := .look_bind fun _ => .ite encFirstStep encNextStep

theorem encRunLoop : ∀ n : Nat, Keeps settings (encRunLoop n)
  | 0 => .pure ()
  | n + 1 => .bind encStep fun _ => .look_bind fun _ => .ite (.pure ()) (encRunLoop n)

/-! ### The decoder -/

theorem owPutByte (b : Byte) : Keeps settings (owPutByte b) :=
  .look_bind fun _ => .bind (owbufWrite _ _) fun _ => .bind (.put fun _ => rfl) fun _ => .bind (sinkWrite _) fun _ =>
    .put fun _ => rfl

theorem owGetByte (r : Word) : Keeps settings (owGetByte r) := fun s => by
  unfold Machine.owGetByte
  dsimp only
  split <;> rfl

theorem owCopy (r : Word) : ∀ n : Nat, Keeps settings (owCopy r n)
  | 0 => .pure ()
  | n + 1 => .bind (owGetByte _) fun _ => .bind (owPutByte _) fun _ => owCopy r n

theorem decClear (s : State) : settings (decClear s) = settings s := by
  unfold Machine.decClear
  cases s.status.hdrOk <;> rfl

theorem decStart : Keeps settings decStart :=
  .look_bind fun _ => .bind (check _ _) fun _ => .bind (.put decClear) fun _ => rcdInit

theorem distCheck (isMatch : Bool) : Keeps settings (distCheck isMatch) :=
  .look_bind fun _ => .look_bind fun _ => .ite (.ite (.bind (.put fun _ => rfl) fun _ => .pure _) (raise _)) (.pure _)

theorem copyFromRep0 (len : Word) : Keeps settings (copyFromRep0 len) :=
  .look_bind fun _ => .look_bind fun _ => .bind (owCopy _ _) fun _ => .pure _

theorem decodeLiteral (st : CState) : Keeps settings (decodeLiteral st) :=
  .look_bind fun _ => .ite_bind (.pure _) (owGetByte _) fun _ => .look_bind fun _ => .ite_bind (litDecode _)
    (.look_bind fun _ => .bind (owGetByte _) fun _ => litDecodeMatched _ _)
    fun _ => .bind (owPutByte _) fun _ => .bind (cstateSet _) fun _ => .pure _

theorem decodeLongRep (st : CState) (ps i : Word) : Keeps settings (decodeLongRep st ps i) :=
  .bind (repUse _) fun _ => .bind (lenDecode _ _) fun _ => .bind (cstateSet _) fun _ => .bind (distCheck _) fun _ =>
    .bind (copyFromRep0 _) fun _ => .pure _

theorem decodeShortRep (st : CState) : Keeps settings (decodeShortRep st) :=
  .bind (cstateSet _) fun _ => .bind (distCheck _) fun _ => .look_bind fun _ => .bind (owGetByte _) fun _ =>
    .bind (owPutByte _) fun _ => .pure _

theorem decodeRep (st : CState) (ps : Word) : Keeps settings (decodeRep st ps) :=
  .look_bind fun _ => .bind (check _ _) fun _ => .bind (rcdDecodeBit _) fun _ => .ite
    (.bind (rcdDecodeBit _) fun _ =>
      .ite (.bind (rcdDecodeBit _) fun _ => decodeLongRep _ _ _) (decodeLongRep _ _ _))
    (.look_bind fun _ => .bind (rcdDecodeBit _) fun _ => .ite (decodeLongRep _ _ _) (decodeShortRep _))

theorem decodeMatch (st : CState) (ps : Word) : Keeps settings (decodeMatch st ps) :=
  .bind (lenDecode _ _) fun _ => .bind (cstateSet _) fun _ => .bind (distDecode _) fun _ => .bind (repPush _) fun _ =>
    .bind (distCheck _) fun _ => .ite (.pure _) (.bind (copyFromRep0 _) fun _ => .pure _)

theorem decodeOne : Keeps settings decodeOne :=
  .look_bind fun _ => .look_bind fun _ => .look_bind fun _ => .look_bind fun _ => .bind (rcdDecodeBit _) fun _ => .ite
    (.bind (rcdDecodeBit _) fun _ => .ite (decodeRep _ _) (decodeMatch _ _))
    (decodeLiteral _)

theorem decodeSymbol : Keeps settings decodeSymbol :=
  .look_bind fun _ => .ite (.bind (setPhase _) fun _ => .pure _)
    (.bind decodeOne fun _ => .ite (.pure _) (.look_bind fun _ => .when (setPhase _) fun _ => .pure _))

theorem decRunLoop : ∀ n : Nat, Keeps settings (decRunLoop n)
  | 0 => .pure ()
  | n + 1 => .bind decodeSymbol fun _ => .look_bind fun _ => .ite (.pure ()) (decRunLoop n)

theorem stateCommand (sel : Bool) (f : CState → CState) : Keeps settings (stateCommand sel f) :=
  .ite (.look_bind fun _ => .bind (cstateSet _) fun _ => setR0 _)
    (.look_bind fun _ => .bind (check _ _) fun _ => setR0 _)

/-! ### The commands -/

theorem command {i : Instr} {g : Gate} {body : Eng Unit} {s t : State} (hn : command i g body s = .next t)
    (h : Keeps settings body) : settings t = settings s :=
  h.command hn (fun _ => rfl) fun _ _ => rfl

/-- Every command but RESET, REG_WRITE and HDR_READ keeps the host's inputs and the options. (The gate `.any`, which
lets every state pass, is named where unification would else evaluate it away.) -/
theorem of_exec {s t : State} : ∀ {i : Instr}, exec i s = .next t →
    ¬(i = .reset ∨ i = .regWrite ∨ i = .hdrRead) → settings t = settings s
  | .reset, _, hi => absurd (.inl rfl) hi
  | .regWrite, _, hi => absurd (.inr (.inl rfl)) hi
  | .hdrRead, _, hi => absurd (.inr (.inr rfl)) hi
  | .nop, h, _ => command (g := .any) h (.pure ())
  | .regRead, h, _ => command (g := .any) h (.look_bind fun _ => .bind (check _ _) fun _ => .look_bind fun
    | some _ => setR0 _
    | none => raise _)
  | .probRead, h, _ => command (g := .any) h (.look_bind fun _ => .bind (probIndexCheck _) fun _ =>
    .bind (probRead _) fun _ => setR0 _)
  | .matchRead, h, _ => command (g := .any) h (.look_bind fun _ => .bind (matchRead _) fun _ => .bind (setR0 _) fun _ =>
    .look_bind fun _ => setR1 _)
  | .wbGetByte, h, _ => command h (.look_bind fun _ => .bind (winIndexCheck _) fun _ => .bind (winGetByte _) fun _ =>
    setR0 _)
  | .wbMatchLen, h, _ => command h (.look_bind fun _ => .look_bind fun _ => .look_bind fun _ =>
    .bind (winMatchLen _ _ _) fun _ => setR0 _)
  | .wbAvail, h, _ => command h (.look_bind fun _ => setR0 _)
  | .mfGetMatches, h, _ => command h (.bind mfGetMatches fun _ => .bind (setR0 _) fun _ =>
    .ite_bind (.pure _) (matchRead _) fun _ => setR1 _)
  | .mfSkip, h, _ => command h (.look_bind fun _ => mfSkip _)
  | .mfMovePos, h, _ => command h mfMovePos
  | .mfHash, h, _ => command h (.bind mfHashCheck fun _ => .look_bind fun _ => .look_bind fun _ =>
    .bind (mfHashAt _) fun _ => .bind (setR0 _) fun _ => setR1 _)
  | .rceBit _, h, _ => command h (.look_bind fun _ => .bind (probIndexCheck _) fun _ => rceEncodeBit _ _)
  | .rceDirect _, h, _ => command h (.look_bind fun _ => rceEncodeDirect _ _)
  | .rcdBit, h, _ => command h (.look_bind fun _ => .bind (probIndexCheck _) fun _ => .bind (rcdDecodeBit _) fun _ =>
    setR0 _)
  | .rcdDirect _, h, _ => command h (.bind (rcdDecodeDirect _) fun _ => setR0 _)
  | .priceBit _ _, h, _ => command (g := .any) h (.look_bind fun _ => .ite_bind (.bind (check _ _) fun _ => .pure _)
    (.bind (probIndexCheck _) fun _ => probRead _) fun _ => .bind (bitPrice _ _) fun _ => setR0 _)
  | .btEnc _, h, _ => command h (.look_bind fun _ => .look_bind fun _ => .bind (treeCheck _ _) fun _ =>
    btEncode _ _ _)
  | .btRevEnc _, h, _ => command h (.look_bind fun _ => .look_bind fun _ => .bind (treeCheck _ _) fun _ =>
    btReverseEncode _ _ _)
  | .btDec _, h, _ => command h (.look_bind fun _ => .bind (treeCheck _ _) fun _ => .bind (btDecode _ _) fun _ =>
    setR0 _)
  | .btRevDec _, h, _ => command h (.look_bind fun _ => .bind (treeCheck _ _) fun _ =>
    .bind (btReverseDecode _ _) fun _ => setR0 _)
  | .btPrice _, h, _ => command (g := .any) h (.look_bind fun _ => .look_bind fun _ => .bind (treeCheck _ _) fun _ =>
    .bind (btPrice _ _ _) fun _ => setR0 _)
  | .btRevPrice _, h, _ => command (g := .any) h (.look_bind fun _ => .look_bind fun _ => .bind (treeCheck _ _) fun _ =>
    .bind (btReversePrice _ _ _) fun _ => setR0 _)
  | .stChar _, h, _ => command h (stateCommand _ _)
  | .stMatch _, h, _ => command h (stateCommand _ _)
  | .stRep _, h, _ => command h (stateCommand _ _)
  | .stShortRep _, h, _ => command h (stateCommand _ _)
  | .litEnc, h, _ => command h (.look_bind fun _ => .look_bind fun _ => .look_bind fun _ =>
    .bind (check _ _) fun _ => .bind (check _ _) fun _ => .look_bind fun _ => litEncode _ _)
  | .litEncM, h, _ => command h (.look_bind fun _ => .look_bind fun _ => .look_bind fun _ => .look_bind fun _ =>
    .bind (check _ _) fun _ => .bind (check _ _) fun _ => .bind (check _ _) fun _ => .look_bind fun _ =>
      litEncodeMatched _ _ _)
  | .litDec, h, _ => command h (.look_bind fun _ => .look_bind fun _ => .bind (check _ _) fun _ => .look_bind fun _ =>
    .bind (litDecode _) fun _ => setR0 _)
  | .litDecM, h, _ => command h (.look_bind fun _ => .look_bind fun _ => .look_bind fun _ => .bind (check _ _) fun _ =>
    .bind (check _ _) fun _ => .look_bind fun _ => .bind (litDecodeMatched _ _) fun _ => setR0 _)
  | .litPrice _, h, _ => command (g := .any) h (.look_bind fun _ => .look_bind fun _ => .look_bind fun _ =>
    .look_bind fun _ => .bind probCheck fun _ => .bind (check _ _) fun _ => .bind (check _ _) fun _ =>
      .when (check _ _) fun _ => .look_bind fun _ => .bind (litPrice _ _ _ _) fun _ => setR0 _)
  | .lenEnc _, h, _ => command h (.look_bind fun _ => .look_bind fun _ => .bind (check _ _) fun _ =>
    .bind (psCheck _) fun _ => .bind (lenEncode _ _ _) fun _ => lenCountDown _ _)
  | .lenDec _, h, _ => command h (.look_bind fun _ => .bind (psCheck _) fun _ => .bind (lenDecode _ _) fun _ =>
    setR0 _)
  | .lenPrice _, h, _ => command (g := .any) h (.look_bind fun _ => .look_bind fun _ => .bind (check _ _) fun _ =>
    .bind (psCheck _) fun _ => .bind (lenPrice _ _ _) fun _ => setR0 _)
  | .distEnc, h, _ => command h (.look_bind fun _ => .look_bind fun _ => .bind (check _ _) fun _ =>
    .bind (distEncode _ _) fun _ => setR0 _)
  | .distDec, h, _ => command h (.look_bind fun _ => .bind (check _ _) fun _ => .bind (distDecode _) fun _ =>
    setR0 _)
  | .posSlot, h, _ => command (g := .any) h (.look_bind fun _ => setR0 _)
  | .repUse, h, _ => command h (.look_bind fun _ => .bind (check _ _) fun _ => .bind (repUse _) fun _ => setR0 _)
  | .repPush, h, _ => command h (.look_bind fun _ => repPush _)
  | .optGetOptimum, h, _ => command h (.look_bind fun _ => .bind (getOptimum _) fun _ => .bind (setR0 _) fun _ =>
    setR1 _)
  | .priceFillDist, h, _ => command h fillDistancesPrices
  | .priceFillAlign, h, _ => command h fillAlignPrices
  | .priceLenTable _, h, _ => command h (.look_bind fun _ => .bind (psCheck _) fun _ => updateLenTable _ _)
  | .pricePosLen, h, _ => command h (.look_bind fun _ => .look_bind fun _ => .look_bind fun _ =>
    .bind (check _ _) fun _ => .bind (psCheck _) fun _ => .bind (posLenPrice _ _ _) fun _ => setR0 _)
  | .priceRep, h, _ => command h (.look_bind fun _ => .look_bind fun _ => .look_bind fun _ => .look_bind fun _ =>
    .bind (check _ _) fun _ => .bind (check _ _) fun _ => .bind (check _ _) fun _ => .bind (psCheck _) fun _ =>
      .bind (repPrice _ _ _ _) fun _ => setR0 _)
  | .priceShortRep, h, _ => command h (.look_bind fun _ => .look_bind fun _ => .bind (check _ _) fun _ =>
    .bind (psCheck _) fun _ => .bind (shortRepPrice _ _) fun _ => setR0 _)
  | .encStart, h, _ => command h encStart
  | .hdrWrite, h, _ => command h (.look_bind fun _ => .bind (check _ _) fun _ => .look_bind fun _ =>
    .bind (sinkWrite _) fun _ => .bind (sinkWrite _) fun _ => .bind (sinkWrite _) fun _ => .bind (sinkWrite _) fun _ =>
      sinkWrite _)
  | .encStep, h, _ => command h encStep
  | .encRun, h, _ => command h (.bind (encRunLoop _) fun _ => .put fun _ => rfl)
  | .encSymbol, h, _ => command h (.look_bind fun _ => .look_bind fun _ => .bind (check _ _) fun _ =>
    encodeSymbol _ _)
  | .encFinish, h, _ => command h encFinishStream
  | .decStart, h, _ => command h decStart
  | .decStep, h, _ => command h (.bind decodeSymbol fun _ => .bind (setR0 _) fun _ => setR1 _)
  | .decRun, h, _ => command h (.look_bind fun _ => decRunLoop _)
  | .owGetByte, h, _ => command (g := .any) h (.look_bind fun _ => .look_bind fun _ => .bind (check _ _) fun _ =>
    .bind (owGetByte _) fun _ => setR0 _)
  | .owPutByte, h, _ => command h (.look_bind fun _ => .bind (check _ _) fun _ => owPutByte _)
  | .owCopy, h, _ => command h (.look_bind fun _ => .look_bind fun _ => .look_bind fun _ => .bind (check _ _) fun _ =>
    .bind (check _ _) fun _ => owCopy _ _)

end KeepsSettings

end Sys2Proof.Machine
end

section
/-! SUPPORT. The three commands that change the operands or the options: RESET keeps the port, the end-of-data signal
and DICT_CAP; REG_WRITE changes the options only outside a stream, and HDR_READ only where its gate lets it run. -/

namespace Sys2Proof.Machine

/-- The options while a stream is active; nothing outside one. -/
def optionsInStream (s : State) : Option Options := if streamActive s then some s.opts else none

theorem optionsInStream_of_active {s : State} (h : streamActive s = true) : optionsInStream s = some s.opts := if_pos h

theorem optionsInStream_of_inactive {s : State} (h : streamActive s = false) : optionsInStream s = none :=
  if_neg (by rw [h]; exact Bool.noConfusion)

theorem faultEntry_optionsInStream (c : ErrCode) (s : State) :
    optionsInStream (faultEntry c s) = optionsInStream s := by
  simp [optionsInStream, streamActive]

/-- The host's inputs, and the options of an active stream: what REG_WRITE keeps. -/
def streamSettings (s : State) : (List Transaction × Bool × Nat × Word × Word × Word × Word) × Option Options :=
  (hostInputs s, optionsInStream s)

theorem faultEntry_streamSettings (c : ErrCode) (s : State) : streamSettings (faultEntry c s) = streamSettings s :=
  Prod.ext rfl (faultEntry_optionsInStream c s)

theorem outside_stream_of_inactive {s : State} (h : streamActive s = false) :
    s.status.phase = .idle ∨ s.status.phase = .done := by
  cases hp : s.status.phase <;> simp [streamActive, hp] at h ⊢

/-- Where the options of an active stream are kept, an option changes outside a stream only. -/
theorem outside_stream_of_opts_ne {s t : State} (hk : optionsInStream t = optionsInStream s) (hne : t.opts ≠ s.opts) :
    s.status.phase = .idle ∨ s.status.phase = .done := by
  cases hs : streamActive s with
  | false => exact outside_stream_of_inactive hs
  | true =>
    rw [optionsInStream_of_active hs, optionsInStream] at hk
    split at hk
    · exact absurd (Option.some.inj hk) hne
    · cases hk

/-- The last lines of REG_WRITE's rule (R563): the options are written outside a stream; in one SEQ_ERROR is raised. -/
theorem guarded_option_write_keeps (o : Options) :
    Keeps streamSettings
      (look streamActive >>= fun active => check (!active) .seqError >>= fun _ => put fun s => { s with opts := o }) :=
  fun s => by
    rw [Eng.bind_look, Eng.bind_check]
    cases hs : streamActive s with
    | true => exact faultEntry_streamSettings _ s
    | false =>
      have written : optionsInStream { s with opts := o } = none := optionsInStream_of_inactive hs
      exact Prod.ext rfl (written.trans (optionsInStream_of_inactive hs).symm)

/-- REG_WRITE keeps the host's inputs, and the options of an active stream (R72). -/
theorem regWrite_keeps {s t : State} (h : exec .regWrite s = .next t) : streamSettings t = streamSettings s :=
  Keeps.command (g := .any) h
    (.look_bind fun _ => .look_bind fun _ => .bind (.check faultEntry_streamSettings _ _) fun _ => .look_bind fun
      | none => .raise faultEntry_streamSettings _
      | some o => guarded_option_write_keeps o)
    (fun _ => rfl) faultEntry_streamSettings

/-- HDR_READ's rule keeps the host's inputs: of the settings it writes the options alone (R520). -/
theorem hdrRead_keeps : Keeps hostInputs hdrRead :=
  have read : Keeps hostInputs srcReadOrTruncated := KeepsSettings.srcReadOrTruncated.comp Prod.fst
  .bind (.put fun _ => rfl) fun _ => .bind read fun _ => .bind read fun _ => .bind read fun _ => .bind read fun _ =>
    .bind read fun _ => .bind (.check (fun _ _ => rfl) _ _) fun _ => .put fun _ => rfl

/-- A command whose gate does not let its rule run keeps the settings. -/
theorem settings_of_gate_ne_run {i : Instr} {g : Gate} {body : Eng Unit} {s t : State}
    (hn : command i g body s = .next t) (hg : g.answer s ≠ .run) : settings t = settings s := by
  rcases command_cases i g body s with ⟨_, _, e⟩ | ⟨_, _, e⟩ | ⟨_, _, ⟨hr, _⟩ | ⟨_, e⟩ | ⟨_, e⟩⟩
  case inr.inr.inl => exact absurd ((gate_clearResults g s).symm.trans hr) hg
  all_goals
    rw [e] at hn
    cases hn
    rfl

/-- HDR_READ changes an option only outside a stream (R520). -/
theorem hdrRead_outside_stream {s t : State} (h : exec .hdrRead s = .next t) (hne : t.opts ≠ s.opts) :
    s.status.phase = .idle ∨ s.status.phase = .done := by
  by_cases hg : Gate.startD.answer s = .run
  · exact ((gate_run_iff _ _).1 hg).1
  · exact absurd (congrArg Prod.snd (settings_of_gate_ne_run h hg)) hne

/-- RESET keeps the host's side and DICT_CAP (R651). -/
theorem reset_keeps_host {s t : State} (h : exec .reset s = .next t) : (t.host, t.dictCap) = (s.host, s.dictCap) :=
  Keeps.command (π := fun s => (s.host, s.dictCap)) (g := .any) h (.put fun _ => rfl) (fun _ => rfl) fun _ _ => rfl

/-- Settles O13: every command but RESET, REG_WRITE and HDR_READ keeps all of the settings, by composition of its rule's
parts (`KeepsSettings.of_exec`); those three are taken one by one. -/
theorem operandsAndOptionsKept : Obligations.OperandsAndOptionsKept := by
  unfold Obligations.OperandsAndOptionsKept
  intro i s t h
  by_cases hi : i = .reset ∨ i = .regWrite ∨ i = .hdrRead
  · rcases hi with rfl | rfl | rfl
    · obtain ⟨hhost, hcap⟩ := Prod.ext_iff.1 (reset_keeps_host h)
      exact ⟨congrArg (·.port) hhost, congrArg (·.srcEnd) hhost, hcap, fun hr => absurd rfl hr, fun _ => .inl rfl⟩
    · obtain ⟨hin, hopts⟩ := Prod.ext_iff.1 (regWrite_keeps h)
      obtain ⟨hport, hend, hcap, hops⟩ := hostInputs_eq_iff.1 hin
      exact ⟨hport, hend, hcap, fun _ => hops, fun hne => .inr ⟨.inl rfl, outside_stream_of_opts_ne hopts hne⟩⟩
    · obtain ⟨hport, hend, hcap, hops⟩ :=
        hostInputs_eq_iff.1 (hdrRead_keeps.command h (fun _ => rfl) fun _ _ => rfl)
      exact ⟨hport, hend, hcap, fun _ => hops, fun hne => .inr ⟨.inr rfl, hdrRead_outside_stream h hne⟩⟩
  · obtain ⟨hin, hopts⟩ := Prod.ext_iff.1 (KeepsSettings.of_exec h hi)
    obtain ⟨hport, hend, hcap, hops⟩ := hostInputs_eq_iff.1 hin
    exact ⟨hport, hend, hcap, fun _ => hops, fun hne => absurd hopts hne⟩

end Sys2Proof.Machine
end

section
/-! SUPPORT. Properties of the state that the engine's rules preserve. `Stable P` lists, for a property `P`, the updates
the rules are made of; from it follows, one lemma a function of the model and in the model's order, that each rule ends
in a state of `P` when it begins in one. A property with a proof of `Stable` therefore needs no walk through the model
of its own: the invariant, the phase and the stream accounting are three such properties. -/

namespace Sys2Proof.Machine

/-- `P` holds of the state a computation ends in, completed or faulted; one that waits leaves no state (log entry 5). -/
def EndsIn {α : Type} (P : State → Prop) : EStateM.Result Stop State α → Prop
  | .ok _ t => P t
  | .error .ended t => P t
  | .error (.stuck _) _ => True

/-- A computation that begins in a state of `P` ends in one. -/
def Preserves {α : Type} (P : State → Prop) (f : Eng α) : Prop := ∀ s, P s → EndsIn P (f s)

section
variable {α β : Type} {P Q : State → Prop}

theorem EndsIn.imp {r : EStateM.Result Stop State α} (h : EndsIn P r) (hi : ∀ t, P t → Q t) : EndsIn Q r := by
  cases r with
  | ok _ t => exact hi t h
  | error stop t =>
    cases stop with
    | ended => exact hi t h
    | stuck _ => trivial

theorem EndsIn.bind {f : Eng α} {g : α → Eng β} {s : State} (hf : EndsIn P (f s)) (hg : ∀ a, Preserves P (g a)) :
    EndsIn P ((f >>= g) s) := by
  rw [Eng.bind_run]
  cases e : f s with
  | ok a t => rw [e] at hf; exact hg a t hf
  | error stop t => rw [e] at hf; cases stop <;> exact hf

/-- A command whose rule ends in `P` gives a next state in `P`. -/
theorem EndsIn.of_finish {r : EStateM.Result Stop State Unit} {t : State} (h : EndsIn P r) (hn : finish r = .next t) :
    P t := by
  rcases finish_eq_next.1 hn with rfl | rfl <;> exact h

namespace Preserves

theorem pure (a : α) : Preserves P (pure a : Eng α) := fun _ hs => hs

theorem put {f : State → State} (h : ∀ s, P s → P (f s)) : Preserves P (put f) := h

theorem bind {f : Eng α} {g : α → Eng β} (hf : Preserves P f) (hg : ∀ a, Preserves P (g a)) :
    Preserves P (f >>= g) := fun s hs => (hf s hs).bind hg

/-- A read changes nothing, so only the rest counts. -/
theorem look_bind {f : State → α} {g : α → Eng β} (hg : ∀ a, Preserves P (g a)) : Preserves P (look f >>= g) :=
  fun s hs => hg _ s hs

theorem ite {c : Prop} [Decidable c] {f g : Eng α} (hf : Preserves P f) (hg : Preserves P g) :
    Preserves P (if c then f else g) := by
  split
  · exact hf
  · exact hg

/-- `let x ← if c then f else g`, then `k x`. -/
theorem ite_bind {c : Prop} [Decidable c] {f g : Eng α} {k : α → Eng β} (hf : Preserves P f) (hg : Preserves P g)
    (hk : ∀ a, Preserves P (k a)) : Preserves P (if c then f >>= k else g >>= k) :=
  ite (hf.bind hk) (hg.bind hk)

/-- `if c then f`, then `k`. -/
theorem when {c : Prop} [Decidable c] {f : Eng Unit} {k : Unit → Eng β} (hf : Preserves P f)
    (hk : ∀ u, Preserves P (k u)) : Preserves P (if c then f >>= k else k ()) :=
  ite (hf.bind hk) (hk ())

/-- `if c then do let x ← f; g x`, then `k`. -/
theorem when_bind {c : Prop} [Decidable c] {f : Eng α} {g : α → Eng Unit} {k : Unit → Eng β} (hf : Preserves P f)
    (hg : ∀ a, Preserves P (g a)) (hk : ∀ u, Preserves P (k u)) :
    Preserves P (if c then (f >>= fun a => g a >>= k) else k ()) :=
  ite (hf.bind fun a => (hg a).bind hk) (hk ())

theorem forUp {body : Word → Eng Unit} (h : ∀ i, Preserves P (body i)) :
    ∀ (n : Nat) (i : Word), Preserves P (forUp body n i)
  | 0, _ => pure ()
  | n + 1, i => bind (h i) fun _ => forUp h n _

/-- A command that gives a next state does so by its rule, or in the state with its results cleared and a fault
entered or not. -/
theorem command {i : Instr} {g : Gate} {body : Eng Unit} {s t : State} (hn : command i g body s = .next t)
    (hbody : g.answer s = .run → EndsIn P (body (clearResults s))) (hclear : P (clearResults s))
    (hfault : ∀ c, P (faultEntry c (clearResults s))) : P t := by
  rcases command_cases i g body s with ⟨_, _, e⟩ | ⟨_, _, e⟩ | ⟨_, _, ⟨hg, e⟩ | ⟨_, e⟩ | ⟨_, e⟩⟩ <;> rw [e] at hn
  · cases hn; exact hclear
  · cases hn; exact hfault _
  · exact (hbody ((gate_clearResults g s).symm.trans hg)).of_finish hn
  · cases hn; exact hclear
  · cases hn; exact hfault _

end Preserves
end

/-! ### The updates -/

/-- The window's sizes, which a stream start fixes (R201). -/
def WinRegs.sizes (w : WinRegs) : Word × Word × Word × Word := (w.blockSize, w.keepBefore, w.keepAfter, w.lastSafe)

/-- The table sizes, which a stream start fixes (R55). -/
def EncRegs.tableSizes (e : EncRegs) : Word × Word := (e.distTableSize, e.lenTableSize)

/-- A range after the renormalization that follows every bit (R284, R285, R290, R292). -/
def normalizedRange (range : Word) : Word := if range.toNat < 2 ^ 24 then range <<< 8 else range

theorem normalizedRange_of_low {range : Word} (h : range.toNat < 2 ^ 24) : normalizedRange range = range <<< 8 :=
  if_pos h

theorem normalizedRange_of_high {range : Word} (h : ¬ range.toNat < 2 ^ 24) : normalizedRange range = range := if_neg h

/-- The updates of the rules that write no sink byte and end no stream. -/
structure Stable (P : State → Prop) : Prop where
  fault : ∀ {s : State} c, P s → P (faultEntry c s)
  results : ∀ {s : State} v w, P s → P { s with x := { s.x with r0 := v, r1 := w } }
  byteTaken : ∀ {s : State} {b} rest, s.host.src = b :: rest → P s → P (bytePopped rest s)
  sourceEnded : ∀ {s : State}, P s → P { s with status := { s.status with srcEof := true } }
  nowPos : ∀ {s : State} n, P s → P { s with cnt := { s.cnt with nowPos := n } }
  /-- STATE is only ever set to one of 0..11 (R355). -/
  coderState : ∀ {s : State} (v : CState), v.toNat ≤ 11 → P s → P { s with cstate := v }
  reps : ∀ {s : State} r, P s → P { s with rep := r }
  /-- PROB is only ever written by the adaption of an entry (R280). -/
  adapt : ∀ {s : State} (i : Word) b, i.toNat < s.prob.size → P s →
    P { s with prob := s.prob.set i.toNat (probUpdate (s.prob.get i.toNat) b) }
  encoderBit : ∀ {s : State} (i : Nat) (b : Bool) (r : RceRegs),
    r.range = normalizedRange (rceNarrow (bitBound s.rce.range (s.prob.get i)) b s.rce).range → P s →
      P { s with rce := r }
  encoderHalf : ∀ {s : State} (r : RceRegs), r.range = normalizedRange (s.rce.range >>> 1) → P s → P { s with rce := r }
  encoderBytes : ∀ {s : State} (r : RceRegs), r.range = s.rce.range → P s → P { s with rce := r }
  decoderBit : ∀ {s : State} (i : Nat) (r : RcdRegs),
    r.range = normalizedRange (rcdNarrow (bitBound s.rcd.range (s.prob.get i)) s.rcd).2.range → P s →
      P { s with rcd := r }
  decoderHalf : ∀ {s : State} (r : RcdRegs), r.range = normalizedRange (s.rcd.range >>> 1) → P s → P { s with rcd := r }
  decoderBytes : ∀ {s : State} (r : RcdRegs), r.range = s.rcd.range → P s → P { s with rcd := r }
  /-- A decoder out of bytes stops before its renormalization (R291). -/
  decoderTruncated : ∀ {s : State} r, P s → P (faultEntry .truncated { s with rcd := r })
  window : ∀ {s : State} w, w.sizes = s.win.sizes → P s → P { s with win := w }
  wbuf : ∀ {s : State} (i : Word) v, i.toNat < s.wbuf.size → P s → P { s with wbuf := s.wbuf.set i.toNat v }
  /-- The cyclic slot stays inside the array (R250). -/
  finder : ∀ {s : State} c n, (s.mf.cycPos.toNat < s.mf.cbs.toNat → c.toNat < s.mf.cbs.toNat) → P s →
    P { s with mf := { s.mf with cycPos := c, numPairs := n } }
  rebased : ∀ {s : State} sub, P s →
    P { s with son := s.son.mapElems (rebase sub), hash := s.hash.mapElems (rebase sub) }
  hashCleared : ∀ {s : State}, P s → P { s with hash := s.hash.clear }
  son : ∀ {s : State} (i : Word) v, i.toNat < s.son.size → P s → P { s with son := s.son.set i.toNat v }
  hash : ∀ {s : State} (i : Word) v, i.toNat < s.hash.size → P s → P { s with hash := s.hash.set i.toNat v }
  matchBuf : ∀ {s : State} (i : Word) v, i.toNat < s.matchBuf.size → P s →
    P { s with matchBuf := s.matchBuf.set i.toNat v }
  opt : ∀ {s : State} (i : Word) v, i.toNat < s.opt.size → P s → P { s with opt := s.opt.set i.toNat v }
  encoder : ∀ {s : State} e, e.tableSizes = s.enc.tableSizes → P s → P { s with enc := e }
  posSlot : ∀ {s : State} (i : Word) v, i.toNat < s.price.posSlot.size → P s →
    P { s with price := { s.price with posSlot := s.price.posSlot.set i.toNat v } }
  dist : ∀ {s : State} (i : Word) v, i.toNat < s.price.dist.size → P s →
    P { s with price := { s.price with dist := s.price.dist.set i.toNat v } }
  align : ∀ {s : State} (i : Word) v, i.toNat < s.price.align.size → P s →
    P { s with price := { s.price with align := s.price.align.set i.toNat v } }
  lenMatch : ∀ {s : State} (i : Word) v, i.toNat < s.price.lenMatch.size → P s →
    P { s with price := { s.price with lenMatch := s.price.lenMatch.set i.toNat v } }
  lenRep : ∀ {s : State} (i : Word) v, i.toNat < s.price.lenRep.size → P s →
    P { s with price := { s.price with lenRep := s.price.lenRep.set i.toNat v } }
  cntMatch : ∀ {s : State} (i : Word) v, i.toNat < s.price.cntMatch.size → P s →
    P { s with price := { s.price with cntMatch := s.price.cntMatch.set i.toNat v } }
  cntRep : ∀ {s : State} (i : Word) v, i.toNat < s.price.cntRep.size → P s →
    P { s with price := { s.price with cntRep := s.price.cntRep.set i.toNat v } }
  owbuf : ∀ {s : State} (i : Word) v, i.toNat < s.owbuf.size → P s → P { s with owbuf := s.owbuf.set i.toNat v }
  outputMoved : ∀ {s : State}, P s → P { s with ow := { s.ow with pos := owNext s.ow } }

/-- And the bytes written to the sink. -/
structure StableOnSink (P : State → Prop) : Prop extends Stable P where
  sink : ∀ {s : State} b room, P s →
    P { s with host := { s.host with sink := b :: s.host.sink, sinkRoom := room },
               cnt := { s.cnt with outCount := s.cnt.outCount + 1 } }

/-- And the end of a stream: PHASE DONE, with the end marker seen or not. -/
structure StableAtEnd (P : State → Prop) : Prop extends StableOnSink P where
  streamEnded : ∀ {s : State} e, P s → P { s with status := { s.status with endSeen := e, phase := .done } }

/-- Every state function of the coder's automaton answers one of 0..11 (R355). -/
theorem onChar_le : ∀ v, (onChar v).toNat ≤ 11 := by decide
theorem onMatch_le : ∀ v, (onMatch v).toNat ≤ 11 := by decide
theorem onRep_le : ∀ v, (onRep v).toNat ≤ 11 := by decide
theorem onShortRep_le : ∀ v, (onShortRep v).toNat ≤ 11 := by decide

/-- The next cyclic slot lies inside the array (R250). -/
theorem nextCycPos_lt {m : MfRegs} (h : m.cycPos.toNat < m.cbs.toNat) : (nextCycPos m).toNat < m.cbs.toNat := by
  unfold nextCycPos
  split
  · exact Nat.zero_lt_of_lt h
  · omega

/-- Everything a source read that must find a byte can do (R291): take the next byte, fault TRUNCATED with the end of
the source recorded, or wait. -/
theorem srcReadOrTruncated_cases (s : State) :
    (∃ b rest, s.host.src = b :: rest ∧ srcReadOrTruncated s = .ok b (bytePopped rest s)) ∨
    srcReadOrTruncated s =
      .error .ended (faultEntry .truncated { s with status := { s.status with srcEof := true } }) ∨
    srcReadOrTruncated s = .error (.stuck .sourceWait) s := by
  unfold srcReadOrTruncated
  rcases srcRead_cases s with ⟨he, e⟩ | ⟨b, rest, _, hb, e⟩ | ⟨_, _, _, e⟩ | ⟨_, _, _, e⟩
  · rw [Eng.bind_ok e, ← he]
    exact .inr (.inl rfl)
  · exact .inl ⟨b, rest, hb, Eng.bind_ok e _⟩
  · exact .inr (.inl (Eng.bind_ok e _))
  · exact .inr (.inr (Eng.bind_error e _))

/-- The range after a raw bit is half the range before it (R292). -/
theorem rcdHalve_range (r : RcdRegs) : (rcdHalve r).2.range = r.range >>> 1 := by
  unfold rcdHalve
  dsimp only
  split <;> rfl

namespace Stable
variable {α : Type} {P : State → Prop} (h : Stable P)
include h

/-! ### The shared operations -/

theorem raise (c : ErrCode) : Preserves P (raise c : Eng α) := fun _ => h.fault c

theorem check (ok : Bool) (c : ErrCode) : Preserves P (check ok c) := fun s hs => by
  rw [check_run]
  cases ok
  · exact h.fault c hs
  · exact hs

theorem setR0 (v : Word) : Preserves P (setR0 v) := fun s => h.results v s.x.r1

theorem setR1 (v : Word) : Preserves P (setR1 v) := fun s => h.results s.x.r0 v

theorem ramRead {fill : α} (ram : State → Ram α fill) (i : Word) : Preserves P (ramRead ram i) := fun s hs => by
  rw [ramRead_run]
  split
  · exact hs
  · exact h.fault _ hs

/-- A RAM write preserves what storing an element inside the RAM does. -/
theorem ramWrite {fill : α} [DecidableEq α] {ram : State → Ram α fill} {store : State → Ram α fill → State}
    {i : Word} {v : α} (hw : ∀ {s : State}, i.toNat < (ram s).size → P s → P (store s ((ram s).set i.toNat v))) :
    Preserves P (ramWrite ram store i v) := fun s hs => by
  rw [ramWrite_run]
  split
  · next hi => exact hw hi hs
  · exact h.fault _ hs

theorem probRead (i : Word) : Preserves P (probRead i) := h.ramRead _ i
theorem wbufRead (i : Word) : Preserves P (wbufRead i) := h.ramRead _ i
theorem wbufWrite (i : Word) (v : Byte) : Preserves P (wbufWrite i v) := h.ramWrite (h.wbuf _ _)
theorem sonRead (i : Word) : Preserves P (sonRead i) := h.ramRead _ i
theorem sonWrite (i v : Word) : Preserves P (sonWrite i v) := h.ramWrite (h.son _ _)
theorem hashRead (i : Word) : Preserves P (hashRead i) := h.ramRead _ i
theorem hashWrite (i v : Word) : Preserves P (hashWrite i v) := h.ramWrite (h.hash _ _)
theorem matchRead (i : Word) : Preserves P (matchRead i) := h.ramRead _ i
theorem matchWrite (i v : Word) : Preserves P (matchWrite i v) := h.ramWrite (h.matchBuf _ _)
theorem optRead (i : Word) : Preserves P (optRead i) := h.ramRead _ i
theorem optWrite (i : Word) (v : OptRec) : Preserves P (optWrite i v) := h.ramWrite (h.opt _ _)
theorem owbufWrite (i : Word) (v : Byte) : Preserves P (owbufWrite i v) := h.ramWrite (h.owbuf _ _)
theorem posSlotPriceRead (i : Word) : Preserves P (posSlotPriceRead i) := h.ramRead _ i
theorem posSlotPriceWrite (i v : Word) : Preserves P (posSlotPriceWrite i v) := h.ramWrite (h.posSlot _ _)
theorem distPriceRead (i : Word) : Preserves P (distPriceRead i) := h.ramRead _ i
theorem distPriceWrite (i v : Word) : Preserves P (distPriceWrite i v) := h.ramWrite (h.dist _ _)
theorem alignPriceRead (i : Word) : Preserves P (alignPriceRead i) := h.ramRead _ i
theorem alignPriceWrite (i v : Word) : Preserves P (alignPriceWrite i v) := h.ramWrite (h.align _ _)
theorem lenPriceRead (k : Bool) (i : Word) : Preserves P (lenPriceRead k i) := .ite (h.ramRead _ i) (h.ramRead _ i)
theorem lenPriceWrite (k : Bool) (i v : Word) : Preserves P (lenPriceWrite k i v) :=
  .ite (h.ramWrite (h.lenRep _ _)) (h.ramWrite (h.lenMatch _ _))
theorem lenCounterRead (k : Bool) (i : Word) : Preserves P (lenCounterRead k i) := .ite (h.ramRead _ i) (h.ramRead _ i)
theorem lenCounterWrite (k : Bool) (i v : Word) : Preserves P (lenCounterWrite k i v) :=
  .ite (h.ramWrite (h.cntRep _ _)) (h.ramWrite (h.cntMatch _ _))

theorem srcRead : Preserves P srcRead := fun s hs => by
  rcases srcRead_cases s with ⟨_, e⟩ | ⟨b, rest, _, hb, e⟩ | ⟨_, _, _, e⟩ | ⟨_, _, _, e⟩ <;> rw [e]
  · exact hs
  · exact h.byteTaken rest hb hs
  · exact h.sourceEnded hs
  · trivial

theorem srcReadOrTruncated : Preserves P srcReadOrTruncated :=
  .bind h.srcRead fun
    | some b => .pure b
    | none => h.raise _

theorem psCheck (v : Word) : Preserves P (psCheck v) := fun s => h.check _ _ s
theorem probCheck : Preserves P probCheck := fun s => h.check _ _ s
theorem probIndexCheck (v : Word) : Preserves P (probIndexCheck v) := fun s => h.check _ _ s
theorem treeCheck (base : Word) (n : Nat) : Preserves P (treeCheck base n) := fun s => h.check _ _ s

/-! ### The range decoder and the bit trees -/

theorem probPriceRead (j : Nat) : Preserves P (probPriceRead j) := fun s hs => by
  unfold Machine.probPriceRead
  split
  · exact hs
  · exact h.fault _ hs

theorem bitPrice (p : Prob) (b : Bool) : Preserves P (bitPrice p b) := .ite (h.probPriceRead _) (h.probPriceRead _)

theorem rcdLoad : ∀ n : Nat, Preserves P (rcdLoad n)
  | 0 => .pure ()
  | n + 1 => .bind h.srcReadOrTruncated fun _ => .bind (.put fun _ => h.decoderBytes _ rfl) fun _ => rcdLoad n

/-- The renormalization after a bit, in a state that differs from one of `P` by the registers `r` and the entries `q`
the bit left: they are taken over after the source byte is read, which touches neither. -/
theorem rcdNormalizeIfLow_ends {s : State} {q : Ram Prob 1024#11} {r : RcdRegs} (hs : P s)
    (hq : ∀ {t}, t.prob = s.prob → P t → P { t with prob := q })
    (hr : ∀ {t} r', t.rcd = s.rcd → t.prob = s.prob → r'.range = normalizedRange r.range → P t →
      P { t with rcd := r' }) :
    EndsIn P (rcdNormalizeIfLow { s with prob := q, rcd := r }) := by
  unfold Machine.rcdNormalizeIfLow
  rw [Eng.bind_look]
  split
  · next hlow =>
    rcases srcReadOrTruncated_cases { s with prob := q, rcd := r } with ⟨b, rest, hb, e⟩ | e | e
    · refine (congrArg (EndsIn P) (Eng.bind_ok e _)).mpr ?_
      exact hq (t := { bytePopped rest s with
          rcd := { range := r.range <<< 8, code := (r.code <<< 8) ||| byteWord b } }) rfl
        (hr _ rfl rfl (normalizedRange_of_low hlow).symm (h.byteTaken rest hb hs))
    · refine (congrArg (EndsIn P) (Eng.bind_error e _)).mpr ?_
      exact h.decoderTruncated r
        (hq (t := { s with status := { s.status with srcEof := true } }) rfl (h.sourceEnded hs))
    · exact (congrArg (EndsIn P) (Eng.bind_error e _)).mpr trivial
  · next hhigh =>
    exact hq (t := { s with rcd := r }) rfl (hr r rfl rfl (normalizedRange_of_high hhigh).symm hs)

theorem rcdDecodeBit (i : Word) : Preserves P (rcdDecodeBit i) := fun s hs => by
  unfold Machine.rcdDecodeBit Machine.probRead Machine.probWrite
  by_cases hi : i.toNat < s.prob.size
  · rw [Eng.bind_ok (ramRead_ok hi), Eng.bind_look, Eng.bind_put]
    rw [Eng.bind_ok (ramWrite_ok (by exact hi))]
    refine EndsIn.bind (h.rcdNormalizeIfLow_ends (s := s) hs (fun ht => ?_) fun r' hd hp hr => ?_) fun _ => .pure _
    · rw [← ht] at hi ⊢
      exact h.adapt _ _ hi
    · exact h.decoderBit i.toNat r' (by rw [hr, hd, hp])
  · rw [Eng.bind_error (by rw [ramRead_run, if_neg hi])]
    exact h.fault _ hs

theorem rcdDirectLoop : ∀ (n : Nat) (v : Word), Preserves P (rcdDirectLoop n v)
  | 0, v => .pure v
  | n + 1, v => fun s hs => by
    rw [Machine.rcdDirectLoop, Eng.bind_look, Eng.bind_put]
    refine EndsIn.bind (h.rcdNormalizeIfLow_ends (s := s) hs (fun ht hp => by rwa [← ht]) fun r' hd _ hr => ?_)
      fun _ => rcdDirectLoop n _
    exact h.decoderHalf r' (by rw [hr, hd, rcdHalve_range])

theorem rcdDecodeDirect (n : Nat) : Preserves P (rcdDecodeDirect n) := h.rcdDirectLoop n _

theorem btDecodeFrom (base : Word) : ∀ (k : Nat) (m : Word), Preserves P (btDecodeFrom base k m)
  | 0, m => .pure m
  | k + 1, _ => .bind (h.rcdDecodeBit _) fun _ => btDecodeFrom base k _

theorem btDecode (base : Word) (n : Nat) : Preserves P (btDecode base n) :=
  .bind (h.btDecodeFrom base n _) fun _ => .pure _

theorem btReverseDecodeFrom (base : Word) :
    ∀ (left k : Nat) (m sym : Word), Preserves P (btReverseDecodeFrom base left k m sym)
  | 0, _, _, sym => .pure sym
  | left + 1, _, _, _ => .bind (h.rcdDecodeBit _) fun _ => btReverseDecodeFrom base left _ _ _

theorem btReverseDecode (base : Word) (n : Nat) : Preserves P (btReverseDecode base n) :=
  h.btReverseDecodeFrom base n _ _ _

theorem nodePrice (i : Word) (b : Bool) : Preserves P (nodePrice i b) := .bind (h.probRead _) fun _ => h.bitPrice _ _

theorem btPriceFrom (base sym : Word) : ∀ (k : Nat) (m price : Word), Preserves P (btPriceFrom base sym k m price)
  | 0, _, price => .pure price
  | k + 1, _, _ => .bind (h.nodePrice _ _) fun _ => btPriceFrom base sym k _ _

theorem btPrice (base : Word) (n : Nat) (sym : Word) : Preserves P (btPrice base n sym) := h.btPriceFrom base sym n _ _

theorem btReversePriceFrom (base sym : Word) :
    ∀ (left k : Nat) (m price : Word), Preserves P (btReversePriceFrom base sym left k m price)
  | 0, _, _, price => .pure price
  | left + 1, _, _, _ => .bind (h.nodePrice _ _) fun _ => btReversePriceFrom base sym left _ _ _

theorem btReversePrice (base : Word) (n : Nat) (sym : Word) : Preserves P (btReversePrice base n sym) :=
  h.btReversePriceFrom base sym n _ _ _

/-! ### The symbol coders -/

theorem cstateSet {v : CState} (hv : v.toNat ≤ 11) : Preserves P (cstateSet v) := fun _ => h.coderState v hv

theorem litDecodeFrom (lb : Word) : ∀ (n : Nat) (c : Word), Preserves P (litDecodeFrom lb n c)
  | 0, c => .pure c
  | n + 1, _ => .bind (h.rcdDecodeBit _) fun _ => litDecodeFrom lb n _

theorem litDecode (lb : Word) : Preserves P (litDecode lb) := .bind (h.litDecodeFrom lb 8 _) fun _ => .pure _

theorem litDecodeMatchedFrom (lb : Word) (mb : Byte) :
    ∀ (n : Nat) (c : Word) (same : Bool), Preserves P (litDecodeMatchedFrom lb mb n c same)
  | 0, c, _ => .pure c
  | n + 1, _, _ => .bind (h.rcdDecodeBit _) fun _ => litDecodeMatchedFrom lb mb n _ _

theorem litDecodeMatched (lb : Word) (mb : Byte) : Preserves P (litDecodeMatched lb mb) :=
  .bind (h.litDecodeMatchedFrom lb mb 8 _ _) fun _ => .pure _

theorem litPriceFrom (lb : Word) (mb sym : Byte) :
    ∀ (n : Nat) (c : Word) (same : Bool) (price : Word), Preserves P (litPriceFrom lb mb sym n c same price)
  | 0, _, _, price => .pure price
  | n + 1, _, _, _ => .bind (h.nodePrice _ _) fun _ => litPriceFrom lb mb sym n _ _ _

theorem litPrice (lb : Word) (matched : Bool) (mb sym : Byte) : Preserves P (litPrice lb matched mb sym) :=
  h.litPriceFrom lb mb sym 8 _ _ _

theorem lenDecode (l ps : Word) : Preserves P (lenDecode l ps) :=
  .bind (h.rcdDecodeBit _) fun _ => .ite
    (.bind (h.rcdDecodeBit _) fun _ =>
      .ite (.bind (h.btDecode _ _) fun _ => .pure _) (.bind (h.btDecode _ _) fun _ => .pure _))
    (h.btDecode _ _)

theorem lenPrice (l sym ps : Word) : Preserves P (lenPrice l sym ps) :=
  .ite (.bind (h.nodePrice _ _) fun _ => .bind (h.btPrice _ _ _) fun _ => .pure _)
    (.ite (.bind (h.nodePrice _ _) fun _ => .bind (h.nodePrice _ _) fun _ => .bind (h.btPrice _ _ _) fun _ => .pure _)
      (.bind (h.nodePrice _ _) fun _ => .bind (h.nodePrice _ _) fun _ => .bind (h.btPrice _ _ _) fun _ => .pure _))

theorem distDecode (len : Word) : Preserves P (distDecode len) :=
  .bind (h.btDecode _ _) fun _ => .ite (.pure _)
    (.ite (.bind (h.btReverseDecode _ _) fun _ => .pure _)
      (.bind (h.rcdDecodeDirect _) fun _ => .bind (h.btReverseDecode _ _) fun _ => .pure _))

theorem repUse (i : Word) : Preserves P (repUse i) :=
  .look_bind fun _ => .bind (.put fun _ => h.reps _) fun _ => .pure _

theorem repPush (d : Word) : Preserves P (repPush d) := fun _ => h.reps _

/-! ### The window and the match finder -/

theorem winReadLoop : ∀ n : Nat, Preserves P (winReadLoop n)
  | 0 => .pure ()
  | n + 1 => .look_bind fun _ => .ite (.pure ()) (.bind h.srcRead fun
    | none => .put fun _ => h.window _ rfl
    | some _ => .bind (h.wbufWrite _ _) fun _ => .bind (.put fun _ => h.window _ rfl) fun _ => winReadLoop n)

theorem winReadBlock : Preserves P winReadBlock :=
  .look_bind fun _ => .ite (.pure ()) (.look_bind fun _ => h.winReadLoop _)

theorem winInit : Preserves P winInit := .bind (.put fun _ => h.window _ rfl) fun _ => h.winReadBlock

theorem winMoveBytes (offset : Word) : ∀ (n : Nat) (i : Word), Preserves P (winMoveBytes offset n i)
  | 0, _ => .pure ()
  | n + 1, _ => .bind (h.wbufRead _) fun _ => .bind (h.wbufWrite _ _) fun _ => winMoveBytes offset n _

theorem winMoveBlock : Preserves P winMoveBlock :=
  .look_bind fun _ => .bind (h.winMoveBytes _ _ _) fun _ => .put fun _ => h.window _ rfl

theorem winMovePos : Preserves P winMovePos :=
  .bind (.put fun _ => h.window _ rfl) fun _ => .look_bind fun _ => .ite (.when h.winMoveBlock fun _ =>
    h.winReadBlock) (.pure ())

theorem winReduceOffsets (sub : Word) : Preserves P (winReduceOffsets sub) := fun _ => h.window _ rfl

theorem winGetByte (i : Word) : Preserves P (winGetByte i) := .look_bind fun _ => h.wbufRead _

theorem winCompare (p d : Word) : ∀ (left : Nat) (n : Word), Preserves P (winCompare p d left n)
  | 0, n => .pure n
  | left + 1, _ => .bind (h.wbufRead _) fun _ => .bind (h.wbufRead _) fun _ => .ite (winCompare p d left _) (.pure _)

theorem winMatchLen (i r limit : Word) : Preserves P (winMatchLen i r limit) :=
  .look_bind fun _ => h.winCompare _ _ _ _

theorem winIndexCheck (i : Word) : Preserves P (winIndexCheck i) := fun s => h.check _ _ s

theorem mfInit : Preserves P mfInit :=
  .bind h.winInit fun _ => .bind (.put fun _ hs => h.finder 0#32 _ Nat.zero_lt_of_lt (h.hashCleared hs)) fun _ =>
    .bind (h.winReduceOffsets _) fun _ => .put fun _ => h.finder _ 0#32 id

theorem mfHashAt (c : Word) : Preserves P (mfHashAt c) :=
  .look_bind fun _ => .bind (h.wbufRead _) fun _ => .bind (h.wbufRead _) fun _ =>
    .ite (.bind (h.wbufRead _) fun _ => .bind (h.wbufRead _) fun _ => .pure _) (.pure _)

theorem mfNormalize : Preserves P mfNormalize :=
  .look_bind fun _ => .bind (.put fun _ => h.rebased _) fun _ => h.winReduceOffsets _

theorem mfMovePos : Preserves P mfMovePos :=
  .bind (.put fun s => h.finder (nextCycPos s.mf) _ nextCycPos_lt) fun _ => .bind h.winMovePos fun _ =>
    .look_bind fun _ => .ite h.mfNormalize (.pure ())

theorem mfExtend (pby c : Word) : ∀ (n : Nat) (len : Word), Preserves P (mfExtend pby c n len)
  | 0, len => .pure len
  | n + 1, _ => .bind (h.wbufRead _) fun _ => .bind (h.wbufRead _) fun _ => .ite (mfExtend pby c n _) (.pure _)

theorem mfPutPair (off len dist : Word) : Preserves P (mfPutPair off len dist) :=
  .bind (h.matchWrite _ _) fun _ => h.matchWrite _ _

theorem mfCloseWalk (p : WalkPos) : Preserves P (mfCloseWalk p) := .bind (h.sonWrite _ _) fun _ => h.sonWrite _ _

theorem mfGraft (p : WalkPos) (cp : Word) : Preserves P (mfGraft p cp) :=
  .bind (h.sonRead _) fun _ => .bind (h.sonWrite _ _) fun _ => .bind (h.sonRead _) fun _ => h.sonWrite _ _

theorem mfDescend (w : Walk) (p : WalkPos) (cp pby len : Word) : Preserves P (mfDescend w p cp pby len) :=
  .bind (h.wbufRead _) fun _ => .bind (h.wbufRead _) fun _ =>
    .ite (.bind (h.sonWrite _ _) fun _ => .bind (h.sonRead _) fun _ => .pure _)
      (.bind (h.sonWrite _ _) fun _ => .bind (h.sonRead _) fun _ => .pure _)

theorem mfCandidateLen (w : Walk) (p : WalkPos) (pby : Word) : Preserves P (mfCandidateLen w p pby) :=
  .bind (h.wbufRead _) fun _ => .bind (h.wbufRead _) fun _ => .ite (.bind (h.mfExtend _ _ _ _) fun _ =>
    .pure _) (.pure _)

theorem mfWalkCollect (w : Walk) : ∀ (n : Nat) (p : WalkPos), Preserves P (mfWalkCollect w n p)
  | 0, _ => .bind (h.mfCloseWalk _) fun _ => .pure _
  | n + 1, _ => .ite (.bind (h.mfCloseWalk _) fun _ => .pure _)
    (.look_bind fun _ => .look_bind fun _ => .look_bind fun _ => .bind (h.mfCandidateLen _ _ _) fun _ => .ite
      (.bind (h.mfPutPair _ _ _) fun _ => .ite (.bind (h.mfGraft _ _) fun _ => .pure _)
        (.bind (h.mfDescend _ _ _ _ _) fun _ => mfWalkCollect w n _))
      (.bind (h.mfDescend _ _ _ _ _) fun _ => mfWalkCollect w n _))

theorem mfWalkSkip (w : Walk) : ∀ (n : Nat) (p : WalkPos), Preserves P (mfWalkSkip w n p)
  | 0, _ => h.mfCloseWalk _
  | n + 1, _ => .ite (h.mfCloseWalk _)
    (.look_bind fun _ => .look_bind fun _ => .look_bind fun _ => .bind (h.mfCandidateLen _ _ _) fun _ =>
      .ite (h.mfGraft _ _) (.bind (h.mfDescend _ _ _ _ _) fun _ => mfWalkSkip w n _))

theorem mfHeadMatches (w : Walk) (head : Word) : Preserves P (mfHeadMatches w head) :=
  .ite (.pure _) (.look_bind fun _ => .bind (h.wbufRead _) fun _ => .bind (h.wbufRead _) fun _ => .pure _)

theorem mfHead2 (w : Walk) (head2 : Word) : Preserves P (mfHead2 w head2) :=
  .bind (h.mfHeadMatches _ _) fun _ =>
    .ite (.look_bind fun _ => .bind (h.mfPutPair _ _ _) fun _ => .pure _) (.pure _)

theorem mfHead3 (w : Walk) (off maxLen head2 head3 : Word) : Preserves P (mfHead3 w off maxLen head2 head3) :=
  .bind (h.mfHeadMatches _ _) fun _ =>
    .ite (.look_bind fun _ => .bind (h.mfPutPair _ _ _) fun _ => .pure _) (.pure _)

theorem mfShortHeads (w : Walk) (hs : Hashes) (curMatch : Word) : Preserves P (mfShortHeads w hs curMatch) :=
  .look_bind fun _ => .bind (h.hashRead _) fun _ => .bind (h.hashRead _) fun _ => .bind (h.hashWrite _ _) fun _ =>
    .bind (h.hashWrite _ _) fun _ => .bind (h.mfHead2 _ _) fun _ => .bind (h.mfHead3 _ _ _ _ _) fun _ =>
      .ite (.pure _) (.pure _)

theorem mfDirectHead (w : Walk) (curMatch off maxLen : Word) : Preserves P (mfDirectHead w curMatch off maxLen) :=
  .look_bind fun _ => .ite
    (.look_bind fun _ => .bind (h.wbufRead _) fun _ => .bind (h.wbufRead _) fun _ =>
      .ite (.look_bind fun _ => .bind (h.mfPutPair _ _ _) fun _ => .pure _) (.pure _))
    (.pure _)

theorem mfSearch (lenLimit : Word) : Preserves P (mfSearch lenLimit) :=
  .look_bind fun _ => .look_bind fun _ => .bind (h.mfHashAt _) fun _ => .bind (h.hashRead _) fun _ =>
    .ite_bind (h.mfShortHeads _ _ _) (.pure _) fun _ => .bind (h.hashWrite _ _) fun _ =>
      .bind (h.mfDirectHead _ _ _ _) fun _ => h.mfWalkCollect _ _ _

theorem mfGetMatches : Preserves P mfGetMatches :=
  .look_bind fun
    | none => .bind h.mfMovePos fun _ => .bind (.put fun _ => h.finder _ _ id) fun _ => .pure _
    | some _ => .bind (h.mfSearch _) fun _ => .bind h.mfMovePos fun _ => .bind (.put fun _ =>
      h.finder _ _ id) fun _ => .pure _

theorem mfInsert (lenLimit : Word) : Preserves P (mfInsert lenLimit) :=
  .look_bind fun _ => .look_bind fun _ => .bind (h.mfHashAt _) fun _ =>
    .when_bind (h.hashWrite _ _) (fun _ => h.hashWrite _ _) fun _ => .bind (h.hashRead _) fun _ =>
      .bind (h.hashWrite _ _) fun _ => h.mfWalkSkip _ _ _

theorem mfSkipOne : Preserves P mfSkipOne :=
  .look_bind fun
    | none => h.mfMovePos
    | some _ => .bind (h.mfInsert _) fun _ => h.mfMovePos

theorem mfSkip : ∀ n : Nat, Preserves P (mfSkip n)
  | 0 => .pure ()
  | n + 1 => .bind h.mfSkipOne fun _ => mfSkip n

theorem mfHashCheck : Preserves P mfHashCheck := fun s => h.check _ _ s

/-! ### The price tables -/

theorem specPosPrices : ∀ (n : Nat) (i : Word), Preserves P (specPosPrices n i)
  | 0, _ => .pure _
  | n + 1, _ => .bind (h.btReversePrice _ _ _) fun _ => .bind (specPosPrices n _) fun _ => .pure _

theorem fillSlot (lps slot : Word) : Preserves P (fillSlot lps slot) :=
  .bind (h.btPrice _ _ _) fun _ => h.posSlotPriceWrite _ _

theorem fillSlotDirect (lps slot : Word) : Preserves P (fillSlotDirect lps slot) :=
  .bind (h.posSlotPriceRead _) fun _ => h.posSlotPriceWrite _ _

theorem fillDistNear (lps i : Word) : Preserves P (fillDistNear lps i) :=
  .bind (h.posSlotPriceRead _) fun _ => h.distPriceWrite _ _

theorem fillDistFar (lps : Word) : ∀ (l : List Word) (i : Word), Preserves P (fillDistFar lps l i)
  | [], _ => .pure ()
  | _ :: l, _ => .bind (h.posSlotPriceRead _) fun _ => .bind (h.distPriceWrite _ _) fun _ => fillDistFar lps l _

theorem fillClass (tmp : List Word) (lps : Word) : Preserves P (fillClass tmp lps) :=
  .look_bind fun _ => .bind (.forUp (h.fillSlot _) _ _) fun _ => .bind (.forUp (h.fillSlotDirect _) _ _) fun _ =>
    .bind (.forUp (h.fillDistNear _) _ _) fun _ => h.fillDistFar _ _ _

theorem fillDistancesPrices : Preserves P fillDistancesPrices :=
  .bind (h.specPosPrices _ _) fun _ => .bind (.forUp (h.fillClass _) _ _) fun _ => .put fun _ => h.encoder _ rfl

theorem fillAlign (i : Word) : Preserves P (fillAlign i) :=
  .bind (h.btReversePrice _ _ _) fun _ => h.alignPriceWrite _ _

theorem fillAlignPrices : Preserves P fillAlignPrices := .bind (.forUp h.fillAlign _ _) fun _ => .put fun _ =>
  h.encoder _ rfl

theorem fillLen (k : Bool) (ps i : Word) : Preserves P (fillLen k ps i) :=
  .bind (h.lenPrice _ _ _) fun _ => h.lenPriceWrite _ _ _

theorem updateLenTable (k : Bool) (ps : Word) : Preserves P (updateLenTable k ps) :=
  .look_bind fun _ => .bind (.forUp (h.fillLen _ _) _ _) fun _ => h.lenCounterWrite _ _ _

theorem lenCountDown (k : Bool) (ps : Word) : Preserves P (lenCountDown k ps) :=
  .bind (h.lenCounterRead _ _) fun _ => .bind (h.lenCounterWrite _ _ _) fun _ => .ite (h.updateLenTable _ _) (.pure ())

theorem shortRepPrice (st : CState) (ps : Word) : Preserves P (shortRepPrice st ps) :=
  .bind (h.nodePrice _ _) fun _ => .look_bind fun _ => .bind (h.nodePrice _ _) fun _ => .pure _

theorem pureRepPrice (i : Word) (st : CState) (ps : Word) : Preserves P (pureRepPrice i st ps) :=
  .ite (.bind (h.nodePrice _ _) fun _ => .look_bind fun _ => .bind (h.nodePrice _ _) fun _ => .pure _)
    (.ite (.bind (h.nodePrice _ _) fun _ => .bind (h.nodePrice _ _) fun _ => .pure _)
      (.bind (h.nodePrice _ _) fun _ => .bind (h.nodePrice _ _) fun _ => .bind (h.nodePrice _ _) fun _ => .pure _))

theorem repPrice (i len : Word) (st : CState) (ps : Word) : Preserves P (repPrice i len st ps) :=
  .bind (h.lenPriceRead _ _) fun _ => .bind (h.pureRepPrice _ _ _) fun _ => .pure _

theorem distPrice (d lps : Word) : Preserves P (distPrice d lps) :=
  .ite (h.distPriceRead _) (.bind (h.posSlotPriceRead _) fun _ => .bind (h.alignPriceRead _) fun _ => .pure _)

theorem posLenPrice (d len ps : Word) : Preserves P (posLenPrice d len ps) :=
  .bind (h.distPrice _ _) fun _ => .bind (h.lenPriceRead _ _) fun _ => .pure _

/-! ### The parser -/

theorem extendMatch (lenRes numPairs : Word) : Preserves P (extendMatch lenRes numPairs) :=
  .look_bind fun _ => .look_bind fun _ =>
    .ite (.bind (h.matchRead _) fun _ => .bind (h.winMatchLen _ _ _) fun _ => .pure _) (.pure _)

theorem readMatchDistances : Preserves P readMatchDistances :=
  .bind h.mfGetMatches fun _ => .ite_bind (.pure _) (.bind (h.matchRead _) fun _ => h.extendMatch _ _) fun _ =>
    .bind (.put fun _ => h.encoder _ rfl) fun _ => .pure _

theorem encMovePos (n : Word) : Preserves P (encMovePos n) :=
  .ite (.bind (h.mfSkip _) fun _ => .put fun _ => h.encoder _ rfl) (.pure ())

theorem optModify (k : Word) (f : OptRec → OptRec) : Preserves P (optModify k f) :=
  .bind (h.optRead _) fun _ => h.optWrite _ _

theorem relax (k c : Word) (f : OptRec → OptRec) : Preserves P (relax k c f) :=
  .bind (h.optRead _) fun _ => .ite (h.optWrite _ _) (.pure ())

theorem extendTurns : ∀ (n : Nat) (lenEnd : Word), Preserves P (extendTurns n lenEnd)
  | 0, _ => .pure ()
  | n + 1, _ => .bind (h.optModify _ _) fun _ => extendTurns n _

theorem extendTo (lenEnd k : Word) : Preserves P (extendTo lenEnd k) := .bind (h.extendTurns _ _) fun _ => .pure _

theorem expandRecord (r : OptRec) (posMem : Word) : Preserves P (expandRecord r posMem) :=
  .ite (.bind (h.optModify _ _) fun _ => .ite (h.optModify _ _) (.pure ())) (.pure ())

theorem backwardLoop : ∀ (n : Nat) (cur posMem backMem : Word), Preserves P (backwardLoop n cur posMem backMem)
  | 0, _, _, _ => h.raise _
  | n + 1, _, _, _ => .bind (h.optRead _) fun _ => .bind (h.expandRecord _ _) fun _ => .bind (h.optRead _) fun _ =>
    .bind (h.optWrite _ _) fun _ => .ite (.pure ()) (backwardLoop n _ _ _)

theorem backward (cur : Word) : Preserves P (backward cur) :=
  .bind (.put fun _ => h.encoder _ rfl) fun _ => .bind (h.optRead _) fun _ => .bind (h.backwardLoop _ _ _ _) fun _ =>
    .bind (h.optRead _) fun _ => .bind (.put fun _ => h.encoder _ rfl) fun _ => .pure _

theorem repLengths (reps : Reps) : Preserves P (repLengths reps) :=
  .bind (h.winMatchLen _ _ _) fun _ => .bind (h.winMatchLen _ _ _) fun _ => .bind (h.winMatchLen _ _ _) fun _ =>
    .bind (h.winMatchLen _ _ _) fun _ => .pure _

theorem infinityFrom : ∀ (n : Nat) (l : Word), Preserves P (infinityFrom n l)
  | 0, _ => .pure ()
  | n + 1, _ => .bind (h.optModify _ _) fun _ => infinityFrom n _

theorem repEdges (price ps back : Word) : ∀ (n : Nat) (l : Word), Preserves P (repEdges price ps back n l)
  | 0, _ => .pure ()
  | n + 1, _ => .bind (h.lenPriceRead _ _) fun _ => .bind (h.relax _ _ _) fun _ => repEdges price ps back n _

theorem repEdgesOf (repMatchPrice ps : Word) (st : CState) (lens : Reps) (i : Nat) :
    Preserves P (repEdgesOf repMatchPrice ps st lens i) :=
  .ite (.bind (h.pureRepPrice _ _ _) fun _ => h.repEdges _ _ _ _ _) (.pure ())

theorem skipPairs (l : Word) : ∀ (n : Nat) (offs : Word), Preserves P (skipPairs l n offs)
  | 0, _ => h.raise _
  | n + 1, _ => .bind (h.matchRead _) fun _ => .ite (skipPairs l n _) (.pure _)

theorem matchEdges (normalMatchPrice numPairs ps : Word) :
    ∀ (n : Nat) (l offs : Word), Preserves P (matchEdges normalMatchPrice numPairs ps n l offs)
  | 0, _, _ => h.raise _
  | n + 1, _, _ => .bind (h.matchRead _) fun _ => .bind (h.posLenPrice _ _ _) fun _ => .bind (h.relax _ _ _) fun _ =>
    .bind (h.matchRead _) fun _ => .ite (.ite (.pure ()) (matchEdges _ _ _ n _ _)) (matchEdges _ _ _ n _ _)

theorem literalPrice (st : CState) (ps position : Word) (prev matchByte curByte : Byte) :
    Preserves P (literalPrice st ps position prev matchByte curByte) :=
  .look_bind fun _ => .bind (h.nodePrice _ _) fun _ => .look_bind fun _ => .bind (h.litPrice _ _ _ _) fun _ => .pure _

theorem isMatchPrice (st : CState) (ps : Word) (b : Bool) : Preserves P (isMatchPrice st ps b) :=
  .look_bind fun _ => h.nodePrice _ _

theorem arrive (cur : Word) : Preserves P (arrive cur) :=
  .bind (h.optRead _) fun _ => .ite_bind
    (.ite (.bind (h.optRead _) fun _ => .pure _) (.bind (h.optRead _) fun _ => .pure _))
    (.bind (h.optRead _) fun _ => .pure _)
    fun _ => .ite (.bind (h.optRead _) fun _ => .pure _) (.bind (h.optRead _) fun _ => .pure _)

theorem nodeAt (cur position : Word) (st : CState) (reps : Reps) : Preserves P (nodeAt cur position st reps) :=
  .bind (h.optRead _) fun _ => .bind (h.winGetByte _) fun _ => .bind (h.winGetByte _) fun _ => .look_bind fun _ =>
    .bind (h.winGetByte _) fun _ => .bind (h.literalPrice _ _ _ _ _ _) fun _ => .bind (h.isMatchPrice _ _ _) fun _ =>
      .bind (h.nodePrice _ _) fun _ => .look_bind fun _ => .look_bind fun _ => .pure _

theorem literalEdge (nd : Node) : Preserves P (literalEdge nd) :=
  .bind (h.optRead _) fun _ => .ite (.bind (h.optWrite _ _) fun _ => .pure _) (.pure _)

theorem shortRepEdge (nd : Node) : Preserves P (shortRepEdge nd) :=
  .bind (h.optRead _) fun _ => .ite
    (.bind (h.shortRepPrice _ _) fun _ => .ite (.bind (h.optWrite _ _) fun _ => .pure _) (.pure _))
    (.pure _)

theorem repStartPrice (st : CState) (ps : Word) : Preserves P (repStartPrice st ps) :=
  .bind (h.isMatchPrice _ _ _) fun _ => .bind (h.nodePrice _ _) fun _ => .pure _

theorem litRep0Edge (nd : Node) (lenEnd : Word) : Preserves P (litRep0Edge nd lenEnd) :=
  .look_bind fun _ => .bind (h.winMatchLen _ _ _) fun _ => .ite
    (.look_bind fun _ => .bind (h.repStartPrice _ _) fun _ => .bind (h.extendTo _ _) fun _ =>
      .bind (h.repPrice _ _ _ _) fun _ => .bind (h.relax _ _ _) fun _ => .pure _)
    (.pure _)

theorem tripleEdge (nd : Node) (lenEnd : Word) (st2 : CState) (price len d back : Word) :
    Preserves P (tripleEdge nd lenEnd st2 price len d back) :=
  .ite
    (.look_bind fun _ => .bind (h.winMatchLen _ _ _) fun _ => .ite
      (.look_bind fun _ => .look_bind fun _ => .bind (h.nodePrice _ _) fun _ => .bind (h.winGetByte _) fun _ =>
        .look_bind fun _ => .bind (h.winGetByte _) fun _ => .bind (h.winGetByte _) fun _ =>
          .bind (h.litPrice _ _ _ _) fun _ => .look_bind fun _ => .bind (h.repStartPrice _ _) fun _ =>
            .bind (h.extendTo _ _) fun _ => .bind (h.repPrice _ _ _ _) fun _ => .bind (h.relax _ _ _) fun _ => .pure _)
      (.pure _))
    (.pure _)

theorem repEdgesAt (nd : Node) (ri : Word) : ∀ (n : Nat) (l lenEnd : Word), Preserves P (repEdgesAt nd ri n l lenEnd)
  | 0, _, _ => .pure _
  | n + 1, _, _ => .bind (h.extendTo _ _) fun _ => .bind (h.repPrice _ _ _ _) fun _ => .bind (h.relax _ _ _) fun _ =>
    repEdgesAt nd ri n _ _

theorem repTurn (nd : Node) (ri : Nat) (lenEnd startLen : Word) : Preserves P (repTurn nd ri lenEnd startLen) :=
  .bind (h.winMatchLen _ _ _) fun _ => .ite
    (.bind (h.repEdgesAt _ _ _ _ _) fun _ => .bind (h.repPrice _ _ _ _) fun _ =>
      .bind (h.tripleEdge _ _ _ _ _ _ _) fun _ =>
      .pure _)
    (.pure _)

theorem repTurns (nd : Node) (lenEnd : Word) : Preserves P (repTurns nd lenEnd) :=
  .bind (h.repTurn _ _ _ _) fun _ => .bind (h.repTurn _ _ _ _) fun _ => .bind (h.repTurn _ _ _ _) fun _ =>
    h.repTurn _ _ _ _

theorem clipMatches (newLen numPairs avail : Word) : Preserves P (clipMatches newLen numPairs avail) :=
  .ite (.bind (h.skipPairs _ _ _) fun _ => .bind (h.matchWrite _ _) fun _ => .pure _) (.pure _)

theorem matchEdgesAt (nd : Node) (normalMatchPrice numPairs : Word) :
    ∀ (n : Nat) (len offs lenEnd : Word), Preserves P (matchEdgesAt nd normalMatchPrice numPairs n len offs lenEnd)
  | 0, _, _, _ => h.raise _
  | n + 1, _, _, _ => .bind (h.matchRead _) fun _ => .bind (h.posLenPrice _ _ _) fun _ => .bind (h.relax _ _ _) fun _ =>
    .bind (h.matchRead _) fun _ => .ite
      (.bind (h.tripleEdge _ _ _ _ _ _ _) fun _ => .ite (.pure _) (matchEdgesAt _ _ _ n _ _ _))
      (matchEdgesAt _ _ _ n _ _ _)

theorem matchTurn (nd : Node) (newLen numPairs startLen lenEnd : Word) :
    Preserves P (matchTurn nd newLen numPairs startLen lenEnd) :=
  .bind (h.clipMatches _ _ _) fun _ => .ite
    (.bind (h.nodePrice _ _) fun _ => .bind (h.extendTo _ _) fun _ => .bind (h.skipPairs _ _ _) fun _ =>
      h.matchEdgesAt _ _ _ _ _ _ _)
    (.pure _)

theorem edgesFrom (nd : Node) (newLen numPairs lenEnd : Word) : Preserves P (edgesFrom nd newLen numPairs lenEnd) :=
  .bind (h.literalEdge _) fun _ => .bind (h.shortRepEdge _) fun _ => .ite (.pure _)
    (.ite_bind (h.litRep0Edge _ _) (.pure _) fun _ => .bind (h.repTurns _ _) fun _ => h.matchTurn _ _ _ _ _)

theorem forwardPass : ∀ (n : Nat) (last lenEnd position : Word), Preserves P (forwardPass n last lenEnd position)
  | 0, _, _, _ => h.raise _
  | n + 1, _, _, _ => .ite (h.backward _) (.bind h.readMatchDistances fun _ => .look_bind fun _ => .ite
    (.bind (.put fun _ => h.encoder _ rfl) fun _ => h.backward _)
    (.bind (h.arrive _) fun _ => .bind (h.optModify _ _) fun _ => .bind (h.nodeAt _ _ _ _) fun _ =>
      .bind (h.edgesFrom _ _ _ _) fun _ => forwardPass n _ _ _))

theorem firstEdges (position lenMain numPairs : Word) (lens : Reps) (curByte matchByte : Byte) :
    Preserves P (firstEdges position lenMain numPairs lens curByte matchByte) :=
  .look_bind fun _ => .bind (h.optModify _ _) fun _ => .look_bind fun _ => .look_bind fun _ =>
    .bind (h.literalPrice _ _ _ _ _ _) fun _ => .bind (h.optModify _ _) fun _ => .bind (h.isMatchPrice _ _ _) fun _ =>
      .bind (h.nodePrice _ _) fun _ => .when_bind (h.shortRepPrice _ _) (fun _ => h.relax _ _ _) fun _ => .ite
        (.bind (h.optRead _) fun _ => .pure _)
        (.bind (h.optModify _ _) fun _ => .look_bind fun _ => .bind (h.optModify _ _) fun _ =>
          .bind (h.infinityFrom _ _) fun _ => .bind (h.repEdgesOf _ _ _ _ _) fun _ =>
            .bind (h.repEdgesOf _ _ _ _ _) fun _ =>
            .bind (h.repEdgesOf _ _ _ _ _) fun _ => .bind (h.repEdgesOf _ _ _ _ _) fun _ =>
              .bind (h.nodePrice _ _) fun _ =>
              .when_bind (h.skipPairs _ _ _) (fun _ => h.matchEdges _ _ _ _ _ _) fun _ => h.forwardPass _ _ _ _)

theorem passStart : Preserves P passStart :=
  .look_bind fun _ => .ite (.bind (.put fun _ => h.encoder _ rfl) fun _ => .pure _) h.readMatchDistances

theorem newPass (position : Word) : Preserves P (newPass position) :=
  .bind (.put fun _ => h.encoder _ rfl) fun _ => .bind h.passStart fun _ => .look_bind fun _ => .ite (.pure _)
    (.look_bind fun _ => .bind (h.repLengths _) fun _ => .look_bind fun _ => .ite
      (.bind (h.encMovePos _) fun _ => .pure _)
      (.ite (.bind (h.matchRead _) fun _ => .bind (h.encMovePos _) fun _ => .pure _)
        (.bind (h.winGetByte _) fun _ => .bind (h.winGetByte _) fun _ => .ite (.pure _) (h.firstEdges _ _ _ _ _ _))))

theorem getOptimum (position : Word) : Preserves P (getOptimum position) :=
  .look_bind fun _ => .ite (.bind (h.optRead _) fun _ => .bind (.put fun _ => h.encoder _ rfl) fun _ =>
    .pure _) (h.newPass _)

/-! ### The encoder -/

theorem fillLenTables : Preserves P fillLenTables :=
  .look_bind fun _ => .bind (.forUp (h.updateLenTable _) _ _) fun _ => .forUp (h.updateLenTable _) _ _

/-! ### The decoder -/

theorem owGetByte (r : Word) : Preserves P (owGetByte r) := fun s hs => by
  unfold Machine.owGetByte
  dsimp only
  split
  · exact hs
  · exact h.fault _ hs

theorem stateCommand (sel : Bool) {f : CState → CState} (hf : ∀ v, (f v).toNat ≤ 11) :
    Preserves P (stateCommand sel f) :=
  .ite (.look_bind fun _ => .bind (h.cstateSet (hf _)) fun _ => h.setR0 _)
    (.look_bind fun _ => .bind (h.check _ _) fun _ => h.setR0 _)

end Stable

namespace StableOnSink
variable {P : State → Prop} (h : StableOnSink P)
include h

/-! ### The range encoder -/

theorem sinkWrite (b : Byte) : Preserves P (sinkWrite b) := fun s hs => by
  rcases sinkWrite_cases b s with ⟨room, _, e, _⟩ | ⟨_, e⟩ <;> rw [e]
  · exact h.sink b room hs
  · trivial

theorem rceEmit : ∀ (k : Nat) (t carry : Byte), Preserves P (rceEmit k t carry)
  | 0, _, _ => .pure ()
  | k + 1, _, _ => .bind (h.sinkWrite _) fun _ => .bind (.put fun _ => h.encoderBytes _ rfl) fun _ => rceEmit k _ _

theorem rceShiftLow : Preserves P rceShiftLow :=
  .look_bind fun _ => .when_bind (h.rceEmit _ _ _) (fun _ => .put fun _ => h.encoderBytes _ rfl) fun _ =>
    .put fun _ => h.encoderBytes _ rfl

/-- The renormalization after a bit (R284, R285): the state it continues with has the range shifted where it was low. -/
theorem rceNormalize_ends {s : State} (hs : P { s with rce := { s.rce with range := normalizedRange s.rce.range } }) :
    EndsIn P (rceNormalize s) := by
  unfold Machine.rceNormalize
  rw [Eng.bind_look]
  split
  · next hlow =>
    rw [normalizedRange_of_low hlow] at hs
    exact h.rceShiftLow _ hs
  · next hhigh =>
    rwa [normalizedRange_of_high hhigh] at hs

theorem rceEncodeBit (i : Word) (b : Bool) : Preserves P (rceEncodeBit i b) := fun s hs => by
  unfold Machine.rceEncodeBit Machine.probRead Machine.probWrite
  by_cases hi : i.toNat < s.prob.size
  · rw [Eng.bind_ok (ramRead_ok hi), Eng.bind_put, Eng.bind_ok (ramWrite_ok (by exact hi))]
    have narrowed := h.encoderBit i.toNat b
      { rceNarrow (bitBound s.rce.range (s.prob.get i.toNat)) b s.rce with range := normalizedRange _ } rfl hs
    exact h.rceNormalize_ends (h.adapt (s := { s with rce := { rceNarrow _ b s.rce with range := _ } }) _ b hi narrowed)
  · rw [Eng.bind_error (by rw [ramRead_run, if_neg hi])]
    exact h.fault _ hs

theorem rceEncodeDirect (v : Word) : ∀ n : Nat, Preserves P (rceEncodeDirect v n)
  | 0 => .pure ()
  | n + 1 => fun s hs => by
    rw [Machine.rceEncodeDirect, Eng.bind_put]
    have halved := h.encoderHalf { rceHalve (v.getLsbD n) s.rce with range := normalizedRange _ } rfl hs
    exact EndsIn.bind (h.rceNormalize_ends halved) fun _ => rceEncodeDirect v n

theorem rceFlush : Preserves P rceFlush :=
  .bind h.rceShiftLow fun _ => .bind h.rceShiftLow fun _ => .bind h.rceShiftLow fun _ => .bind h.rceShiftLow fun _ =>
    h.rceShiftLow

theorem btEncodeFrom (base sym : Word) : ∀ (k : Nat) (m : Word), Preserves P (btEncodeFrom base sym k m)
  | 0, _ => .pure ()
  | k + 1, _ => .bind (h.rceEncodeBit _ _) fun _ => btEncodeFrom base sym k _

theorem btEncode (base : Word) (n : Nat) (sym : Word) : Preserves P (btEncode base n sym) :=
  h.btEncodeFrom base sym n _

theorem btReverseEncodeFrom (base sym : Word) :
    ∀ (left k : Nat) (m : Word), Preserves P (btReverseEncodeFrom base sym left k m)
  | 0, _, _ => .pure ()
  | left + 1, _, _ => .bind (h.rceEncodeBit _ _) fun _ => btReverseEncodeFrom base sym left _ _

theorem btReverseEncode (base : Word) (n : Nat) (sym : Word) : Preserves P (btReverseEncode base n sym) :=
  h.btReverseEncodeFrom base sym n _ _

/-! ### The symbol coders -/

theorem litEncodeFrom (lb : Word) (sym : Byte) : ∀ (n : Nat) (c : Word), Preserves P (litEncodeFrom lb sym n c)
  | 0, _ => .pure ()
  | n + 1, _ => .bind (h.rceEncodeBit _ _) fun _ => litEncodeFrom lb sym n _

theorem litEncode (lb : Word) (sym : Byte) : Preserves P (litEncode lb sym) := h.litEncodeFrom lb sym 8 _

theorem litEncodeMatchedFrom (lb : Word) (mb sym : Byte) :
    ∀ (n : Nat) (c : Word) (same : Bool), Preserves P (litEncodeMatchedFrom lb mb sym n c same)
  | 0, _, _ => .pure ()
  | n + 1, _, _ => .bind (h.rceEncodeBit _ _) fun _ => litEncodeMatchedFrom lb mb sym n _ _

theorem litEncodeMatched (lb : Word) (mb sym : Byte) : Preserves P (litEncodeMatched lb mb sym) :=
  h.litEncodeMatchedFrom lb mb sym 8 _ _

theorem lenEncode (l sym ps : Word) : Preserves P (lenEncode l sym ps) :=
  .ite (.bind (h.rceEncodeBit _ _) fun _ => h.btEncode _ _ _)
    (.ite (.bind (h.rceEncodeBit _ _) fun _ => .bind (h.rceEncodeBit _ _) fun _ => h.btEncode _ _ _)
      (.bind (h.rceEncodeBit _ _) fun _ => .bind (h.rceEncodeBit _ _) fun _ => h.btEncode _ _ _))

theorem distEncode (dist len : Word) : Preserves P (distEncode dist len) :=
  .bind (h.btEncode _ _ _) fun _ => .ite (.pure _)
    (.ite (.bind (h.btReverseEncode _ _ _) fun _ => .pure _)
      (.bind (h.rceEncodeDirect _ _) fun _ => .bind (h.btReverseEncode _ _ _) fun _ => .pure _))

/-! ### The encoder -/

theorem encodeLiteral (ps : Word) : Preserves P (encodeLiteral ps) :=
  .look_bind fun _ => .look_bind fun _ => .bind (h.rceEncodeBit _ _) fun _ => .look_bind fun _ =>
    .bind (h.winGetByte _) fun _ => .look_bind fun _ => .look_bind fun _ => .look_bind fun _ => .ite
      (.bind (h.litEncode _ _) fun _ => .bind (.put fun _ => h.encoder _ rfl) fun _ => h.cstateSet (onChar_le _))
      (.look_bind fun _ => .bind (h.winGetByte _) fun _ => .bind (h.litEncodeMatched _ _ _) fun _ =>
        .bind (.put fun _ => h.encoder _ rfl) fun _ => h.cstateSet (onChar_le _))

theorem encodeRepChoice (st : CState) (ps len back : Word) : Preserves P (encodeRepChoice st ps len back) :=
  .ite (.bind (h.rceEncodeBit _ _) fun _ => .look_bind fun _ => h.rceEncodeBit _ _)
    (.bind (h.rceEncodeBit _ _) fun _ => .ite (h.rceEncodeBit _ _) (.bind (h.rceEncodeBit _ _) fun _ =>
      h.rceEncodeBit _ _))

theorem encodeRep (ps len back : Word) : Preserves P (encodeRep ps len back) :=
  .look_bind fun _ => .bind (h.rceEncodeBit _ _) fun _ => .bind (h.encodeRepChoice _ _ _ _) fun _ => .ite
    (.bind (h.cstateSet (onShortRep_le _)) fun _ => .bind (h.repUse _) fun _ => .pure ())
    (.bind (h.lenEncode _ _ _) fun _ => .bind (h.lenCountDown _ _) fun _ => .bind (h.cstateSet (onRep_le _)) fun _ =>
      .bind (h.repUse _) fun _ => .pure ())

theorem encodeMatch (ps len dist : Word) : Preserves P (encodeMatch ps len dist) :=
  .look_bind fun _ => .bind (h.rceEncodeBit _ _) fun _ => .bind (h.lenEncode _ _ _) fun _ =>
    .bind (h.lenCountDown _ _) fun _ => .bind (h.distEncode _ _) fun _ => .when (.put fun _ => h.encoder _ rfl) fun _ =>
      .bind (h.repPush _) fun _ => .bind (.put fun _ => h.encoder _ rfl) fun _ => h.cstateSet (onMatch_le _)

theorem encodeCopy (ps len back : Word) : Preserves P (encodeCopy ps len back) :=
  .look_bind fun _ => .look_bind fun _ => .bind (h.rceEncodeBit _ _) fun _ =>
    .ite_bind (h.encodeRep _ _ _) (h.encodeMatch _ _ _) fun _ => .look_bind fun _ => .bind (h.winGetByte _) fun _ =>
      .put fun _ => h.encoder _ rfl

/-- A symbol coded moves the encoder's registers and NOW_POS together (R480, R481). -/
theorem symbolCounted {s : State} (e : EncRegs) (n : DWord) (he : e.tableSizes = s.enc.tableSizes) (hs : P s) :
    P { s with enc := e, cnt := { s.cnt with nowPos := n } } :=
  h.nowPos (s := { s with enc := e }) n (h.encoder e he hs)

theorem encodeSymbol (len back : Word) : Preserves P (encodeSymbol len back) :=
  .look_bind fun _ => .look_bind fun _ => .ite_bind (h.encodeLiteral _) (h.encodeCopy _ _ _) fun _ =>
    .put fun _ => h.symbolCounted _ _ rfl

theorem encodeFirstByte : Preserves P encodeFirstByte :=
  .bind h.readMatchDistances fun _ => .look_bind fun _ => .look_bind fun _ => .bind (h.rceEncodeBit _ _) fun _ =>
    .bind (h.cstateSet (onChar_le _)) fun _ => .look_bind fun _ => .bind (h.winGetByte _) fun _ => .look_bind fun _ =>
      .bind (h.litEncode _ _) fun _ => .put fun _ => h.symbolCounted _ _ rfl

theorem encodeEndMarker : Preserves P encodeEndMarker :=
  .look_bind fun _ => .look_bind fun _ => .look_bind fun _ => .look_bind fun _ => .bind (h.rceEncodeBit _ _) fun _ =>
    .bind (h.rceEncodeBit _ _) fun _ => .bind (h.cstateSet (onMatch_le _)) fun _ => .bind (h.lenEncode _ _ _) fun _ =>
      .bind (h.lenCountDown _ _) fun _ => .bind (h.distEncode _ _) fun _ => .pure ()

/-! ### The decoder -/

theorem owPutByte (b : Byte) : Preserves P (owPutByte b) :=
  .look_bind fun _ => .bind (h.owbufWrite _ _) fun _ => .bind (.put fun _ => h.outputMoved) fun _ =>
    .bind (h.sinkWrite _) fun _ => .put fun _ => h.nowPos _

theorem owCopy (r : Word) : ∀ n : Nat, Preserves P (owCopy r n)
  | 0 => .pure ()
  | n + 1 => .bind (h.owGetByte _) fun _ => .bind (h.owPutByte _) fun _ => owCopy r n

theorem copyFromRep0 (len : Word) : Preserves P (copyFromRep0 len) :=
  .look_bind fun _ => .look_bind fun _ => .bind (h.owCopy _ _) fun _ => .pure _

theorem decodeLiteral (st : CState) : Preserves P (decodeLiteral st) :=
  .look_bind fun _ => .ite_bind (.pure _) (h.owGetByte _) fun _ => .look_bind fun _ => .ite_bind (h.litDecode _)
    (.look_bind fun _ => .bind (h.owGetByte _) fun _ => h.litDecodeMatched _ _)
    fun _ => .bind (h.owPutByte _) fun _ => .bind (h.cstateSet (onChar_le _)) fun _ => .pure _

end StableOnSink

namespace StableAtEnd
variable {P : State → Prop} (h : StableAtEnd P)
include h

/-! ### The encoder -/

theorem setDone : Preserves P (setPhase .done) := fun s => h.streamEnded s.status.endSeen

theorem encFinishStream : Preserves P encFinishStream :=
  .look_bind fun _ => .when h.encodeEndMarker fun _ => .bind h.rceFlush fun _ => h.setDone

theorem finishIfEmpty : Preserves P finishIfEmpty := .look_bind fun _ => .ite h.encFinishStream (.pure ())

theorem afterDecision : Preserves P afterDecision :=
  .look_bind fun _ => .ite (.when h.fillDistancesPrices fun _ => .when h.fillAlignPrices fun _ =>
    h.finishIfEmpty) (.pure ())

theorem encFirstStep : Preserves P encFirstStep :=
  .look_bind fun _ => .ite h.encFinishStream
    (.bind h.encodeFirstByte fun _ => .bind (h.setR0 _) fun _ => .bind (h.setR1 _) fun _ => h.finishIfEmpty)

theorem encNextStep : Preserves P encNextStep :=
  .look_bind fun _ => .bind (h.getOptimum _) fun _ => .bind (h.encodeSymbol _ _) fun _ => .bind (h.setR0 _) fun _ =>
    .bind (h.setR1 _) fun _ => h.afterDecision

theorem encStep : Preserves P encStep := .look_bind fun _ => .ite h.encFirstStep h.encNextStep

theorem encRunLoop : ∀ n : Nat, Preserves P (encRunLoop n)
  | 0 => .pure ()
  | n + 1 => .bind h.encStep fun _ => .look_bind fun _ => .ite (.pure ()) (encRunLoop n)

/-! ### The decoder -/

theorem distCheck (isMatch : Bool) : Preserves P (distCheck isMatch) :=
  .look_bind fun _ => .look_bind fun _ => .ite (.ite (.bind (.put fun _ => h.streamEnded true) fun _ =>
    .pure _) (h.raise _)) (.pure _)

theorem decodeLongRep (st : CState) (ps i : Word) : Preserves P (decodeLongRep st ps i) :=
  .bind (h.repUse _) fun _ => .bind (h.lenDecode _ _) fun _ => .bind (h.cstateSet (onRep_le _)) fun _ =>
    .bind (h.distCheck _) fun _ =>
    .bind (h.copyFromRep0 _) fun _ => .pure _

theorem decodeShortRep (st : CState) : Preserves P (decodeShortRep st) :=
  .bind (h.cstateSet (onShortRep_le _)) fun _ => .bind (h.distCheck _) fun _ => .look_bind fun _ =>
    .bind (h.owGetByte _) fun _ =>
    .bind (h.owPutByte _) fun _ => .pure _

theorem decodeRep (st : CState) (ps : Word) : Preserves P (decodeRep st ps) :=
  .look_bind fun _ => .bind (h.check _ _) fun _ => .bind (h.rcdDecodeBit _) fun _ => .ite
    (.bind (h.rcdDecodeBit _) fun _ =>
      .ite (.bind (h.rcdDecodeBit _) fun _ => h.decodeLongRep _ _ _) (h.decodeLongRep _ _ _))
    (.look_bind fun _ => .bind (h.rcdDecodeBit _) fun _ => .ite (h.decodeLongRep _ _ _) (h.decodeShortRep _))

theorem decodeMatch (st : CState) (ps : Word) : Preserves P (decodeMatch st ps) :=
  .bind (h.lenDecode _ _) fun _ => .bind (h.cstateSet (onMatch_le _)) fun _ => .bind (h.distDecode _) fun _ =>
    .bind (h.repPush _) fun _ =>
    .bind (h.distCheck _) fun _ => .ite (.pure _) (.bind (h.copyFromRep0 _) fun _ => .pure _)

theorem decodeOne : Preserves P decodeOne :=
  .look_bind fun _ => .look_bind fun _ => .look_bind fun _ => .look_bind fun _ => .bind (h.rcdDecodeBit _) fun _ => .ite
    (.bind (h.rcdDecodeBit _) fun _ => .ite (h.decodeRep _ _) (h.decodeMatch _ _))
    (h.decodeLiteral _)

theorem decodeSymbol : Preserves P decodeSymbol :=
  .look_bind fun _ => .ite (.bind h.setDone fun _ => .pure _)
    (.bind h.decodeOne fun _ => .ite (.pure _) (.look_bind fun _ => .when h.setDone fun _ => .pure _))

theorem decRunLoop : ∀ n : Nat, Preserves P (decRunLoop n)
  | 0 => .pure ()
  | n + 1 => .bind h.decodeSymbol fun _ => .look_bind fun _ => .ite (.pure ()) (decRunLoop n)

end StableAtEnd

end Sys2Proof.Machine
end

section
/-! SUPPORT. The same for whole commands: what the engine's rules preserve, every command preserves that neither starts
a stream nor writes an option nor resets the engine. -/

namespace Sys2Proof.Machine

/-- The commands that may end the stream (R483, R490, R491, R532, R534). -/
def endsStream (i : Instr) : Prop := i = .encStep ∨ i = .encRun ∨ i = .encFinish ∨ i = .decStep ∨ i = .decRun

namespace StableOnSink
variable {P : State → Prop} (h : StableOnSink P)
include h

/-- A command preserves what its rule preserves. -/
theorem command {i : Instr} {g : Gate} {body : Eng Unit} {s t : State} (hn : command i g body s = .next t) (hs : P s)
    (hb : Preserves P body) : P t :=
  have cleared : P (clearResults s) := h.results 0 0 hs
  Preserves.command hn (fun _ => hb _ cleared) cleared fun c => h.fault c cleared

/-- Every command but RESET, REG_WRITE, HDR_READ and the two stream starts preserves `P`. (The gate `.any`, which lets
every state pass, is named where unification would else evaluate it away.) -/
theorem of_exec {s t : State} : ∀ {i : Instr}, (endsStream i → StableAtEnd P) → exec i s = .next t →
    ¬(i = .reset ∨ i = .regWrite ∨ startsStream i) → P s → P t
  | .reset, _, _, hi, _ => absurd (.inl rfl) hi
  | .regWrite, _, _, hi, _ => absurd (.inr (.inl rfl)) hi
  | .encStart, _, _, hi, _ => absurd (.inr (.inr (.inl rfl))) hi
  | .hdrRead, _, _, hi, _ => absurd (.inr (.inr (.inr (.inl rfl)))) hi
  | .decStart, _, _, hi, _ => absurd (.inr (.inr (.inr (.inr rfl)))) hi
  | .nop, _, hn, _, hs => h.command (g := .any) hn hs (.pure ())
  | .regRead, _, hn, _, hs =>
      h.command (g := .any) hn hs (.look_bind fun _ => .bind (h.check _ _) fun _ => .look_bind fun
    | some _ => h.setR0 _
    | none => h.raise _)
  | .probRead, _, hn, _, hs => h.command (g := .any) hn hs (.look_bind fun _ => .bind (h.probIndexCheck _) fun _ =>
    .bind (h.probRead _) fun _ => h.setR0 _)
  | .matchRead, _, hn, _, hs =>
      h.command (g := .any) hn hs (.look_bind fun _ => .bind (h.matchRead _) fun _ => .bind (h.setR0 _) fun _ =>
    .look_bind fun _ => h.setR1 _)
  | .wbGetByte, _, hn, _, hs =>
      h.command hn hs (.look_bind fun _ => .bind (h.winIndexCheck _) fun _ => .bind (h.winGetByte _) fun _ =>
    h.setR0 _)
  | .wbMatchLen, _, hn, _, hs => h.command hn hs (.look_bind fun _ => .look_bind fun _ => .look_bind fun _ =>
    .bind (h.winMatchLen _ _ _) fun _ => h.setR0 _)
  | .wbAvail, _, hn, _, hs => h.command hn hs (.look_bind fun _ => h.setR0 _)
  | .mfGetMatches, _, hn, _, hs => h.command hn hs (.bind h.mfGetMatches fun _ => .bind (h.setR0 _) fun _ =>
    .ite_bind (.pure _) (h.matchRead _) fun _ => h.setR1 _)
  | .mfSkip, _, hn, _, hs => h.command hn hs (.look_bind fun _ => h.mfSkip _)
  | .mfMovePos, _, hn, _, hs => h.command hn hs h.mfMovePos
  | .mfHash, _, hn, _, hs => h.command hn hs (.bind h.mfHashCheck fun _ => .look_bind fun _ => .look_bind fun _ =>
    .bind (h.mfHashAt _) fun _ => .bind (h.setR0 _) fun _ => h.setR1 _)
  | .rceBit _, _, hn, _, hs =>
      h.command hn hs (.look_bind fun _ => .bind (h.probIndexCheck _) fun _ => h.rceEncodeBit _ _)
  | .rceDirect _, _, hn, _, hs => h.command hn hs (.look_bind fun _ => h.rceEncodeDirect _ _)
  | .rcdBit, _, hn, _, hs =>
      h.command hn hs (.look_bind fun _ => .bind (h.probIndexCheck _) fun _ => .bind (h.rcdDecodeBit _) fun _ =>
    h.setR0 _)
  | .rcdDirect _, _, hn, _, hs => h.command hn hs (.bind (h.rcdDecodeDirect _) fun _ => h.setR0 _)
  | .priceBit _ _, _, hn, _, hs =>
      h.command (g := .any) hn hs (.look_bind fun _ => .ite_bind (.bind (h.check _ _) fun _ => .pure _)
    (.bind (h.probIndexCheck _) fun _ => h.probRead _) fun _ => .bind (h.bitPrice _ _) fun _ => h.setR0 _)
  | .btEnc _, _, hn, _, hs => h.command hn hs (.look_bind fun _ => .look_bind fun _ => .bind (h.treeCheck _ _) fun _ =>
    h.btEncode _ _ _)
  | .btRevEnc _, _, hn, _, hs =>
      h.command hn hs (.look_bind fun _ => .look_bind fun _ => .bind (h.treeCheck _ _) fun _ =>
    h.btReverseEncode _ _ _)
  | .btDec _, _, hn, _, hs =>
      h.command hn hs (.look_bind fun _ => .bind (h.treeCheck _ _) fun _ => .bind (h.btDecode _ _) fun _ =>
    h.setR0 _)
  | .btRevDec _, _, hn, _, hs => h.command hn hs (.look_bind fun _ => .bind (h.treeCheck _ _) fun _ =>
    .bind (h.btReverseDecode _ _) fun _ => h.setR0 _)
  | .btPrice _, _, hn, _, hs =>
      h.command (g := .any) hn hs (.look_bind fun _ => .look_bind fun _ => .bind (h.treeCheck _ _) fun _ =>
    .bind (h.btPrice _ _ _) fun _ => h.setR0 _)
  | .btRevPrice _, _, hn, _, hs =>
      h.command (g := .any) hn hs (.look_bind fun _ => .look_bind fun _ => .bind (h.treeCheck _ _) fun _ =>
    .bind (h.btReversePrice _ _ _) fun _ => h.setR0 _)
  | .stChar _, _, hn, _, hs => h.command hn hs (h.stateCommand _ onChar_le)
  | .stMatch _, _, hn, _, hs => h.command hn hs (h.stateCommand _ onMatch_le)
  | .stRep _, _, hn, _, hs => h.command hn hs (h.stateCommand _ onRep_le)
  | .stShortRep _, _, hn, _, hs => h.command hn hs (h.stateCommand _ onShortRep_le)
  | .litEnc, _, hn, _, hs => h.command hn hs (.look_bind fun _ => .look_bind fun _ => .look_bind fun _ =>
    .bind (h.check _ _) fun _ => .bind (h.check _ _) fun _ => .look_bind fun _ => h.litEncode _ _)
  | .litEncM, _, hn, _, hs =>
      h.command hn hs (.look_bind fun _ => .look_bind fun _ => .look_bind fun _ => .look_bind fun _ =>
    .bind (h.check _ _) fun _ => .bind (h.check _ _) fun _ => .bind (h.check _ _) fun _ => .look_bind fun _ =>
      h.litEncodeMatched _ _ _)
  | .litDec, _, hn, _, hs =>
      h.command hn hs (.look_bind fun _ => .look_bind fun _ => .bind (h.check _ _) fun _ => .look_bind fun _ =>
    .bind (h.litDecode _) fun _ => h.setR0 _)
  | .litDecM, _, hn, _, hs =>
      h.command hn hs (.look_bind fun _ => .look_bind fun _ => .look_bind fun _ => .bind (h.check _ _) fun _ =>
    .bind (h.check _ _) fun _ => .look_bind fun _ => .bind (h.litDecodeMatched _ _) fun _ => h.setR0 _)
  | .litPrice _, _, hn, _, hs =>
      h.command (g := .any) hn hs (.look_bind fun _ => .look_bind fun _ => .look_bind fun _ =>
    .look_bind fun _ => .bind h.probCheck fun _ => .bind (h.check _ _) fun _ => .bind (h.check _ _) fun _ =>
      .when (h.check _ _) fun _ => .look_bind fun _ => .bind (h.litPrice _ _ _ _) fun _ => h.setR0 _)
  | .lenEnc _, _, hn, _, hs => h.command hn hs (.look_bind fun _ => .look_bind fun _ => .bind (h.check _ _) fun _ =>
    .bind (h.psCheck _) fun _ => .bind (h.lenEncode _ _ _) fun _ => h.lenCountDown _ _)
  | .lenDec _, _, hn, _, hs =>
      h.command hn hs (.look_bind fun _ => .bind (h.psCheck _) fun _ => .bind (h.lenDecode _ _) fun _ =>
    h.setR0 _)
  | .lenPrice _, _, hn, _, hs =>
      h.command (g := .any) hn hs (.look_bind fun _ => .look_bind fun _ => .bind (h.check _ _) fun _ =>
    .bind (h.psCheck _) fun _ => .bind (h.lenPrice _ _ _) fun _ => h.setR0 _)
  | .distEnc, _, hn, _, hs => h.command hn hs (.look_bind fun _ => .look_bind fun _ => .bind (h.check _ _) fun _ =>
    .bind (h.distEncode _ _) fun _ => h.setR0 _)
  | .distDec, _, hn, _, hs =>
      h.command hn hs (.look_bind fun _ => .bind (h.check _ _) fun _ => .bind (h.distDecode _) fun _ =>
    h.setR0 _)
  | .posSlot, _, hn, _, hs => h.command (g := .any) hn hs (.look_bind fun _ => h.setR0 _)
  | .repUse, _, hn, _, hs =>
      h.command hn hs (.look_bind fun _ => .bind (h.check _ _) fun _ => .bind (h.repUse _) fun _ => h.setR0 _)
  | .repPush, _, hn, _, hs => h.command hn hs (.look_bind fun _ => h.repPush _)
  | .optGetOptimum, _, hn, _, hs =>
      h.command hn hs (.look_bind fun _ => .bind (h.getOptimum _) fun _ => .bind (h.setR0 _) fun _ =>
    h.setR1 _)
  | .priceFillDist, _, hn, _, hs => h.command hn hs h.fillDistancesPrices
  | .priceFillAlign, _, hn, _, hs => h.command hn hs h.fillAlignPrices
  | .priceLenTable _, _, hn, _, hs =>
      h.command hn hs (.look_bind fun _ => .bind (h.psCheck _) fun _ => h.updateLenTable _ _)
  | .pricePosLen, _, hn, _, hs => h.command hn hs (.look_bind fun _ => .look_bind fun _ => .look_bind fun _ =>
    .bind (h.check _ _) fun _ => .bind (h.psCheck _) fun _ => .bind (h.posLenPrice _ _ _) fun _ => h.setR0 _)
  | .priceRep, _, hn, _, hs =>
      h.command hn hs (.look_bind fun _ => .look_bind fun _ => .look_bind fun _ => .look_bind fun _ =>
    .bind (h.check _ _) fun _ => .bind (h.check _ _) fun _ => .bind (h.check _ _) fun _ => .bind (h.psCheck _) fun _ =>
      .bind (h.repPrice _ _ _ _) fun _ => h.setR0 _)
  | .priceShortRep, _, hn, _, hs =>
      h.command hn hs (.look_bind fun _ => .look_bind fun _ => .bind (h.check _ _) fun _ =>
    .bind (h.psCheck _) fun _ => .bind (h.shortRepPrice _ _) fun _ => h.setR0 _)
  | .hdrWrite, _, hn, _, hs => h.command hn hs (.look_bind fun _ => .bind (h.check _ _) fun _ => .look_bind fun _ =>
    .bind (h.sinkWrite _) fun _ => .bind (h.sinkWrite _) fun _ => .bind (h.sinkWrite _) fun _ =>
      .bind (h.sinkWrite _) fun _ =>
      h.sinkWrite _)
  | .encStep, hend, hn, _, hs => h.command hn hs (hend (.inl rfl)).encStep
  | .encRun, hend, hn, _, hs =>
      h.command hn hs (.bind ((hend (.inr (.inl rfl))).encRunLoop _) fun _ => .put fun _ => h.results 0 0)
  | .encSymbol, _, hn, _, hs => h.command hn hs (.look_bind fun _ => .look_bind fun _ => .bind (h.check _ _) fun _ =>
    h.encodeSymbol _ _)
  | .encFinish, hend, hn, _, hs => h.command hn hs (hend (.inr (.inr (.inl rfl)))).encFinishStream
  | .decStep, hend, hn, _, hs =>
      h.command hn hs (.bind (hend (.inr (.inr (.inr (.inl rfl))))).decodeSymbol fun _ => .bind (h.setR0 _) fun _ =>
      h.setR1 _)
  | .decRun, hend, hn, _, hs =>
      h.command hn hs (.look_bind fun _ => (hend (.inr (.inr (.inr (.inr rfl))))).decRunLoop _)
  | .owGetByte, _, hn, _, hs =>
      h.command (g := .any) hn hs (.look_bind fun _ => .look_bind fun _ => .bind (h.check _ _) fun _ =>
    .bind (h.owGetByte _) fun _ => h.setR0 _)
  | .owPutByte, _, hn, _, hs => h.command hn hs (.look_bind fun _ => .bind (h.check _ _) fun _ => h.owPutByte _)
  | .owCopy, _, hn, _, hs =>
      h.command hn hs (.look_bind fun _ => .look_bind fun _ => .look_bind fun _ => .bind (h.check _ _) fun _ =>
    .bind (h.check _ _) fun _ => h.owCopy _ _)

end StableOnSink
end Sys2Proof.Machine
end

section
/-! SUPPORT. The invariant is preserved by every update the engine's rules are made of (`Stable`). -/

namespace Sys2Proof.Machine

/-! ### The parts of the invariant -/

/-- A RAM write inside the RAM keeps the canonical form, said of the state it ends in. -/
theorem memory_wf_of_ramWrite {α : Type} {fill : α} [DecidableEq α] {ram : State → Ram α fill}
    {store : State → Ram α fill → State} {i : Word} {v : α} (hk : KeepsMemory (ramWrite ram store i v)) {s : State}
    (hs : Memory.wf s = true) (hi : i.toNat < (ram s).size) : Memory.wf (store s ((ram s).set i.toNat v)) = true := by
  have h := hk s hs
  rwa [ramWrite_ok hi] at h

theorem probsInRange_iff {s : State} :
    probsInRange s = true ↔ ∀ c ∈ s.prob.cells, 31 ≤ c.2.toNat ∧ c.2.toNat ≤ 2017 := by
  simp [probsInRange]

theorem Inv.prob_range {s : State} (hs : Inv s) (i : Nat) : 31 ≤ (s.prob.get i).toNat ∧ (s.prob.get i).toNat ≤ 2017 :=
  cellAt_any (fun p : Prob => 31 ≤ p.toNat ∧ p.toNat ≤ 2017) (by decide) _ _ (probsInRange_iff.1 hs.probs)

/-- Where a RAM has an element the engine is not in PHASE IDLE (R75). -/
theorem Inv.not_idle {s : State} (hs : Inv s) {i n : Nat} {q : Prop} (hi : i < n) (hn : ramsFree s → n = 0)
    (hp : s.status.phase = .idle) : q :=
  absurd hi (by rw [hn (hs.idle hp).2]; exact Nat.not_lt_zero i)

/-- The sizes of the price RAMs (R57). -/
def PriceRams.sizes (p : PriceRams) : List Nat :=
  [p.posSlot.size, p.dist.size, p.align.size, p.lenMatch.size, p.lenRep.size, p.cntMatch.size, p.cntRep.size]

theorem Inv.price_written {s : State} (hs : Inv s) {p : PriceRams} {i n : Nat} (hi : i < n)
    (hn : s.price = PriceRams.reset → n = 0) (hsize : p.sizes = s.price.sizes)
    (hmem : Memory.wf { s with price := p } = true) : Inv { s with price := p } :=
  { hs with
    memory := hmem
    idle := hs.not_idle hi fun ⟨_, _, _, _, _, _, hp, _⟩ => hn hp
    encRams := fun hp => by
      obtain ⟨hwbuf, hson, hhash, hmatch, hopt, hprices⟩ := hs.encRams hp
      simp only [PriceRams.sizes, List.cons.injEq, and_true] at hsize
      obtain ⟨h1, h2, h3, h4, h5, h6, h7⟩ := hsize
      refine ⟨hwbuf, hson, hhash, hmatch, hopt, ?_⟩
      rw [h1, h2, h3, h4, h5, h6, h7]
      exact hprices }

/-! ### The ranges (R287, R289) -/

/-- A renormalization brings a range of at least 2^16 to at least 2^24. -/
theorem le_normalizedRange {range : Word} (h : 2 ^ 16 ≤ range.toNat) : 2 ^ 24 ≤ (normalizedRange range).toNat := by
  by_cases hlow : range.toNat < 2 ^ 24
  · rw [normalizedRange_of_low hlow, BitVec.toNat_shiftLeft, Nat.shiftLeft_eq]
    omega
  · rw [normalizedRange_of_high hlow]
    omega

/-- A modelled bit leaves each side of the interval at least 2^16 (R281, R284, R290). -/
theorem bitBound_inside {range : Word} {p : Prob} (hr : 2 ^ 24 ≤ range.toNat) (hp : 31 ≤ p.toNat ∧ p.toNat ≤ 2017) :
    2 ^ 16 ≤ (bitBound range p).toNat ∧ 2 ^ 16 ≤ (range - bitBound range p).toNat := by
  have hlt := range.isLt
  have hlo : range.toNat / 2048 * 31 ≤ range.toNat / 2048 * p.toNat := Nat.mul_le_mul_left _ hp.1
  have hhi : range.toNat / 2048 * p.toNat ≤ range.toNat / 2048 * 2017 := Nat.mul_le_mul_left _ hp.2
  rw [bitBound_eq]
  generalize range.toNat / 2048 * p.toNat = bound at hlo hhi
  have hb : (BitVec.ofNat 32 bound).toNat = bound := by rw [BitVec.toNat_ofNat]; omega
  rw [BitVec.toNat_sub, hb]
  omega

theorem le_half_of_le {range : Word} (h : 2 ^ 24 ≤ range.toNat) : 2 ^ 16 ≤ (range >>> 1).toNat := by
  rw [BitVec.toNat_ushiftRight, Nat.shiftRight_eq_div_pow]
  omega

theorem le_rceNarrow {r : RceRegs} {p : Prob} (b : Bool) (hr : 2 ^ 24 ≤ r.range.toNat)
    (hp : 31 ≤ p.toNat ∧ p.toNat ≤ 2017) : 2 ^ 16 ≤ (rceNarrow (bitBound r.range p) b r).range.toNat := by
  obtain ⟨hlow, hhigh⟩ := bitBound_inside hr hp
  cases b
  · exact hlow
  · exact hhigh

theorem le_rcdNarrow {r : RcdRegs} {p : Prob} (hr : 2 ^ 24 ≤ r.range.toNat)
    (hp : 31 ≤ p.toNat ∧ p.toNat ≤ 2017) : 2 ^ 16 ≤ (rcdNarrow (bitBound r.range p) r).2.range.toNat := by
  obtain ⟨hlow, hhigh⟩ := bitBound_inside hr hp
  unfold rcdNarrow
  split
  · exact hlow
  · exact hhigh

theorem Inv.rce_written {s : State} (hs : Inv s) {r : RceRegs}
    (hr : 2 ^ 24 ≤ s.rce.range.toNat → 2 ^ 24 ≤ r.range.toNat) : Inv { s with rce := r } :=
  { hs with encRange := fun hp he => hr (hs.encRange hp he) }

theorem Inv.rcd_written {s : State} (hs : Inv s) {r : RcdRegs}
    (hr : 2 ^ 24 ≤ s.rcd.range.toNat → 2 ^ 24 ≤ r.range.toNat) : Inv { s with rcd := r } :=
  { hs with decRange := fun hp he => hr (hs.decRange hp he) }

/-! ### Faults -/

/-- Every fault but the one that says there is none is recorded (R610). -/
theorem Status.record_err_ne_none {t : Status} {c : ErrCode} (hc : c ≠ .none) : (t.record c).err ≠ .none := by
  unfold Status.record
  split
  · exact hc
  · assumption

/-- A fault keeps the invariant: no range is claimed under an error. -/
theorem Inv.faulted {s : State} (hs : Inv s) (c : ErrCode) : Inv (faultEntry c s) := by
  have calm : (faultEntry c s).status.err = .none → s.status.err = .none := fun h => by
    by_contra he
    exact he ((Status.record_err_later he c).symm.trans h)
  have phase : (faultEntry c s).status.phase = s.status.phase := Status.record_phase _ _
  exact
    { hs with
      idle := fun h => hs.idle (phase.symm.trans h)
      encOptions := fun h => hs.encOptions (phase.symm.trans h)
      encRams := fun h => hs.encRams (phase.symm.trans h)
      encRegs := fun h => hs.encRegs (phase.symm.trans h)
      decOptions := fun h => hs.decOptions (phase.symm.trans h)
      decRegs := fun h => hs.decRegs (phase.symm.trans h)
      encRange := fun h he => hs.encRange (phase.symm.trans h) (calm he)
      decRange := fun h he => hs.decRange (phase.symm.trans h) (calm he) }

/-- A decoder that faults leaves its range as it is. -/
theorem Inv.faulted_rcd {s : State} (hs : Inv s) {c : ErrCode} (hc : c ≠ .none) (r : RcdRegs) :
    Inv (faultEntry c { s with rcd := r }) :=
  { hs.faulted c with decRange := fun _ he => absurd he (Status.record_err_ne_none hc) }

/-! ### The other updates -/

theorem Inv.win_written {s : State} (hs : Inv s) {w : WinRegs} (hw : w.sizes = s.win.sizes) :
    Inv { s with win := w } := by
  simp only [WinRegs.sizes, Prod.mk.injEq] at hw
  obtain ⟨hblock, hbefore, hafter, hsafe⟩ := hw
  exact
    { hs with
      encRams := fun hp => by
        obtain ⟨hwbuf, hrest⟩ := hs.encRams hp
        exact ⟨hwbuf.trans (congrArg BitVec.toNat hblock.symm), hrest⟩
      encRegs := fun hp => by
        obtain ⟨hmf, hcyc, hdist, hlen, hwin⟩ := hs.encRegs hp
        refine ⟨hmf, hcyc, hdist, hlen, ?_⟩
        rw [hblock, hbefore, hafter, hsafe]
        exact hwin }

theorem Inv.mf_written {s : State} (hs : Inv s) {c n : Word}
    (hc : s.mf.cycPos.toNat < s.mf.cbs.toNat → c.toNat < s.mf.cbs.toNat) :
    Inv { s with mf := { s.mf with cycPos := c, numPairs := n } } :=
  { hs with
    encRegs := fun hp => by
      obtain ⟨hmf, hcyc, hrest⟩ := hs.encRegs hp
      exact ⟨congrArg (fun m : MfRegs => { m with cycPos := c, numPairs := n }) hmf, hc hcyc, hrest⟩ }

theorem Inv.enc_written {s : State} (hs : Inv s) {e : EncRegs} (he : e.tableSizes = s.enc.tableSizes) :
    Inv { s with enc := e } := by
  simp only [EncRegs.tableSizes, Prod.mk.injEq] at he
  obtain ⟨hdist, hlen⟩ := he
  exact
    { hs with
      encRegs := fun hp => by
        obtain ⟨hmf, hcyc, hd, hl, hwin⟩ := hs.encRegs hp
        exact ⟨hmf, hcyc, hdist.trans hd, hlen.trans hl, hwin⟩ }

/-- PROB entries adapt inside 31..2017 (R281). -/
theorem Inv.adapted {s : State} (hs : Inv s) {i : Word} (hi : i.toNat < s.prob.size) (b : Bool) :
    Inv { s with prob := s.prob.set i.toNat (probUpdate (s.prob.get i.toNat) b) } :=
  { hs with
    memory := memory_wf_of_ramWrite (KeepsMemory.probWrite i _) hs.memory hi
    probs := probsInRange_iff.2 <|
      cellSet_all (fun p : Prob => 31 ≤ p.toNat ∧ p.toNat ≤ 2017) _ _ _ (probsInRange_iff.1 hs.probs)
        (by rw [adapted_eq]; exact adapted_range b (hs.prob_range _))
    idle := hs.not_idle hi fun ⟨hprob, _⟩ => by rw [hprob]; rfl }

/-- The match finder's stored positions rebased (R254). -/
theorem Inv.rebased {s : State} (hs : Inv s) (sub : Word) :
    Inv { s with son := s.son.mapElems (rebase sub), hash := s.hash.mapElems (rebase sub) } :=
  { hs with
    memory := by
      obtain ⟨h0, h1, hson, hhash, hrest⟩ := (memory_wf_iff s).1 hs.memory
      exact (memory_wf_iff _).2 ⟨h0, h1, Ram.wf_mapElems hson _, Ram.wf_mapElems hhash _, hrest⟩
    idle := fun hp => by
      obtain ⟨hd, h0, h1, hson, hhash, hrest⟩ := hs.idle hp
      exact ⟨hd, h0, h1, by rw [hson]; rfl, by rw [hhash]; rfl, hrest⟩ }

theorem Inv.hash_cleared {s : State} (hs : Inv s) : Inv { s with hash := s.hash.clear } :=
  { hs with
    memory := by
      obtain ⟨h0, h1, h2, _, hrest⟩ := (memory_wf_iff s).1 hs.memory
      exact (memory_wf_iff _).2 ⟨h0, h1, h2, Ram.wf_clear _, hrest⟩
    idle := fun hp => by
      obtain ⟨hd, h0, h1, h2, hhash, hrest⟩ := hs.idle hp
      exact ⟨hd, h0, h1, h2, by rw [hhash]; rfl, hrest⟩ }

/-- The write index of the output window stays inside it (R105, R510). -/
theorem owNext_lt {o : OwRegs} (h : o.pos.toNat < o.size.toNat) : (owNext o).toNat < o.size.toNat := by
  unfold owNext
  split
  · exact Nat.zero_lt_of_lt h
  · next hne =>
    have hsize := o.size.isLt
    have hpos : (o.pos + 1#32).toNat = o.pos.toNat + 1 := by rw [BitVec.toNat_add]; simp; omega
    have hne : (o.pos + 1#32).toNat ≠ o.size.toNat := fun he => hne (BitVec.eq_of_toNat_eq he)
    show (o.pos + 1#32).toNat < _
    omega

theorem Inv.ow_moved {s : State} (hs : Inv s) : Inv { s with ow := { s.ow with pos := owNext s.ow } } :=
  { hs with output := ⟨hs.output.1, fun hne => owNext_lt (hs.output.2 hne)⟩ }

/-- A stream that has ended claims nothing of its coders and RAMs. -/
theorem Inv.done {s : State} (hs : Inv s) (e : Bool) :
    Inv { s with status := { s.status with endSeen := e, phase := .done } } :=
  { hs with
    idle := fun h => by cases h
    encOptions := fun h => by cases h
    encRams := fun h => by cases h
    encRegs := fun h => by cases h
    decOptions := fun h => by cases h
    decRegs := fun h => by cases h
    encRange := fun h => by cases h
    decRange := fun h => by cases h }

/-! ### RAM writes (R100, R104) -/

theorem Inv.wbuf_written {s : State} (hs : Inv s) {i : Word} (hi : i.toNat < s.wbuf.size) (v : Byte) :
    Inv { s with wbuf := s.wbuf.set i.toNat v } :=
  { hs with
    memory := memory_wf_of_ramWrite (KeepsMemory.wbufWrite i v) hs.memory hi
    idle := hs.not_idle hi fun ⟨_, hwbuf, _⟩ => by rw [hwbuf]; rfl }

theorem Inv.son_written {s : State} (hs : Inv s) {i : Word} (hi : i.toNat < s.son.size) (v : Word) :
    Inv { s with son := s.son.set i.toNat v } :=
  { hs with
    memory := memory_wf_of_ramWrite (KeepsMemory.sonWrite i v) hs.memory hi
    idle := hs.not_idle hi fun ⟨_, _, hson, _⟩ => by rw [hson]; rfl }

theorem Inv.hash_written {s : State} (hs : Inv s) {i : Word} (hi : i.toNat < s.hash.size) (v : Word) :
    Inv { s with hash := s.hash.set i.toNat v } :=
  { hs with
    memory := memory_wf_of_ramWrite (KeepsMemory.hashWrite i v) hs.memory hi
    idle := hs.not_idle hi fun ⟨_, _, _, hhash, _⟩ => by rw [hhash]; rfl }

theorem Inv.matchBuf_written {s : State} (hs : Inv s) {i : Word} (hi : i.toNat < s.matchBuf.size) (v : Word) :
    Inv { s with matchBuf := s.matchBuf.set i.toNat v } :=
  { hs with
    memory := memory_wf_of_ramWrite (KeepsMemory.matchWrite i v) hs.memory hi
    idle := hs.not_idle hi fun ⟨_, _, _, _, hmatch, _⟩ => by rw [hmatch]; rfl }

theorem Inv.opt_written {s : State} (hs : Inv s) {i : Word} (hi : i.toNat < s.opt.size) (v : OptRec) :
    Inv { s with opt := s.opt.set i.toNat v } :=
  { hs with
    memory := memory_wf_of_ramWrite (KeepsMemory.optWrite i v) hs.memory hi
    idle := hs.not_idle hi fun ⟨_, _, _, _, _, hopt, _⟩ => by rw [hopt]; rfl }

theorem Inv.owbuf_written {s : State} (hs : Inv s) {i : Word} (hi : i.toNat < s.owbuf.size) (v : Byte) :
    Inv { s with owbuf := s.owbuf.set i.toNat v } :=
  { hs with
    memory := memory_wf_of_ramWrite (KeepsMemory.owbufWrite i v) hs.memory hi
    idle := hs.not_idle hi fun ⟨_, _, _, _, _, _, _, howbuf⟩ => by rw [howbuf]; rfl }

theorem inv_stable : StableAtEnd Inv where
  fault c hs := hs.faulted c
  results _ _ hs := { hs with }
  byteTaken _ _ hs := { hs with }
  sourceEnded hs := { hs with }
  nowPos _ hs := { hs with }
  coderState _ hv hs := { hs with coderState := hv }
  reps _ hs := { hs with }
  adapt _ b hi hs := hs.adapted hi b
  encoderBit i b _ hr hs := hs.rce_written fun h => by
    rw [hr]; exact le_normalizedRange (le_rceNarrow b h (hs.prob_range i))
  encoderHalf _ hr hs := hs.rce_written fun h => by rw [hr]; exact le_normalizedRange (le_half_of_le h)
  encoderBytes _ hr hs := hs.rce_written fun h => by rwa [hr]
  decoderBit i _ hr hs := hs.rcd_written fun h => by
    rw [hr]; exact le_normalizedRange (le_rcdNarrow h (hs.prob_range i))
  decoderHalf _ hr hs := hs.rcd_written fun h => by rw [hr]; exact le_normalizedRange (le_half_of_le h)
  decoderBytes _ hr hs := hs.rcd_written fun h => by rwa [hr]
  decoderTruncated r hs := hs.faulted_rcd (by decide) r
  window _ hw hs := hs.win_written hw
  wbuf _ v hi hs := hs.wbuf_written hi v
  finder _ _ hc hs := hs.mf_written hc
  rebased sub hs := hs.rebased sub
  hashCleared hs := hs.hash_cleared
  son _ v hi hs := hs.son_written hi v
  hash _ v hi hs := hs.hash_written hi v
  matchBuf _ v hi hs := hs.matchBuf_written hi v
  opt _ v hi hs := hs.opt_written hi v
  encoder _ he hs := hs.enc_written he
  posSlot i v hi hs := hs.price_written hi (fun h => by rw [h]; rfl) rfl
    (memory_wf_of_ramWrite (KeepsMemory.posSlotPriceWrite i v) hs.memory hi)
  dist i v hi hs := hs.price_written hi (fun h => by rw [h]; rfl) rfl
    (memory_wf_of_ramWrite (KeepsMemory.distPriceWrite i v) hs.memory hi)
  align i v hi hs := hs.price_written hi (fun h => by rw [h]; rfl) rfl
    (memory_wf_of_ramWrite (KeepsMemory.alignPriceWrite i v) hs.memory hi)
  lenMatch i v hi hs := hs.price_written hi (fun h => by rw [h]; rfl) rfl
    (memory_wf_of_ramWrite (ram := (·.price.lenMatch))
      (store := fun s r => { s with price := { s.price with lenMatch := r } })
      (KeepsMemory.lenPriceWrite false i v) hs.memory hi)
  lenRep i v hi hs := hs.price_written hi (fun h => by rw [h]; rfl) rfl
    (memory_wf_of_ramWrite (ram := (·.price.lenRep))
      (store := fun s r => { s with price := { s.price with lenRep := r } })
      (KeepsMemory.lenPriceWrite true i v) hs.memory hi)
  cntMatch i v hi hs := hs.price_written hi (fun h => by rw [h]; rfl) rfl
    (memory_wf_of_ramWrite (ram := (·.price.cntMatch))
      (store := fun s r => { s with price := { s.price with cntMatch := r } })
      (KeepsMemory.lenCounterWrite false i v) hs.memory hi)
  cntRep i v hi hs := hs.price_written hi (fun h => by rw [h]; rfl) rfl
    (memory_wf_of_ramWrite (ram := (·.price.cntRep))
      (store := fun s r => { s with price := { s.price with cntRep := r } })
      (KeepsMemory.lenCounterWrite true i v) hs.memory hi)
  owbuf _ v hi hs := hs.owbuf_written hi v
  outputMoved hs := hs.ow_moved
  sink _ _ hs := { hs with }
  streamEnded e hs := hs.done e

end Sys2Proof.Machine
end

section
/-! SUPPORT. What the first refill of the window does (R202, R206): it waits for the source, or it stores the source's
bytes from WBUF index 0 on until the window is full or the source ends. -/

namespace Sys2Proof.Machine

/-- The window while it is filled for the first time, at WBUF index `streamPos`. -/
structure Refilling (s : State) : Prop where
  eof : s.status.srcEof = false
  streamEnd : s.win.streamEnd = false
  offset : s.win.bufOffset = 0#32
  pos : s.win.pos = 0#32
  size : s.wbuf.size = s.win.blockSize.toNat
  wf : s.wbuf.wf = true
  inside : s.win.streamPos.toNat ≤ s.win.blockSize.toNat
  lookAhead : s.win.keepAfter.toNat ≤ s.win.blockSize.toNat
  limit : s.win.streamPos = s.win.blockSize →
    s.win.posLimit.toNat + s.win.keepAfter.toNat = s.win.blockSize.toNat

/-- The WBUF elements still to be filled. -/
def windowRoom (s : State) : Nat := s.win.blockSize.toNat - s.win.streamPos.toNat

/-- The source bytes a refill takes. -/
def refillCount (s : State) : Nat := min s.host.src.length (windowRoom s)

/-- A refill's result, but for WBUF and the refill limit (R206): the bytes taken off the source and counted. -/
def refilledState (s : State) (wbuf : Ram Byte 0#8) (posLimit : Word) : State :=
  { s with
    host := { s.host with src := s.host.src.drop (refillCount s) }
    cnt := { s.cnt with inCount := s.cnt.inCount + BitVec.ofNat 64 (refillCount s) }
    status := { s.status with srcEof := decide (s.host.src.length < windowRoom s) }
    wbuf := wbuf
    win := { s.win with
      streamPos := s.win.streamPos + BitVec.ofNat 32 (refillCount s)
      posLimit := posLimit
      streamEnd := decide (s.host.src.length < windowRoom s) } }

/-- The state `t` a refill from `s` ends in. -/
structure Refilled (s t : State) : Prop where
  frame : t = refilledState s t.wbuf t.win.posLimit
  size : t.wbuf.size = s.wbuf.size
  wf : t.wbuf.wf = true
  before : ∀ j < s.win.streamPos.toNat, t.wbuf.get j = s.wbuf.get j
  bytes : ∀ j : Nat, (h : j < s.host.src.length) → j < windowRoom s →
    t.wbuf.get (s.win.streamPos.toNat + j) = s.host.src[j]
  limit : windowRoom s ≤ s.host.src.length → t.win.posLimit.toNat + s.win.keepAfter.toNat = s.win.blockSize.toNat

/-- The state after one byte of a refill (R206). -/
def byteStored (b : Byte) (rest : List Byte) (s : State) : State :=
  { bytePopped rest s with wbuf := s.wbuf.set s.win.streamPos.toNat b, win := winAfterByte s.win }

namespace Refilling
variable {s : State} (h : Refilling s)
include h

theorem full_iff : s.win.bufOffset + s.win.streamPos = s.win.blockSize ↔ windowRoom s = 0 := by
  have hin := h.inside
  rw [h.offset, BitVec.zero_add, ← BitVec.toNat_inj, windowRoom]
  omega

/-- A full window needs no turn. -/
theorem refilled_of_full (hfull : windowRoom s = 0) : Refilled s s := by
  have hpos : s.win.streamPos = s.win.blockSize := by
    have := h.full_iff.2 hfull
    rwa [h.offset, BitVec.zero_add] at this
  have hcount : refillCount s = 0 := by rw [refillCount, hfull, Nat.min_zero]
  have hstatus : { s.status with srcEof := false } = s.status := by rw [← h.eof]
  have hwin : { s.win with streamEnd := false } = s.win := by rw [← h.streamEnd]
  exact
    { frame := by
        rw [refilledState, hcount, hfull]
        simp only [List.drop_zero, BitVec.add_zero, Nat.not_lt_zero, decide_false]
        rw [hstatus, hwin]
      size := rfl
      wf := h.wf
      before := fun _ _ => rfl
      bytes := fun j _ hj => absurd hj (by omega)
      limit := fun _ => h.limit hpos }

/-- The source's end ends the refill. -/
theorem refilled_of_eof (hsrc : s.host.src = []) (hroom : windowRoom s ≠ 0) :
    Refilled s { s with status := { s.status with srcEof := true }, win := winAtEof s.win } := by
  have hcount : refillCount s = 0 := by rw [refillCount, hsrc, List.length_nil, Nat.zero_min]
  have hlt : s.host.src.length < windowRoom s := by rw [hsrc]; exact Nat.pos_of_ne_zero hroom
  exact
    { frame := by
        rw [refilledState, hcount, decide_eq_true hlt]
        simp only [List.drop_zero, BitVec.add_zero]
        rfl
      size := rfl
      wf := h.wf
      before := fun _ _ => rfl
      bytes := fun j hj => absurd hj (by rw [hsrc]; exact Nat.not_lt_zero j)
      limit := fun hle => absurd hlt (by omega) }

omit h in
/-- The place after an element still to be filled. -/
theorem streamPos_succ (hroom : windowRoom s ≠ 0) : (s.win.streamPos + 1).toNat = s.win.streamPos.toNat + 1 := by
  have hlt := s.win.blockSize.isLt
  rw [windowRoom] at hroom
  rw [BitVec.toNat_add]
  exact Nat.mod_eq_of_lt (by simp only [BitVec.ofNat_eq_ofNat, BitVec.toNat_ofNat]; omega)

theorem byteStored (b : Byte) (rest : List Byte) (hroom : windowRoom s ≠ 0) : Refilling (byteStored b rest s) where
  eof := h.eof
  streamEnd := h.streamEnd
  offset := h.offset
  pos := h.pos
  size := h.size
  wf := Ram.wf_set h.wf (by rw [h.size]; unfold windowRoom at hroom; omega) b
  inside := by
    show (s.win.streamPos + 1).toNat ≤ s.win.blockSize.toNat
    rw [streamPos_succ hroom]
    unfold windowRoom at hroom
    omega
  lookAhead := h.lookAhead
  limit := fun hfull => by
    have hfull : s.win.streamPos + 1 = s.win.blockSize := hfull
    have hle := h.lookAhead
    show (if (s.win.pos + s.win.keepAfter).toNat ≤ (s.win.streamPos + 1).toNat then
        s.win.streamPos + 1 - s.win.keepAfter else s.win.posLimit).toNat + s.win.keepAfter.toNat = _
    rw [h.pos, BitVec.zero_add, hfull, if_pos hle, BitVec.toNat_sub_of_le hle]
    exact Nat.sub_add_cancel hle

/-- A refill after one byte is the whole refill. -/
theorem refilled_of_byteStored {b : Byte} {rest : List Byte} {t : State} (hsrc : s.host.src = b :: rest)
    (hroom : windowRoom s ≠ 0) (ht : Refilled (Machine.byteStored b rest s) t) : Refilled s t := by
  have hpos := streamPos_succ hroom
  have hroom' : windowRoom (Machine.byteStored b rest s) = windowRoom s - 1 := by
    show s.win.blockSize.toNat - (s.win.streamPos + 1).toNat = _
    rw [hpos, windowRoom]
    omega
  have hlen : s.host.src.length = rest.length + 1 := by rw [hsrc]; rfl
  have hcount : refillCount s = refillCount (Machine.byteStored b rest s) + 1 := by
    show min _ _ = min rest.length (windowRoom (Machine.byteStored b rest s)) + 1
    rw [hroom', hlen]
    omega
  have hlt : decide (rest.length < windowRoom (Machine.byteStored b rest s)) =
      decide (s.host.src.length < windowRoom s) := by
    rw [hroom', hlen]
    exact decide_eq_decide.2 (by omega)
  exact
    { frame := by
        rw [refilledState, hcount, ← hlt, hsrc, List.drop_succ_cons, Nat.add_comm, BitVec.ofNat_add, BitVec.ofNat_add,
          ← BitVec.add_assoc, ← BitVec.add_assoc]
        exact ht.frame
      size := ht.size
      wf := ht.wf
      before := fun j hj => by
        rw [ht.before j (show j < (s.win.streamPos + 1).toNat by omega)]
        exact Ram.get_set_other h.wf (by omega) b
      bytes := fun j hj hr => by
        cases j with
        | zero =>
          have := ht.before s.win.streamPos.toNat (show _ < (s.win.streamPos + 1).toNat by omega)
          simp only [Nat.add_zero, hsrc, List.getElem_cons_zero]
          exact this.trans (Ram.get_set_same h.wf _ b)
        | succ j =>
          have hj' : j < rest.length := by omega
          have := ht.bytes j hj' (by omega)
          simp only [hsrc, List.getElem_cons_succ]
          rw [show s.win.streamPos.toNat + (j + 1) = (s.win.streamPos + 1).toNat + j by omega]
          exact this
      limit := fun hle => ht.limit (show windowRoom (Machine.byteStored b rest s) ≤ rest.length by omega) }

end Refilling

/-- The refill loop completes, or waits on a source that has neither a byte nor its end ready (R206, R110). -/
theorem winReadLoop_cases (n : Nat) : ∀ s : State, Refilling s → s.host.src.length < n →
    (∃ t, winReadLoop n s = .ok () t ∧ Refilled s t) ∨
    (s.host.srcEnd = false ∧ s.host.src.length < windowRoom s ∧
      ∃ t, winReadLoop n s = .error (.stuck .sourceWait) t) := by
  induction n with
  | zero => exact fun s _ hn => absurd hn (Nat.not_lt_zero _)
  | succ n ih =>
    intro s h hn
    rw [winReadLoop, Eng.bind_look]
    by_cases hroom : windowRoom s = 0
    · rw [if_pos (h.full_iff.2 hroom)]
      exact .inl ⟨s, rfl, h.refilled_of_full hroom⟩
    rw [if_neg (mt h.full_iff.1 hroom)]
    rcases srcRead_cases s with ⟨he, _⟩ | ⟨b, rest, _, hsrc, e⟩ | ⟨_, hsrc, _, e⟩ | ⟨_, hsrc, hend, e⟩
    · exact absurd (he.symm.trans h.eof) Bool.noConfusion
    · have hw : wbufWrite (s.win.bufOffset + s.win.streamPos) b (bytePopped rest s) = .ok ()
          { bytePopped rest s with wbuf := s.wbuf.set s.win.streamPos.toNat b } := by
        rw [h.offset, BitVec.zero_add]
        exact ramWrite_ok (show s.win.streamPos.toNat < s.wbuf.size by
          rw [h.size]; unfold windowRoom at hroom; omega)
      have hrun : (srcRead >>= fun x => match x with
          | none => put fun s => { s with win := winAtEof s.win }
          | some b => do
            wbufWrite (s.win.bufOffset + s.win.streamPos) b
            put fun s => { s with win := winAfterByte s.win }
            winReadLoop n) s = winReadLoop n (byteStored b rest s) :=
        (Eng.bind_ok e _).trans (Eng.bind_ok hw _)
      have hlen : s.host.src.length = rest.length + 1 := by rw [hsrc]; rfl
      rcases ih (byteStored b rest s) (h.byteStored b rest hroom) (show rest.length < n by omega) with
        ⟨t, ht, hr⟩ | ⟨hend, hlt, t, ht⟩
      · exact .inl ⟨t, hrun.trans ht, h.refilled_of_byteStored hsrc hroom hr⟩
      · refine .inr ⟨hend, ?_, t, hrun.trans ht⟩
        have hlt : rest.length < s.win.blockSize.toNat - (s.win.streamPos + 1).toNat := hlt
        rw [Refilling.streamPos_succ hroom] at hlt
        rw [hlen, windowRoom]
        omega
    · exact .inl ⟨_, Eng.bind_ok e _, h.refilled_of_eof hsrc hroom⟩
    · exact .inr ⟨hend, by rw [hsrc]; exact Nat.pos_of_ne_zero hroom, s, Eng.bind_error e _⟩

theorem winReadBlock_cases {s : State} (h : Refilling s) :
    (∃ t, winReadBlock s = .ok () t ∧ Refilled s t) ∨
    (s.host.srcEnd = false ∧ s.host.src.length < windowRoom s ∧
      ∃ t, winReadBlock s = .error (.stuck .sourceWait) t) := by
  have hrun : winReadBlock s = winReadLoop (s.host.src.length + 1) s := by
    rw [winReadBlock, Eng.bind_look, if_neg (by rw [h.streamEnd]; exact Bool.noConfusion), Eng.bind_look]
  rw [hrun]
  exact winReadLoop_cases _ s h (Nat.lt_succ_self _)

end Sys2Proof.Machine
end

section
/-! SUPPORT. The host's control commands and the step: the register map read and written by number (R60), and the reset
state's invariant (O5, O11, O12, O23, O24). -/

namespace Sys2Proof.Machine

/-- Settles O5: the step is `exec` after the transaction is taken and latched. -/
theorem stepRunsTheCommand : Obligations.StepRunsTheCommand := by
  unfold Obligations.StepRunsTheCommand
  refine ⟨fun s t rest i hport hdec => ?_, fun s hport => ?_⟩
  · rw [step, hport]
    dsimp only
    rw [hdec]
    rfl
  · rw [step, hport]

/-! ### RESET -/

/-- A command the sticky error does not stop, and no gate, always runs its rule. -/
theorem command_any_runs {i : Instr} (hu : runsUnderError i = true) (hw : i.wellFormed = true) (body : Eng Unit)
    (s : State) : command i .any body s = finish (body (clearResults s)) := by
  rcases command_cases i .any body s with ⟨_, h, _⟩ | ⟨_, h, _⟩ | ⟨_, _, ⟨_, h⟩ | ⟨h, _⟩ | ⟨h, _⟩⟩
  · exact absurd (hu.symm.trans h) Bool.noConfusion
  · exact absurd (hw.symm.trans h) Bool.noConfusion
  · exact h
  · cases h
  · cases h

theorem exec_reset (s : State) : exec .reset s = .next { State.reset with host := s.host, dictCap := s.dictCap } :=
  command_any_runs rfl rfl (put resetEngine) s

/-- Settles O12: the rule of RESET replaces the engine's state, whatever it was; the reset table is then read off. -/
theorem resetState : Obligations.ResetState := by
  unfold Obligations.ResetState
  exact ⟨exec_reset, rfl, rfl, rfl, rfl, rfl, rfl, rfl, rfl, rfl, rfl, rfl, rfl, rfl,
    rfl, rfl, rfl, rfl, rfl, rfl, rfl, rfl⟩

/-- An engine just reset meets the invariant, whatever the host's side. -/
theorem inv_resetWith (host : HostSide) (dictCap : Nat) : Inv (State.resetWith host dictCap) where
  memory := rfl
  coderState := Nat.zero_le _
  probs := rfl
  probSize := rfl
  derived := .inl rfl
  idle := fun _ => ⟨rfl, rfl, rfl, rfl, rfl, rfl, rfl, rfl, rfl⟩
  encOptions := fun h => by cases h
  encRams := fun h => by cases h
  encRegs := fun h => by cases h
  decOptions := fun h => by cases h
  output := ⟨rfl, fun h => absurd rfl h⟩
  decRegs := fun h => by cases h
  encRange := fun h => by cases h
  decRange := fun h => by cases h

/-- Settles O11: nothing is allocated, and no stream is active. -/
theorem resetMeetsInv : Obligations.ResetMeetsInv := inv_resetWith _ _

/-! ### The register map (R60) -/

/-- The assigned register numbers. -/
def registerNumbers : List Nat :=
  [0x01, 0x02, 0x03, 0x04, 0x05, 0x06, 0x07, 0x08, 0x09, 0x0A, 0x0B, 0x00, 0x10, 0x11, 0x12, 0x13, 0x14, 0x15, 0x16,
   0x17, 0x18, 0x19, 0x1A, 0x1B, 0x1C, 0x1D, 0x1E, 0x1F, 0x20, 0x21, 0x22, 0x23, 0x24, 0x25, 0x26, 0x27]

theorem registerRows_fst (s : State) : (registerRows s).map Prod.fst = registerNumbers := rfl

/-- A number with no row in the register table is unassigned. -/
theorem not_mem_registerNumbers {s : State} {n : Nat} (h : ∀ v, (n, v) ∉ registerRows s) : n ∉ registerNumbers := by
  rw [← registerRows_fst s]
  rintro hn
  obtain ⟨⟨k, v⟩, hr, rfl⟩ := List.mem_map.1 hn
  exact h v hr

theorem regValue_eq_none {n : Nat} (h : n ∉ registerNumbers) (s : State) : regValue s n = none := by
  unfold regValue
  split <;> simp [registerNumbers] at h ⊢

/-- The lower and the upper half of a doubleword as numbers. -/
theorem toNat_lowHalf (v : DWord) : (lowHalf v).toNat = v.toNat % 2 ^ 32 := BitVec.toNat_setWidth _ _

theorem toNat_highHalf (v : DWord) : (highHalf v).toNat = v.toNat / 2 ^ 32 := by
  have hlt := v.isLt
  rw [highHalf, BitVec.extractLsb'_toNat, Nat.shiftRight_eq_div_pow]
  omega

/-- A doubleword written half by half. -/
theorem toNat_append_mod (high low : Word) : (high ++ low).toNat % 2 ^ 32 = low.toNat := by
  have hlt := low.isLt
  rw [BitVec.toNat_append, ← Nat.shiftLeft_add_eq_or_of_lt hlt, Nat.shiftLeft_eq]
  omega

theorem toNat_append_div (high low : Word) : (high ++ low).toNat / 2 ^ 32 = high.toNat := by
  have hlt := low.isLt
  rw [BitVec.toNat_append, ← Nat.shiftLeft_add_eq_or_of_lt hlt, Nat.shiftLeft_eq]
  omega

/-- STATUS as the register's word (R43). -/
theorem ofNat_statusNumber (t : Status) : BitVec.ofNat 32 (statusNumber t) = t.word := by
  obtain ⟨err, phase, srcEof, endSeen, hdrOk⟩ := t
  cases err <;> cases phase <;> cases srcEof <;> cases endSeen <;> cases hdrOk <;> rfl

/-- What the register table says of a number: the word REG_READ answers, and that it fits in 32 bits. -/
def RowReads (s : State) (r : Nat × Nat) : Prop :=
  r.1 < 256 ∧ regValue s r.1 = some (BitVec.ofNat 32 r.2) ∧ r.2 < 2 ^ 32

/-- A register of at most 32 bits reads zero-extended. -/
theorem RowReads.of_setWidth {s : State} {n w : Nat} {v : BitVec w} (hn : n < 256) (hw : w ≤ 32)
    (h : regValue s n = some (v.setWidth 32)) : RowReads s (n, v.toNat) :=
  ⟨hn, by rw [h, BitVec.ofNat_toNat], Nat.lt_of_lt_of_le v.isLt (Nat.pow_le_pow_right (by decide) hw)⟩

theorem RowReads.of_word {s : State} {n : Nat} {v : Word} (hn : n < 256) (h : regValue s n = some v) :
    RowReads s (n, v.toNat) :=
  .of_setWidth hn (Nat.le_refl _) (by rw [h, BitVec.setWidth_eq])

theorem RowReads.of_lowHalf {s : State} {n : Nat} {v : DWord} (hn : n < 256) (h : regValue s n = some (lowHalf v)) :
    RowReads s (n, v.toNat % 2 ^ 32) :=
  ⟨hn, by rw [h, ← toNat_lowHalf, BitVec.ofNat_toNat, BitVec.setWidth_eq], Nat.mod_lt _ (by decide)⟩

theorem RowReads.of_highHalf {s : State} {n : Nat} {v : DWord} (hn : n < 256) (h : regValue s n = some (highHalf v)) :
    RowReads s (n, v.toNat / 2 ^ 32) :=
  ⟨hn, by rw [h, ← toNat_highHalf, BitVec.ofNat_toNat, BitVec.setWidth_eq], by have := v.isLt; omega⟩

theorem rowReads_options (s : State) : ∀ r ∈ optionRows s.opts, RowReads s r := by
  simp only [optionRows, List.forall_mem_cons]
  exact ⟨.of_setWidth (by decide) (by decide) rfl, .of_setWidth (by decide) (by decide) rfl,
    .of_setWidth (by decide) (by decide) rfl, .of_setWidth (by decide) (by decide) rfl, .of_word (by decide) rfl,
    .of_setWidth (by decide) (by decide) rfl, .of_setWidth (by decide) (by decide) rfl,
    .of_setWidth (by decide) (by decide) rfl, .of_lowHalf (by decide) rfl, .of_highHalf (by decide) rfl,
    .of_setWidth (by decide) (by decide) rfl, fun _ h => by cases h⟩

/-- RC_RANGE is the active coder's range (R60). -/
theorem rowReads_rcRange (s : State) :
    RowReads s (0x1C, if s.status.phase = .enc then s.rce.range.toNat
      else if s.status.phase = .dec then s.rcd.range.toNat else 0) := by
  have h : (if s.status.phase = .enc then s.rce.range.toNat
      else if s.status.phase = .dec then s.rcd.range.toNat else 0) = (rcRange s).toNat := by
    unfold rcRange
    cases s.status.phase <;> rfl
  rw [h]
  exact .of_word (by decide) rfl

theorem rowReads_status (s : State) : RowReads s (0x10, statusNumber s.status) := by
  refine ⟨(by decide : 0x10 < 256), by rw [ofNat_statusNumber]; rfl, ?_⟩
  generalize s.status = t
  obtain ⟨err, phase, srcEof, endSeen, hdrOk⟩ := t
  cases err <;> cases phase <;> cases srcEof <;> cases endSeen <;> cases hdrOk <;> decide

/-- The 33 bits of RCE.low, read in two registers (R60). -/
theorem rowReads_low (s : State) : RowReads s (0x1D, s.rce.low.toNat % 2 ^ 32) := by
  refine ⟨(by decide : 0x1D < 256), ?_, Nat.mod_lt _ (by decide)⟩
  rw [show regValue s 0x1D = some (s.rce.low.setWidth 32) from rfl]
  exact congrArg some (BitVec.eq_of_toNat_eq (by simp))

theorem rowReads_carry (s : State) : RowReads s (0x1E, s.rce.low.toNat / 2 ^ 32) := by
  have hlt := s.rce.low.isLt
  refine ⟨(by decide : 0x1E < 256), ?_, by omega⟩
  rw [show regValue s 0x1E = some (bitWord (s.rce.low.getLsbD 32)) from rfl]
  refine congrArg some (BitVec.eq_of_toNat_eq ?_)
  rw [BitVec.getLsbD, Nat.testBit_eq_decide_div_mod_eq]
  obtain h | h : s.rce.low.toNat / 2 ^ 32 = 0 ∨ s.rce.low.toNat / 2 ^ 32 = 1 := by omega
  · rw [h]; rfl
  · rw [h]; rfl

theorem rowReads_readOnly (s : State) : ∀ r ∈ readOnlyRows s, RowReads s r := by
  simp only [readOnlyRows, List.forall_mem_cons]
  exact ⟨.of_word (v := Config.idValue) (by decide) rfl, rowReads_status s, .of_lowHalf (by decide) rfl,
    .of_highHalf (by decide) rfl, .of_lowHalf (by decide) rfl, .of_highHalf (by decide) rfl,
    .of_lowHalf (by decide) rfl, .of_highHalf (by decide) rfl, .of_setWidth (by decide) (by decide) rfl,
    .of_word (by decide) rfl, .of_word (by decide) rfl, .of_word (by decide) rfl, .of_word (by decide) rfl,
    rowReads_rcRange s, rowReads_low s, rowReads_carry s, .of_setWidth (by decide) (by decide) rfl,
    .of_word (by decide) rfl, .of_word (by decide) rfl, .of_word (by decide) rfl, .of_word (by decide) rfl,
    .of_word (by decide) rfl, .of_word (by decide) rfl, .of_word (by decide) rfl,
    .of_setWidth (by decide) (by decide) rfl, fun _ h => by cases h⟩

theorem rowReads_of_mem {s : State} {r : Nat × Nat} (h : r ∈ registerRows s) : RowReads s r :=
  (List.mem_append.1 h).elim (rowReads_options s r) (rowReads_readOnly s r)

/-! ### REG_READ (R562) -/

/-- The operand check of a register number, said of the number. -/
theorem bind_byteCheck {α : Type} (v : Word) (g : Unit → Eng α) (s : State) :
    (byteCheck v >>= g) s = if v.toNat < 256 then g () s else .error .ended (faultEntry .bounds s) := by
  rw [byteCheck, Eng.bind_check, isByte]
  simp only [decide_eq_true_eq]

theorem exec_regRead (s : State) :
    exec .regRead s =
      if s.x.a0.toNat < 256 then
        match regValue s s.x.a0.toNat with
        | some v => .next (results v 0#32 s)
        | none => .next (faultEntry .illegalCmd (clearResults s))
      else .next (faultEntry .bounds (clearResults s)) := by
  show command .regRead .any _ s = _
  rw [command_any_runs rfl rfl, Eng.bind_opA0, bind_byteCheck]
  show finish (if s.x.a0.toNat < 256 then _ else _) = _
  split
  · rw [Eng.bind_look]
    show finish ((match regValue s s.x.a0.toNat with | some v => setR0 v | none => raise .illegalCmd) _) = _
    cases regValue s s.x.a0.toNat <;> rfl
  · rfl

/-- A fault of a command that began without an error. -/
theorem faultEntry_clearResults {s : State} (h : s.status.err = .none) (c : ErrCode) :
    faultEntry c (clearResults s) = { results 0#32 0#32 s with status := { s.status with err := c } } :=
  faultEntry_first (s := clearResults s) h c

/-- Settles O23: row by row the register table is what `regValue` answers. -/
theorem regRead : Obligations.RegRead := by
  unfold Obligations.RegRead
  refine fun s => ⟨?_, fun he hrow => ?_⟩
  · rintro n v rfl hrow
    obtain ⟨hn, hv, hlt⟩ := rowReads_of_mem hrow
    dsimp only at hn hv hlt
    refine ⟨?_, hlt⟩
    rw [exec_regRead, if_pos hn, hv]
  · rw [exec_regRead, regValue_eq_none (not_mem_registerNumbers hrow), ← faultEntry_clearResults he]
    split <;> rfl

/-! ### REG_WRITE (R563) -/

theorem exec_regWrite {s : State} (he : s.status.err = .none) :
    exec .regWrite s =
      if s.x.a0.toNat < 256 then
        match optionWrite s.opts s.x.a0.toNat s.x.a1 with
        | some o =>
          if streamActive s then .next { results 0#32 0#32 s with status := { s.status with err := .seqError } }
          else .next { results 0#32 0#32 s with opts := o }
        | none => .next { results 0#32 0#32 s with status := { s.status with err := .illegalCmd } }
      else .next { results 0#32 0#32 s with status := { s.status with err := .bounds } } := by
  simp only [← faultEntry_clearResults he]
  show command .regWrite .any _ s = _
  rw [command_runs he rfl rfl, Eng.bind_opA0, Eng.bind_opA1, bind_byteCheck]
  show finish (if s.x.a0.toNat < 256 then _ else _) = _
  split
  · rw [Eng.bind_look]
    show finish ((match optionWrite s.opts s.x.a0.toNat s.x.a1 with
      | none => raise .illegalCmd
      | some o => look streamActive >>= fun active => check (!active) .seqError >>= fun _ =>
          put fun s => { s with opts := o }) _) = _
    cases optionWrite s.opts s.x.a0.toNat s.x.a1 with
    | none => rfl
    | some o =>
      show finish ((look streamActive >>= fun active => check (!active) .seqError >>= fun _ =>
        put fun s => { s with opts := o }) (clearResults s)) = _
      rw [Eng.bind_look, Eng.bind_check]
      show finish (if (!streamActive s) = true then _ else _) = _
      cases streamActive s <;> rfl
  · rfl

/-- The numbers of the options. -/
def optionNumbers : List Nat := [0x01, 0x02, 0x03, 0x04, 0x05, 0x06, 0x07, 0x08, 0x09, 0x0A, 0x0B]

theorem optionWrite_eq_none {n : Nat} (h : n ∉ optionNumbers) (o : Options) (v : Word) : optionWrite o n v = none := by
  unfold optionWrite
  split <;> simp [optionNumbers] at h ⊢

theorem not_mem_optionNumbers {n : Nat} (h : ∀ w, (n, w) ∉ optionWidths) : n ∉ optionNumbers := by
  rintro hn
  obtain ⟨⟨k, w⟩, hr, rfl⟩ := List.mem_map.1 (show n ∈ optionWidths.map Prod.fst from hn)
  exact h w hr

/-- The option table after a write of the number `v` to one of its rows. -/
def rowWritten (n w v : Nat) (rows : List (Nat × Nat)) : List (Nat × Nat) :=
  rows.map fun r => if r.1 = n then (n, v % 2 ^ w) else r

/-- A write is of one row of the option table, to the row's width (R60). -/
theorem optionRows_optionWrite (o : Options) (v : Word) : ∀ r ∈ optionWidths, r.1 < 256 ∧
    ∃ o', optionWrite o r.1 v = some o' ∧ optionRows o' = rowWritten r.1 r.2 v.toNat (optionRows o) := by
  simp only [optionWidths, List.forall_mem_cons]
  refine ⟨⟨by decide, _, rfl, ?_⟩, ⟨by decide, _, rfl, ?_⟩, ⟨by decide, _, rfl, ?_⟩, ⟨by decide, _, rfl, ?_⟩,
    ⟨by decide, _, rfl, ?_⟩, ⟨by decide, _, rfl, ?_⟩, ⟨by decide, _, rfl, ?_⟩, ⟨by decide, _, rfl, ?_⟩,
    ⟨by decide, _, rfl, ?_⟩, ⟨by decide, _, rfl, ?_⟩, ⟨by decide, _, rfl, ?_⟩, fun _ h => by cases h⟩
  all_goals
    simp only [rowWritten, optionRows, toNat_append_mod, toNat_append_div, toNat_lowHalf, toNat_highHalf]
    simp [Nat.mod_eq_of_lt v.isLt]

/-- Settles O24: the checks in their order, then the one row of the option table. -/
theorem regWrite : Obligations.RegWrite := by
  unfold Obligations.RegWrite
  refine fun s he => ⟨?_, fun hrow => ?_⟩
  · rintro n w rfl hrow
    obtain ⟨hn, o, ho, hrows⟩ := optionRows_optionWrite s.opts s.x.a1 _ hrow
    dsimp only at hn ho hrows
    rw [exec_regWrite he, if_pos hn, ho]
    refine ⟨fun hp => ⟨o, if_neg ?_, hrows⟩, fun hp => if_pos ?_⟩
    · rcases hp with hp | hp <;> simp [streamActive, hp]
    · rcases hp with hp | hp <;> simp [streamActive, hp]
  · rw [exec_regWrite he, optionWrite_eq_none (not_mem_optionNumbers hrow)]
    split <;> rfl

end Sys2Proof.Machine
end

section
/-! SUPPORT. PHASE and the two streams across a command (O14, O15): the rules that neither start nor end a stream keep
PHASE, the others move it as the gates let them; and every rule appends to the sink and takes from the front of the
source. -/

namespace Sys2Proof.Machine

/-! ### REG_WRITE and HDR_READ -/

/-- REG_WRITE writes the options, and only outside a stream (R72). -/
theorem regWrite_preserves {P : State → Prop} (h : Stable P)
    (hopts : ∀ {s : State} o, streamActive s = false → P s → P { s with opts := o }) {s t : State}
    (hn : exec .regWrite s = .next t) (hs : P s) : P t := by
  have write : ∀ o, Preserves P
      (look streamActive >>= fun active => check (!active) .seqError >>= fun _ => put fun s => { s with opts := o }) :=
    fun o s hs => by
      rw [Eng.bind_look, Eng.bind_check]
      cases hactive : streamActive s
      · exact hopts o hactive hs
      · exact h.fault _ hs
  exact Preserves.command (g := .any) hn
    (fun _ => Preserves.look_bind (fun _ => .look_bind fun _ => .bind (h.check _ _) fun _ => .look_bind fun
      | none => h.raise _
      | some o => write o) _ (h.results 0 0 hs))
    (h.results 0 0 hs) fun c => h.fault c (h.results 0 0 hs)

/-- The state in which HDR_READ reads its bytes (R520). -/
def headerCleared (s : State) : State :=
  { clearStreamCounters s with status := { (clearStreamCounters s).status with hdrOk := false } }

/-- The state after a legal header. -/
def headerAccepted (o : Options) (s : State) : State := { s with opts := o, status := { s.status with hdrOk := true } }

/-- HDR_READ's rule takes at most five bytes, and writes the options of a legal header (R520). -/
theorem hdrRead_preserves {P : State → Prop} (hclear : ∀ {s : State}, P s → P (headerCleared s))
    (htaken : ∀ {s : State} {b} rest, s.host.src = b :: rest → P s → P (bytePopped rest s))
    (hended : ∀ {s : State}, P s → P { s with status := { s.status with srcEof := true } })
    (hfault : ∀ {s : State} c, P s → P (faultEntry c s)) (haccept : ∀ {s : State} o, P s → P (headerAccepted o s)) :
    Preserves P hdrRead := by
  have read : Preserves P srcReadOrTruncated := fun s hs => by
    rcases srcReadOrTruncated_cases s with ⟨b, rest, hsrc, e⟩ | e | e <;> rw [e]
    · exact htaken rest hsrc hs
    · exact hfault _ (hended hs)
    · trivial
  have legal : ∀ ok, Preserves P (check ok .headerInvalid) := fun ok s hs => by
    rw [check_run]
    cases ok
    · exact hfault _ hs
    · exact hs
  exact .bind (.put fun _ => hclear) fun _ => .bind read fun _ => .bind read fun _ => .bind read fun _ =>
    .bind read fun _ => .bind read fun _ => .bind (legal _) fun _ => .put fun _ => haccept _

/-! ### Properties of the streams and PHASE alone -/

/-- PHASE, the streams and the two counters that count their bytes. -/
def streamView (s : State) : HostSide × DWord × DWord × Phase :=
  (s.host, s.cnt.inCount, s.cnt.outCount, s.status.phase)

theorem faultEntry_streamView (c : ErrCode) (s : State) : streamView (faultEntry c s) = streamView s := by
  simp [streamView]

/-- Of the rules that write no byte and end no stream, only a byte taken from the source changes the view. -/
theorem stable_of_streamView {P : State → Prop} (hcongr : ∀ {s t : State}, P s → streamView t = streamView s → P t)
    (htaken : ∀ {s : State} {b} rest, s.host.src = b :: rest → P s → P (bytePopped rest s)) : Stable P where
  fault c h := hcongr h (faultEntry_streamView c _)
  results _ _ h := hcongr h rfl
  byteTaken rest hsrc h := htaken rest hsrc h
  sourceEnded h := hcongr h rfl
  nowPos _ h := hcongr h rfl
  coderState _ _ h := hcongr h rfl
  reps _ h := hcongr h rfl
  adapt _ _ _ h := hcongr h rfl
  encoderBit _ _ _ _ h := hcongr h rfl
  encoderHalf _ _ h := hcongr h rfl
  encoderBytes _ _ h := hcongr h rfl
  decoderBit _ _ _ h := hcongr h rfl
  decoderHalf _ _ h := hcongr h rfl
  decoderBytes _ _ h := hcongr h rfl
  decoderTruncated _ h := hcongr h (faultEntry_streamView _ _)
  window _ _ h := hcongr h rfl
  wbuf _ _ _ h := hcongr h rfl
  finder _ _ _ h := hcongr h rfl
  rebased _ h := hcongr h rfl
  hashCleared h := hcongr h rfl
  son _ _ _ h := hcongr h rfl
  hash _ _ _ h := hcongr h rfl
  matchBuf _ _ _ h := hcongr h rfl
  opt _ _ _ h := hcongr h rfl
  encoder _ _ h := hcongr h rfl
  posSlot _ _ _ h := hcongr h rfl
  dist _ _ _ h := hcongr h rfl
  align _ _ _ h := hcongr h rfl
  lenMatch _ _ _ h := hcongr h rfl
  lenRep _ _ _ h := hcongr h rfl
  cntMatch _ _ _ h := hcongr h rfl
  cntRep _ _ _ h := hcongr h rfl
  owbuf _ _ _ h := hcongr h rfl
  outputMoved h := hcongr h rfl

/-! ### Stream starts and the header -/

/-- What a stream start or HDR_READ does to PHASE and the streams: PHASE is as it was or that of the stream started,
nothing is written, and the source gives bytes off its front. -/
structure StartedFrom (s : State) (p : Phase) (t : State) : Prop where
  phase : t.status.phase = s.status.phase ∨ t.status.phase = p
  sink : t.host.sink = s.host.sink
  taken : ∃ taken, s.host.src = taken ++ t.host.src

namespace StartedFrom
variable {s t u : State} {p : Phase}

theorem refl (s : State) (p : Phase) : StartedFrom s p s := ⟨.inl rfl, rfl, [], rfl⟩

/-- Only PHASE and the streams count. -/
theorem congr (h : StartedFrom s p t) (hphase : u.status.phase = t.status.phase ∨ u.status.phase = p)
    (hhost : u.host = t.host) : StartedFrom s p u where
  phase := hphase.elim (fun e => by rw [e]; exact h.phase) .inr
  sink := by rw [hhost]; exact h.sink
  taken := by rw [hhost]; exact h.taken

theorem faulted (h : StartedFrom s p t) (c : ErrCode) : StartedFrom s p (faultEntry c t) :=
  h.congr (.inl (Status.record_phase _ _)) rfl

theorem byteTaken (h : StartedFrom s p t) {b : Byte} (rest : List Byte) (hsrc : t.host.src = b :: rest) :
    StartedFrom s p (bytePopped rest t) where
  phase := h.phase
  sink := h.sink
  taken := by
    obtain ⟨taken, e⟩ := h.taken
    exact ⟨taken ++ [b], by rw [e, hsrc, List.append_assoc]; rfl⟩

end StartedFrom

theorem startedFrom_stable (s : State) (p : Phase) : Stable (StartedFrom s p) :=
  stable_of_streamView (fun h e => h.congr (.inl (congrArg (·.2.2.2) e)) (congrArg (·.1) e))
    fun rest hsrc h => h.byteTaken rest hsrc

/-- Clearing the stream counters where no header was read changes neither the streams nor PHASE. -/
theorem decClear_host (s : State) : (decClear s).host = s.host := by
  unfold decClear
  cases s.status.hdrOk <;> rfl

theorem encStart_startedFrom (s : State) : Preserves (StartedFrom s .enc) encStart :=
  have h := startedFrom_stable s .enc
  .look_bind fun _ => .bind (h.check _ _) fun _ => .bind (.put fun _ ht => ht.congr (.inl rfl) rfl) fun _ =>
    .bind (.look_bind fun _ => .look_bind fun _ => .look_bind fun _ => .bind (.put fun _ ht => ht.congr (.inl rfl) rfl)
      fun _ => .put fun _ ht => ht.congr (.inl rfl) rfl) fun _ =>
    .bind (.put fun _ ht => ht.congr (.inl rfl) rfl) fun _ => .bind (.put fun _ ht => ht.congr (.inr rfl) rfl) fun _ =>
    .bind h.mfInit fun _ => .bind h.fillDistancesPrices fun _ => .bind h.fillAlignPrices fun _ => h.fillLenTables

theorem decStart_startedFrom (s : State) : Preserves (StartedFrom s .dec) decStart :=
  have h := startedFrom_stable s .dec
  .look_bind fun _ => .bind (h.check _ _) fun _ => .bind (.put fun t ht => ht.congr (.inr rfl) (decClear_host t))
    fun _ => .bind (.put fun _ ht => ht.congr (.inl rfl) rfl) fun _ => h.rcdLoad 5

theorem hdrRead_startedFrom (s : State) : Preserves (StartedFrom s s.status.phase) hdrRead :=
  hdrRead_preserves (fun h => h.congr (.inl rfl) rfl) (fun rest hsrc h => h.byteTaken rest hsrc)
    (fun h => h.congr (.inl rfl) rfl) (fun c h => h.faulted c) fun _ h => h.congr (.inl rfl) rfl

/-- A command whose rule does no more than start a stream. -/
theorem StartedFrom.command {i : Instr} {g : Gate} {body : Eng Unit} {s t : State} {p : Phase}
    (hn : Machine.command i g body s = .next t) (hbody : Preserves (StartedFrom s p) body) : StartedFrom s p t :=
  have h := (StartedFrom.refl s p).congr (u := clearResults s) (.inl rfl) rfl
  Preserves.command hn (fun _ => hbody _ h) h fun c => h.faulted c

/-- The phase a stream start enters; HDR_READ enters none. -/
def phaseStarted (i : Instr) (s : State) : Phase :=
  match i with
  | .encStart => .enc
  | .decStart => .dec
  | _ => s.status.phase

theorem startedFrom_of_exec {i : Instr} {s t : State} (hi : startsStream i) (h : exec i s = .next t) :
    StartedFrom s (phaseStarted i s) t := by
  rcases hi with rfl | rfl | rfl
  · exact StartedFrom.command h (encStart_startedFrom s)
  · exact StartedFrom.command h (hdrRead_startedFrom s)
  · exact StartedFrom.command h (decStart_startedFrom s)

/-! ### PHASE -/

/-- A property of PHASE alone is kept by every rule that neither starts nor ends a stream. -/
theorem phase_stable (Q : Phase → Prop) : StableOnSink fun t => Q t.status.phase :=
  { stable_of_streamView (fun h e => (congrArg (fun v => Q v.2.2.2) e).mpr h) fun _ _ h => h with
    sink := fun _ _ h => h }

theorem phase_stableAtEnd {Q : Phase → Prop} (hdone : Q .done) : StableAtEnd fun t => Q t.status.phase :=
  { phase_stable Q with streamEnded := fun _ _ => hdone }

/-- A command whose gate does not let its rule run keeps PHASE. -/
theorem gate_ran_of_phase_ne {i : Instr} {g : Gate} {body : Eng Unit} {s t : State}
    (hn : command i g body s = .next t) (hne : t.status.phase ≠ s.status.phase) : g.accepts s := by
  by_contra hg
  exact hne (Preserves.command (P := fun t => t.status.phase = s.status.phase) hn
    (fun hrun => absurd ((gate_run_iff _ _).1 hrun) hg) rfl fun _ => Status.record_phase _ _)

/-- Every command but RESET, the stream starts and HDR_READ keeps PHASE or ends the stream, and of these only the
commands that may end it do not keep PHASE. -/
theorem phase_of_exec {i : Instr} {s t : State} (hi : ¬(i = .reset ∨ startsStream i)) (h : exec i s = .next t)
    (hne : t.status.phase ≠ s.status.phase) : endsStream i ∧ t.status.phase = .done := by
  by_cases hw : i = .regWrite
  · subst hw
    exact absurd (regWrite_preserves (phase_stable (· = s.status.phase)).toStable (fun _ _ h => h) h rfl) hne
  have hi : ¬(i = .reset ∨ i = .regWrite ∨ startsStream i) := by tauto
  have hend : endsStream i := by
    by_contra hend
    exact hne ((phase_stable (· = s.status.phase)).of_exec (fun h => absurd h hend) h hi rfl)
  have hdone := phase_stableAtEnd (Q := fun p => p = s.status.phase ∨ p = .done) (.inr rfl)
  exact ⟨hend, (hdone.toStableOnSink.of_exec (fun _ => hdone) h hi (.inl rfl)).resolve_left hne⟩

/-- Settles O14: the phases by kind of command, and the phase before by its gate. -/
theorem phaseChanges : Obligations.PhaseChanges := by
  unfold Obligations.PhaseChanges
  intro i s t h hne
  by_cases hi : i = .reset ∨ startsStream i
  · rcases hi with rfl | hi
    · rw [exec_reset] at h
      cases h
      exact .inl ⟨rfl, rfl⟩
    have hp := (startedFrom_of_exec hi h).phase.resolve_left hne
    rcases hi with rfl | rfl | rfl
    · obtain ⟨hphase, hmode⟩ : Gate.startE.accepts s := gate_ran_of_phase_ne h hne
      exact .inr (.inl ⟨rfl, hp, hmode, hphase⟩)
    · exact absurd hp hne
    · obtain ⟨hphase, hmode⟩ : Gate.startD.accepts s := gate_ran_of_phase_ne h hne
      exact .inr (.inr (.inl ⟨rfl, hp, hmode, hphase⟩))
  · obtain ⟨hend, hdone⟩ := phase_of_exec hi h hne
    rcases hend with rfl | rfl | rfl | rfl | rfl
    · have hg : Gate.runE.accepts s := gate_ran_of_phase_ne h hne
      exact .inr (.inr (.inr (.inl ⟨hdone, hg, .inl rfl⟩)))
    · have hg : Gate.runE.accepts s := gate_ran_of_phase_ne h hne
      exact .inr (.inr (.inr (.inl ⟨hdone, hg, .inr (.inl rfl)⟩)))
    · have hg : Gate.enc.accepts s := gate_ran_of_phase_ne h hne
      exact .inr (.inr (.inr (.inl ⟨hdone, hg, .inr (.inr rfl)⟩)))
    · have hg : Gate.runD.accepts s := gate_ran_of_phase_ne h hne
      exact .inr (.inr (.inr (.inr ⟨hdone, hg, .inl rfl⟩)))
    · have hg : Gate.runD.accepts s := gate_ran_of_phase_ne h hne
      exact .inr (.inr (.inr (.inr ⟨hdone, hg, .inr rfl⟩)))

/-! ### The streams and their counters -/

/-- The bytes written and taken from `s` to `t`, the counters counting them (R46, R110, R111). -/
def Accounts (s t : State) : Prop :=
  ∃ written taken : List Byte, t.host.sink = written.reverse ++ s.host.sink ∧ s.host.src = taken ++ t.host.src ∧
    t.cnt.outCount = s.cnt.outCount + BitVec.ofNat 64 written.length ∧
    t.cnt.inCount = s.cnt.inCount + BitVec.ofNat 64 taken.length

namespace Accounts
variable {s t u : State}

theorem refl (s : State) : Accounts s s := ⟨[], [], rfl, rfl, (BitVec.add_zero _).symm, (BitVec.add_zero _).symm⟩

/-- Only the streams and the two counters count. -/
theorem congr (h : Accounts s t) (hhost : u.host = t.host) (hout : u.cnt.outCount = t.cnt.outCount)
    (hin : u.cnt.inCount = t.cnt.inCount) : Accounts s u := by
  unfold Accounts
  rw [hhost, hout, hin]
  exact h

theorem byteTaken (h : Accounts s t) {b : Byte} (rest : List Byte) (hsrc : t.host.src = b :: rest) :
    Accounts s (bytePopped rest t) := by
  obtain ⟨written, taken, hsink, hfront, hout, hin⟩ := h
  refine ⟨written, taken ++ [b], hsink, ?_, hout, ?_⟩
  · rw [hfront, hsrc, List.append_assoc]; rfl
  · rw [List.length_append, BitVec.ofNat_add, ← BitVec.add_assoc, ← hin]; rfl

theorem byteWritten (h : Accounts s t) (b : Byte) (room : Option Nat) : Accounts s
    { t with host := { t.host with sink := b :: t.host.sink, sinkRoom := room }
             cnt := { t.cnt with outCount := t.cnt.outCount + 1 } } := by
  obtain ⟨written, taken, hsink, hfront, hout, hin⟩ := h
  refine ⟨written ++ [b], taken, ?_, hfront, ?_, hin⟩
  · rw [List.reverse_append, hsink]; rfl
  · rw [List.length_append, BitVec.ofNat_add, ← BitVec.add_assoc, ← hout]; rfl

end Accounts

theorem accounts_stable (s : State) : StableAtEnd (Accounts s) :=
  { stable_of_streamView
      (fun h e => h.congr (congrArg (·.1) e) (congrArg (·.2.2.1) e) (congrArg (·.2.1) e))
      fun rest hsrc h => h.byteTaken rest hsrc with
    sink := fun b room h => h.byteWritten b room
    streamEnded := fun _ h => h.congr rfl rfl rfl }

/-- Every command but RESET, the stream starts and HDR_READ counts its bytes. -/
theorem accounts_of_exec {i : Instr} {s t : State} (hi : ¬(i = .reset ∨ startsStream i)) (h : exec i s = .next t) :
    Accounts s t := by
  have hst := accounts_stable s
  by_cases hw : i = .regWrite
  · subst hw
    exact regWrite_preserves hst.toStable (fun _ _ h => h.congr rfl rfl rfl) h (.refl s)
  · exact hst.toStableOnSink.of_exec (fun _ => hst) h (by tauto) (.refl s)

/-- Settles O15: RESET and the stream starts write nothing; every other rule counts its bytes (`Accounts`). -/
theorem streamAccounting : Obligations.StreamAccounting := by
  unfold Obligations.StreamAccounting
  intro i s t h
  by_cases hi : i = .reset ∨ startsStream i
  · rcases hi with rfl | hi
    · rw [exec_reset] at h
      cases h
      exact ⟨[], [], rfl, rfl, fun _ => rfl, fun _ => rfl, fun hr => absurd rfl hr⟩
    · obtain ⟨_, hsink, taken, hfront⟩ := startedFrom_of_exec hi h
      refine ⟨[], taken, hsink, hfront, fun _ => rfl, fun hr => ?_, fun _ hs => absurd hi hs⟩
      subst hr
      rcases hi with hi | hi | hi <;> cases hi
  · obtain ⟨written, taken, hsink, hfront, hout, hin⟩ := accounts_of_exec hi h
    exact ⟨written, taken, hsink, hfront, fun hs => absurd hs hi, fun hr => absurd (.inl hr) hi,
      fun _ _ => ⟨hout, hin⟩⟩

end Sys2Proof.Machine
end

section
/-! SUPPORT. Every step keeps the invariant (O10): the rules that neither start a stream nor write an option by
`inv_stable`, the others one by one. -/

namespace Sys2Proof.Machine

/-! ### REG_WRITE and HDR_READ -/

/-- Outside a stream the invariant claims nothing of the options. -/
theorem Inv.opts_written {s : State} (hs : Inv s) (hp : streamActive s = false) (o : Options) :
    Inv { s with opts := o } := by
  have hout := outside_stream_of_inactive hp
  have henc : s.status.phase ≠ .enc := fun h => by rw [h] at hout; exact hout.elim Phase.noConfusion Phase.noConfusion
  have hdec : s.status.phase ≠ .dec := fun h => by rw [h] at hout; exact hout.elim Phase.noConfusion Phase.noConfusion
  exact
    { hs with
      encOptions := fun h => absurd h henc
      encRegs := fun h => absurd h henc
      decOptions := fun h => absurd h hdec
      decRegs := fun h => absurd h hdec }

/-- The invariant outside a stream. -/
def InvOutside (s : State) : Prop := Inv s ∧ streamActive s = false

theorem hdrRead_preserves_inv : Preserves InvOutside hdrRead :=
  hdrRead_preserves (fun h => ⟨{ h.1 with }, h.2⟩) (fun _ _ h => ⟨{ h.1 with }, h.2⟩) (fun h => ⟨{ h.1 with }, h.2⟩)
    (fun c h => ⟨h.1.faulted c, by
      rw [streamActive, faultEntry_status, Status.record_phase]
      exact h.2⟩)
    fun o h => ⟨{ h.1.opts_written h.2 o with }, h.2⟩

theorem streamActive_of_startD {s : State} (h : Gate.startD.accepts s) : streamActive s = false := by
  obtain ⟨hp, _⟩ := h
  rcases hp with hp | hp <;> simp [streamActive, hp]

/-! ### DEC_START -/

theorem decClear_opts (s : State) : (decClear s).opts = s.opts := by
  unfold decClear
  cases s.status.hdrOk <;> rfl

theorem decClear_dictCap (s : State) : (decClear s).dictCap = s.dictCap := by
  unfold decClear
  cases s.status.hdrOk <;> rfl

/-- The state in which DEC_START takes its first bytes (R288, R524). -/
def decCreated (s : State) : State := { decClear s with rcd := { range := 0xFFFFFFFF#32, code := 0 } }

theorem decStart_run (s : State) : decStart s =
    if decOptionsLegal s.opts s.dictCap then rcdLoad 5 (decCreated s)
    else .error .ended (faultEntry .cfgInvalid s) := by
  rw [decStart, Eng.bind_look, Eng.bind_check]
  rfl

theorem derivedLegal_derivedOf {o : Options} (hlc : o.lc.toNat ≤ 8) (hlp : o.lp.toNat ≤ 4) (hpb : o.pb.toNat ≤ 4) :
    derivedLegal (derivedOf o) := .inr ⟨o, hlc, hlp, hpb, rfl⟩

/-- A decoder stream starts in the invariant. -/
theorem inv_decCreated {s : State} (hmode : s.opts.mode = 1#1) (hlegal : decOptionsLegal s.opts s.dictCap = true) :
    Inv (decCreated s) := by
  have hopts : (decCreated s).opts = s.opts := decClear_opts s
  have hcap : (decCreated s).dictCap = s.dictCap := decClear_dictCap s
  have hderived : derivedLegal (derivedOf s.opts) := by
    simp only [decOptionsLegal, Bool.and_eq_true, decide_eq_true_eq] at hlegal
    obtain ⟨⟨⟨hlc, hlp⟩, hpb⟩, _⟩ := hlegal
    exact derivedLegal_derivedOf hlc hlp hpb
  exact
    { memory := rfl
      coderState := Nat.zero_le _
      probs := rfl
      probSize := rfl
      derived := hderived
      idle := fun h => by cases h
      encOptions := fun h => by cases h
      encRams := fun h => by cases h
      encRegs := fun h => by cases h
      decOptions := fun _ => by
        rw [hopts, hcap]
        exact ⟨hmode, hlegal, rfl⟩
      output := ⟨rfl, fun hne => Nat.pos_of_ne_zero fun h0 => hne (BitVec.eq_of_toNat_eq h0)⟩
      decRegs := fun _ => by
        rw [decoderRegs, hopts]
        exact ⟨rfl, rfl⟩
      encRange := fun h => by cases h
      decRange := fun _ _ => (by decide : 2 ^ 24 ≤ (0xFFFFFFFF#32).toNat) }

theorem decStart_ends_inv {s : State} (hs : Inv s) (hmode : s.opts.mode = 1#1) : EndsIn Inv (decStart s) := by
  rw [decStart_run]
  split
  · next hlegal => exact inv_stable.rcdLoad 5 _ (inv_decCreated hmode hlegal)
  · exact hs.faulted _

/-! ### ENC_START -/

/-- The registers `WinInit` sets (R202). -/
def windowCleared (s : State) : State :=
  { s with win := { s.win with bufOffset := 0, pos := 0, streamPos := 0, posLimit := 0, streamEnd := false } }

/-- ENC_START before `MfInit` (R470). -/
def encAllocated (s : State) : State :=
  let dict := s.opts.dictSize
  let fast : Word := s.opts.fastBytes.setWidth 32
  let m := mfRegsOf dict fast (decide (s.opts.mfHash = 1#1)) s.mf
  let blockSize := dict + 4096#32 + (fast + 274#32) + (((dict + 4096#32 + fast + 274#32) >>> 1) + 256#32)
  { encClear s with
    win := { s.win with blockSize := blockSize, keepBefore := dict + 4096#32, keepAfter := fast + 274#32,
                        lastSafe := blockSize - (fast + 274#32) }
    wbuf := Ram.alloc blockSize.toNat
    mf := m
    son := Ram.alloc (2 * m.cbs.toNat)
    hash := Ram.alloc m.hashSizeSum.toNat
    matchBuf := Ram.alloc Config.matchesSize
    rce := { low := 0, range := 0xFFFFFFFF#32, cache := 0, cacheSize := 1 }
    status := { (encClear s).status with phase := .enc } }

/-- The state in which ENC_START fills the window for the first time (R202, R470). -/
def encCreated (s : State) : State := windowCleared (encAllocated s)

/-- What `MfInit` does after the refill (R242). -/
def finderCleared (s : State) : State :=
  { s with
    hash := s.hash.clear
    mf := { s.mf with cycPos := 0, numPairs := 0 }
    win := { s.win with
      bufOffset := s.win.bufOffset + 0xFFFFFFFF#32
      posLimit := s.win.posLimit - 0xFFFFFFFF#32
      pos := s.win.pos - 0xFFFFFFFF#32
      streamPos := s.win.streamPos - 0xFFFFFFFF#32 } }

theorem mfInit_run (s : State) : mfInit s =
    match winReadBlock (windowCleared s) with
    | .ok _ t => .ok () (finderCleared t)
    | .error e t => .error e t := by
  rw [mfInit, Eng.bind_run, show winInit s = winReadBlock (windowCleared s) from rfl]
  cases winReadBlock (windowCleared s) <;> rfl

/-- The price tables ENC_START fills last (R470). -/
def encFill : Eng Unit := do
  fillDistancesPrices
  fillAlignPrices
  fillLenTables

/-- With legal options ENC_START fills the window, then the price tables. -/
theorem encStart_run (s : State) : encStart s =
    if encOptionsLegal s.opts s.dictCap then
      match winReadBlock (encCreated s) with
      | .ok _ t => encFill (finderCleared t)
      | .error e t => .error e t
    else .error .ended (faultEntry .cfgInvalid s) := by
  rw [encStart, Eng.bind_look, Eng.bind_check]
  split
  · rw [Eng.bind_put, Eng.bind_ok (show mfCreate (encClear s) = .ok () _ from rfl),
      Eng.bind_ok (show rceInit _ = .ok () _ from rfl), Eng.bind_ok (show setPhase .enc _ = .ok () _ from rfl)]
    show (mfInit >>= fun _ => encFill) (encAllocated s) = _
    rw [Eng.bind_run, mfInit_run, ← encCreated]
    cases winReadBlock (encCreated s) <;> rfl
  · rfl

/-- The options ENC_START accepts, in numbers (R471). -/
theorem encOptionsLegal_iff {o : Options} {dictCap : Nat} : encOptionsLegal o dictCap = true ↔
    1 ≤ o.dictSize.toNat ∧ o.dictSize.toNat ≤ 2 ^ 30 ∧ o.dictSize.toNat ≤ dictCap ∧ o.lc.toNat ≤ 8 ∧ o.lp.toNat ≤ 4 ∧
      o.pb.toNat ≤ 4 ∧ 5 ≤ o.fastBytes.toNat ∧ o.fastBytes.toNat ≤ 273 := by
  simp only [encOptionsLegal, Bool.and_eq_true, decide_eq_true_eq, and_assoc]
  exact Iff.rfl

/-- The window's size (R201, R240). -/
def windowSize (o : Options) : Nat := (o.dictSize.toNat + o.fastBytes.toNat + 4370) * 3 / 2 + 256

/-- The window's size in words; none of the sums passes 2^32. -/
theorem blockSize_toNat {dict fast : Word} (hdict : dict.toNat ≤ 2 ^ 30) (hfast : fast.toNat ≤ 273) :
    (dict + 4096#32 + (fast + 274#32) + (((dict + 4096#32 + fast + 274#32) >>> 1) + 256#32)).toNat =
      (dict.toNat + fast.toNat + 4370) * 3 / 2 + 256 := by
  have hsum : (dict + 4096#32 + fast + 274#32).toNat = dict.toNat + fast.toNat + 4370 := by
    simp only [BitVec.toNat_add, BitVec.toNat_ofNat]
    omega
  rw [← BitVec.add_assoc (dict + 4096#32)]
  simp only [BitVec.toNat_add _ (_ + 256#32), BitVec.toNat_add _ 256#32, BitVec.toNat_ushiftRight,
    Nat.shiftRight_eq_div_pow, pow_one, BitVec.toNat_ofNat, hsum]
  have hle : dict.toNat + fast.toNat + 4370 ≤ 2 ^ 30 + 4643 := by omega
  generalize dict.toNat + fast.toNat + 4370 = n at hle
  have hmul : n * 3 / 2 = n + n / 2 := by omega
  omega

section
variable {s : State} (hlegal : encOptionsLegal s.opts s.dictCap = true)
include hlegal

theorem encCreated_keepAfter : (encCreated s).win.keepAfter.toNat = s.opts.fastBytes.toNat + 274 := by
  obtain ⟨_, _, _, _, _, _, _, hfast⟩ := encOptionsLegal_iff.1 hlegal
  show (s.opts.fastBytes.setWidth 32 + 274#32).toNat = _
  rw [BitVec.toNat_add, BitVec.toNat_setWidth, BitVec.toNat_ofNat]
  omega

theorem encCreated_blockSize : (encCreated s).win.blockSize.toNat = windowSize s.opts := by
  obtain ⟨_, hdict, _, _, _, _, _, hfast⟩ := encOptionsLegal_iff.1 hlegal
  have hfast32 : (s.opts.fastBytes.setWidth 32).toNat = s.opts.fastBytes.toNat := by
    rw [BitVec.toNat_setWidth]
    omega
  have h := blockSize_toNat (fast := s.opts.fastBytes.setWidth 32) hdict (by omega)
  rwa [hfast32] at h

theorem encCreated_cbs : (encCreated s).mf.cbs.toNat = s.opts.dictSize.toNat + 1 := by
  obtain ⟨_, hdict, _⟩ := encOptionsLegal_iff.1 hlegal
  show (s.opts.dictSize + 1#32).toNat = _
  rw [BitVec.toNat_add, BitVec.toNat_ofNat]
  omega

theorem refilling_encCreated : Refilling (encCreated s) where
  eof := rfl
  streamEnd := rfl
  offset := rfl
  pos := rfl
  size := rfl
  wf := rfl
  inside := Nat.zero_le _
  lookAhead := by
    rw [encCreated_keepAfter hlegal, encCreated_blockSize hlegal, windowSize]
    omega
  limit := fun h => by
    have := congrArg BitVec.toNat h
    rw [encCreated_blockSize hlegal, windowSize] at this
    exact absurd this (by show (0 : Nat) ≠ _; omega)

/-- An encoder stream starts in the invariant. -/
theorem inv_finderCleared (hmode : s.opts.mode = 0#1) {t : State} (ht : Refilled (encCreated s) t) :
    Inv (finderCleared t) := by
  obtain ⟨_, _, _, hlc, hlp, hpb, _, _⟩ := encOptionsLegal_iff.1 hlegal
  obtain ⟨hframe, hsize, hwf, _, _, _⟩ := ht
  generalize t.wbuf = wbuf at hframe hsize hwf
  generalize t.win.posLimit = limit at hframe
  subst hframe
  exact
    { memory := (memory_wf_iff _).2 ⟨rfl, hwf, rfl, rfl, rfl, rfl, rfl, rfl, rfl, rfl, rfl, rfl, rfl, rfl⟩
      coderState := Nat.zero_le _
      probs := rfl
      probSize := rfl
      derived := derivedLegal_derivedOf hlc hlp hpb
      idle := fun h => by cases h
      encOptions := fun _ => ⟨hmode, hlegal, rfl⟩
      encRams := fun _ => ⟨hsize, rfl, rfl, rfl, rfl, rfl, rfl, rfl, rfl, rfl, rfl, rfl⟩
      encRegs := fun _ => by
        refine ⟨rfl, ?_, rfl, rfl, rfl, rfl, rfl, ?_⟩
        · show 0 < (encCreated s).mf.cbs.toNat
          rw [encCreated_cbs hlegal]
          exact Nat.succ_pos _
        · show (encCreated s).win.blockSize = (encCreated s).win.keepBefore + (encCreated s).win.keepAfter +
            ((((encCreated s).win.keepBefore + (encCreated s).win.keepAfter) >>> 1) + 256#32)
          unfold encCreated encAllocated windowCleared
          dsimp only
          rw [← BitVec.add_assoc (s.opts.dictSize + 4096#32)]
      decOptions := fun h => by cases h
      output := ⟨rfl, fun h => absurd rfl h⟩
      decRegs := fun h => by cases h
      encRange := fun _ _ => (by decide : 2 ^ 24 ≤ (0xFFFFFFFF#32).toNat)
      decRange := fun h => by cases h }

end

theorem encFill_preserves_inv : Preserves Inv encFill :=
  .bind inv_stable.fillDistancesPrices fun _ => .bind inv_stable.fillAlignPrices fun _ => inv_stable.fillLenTables

theorem encStart_ends_inv {s : State} (hs : Inv s) (hmode : s.opts.mode = 0#1) : EndsIn Inv (encStart s) := by
  rw [encStart_run]
  split
  · next hlegal =>
    rcases winReadBlock_cases (refilling_encCreated hlegal) with ⟨t, e, ht⟩ | ⟨_, _, t, e⟩ <;> rw [e]
    · exact encFill_preserves_inv _ (inv_finderCleared hlegal hmode ht)
    · trivial
  · exact hs.faulted _

/-! ### Every command, and the step -/

theorem exec_keeps_inv {i : Instr} {s t : State} (h : exec i s = .next t) (hs : Inv s) : Inv t := by
  have hclear : Inv (clearResults s) := { hs with }
  by_cases hi : i = .reset ∨ i = .regWrite ∨ startsStream i
  · rcases hi with rfl | rfl | rfl | rfl | rfl
    · rw [exec_reset] at h
      cases h
      exact inv_resetWith s.host s.dictCap
    · exact regWrite_preserves inv_stable.toStable (fun o hp hs => hs.opts_written hp o) h hs
    · exact Preserves.command (g := .startE) h
        (fun hg => encStart_ends_inv hclear ((gate_run_iff _ _).1 hg).2) hclear fun c => hclear.faulted c
    · refine Preserves.command (P := Inv) (g := .startD) h (fun hg => ?_) hclear fun c => hclear.faulted c
      have := hdrRead_preserves_inv (clearResults s) ⟨hclear, streamActive_of_startD ((gate_run_iff _ _).1 hg)⟩
      exact this.imp fun _ h => h.1
    · exact Preserves.command (g := .startD) h
        (fun hg => decStart_ends_inv hclear ((gate_run_iff _ _).1 hg).2) hclear fun c => hclear.faulted c
  · exact inv_stable.toStableOnSink.of_exec (fun _ => inv_stable) h hi hs

/-- Settles O10: a command word that decodes is executed (`exec_keeps_inv`), an illegal one at most faults. -/
theorem stepKeepsInv : Obligations.StepKeepsInv := by
  unfold Obligations.StepKeepsInv
  intro s t hs h
  rw [step] at h
  split at h
  · cases h
  · next tr rest _ =>
    have haccept : Inv (accept tr rest s) := { hs with }
    split at h
    · exact exec_keeps_inv h haccept
    · have hclear : Inv (clearResults (accept tr rest s)) := { hs with }
      unfold illegalCommand at h
      dsimp only at h
      split at h <;> cases h
      · exact hclear
      · exact hclear.faulted _

end Sys2Proof.Machine
end

section
/-! SUPPORT. The price refreshes of an encoder stream complete: every index they form lies inside its RAM, and they
write the price tables alone (R440 to R442). -/

namespace Sys2Proof.Machine

/-- A state whose price tables can be refreshed. -/
structure TablesReady (s : State) : Prop where
  entries : 1846 ≤ s.prob.size
  range : ∀ i, 31 ≤ (s.prob.get i).toNat ∧ (s.prob.get i).toNat ≤ 2017
  tables : s.price.sizes = [256, 512, 16, 4352, 4352, 16, 16]
  positions : s.derived.numPosStates.toNat ≤ 16
  slots : s.enc.distTableSize.toNat ≤ 64
  lengths : s.enc.lenTableSize.toNat ≤ 272

theorem TablesReady.price_written {s : State} (h : TablesReady s) {p : PriceRams} (hp : p.sizes = s.price.sizes) :
    TablesReady { s with price := p } :=
  { h with tables := hp.trans h.tables }

/-- A rule that reads a price and changes nothing. -/
def ReadsPrice {α : Type} (f : Eng α) : Prop := ∀ s, TablesReady s → ∃ c, f s = .ok c s

/-- A rule that writes the price tables and changes nothing else. -/
def FillsPrices (f : Eng Unit) : Prop :=
  ∀ s, TablesReady s → ∃ p : PriceRams, p.sizes = s.price.sizes ∧ f s = .ok () { s with price := p }

/-! ### Reading prices -/

theorem childNode_le (m : Word) (b : Bool) : (childNode m b).toNat ≤ 2 * m.toNat + 1 := by
  have h := childNode_ofNat m.toNat b
  rw [BitVec.ofNat_toNat, BitVec.setWidth_eq] at h
  rw [h, BitVec.toNat_ofNat]
  exact Nat.le_trans (Nat.mod_le _ _) (Nat.add_le_add_left (Bool.toNat_le b) _)

/-- The sum of two words is at most that of their numbers. -/
theorem toNat_add_le (a b : Word) : (a + b).toNat ≤ a.toNat + b.toNat := by
  rw [BitVec.toNat_add]
  exact Nat.mod_le _ _

namespace ReadsPrice
variable {α β : Type}

theorem pure (a : α) : ReadsPrice (pure a : Eng α) := fun _ _ => ⟨a, rfl⟩

theorem bind {f : Eng α} {g : α → Eng β} (hf : ReadsPrice f) (hg : ∀ a, ReadsPrice (g a)) : ReadsPrice (f >>= g) :=
  fun s hs => by
    obtain ⟨a, ha⟩ := hf s hs
    obtain ⟨b, hb⟩ := hg a s hs
    exact ⟨b, (Eng.bind_ok ha g).trans hb⟩

theorem bitPrice {p : Prob} (b : Bool) (h : 31 ≤ p.toNat ∧ p.toNat ≤ 2017) : ReadsPrice (bitPrice p b) :=
  fun s _ => by
    cases b
    · exact ⟨_, if_pos (show p.toNat >>> 2 < 512 by rw [Nat.shiftRight_eq_div_pow]; omega)⟩
    · exact ⟨_, if_pos (show (2048 - p.toNat) >>> 2 < 512 by rw [Nat.shiftRight_eq_div_pow]; omega)⟩

theorem nodePrice {i : Word} (hi : i.toNat < 1846) (b : Bool) : ReadsPrice (nodePrice i b) := fun s hs => by
  obtain ⟨c, hc⟩ := bitPrice b (hs.range i.toNat) s hs
  exact ⟨c, (Eng.bind_ok (ramRead_ok (Nat.lt_of_lt_of_le hi hs.entries)) _).trans hc⟩

/-- With `k` bits left below node `m` the tree ends by node `(m + 1)·2^(k−1)`. -/
theorem node_step {base m : Word} {k : Nat} (h : 2 * base.toNat + (m.toNat + 1) * 2 ^ (k + 1) ≤ 2 * 1846) (b : Bool) :
    (base + m).toNat < 1846 ∧ 2 * base.toNat + ((childNode m b).toNat + 1) * 2 ^ k ≤ 2 * 1846 := by
  have hpow : 0 < 2 ^ k := Nat.two_pow_pos k
  have hnode := toNat_add_le base m
  have hm : (m.toNat + 1) * 2 ^ (k + 1) = 2 * ((m.toNat + 1) * 2 ^ k) := by ring
  have hle : m.toNat + 1 ≤ (m.toNat + 1) * 2 ^ k := Nat.le_mul_of_pos_right _ hpow
  have hchild : ((childNode m b).toNat + 1) * 2 ^ k ≤ 2 * ((m.toNat + 1) * 2 ^ k) := by
    rw [← Nat.mul_assoc]
    exact Nat.mul_le_mul_right _ (by have := childNode_le m b; omega)
  omega

theorem btPriceFrom {base sym : Word} : ∀ (k : Nat) {m : Word} (price : Word),
    2 * base.toNat + (m.toNat + 1) * 2 ^ k ≤ 2 * 1846 → ReadsPrice (btPriceFrom base sym k m price)
  | 0, _, _, _ => pure _
  | k + 1, _, _, h =>
    have hstep := node_step h (sym.getLsbD k)
    bind (nodePrice hstep.1 _) fun _ => btPriceFrom k _ hstep.2

theorem btReversePriceFrom {base sym : Word} : ∀ (left k : Nat) {m : Word} (price : Word),
    2 * base.toNat + (m.toNat + 1) * 2 ^ left ≤ 2 * 1846 → ReadsPrice (btReversePriceFrom base sym left k m price)
  | 0, _, _, _, _ => pure _
  | left + 1, k, _, _, h =>
    have hstep := node_step h (sym.getLsbD k)
    bind (nodePrice hstep.1 _) fun _ => btReversePriceFrom left _ _ hstep.2

theorem btPrice {base : Word} {n : Nat} (h : base.toNat + 2 ^ n ≤ 1846) (sym : Word) :
    ReadsPrice (btPrice base n sym) :=
  btPriceFrom n _ (by show 2 * base.toNat + 2 * 2 ^ n ≤ 2 * 1846; omega)

theorem btReversePrice {base : Word} {n : Nat} (h : base.toNat + 2 ^ n ≤ 1846) (sym : Word) :
    ReadsPrice (btReversePrice base n sym) :=
  btReversePriceFrom n 0 _ (by show 2 * base.toNat + 2 * 2 ^ n ≤ 2 * 1846; omega)

/-- The trees of both length coders end at entry 1846 (R375). -/
theorem lenPrice (k : Bool) (sym : Word) {ps : Word} (hps : ps.toNat < 16) :
    ReadsPrice (lenPrice (lenCoder k) sym ps) := by
  have hl : (lenCoder k).toNat ≤ 1332 := by cases k <;> decide
  have hlow : (lenLowTree (lenCoder k) ps).toNat + 2 ^ 3 ≤ 1846 := by
    simp only [lenLowTree, BitVec.toNat_add, BitVec.toNat_mul, BitVec.toNat_ofNat]
    omega
  have hmid : (lenMidTree (lenCoder k) ps).toNat + 2 ^ 3 ≤ 1846 := by
    simp only [lenMidTree, BitVec.toNat_add, BitVec.toNat_mul, BitVec.toNat_ofNat]
    omega
  have hhigh : (lenHighTree (lenCoder k)).toNat + 2 ^ 8 ≤ 1846 := by
    simp only [lenHighTree, BitVec.toNat_add, BitVec.toNat_ofNat]
    omega
  have hnext : (lenCoder k + 1#32).toNat < 1846 := by cases k <;> decide
  have hfirst : (lenCoder k).toNat < 1846 := by omega
  unfold Machine.lenPrice
  split
  · exact bind (nodePrice hfirst _) fun _ => bind (btPrice hlow _) fun _ => pure _
  · split
    · exact bind (nodePrice hfirst _) fun _ => bind (nodePrice hnext _) fun _ => bind (btPrice hmid _) fun _ => pure _
    · exact bind (nodePrice hfirst _) fun _ => bind (nodePrice hnext _) fun _ => bind (btPrice hhigh _) fun _ => pure _

/-- The slots of the distances below 128 (R370). -/
theorem slotOf_lt_14 {n : Nat} (h : n < 128) : slotOf n < 14 := by
  by_cases h4 : 4 ≤ n
  · obtain ⟨_, hs, _, _⟩ := slot_split h4
    have hlog : Nat.log2 n < 7 := (Nat.log2_lt (by omega)).mpr h
    omega
  · rw [slotOf, if_pos (by omega)]
    omega

/-- The reversed trees of the slots below 14 (R381). -/
theorem specPosTree_inside : ∀ slot : Fin 14,
    (specPosTree (BitVec.ofNat 32 slot.val)).toNat + 2 ^ footerBits (BitVec.ofNat 32 slot.val) ≤ 1846 := by decide

theorem specPosPrice {i : Word} (h : i.toNat < 128) : ReadsPrice (specPosPrice i) := by
  unfold Machine.specPosPrice
  rw [posSlotOf_eq]
  exact btReversePrice (specPosTree_inside ⟨_, slotOf_lt_14 h⟩) _

end ReadsPrice

theorem specPosPrices_run {s : State} (hs : TablesReady s) : ∀ (n : Nat) (i : Word), i.toNat + n ≤ 128 →
    ∃ tmp, tmp.length = n ∧ specPosPrices n i s = .ok tmp s
  | 0, _, _ => ⟨[], rfl, rfl⟩
  | n + 1, i, h => by
    obtain ⟨c, hc⟩ := ReadsPrice.specPosPrice (i := i) (by omega) s hs
    have hnext := toNat_add_le i 1#32
    obtain ⟨tmp, hlen, ht⟩ := specPosPrices_run hs n (i + 1#32) (by
      simp only [BitVec.toNat_ofNat] at hnext
      omega)
    exact ⟨c :: tmp, by rw [List.length_cons, hlen], (Eng.bind_ok hc _).trans (Eng.bind_ok ht _)⟩

/-! ### Writing prices -/

namespace FillsPrices

theorem pure : FillsPrices (pure ()) := fun s _ => ⟨s.price, rfl, rfl⟩

theorem bind {f : Eng Unit} {g : Unit → Eng Unit} (hf : FillsPrices f) (hg : FillsPrices (g ())) :
    FillsPrices (f >>= g) := fun s hs => by
  obtain ⟨p, hp, ep⟩ := hf s hs
  obtain ⟨q, hq, eq⟩ := hg _ (hs.price_written hp)
  exact ⟨q, hq.trans hp, (Eng.bind_ok ep g).trans eq⟩

/-- A price read, then written. -/
theorem read_bind {α : Type} {f : Eng α} {g : α → Eng Unit} (hf : ReadsPrice f) (hg : ∀ a, FillsPrices (g a)) :
    FillsPrices (f >>= g) := fun s hs => by
  obtain ⟨a, ha⟩ := hf s hs
  obtain ⟨p, hp, ep⟩ := hg a s hs
  exact ⟨p, hp, (Eng.bind_ok ha g).trans ep⟩

/-- A register read, whose bound the state gives. -/
theorem look_bind {α : Type} {f : State → α} {g : α → Eng Unit} (hg : ∀ s, TablesReady s → FillsPrices (g (f s))) :
    FillsPrices (look f >>= g) := fun s hs => hg s hs s hs

theorem forUp {body : Word → Eng Unit} {bound : Nat} (hbound : bound < 2 ^ 32)
    (h : ∀ i : Word, i.toNat < bound → FillsPrices (body i)) :
    ∀ (n : Nat) (i : Word), i.toNat + n ≤ bound → FillsPrices (forUp body n i)
  | 0, _, _ => pure
  | n + 1, i, hi => by
    have hnext := toNat_add_le i 1#32
    simp only [BitVec.toNat_ofNat] at hnext
    exact bind (h i (by omega)) (forUp hbound h n _ (by omega))

/-- The element counts of the price RAMs (R57), one by one. -/
theorem sizes_of_ready {s : State} (hs : TablesReady s) :
    s.price.posSlot.size = 256 ∧ s.price.dist.size = 512 ∧ s.price.align.size = 16 ∧ s.price.lenMatch.size = 4352 ∧
      s.price.lenRep.size = 4352 ∧ s.price.cntMatch.size = 16 ∧ s.price.cntRep.size = 16 := by
  simpa [PriceRams.sizes] using hs.tables

theorem posSlotPriceWrite {i : Word} (hi : i.toNat < 256) (v : Word) : FillsPrices (posSlotPriceWrite i v) :=
  fun s hs =>
  ⟨{ s.price with posSlot := s.price.posSlot.set i.toNat v }, rfl,
    ramWrite_ok (by rw [(sizes_of_ready hs).1]; exact hi)⟩

theorem distPriceWrite {i : Word} (hi : i.toNat < 512) (v : Word) : FillsPrices (distPriceWrite i v) := fun s hs =>
  ⟨{ s.price with dist := s.price.dist.set i.toNat v }, rfl,
    ramWrite_ok (by rw [(sizes_of_ready hs).2.1]; exact hi)⟩

theorem alignPriceWrite {i : Word} (hi : i.toNat < 16) (v : Word) : FillsPrices (alignPriceWrite i v) := fun s hs =>
  ⟨{ s.price with align := s.price.align.set i.toNat v }, rfl,
    ramWrite_ok (by rw [(sizes_of_ready hs).2.2.1]; exact hi)⟩

theorem lenPriceWrite (k : Bool) {i : Word} (hi : i.toNat < 4352) (v : Word) : FillsPrices (lenPriceWrite k i v) :=
  fun s hs => by
    obtain ⟨_, _, _, hmatch, hrep, _, _⟩ := sizes_of_ready hs
    cases k
    · exact ⟨{ s.price with lenMatch := s.price.lenMatch.set i.toNat v }, rfl,
        ramWrite_ok (ram := (·.price.lenMatch))
          (store := fun s r => { s with price := { s.price with lenMatch := r } }) (by rw [hmatch]; exact hi)⟩
    · exact ⟨{ s.price with lenRep := s.price.lenRep.set i.toNat v }, rfl,
        ramWrite_ok (ram := (·.price.lenRep))
          (store := fun s r => { s with price := { s.price with lenRep := r } }) (by rw [hrep]; exact hi)⟩

theorem lenCounterWrite (k : Bool) {i : Word} (hi : i.toNat < 16) (v : Word) : FillsPrices (lenCounterWrite k i v) :=
  fun s hs => by
    obtain ⟨_, _, _, _, _, hmatch, hrep⟩ := sizes_of_ready hs
    cases k
    · exact ⟨{ s.price with cntMatch := s.price.cntMatch.set i.toNat v }, rfl,
        ramWrite_ok (ram := (·.price.cntMatch))
          (store := fun s r => { s with price := { s.price with cntMatch := r } }) (by rw [hmatch]; exact hi)⟩
    · exact ⟨{ s.price with cntRep := s.price.cntRep.set i.toNat v }, rfl,
        ramWrite_ok (ram := (·.price.cntRep))
          (store := fun s r => { s with price := { s.price with cntRep := r } }) (by rw [hrep]; exact hi)⟩

theorem posSlotPriceRead {i : Word} (hi : i.toNat < 256) : ReadsPrice (posSlotPriceRead i) := fun s hs =>
  ⟨_, ramRead_ok (by rw [(sizes_of_ready hs).1]; exact hi)⟩

/-! ### The indices of the tables (R57) -/

theorem posSlotPriceIdx_lt {lps slot : Word} (hl : lps.toNat < 4) (hslot : slot.toNat < 64) :
    (posSlotPriceIdx lps slot).toNat < 256 := by
  simp only [posSlotPriceIdx, BitVec.toNat_add, BitVec.toNat_shiftLeft, Nat.shiftLeft_eq]
  omega

theorem distPriceIdx_lt {lps dist : Word} (hl : lps.toNat < 4) (hd : dist.toNat < 128) :
    (distPriceIdx lps dist).toNat < 512 := by
  simp only [distPriceIdx, BitVec.toNat_add, BitVec.toNat_mul, BitVec.toNat_ofNat]
  omega

theorem lenPriceIdx_lt {ps sym : Word} (hps : ps.toNat < 16) (hsym : sym.toNat < 272) :
    (lenPriceIdx ps sym).toNat < 4352 := by
  have hrow : (ps * 272#32).toNat ≤ ps.toNat * 272 := by
    rw [BitVec.toNat_mul]
    exact Nat.mod_le _ _
  have h := toNat_add_le (ps * 272#32) sym
  rw [lenPriceIdx]
  omega

theorem posSlotOf_lt (i : Word) : (posSlotOf i).toNat < 64 := by
  have h := slotOf_lt i.isLt
  rw [posSlotOf_eq, BitVec.toNat_ofNat]
  omega

/-! ### The refreshes -/

theorem fillSlot {lps slot : Word} (hl : lps.toNat < 4) (hslot : slot.toNat < 64) : FillsPrices (fillSlot lps slot) :=
  have hbase : (432#32 + 64#32 * lps).toNat + 2 ^ 6 ≤ 1846 := by
    simp only [BitVec.toNat_add, BitVec.toNat_mul, BitVec.toNat_ofNat]
    omega
  read_bind (.btPrice hbase _) fun _ => posSlotPriceWrite (posSlotPriceIdx_lt hl hslot) _

theorem fillSlotDirect {lps slot : Word} (hl : lps.toNat < 4) (hslot : slot.toNat < 64) :
    FillsPrices (fillSlotDirect lps slot) :=
  have h := posSlotPriceIdx_lt hl hslot
  read_bind (posSlotPriceRead h) fun _ => posSlotPriceWrite h _

theorem fillDistNear {lps i : Word} (hl : lps.toNat < 4) (hi : i.toNat < 4) : FillsPrices (fillDistNear lps i) :=
  read_bind (posSlotPriceRead (posSlotPriceIdx_lt hl (by omega))) fun _ =>
    distPriceWrite (distPriceIdx_lt hl (by omega)) _

theorem fillDistFar {lps : Word} (hl : lps.toNat < 4) : ∀ (tmp : List Word) (i : Word), i.toNat + tmp.length ≤ 128 →
    FillsPrices (fillDistFar lps tmp i)
  | [], _, _ => pure
  | c :: rest, i, hi => by
    have hnext := toNat_add_le i 1#32
    simp only [BitVec.toNat_ofNat] at hnext
    rw [List.length_cons] at hi
    exact read_bind (posSlotPriceRead (posSlotPriceIdx_lt hl (posSlotOf_lt i))) fun _ =>
      bind (distPriceWrite (distPriceIdx_lt hl (by omega)) _) (fillDistFar hl rest _ (by omega))

theorem fillClass {tmp : List Word} (htmp : tmp.length = 124) {lps : Word} (hl : lps.toNat < 4) :
    FillsPrices (fillClass tmp lps) :=
  look_bind fun s hs => by
    have hslots := hs.slots
    exact bind (forUp (bound := 64) (by decide) (fun _ => fillSlot hl) _ _ (by simp; omega)) <|
      bind (forUp (bound := 64) (by decide) (fun _ => fillSlotDirect hl) _ _ (by simp; omega)) <|
      bind (forUp (bound := 4) (by decide) (fun _ => fillDistNear hl) _ _ (by decide)) <|
      fillDistFar hl tmp _ (by rw [htmp]; decide)

theorem fillAlign {i : Word} (hi : i.toNat < 16) : FillsPrices (fillAlign i) :=
  read_bind (.btReversePrice (by decide) _) fun _ => alignPriceWrite hi _

theorem fillLen (k : Bool) {ps i : Word} (hps : ps.toNat < 16) (hi : i.toNat < 272) : FillsPrices (fillLen k ps i) :=
  read_bind (.lenPrice k _ hps) fun _ => lenPriceWrite k (lenPriceIdx_lt hps hi) _

theorem updateLenTable (k : Bool) {ps : Word} (hps : ps.toNat < 16) : FillsPrices (updateLenTable k ps) :=
  look_bind fun s hs => by
    have hlengths := hs.lengths
    exact bind (forUp (bound := 272) (by decide) (fun _ => fillLen k hps) _ _ (by simpa using hlengths))
      (lenCounterWrite k hps _)

theorem fillLenTables : FillsPrices fillLenTables :=
  look_bind fun s hs => by
    have hpositions := hs.positions
    exact bind (forUp (bound := 16) (by decide) (fun _ => updateLenTable false) _ _ (by simpa using hpositions))
      (forUp (bound := 16) (by decide) (fun _ => updateLenTable true) _ _ (by simpa using hpositions))

end FillsPrices

theorem fillDistancesPrices_run {s : State} (hs : TablesReady s) : ∃ p : PriceRams, p.sizes = s.price.sizes ∧
    fillDistancesPrices s = .ok () { s with price := p, enc := { s.enc with matchPriceCount := 0 } } := by
  obtain ⟨tmp, hlen, htmp⟩ := specPosPrices_run hs 124 4#32 (by decide)
  obtain ⟨p, hp, e⟩ := FillsPrices.forUp (bound := 4) (by decide) (fun _ => FillsPrices.fillClass hlen) 4 0#32
    (by decide) s hs
  exact ⟨p, hp, (Eng.bind_ok htmp _).trans (Eng.bind_ok e _)⟩

theorem fillAlignPrices_run {s : State} (hs : TablesReady s) : ∃ p : PriceRams, p.sizes = s.price.sizes ∧
    fillAlignPrices s = .ok () { s with price := p, enc := { s.enc with alignPriceCount := 0 } } := by
  obtain ⟨p, hp, e⟩ := FillsPrices.forUp (bound := 16) (by decide) (fun _ => FillsPrices.fillAlign) 16 0#32 (by decide)
    s hs
  exact ⟨p, hp, Eng.bind_ok e _⟩

/-- The table fills of ENC_START complete (R470). -/
theorem encFill_run {s : State} (hs : TablesReady s) : ∃ p : PriceRams, encFill s =
    .ok () { s with price := p, enc := { s.enc with matchPriceCount := 0, alignPriceCount := 0 } } := by
  obtain ⟨p, hp, ep⟩ := fillDistancesPrices_run hs
  have ht : TablesReady { s with price := p, enc := { s.enc with matchPriceCount := 0 } } :=
    { hs.price_written hp with }
  obtain ⟨q, hq, eq⟩ := fillAlignPrices_run ht
  obtain ⟨r, _, er⟩ := FillsPrices.fillLenTables _
    ({ ht.price_written hq with } : TablesReady
      { s with price := q, enc := { s.enc with matchPriceCount := 0, alignPriceCount := 0 } })
  exact ⟨r, (Eng.bind_ok ep _).trans ((Eng.bind_ok eq _).trans er)⟩

end Sys2Proof.Machine
end

section
/-! SUPPORT. The state an encoder stream begins in (O48): the refill of the window, then the price tables. -/

namespace Sys2Proof.Machine

/-! ### The values the options fix (R42, R470) -/

theorem one_shiftLeft_toNat {k : Nat} (h : k < 32) : (1#32 <<< k).toNat = 2 ^ k := by
  rw [BitVec.toNat_shiftLeft, Nat.shiftLeft_eq, BitVec.toNat_ofNat]
  have := Nat.pow_lt_pow_right (by decide : 1 < 2) h
  omega

theorem one_shiftLeft_eq {k : Nat} (h : k < 32) : 1#32 <<< k = BitVec.ofNat 32 (2 ^ k) := by
  rw [← one_shiftLeft_toNat h, BitVec.ofNat_toNat, BitVec.setWidth_eq]

theorem one_shiftLeft_sub_one_eq {k : Nat} (h : k < 32) : 1#32 <<< k - 1#32 = BitVec.ofNat 32 (2 ^ k - 1) := by
  rw [one_shiftLeft_eq h, BitVec.ofNat_sub_ofNat_of_le _ _ (by decide) (Nat.one_le_two_pow)]

theorem derivedOf_eq {o : Options} (hlp : o.lp.toNat ≤ 4) (hpb : o.pb.toNat ≤ 4) :
    derivedOf o =
      { posStateMask := BitVec.ofNat 32 (2 ^ o.pb.toNat - 1), litPosMask := BitVec.ofNat 32 (2 ^ o.lp.toNat - 1)
        probCount := BitVec.ofNat 32 (1846 + 768 * 2 ^ (o.lc.toNat + o.lp.toNat))
        numPosStates := BitVec.ofNat 32 (2 ^ o.pb.toNat), lcLatched := o.lc } := by
  have hprob : 1846#32 + (0x300#32 <<< (o.lc.toNat + o.lp.toNat)) =
      BitVec.ofNat 32 (1846 + 768 * 2 ^ (o.lc.toNat + o.lp.toNat)) := by
    rw [BitVec.ofNat_add]
    congr 1
    apply BitVec.eq_of_toNat_eq
    rw [BitVec.toNat_shiftLeft, Nat.shiftLeft_eq, BitVec.toNat_ofNat]
    rfl
  rw [derivedOf, one_shiftLeft_sub_one_eq (by omega), one_shiftLeft_sub_one_eq (by omega), hprob,
    one_shiftLeft_eq (by omega)]

/-- `dl` of R470 is the upper logarithm, which the search reaches in time. -/
theorem dictLogFrom_eq_clog (d : Nat) : ∀ n dl : Nat, dl ≤ Nat.clog 2 d → Nat.clog 2 d ≤ dl + n →
    dictLogFrom d n dl = Nat.clog 2 d
  | 0, _, hlo, hhi => Nat.le_antisymm hlo hhi
  | n + 1, dl, hlo, hhi => by
    rw [dictLogFrom]
    split
    · next h => exact Nat.le_antisymm hlo (Nat.clog_le_of_le_pow h)
    · next h =>
      have hlt : dl < Nat.clog 2 d := Nat.lt_of_not_le fun hle => h ((Nat.clog_le_iff_le_pow (by decide)).1 hle)
      exact dictLogFrom_eq_clog d n _ hlt (by omega)

theorem dictLog_eq_clog {d : Word} (h : d.toNat ≤ 2 ^ 30) : dictLog d = Nat.clog 2 d.toNat :=
  dictLogFrom_eq_clog _ _ _ (Nat.zero_le _) (by
    rw [Nat.zero_add]
    exact Nat.clog_le_of_le_pow h)

theorem dictLog_le {d : Word} (h : d.toNat ≤ 2 ^ 30) : dictLog d ≤ 30 := by
  rw [dictLog_eq_clog h]
  exact Nat.clog_le_of_le_pow h

theorem lenTableSize_eq {v : BitVec 9} (h : 5 ≤ v.toNat) :
    v.setWidth 32 - 1#32 = BitVec.ofNat 32 (v.toNat - 1) := by
  rw [← BitVec.ofNat_toNat, BitVec.ofNat_sub_ofNat_of_le _ _ (by decide) (by omega)]

theorem freshEnc_eq {o : Options} {dictCap : Nat} (hlegal : encOptionsLegal o dictCap = true) : freshEnc o =
    { prevByte := 0#8, addOffset := 0#32, longestFound := false, longestLen := 0#32, longestPairs := 0#32,
      optEnd := 0#32, optCur := 0#32, matchPriceCount := 0#32, alignPriceCount := 0#32,
      distTableSize := BitVec.ofNat 32 (2 * Nat.clog 2 o.dictSize.toNat),
      lenTableSize := BitVec.ofNat 32 (o.fastBytes.toNat - 1) } := by
  obtain ⟨_, hdict, _, _, _, _, hfast, _⟩ := encOptionsLegal_iff.1 hlegal
  rw [freshEnc, dictLog_eq_clog hdict, lenTableSize_eq hfast]
  rfl

/-- An encoder stream's price tables can be refreshed. -/
theorem Inv.tablesReady {s : State} (hs : Inv s) (hp : s.status.phase = .enc) : TablesReady s := by
  obtain ⟨_, hlegal, hderived⟩ := hs.encOptions hp
  obtain ⟨_, hdict, _, hlc, hlp, hpb, hfast, hfast'⟩ := encOptionsLegal_iff.1 hlegal
  obtain ⟨_, _, _, _, _, hposSlot, hdist, halign, hlenM, hlenR, hcntM, hcntR⟩ := hs.encRams hp
  obtain ⟨_, _, hslots, hlengths, _⟩ := hs.encRegs hp
  rw [derivedOf_eq hlp hpb] at hderived
  exact
    { entries := by
        have hpow : 2 ^ (s.opts.lc.toNat + s.opts.lp.toNat) ≤ 2 ^ 12 := Nat.pow_le_pow_right (by decide) (by omega)
        rw [hs.probSize, hderived, BitVec.toNat_ofNat, Nat.mod_eq_of_lt (by omega)]
        exact Nat.le_add_right _ _
      range := hs.prob_range
      tables := by rw [PriceRams.sizes, hposSlot, hdist, halign, hlenM, hlenR, hcntM, hcntR]
      positions := by
        have hpow : 2 ^ s.opts.pb.toNat ≤ 2 ^ 4 := Nat.pow_le_pow_right (by decide) hpb
        rw [hderived, BitVec.toNat_ofNat, Nat.mod_eq_of_lt (by omega)]
        exact hpow
      slots := by
        have hlog := dictLog_le hdict
        rw [hslots, BitVec.toNat_ofNat]
        omega
      lengths := by
        rw [hlengths, lenTableSize_eq hfast, BitVec.toNat_ofNat]
        omega }

/-! ### The state after ENC_START -/

/-- The state after ENC_START: the window filled, and the price tables `p`. -/
def encStarted (s : State) (wbuf : Ram Byte 0#8) (limit : Word) (p : PriceRams) : State :=
  { finderCleared (refilledState (encCreated s) wbuf limit) with price := p, enc := freshEnc s.opts }

/-- With the source ready ENC_START fills the window and the price tables, and completes (R206, R470). -/
theorem encStart_completes {s : State} (hmode : s.opts.mode = 0#1) (hlegal : encOptionsLegal s.opts s.dictCap = true)
    (hsource : s.host.srcEnd = true ∨ windowSize s.opts ≤ s.host.src.length) :
    ∃ wbuf limit p, Refilled (encCreated s) (refilledState (encCreated s) wbuf limit) ∧
      encStart s = .ok () (encStarted s wbuf limit p) := by
  have hroom : windowRoom (encCreated s) = windowSize s.opts := encCreated_blockSize hlegal
  rcases winReadBlock_cases (refilling_encCreated hlegal) with ⟨t, e, ht⟩ | ⟨hend, hlt, _⟩
  · obtain ⟨p, hp⟩ := encFill_run ((inv_finderCleared hlegal hmode ht).tablesReady (by rw [ht.frame]; rfl))
    refine ⟨t.wbuf, t.win.posLimit, p, ?_, ?_⟩
    · rw [← ht.frame]
      exact ht
    · rw [encStart_run, if_pos hlegal, e]
      dsimp only
      rw [hp, ht.frame]
      rfl
  · rcases hsource with h | h
    · exact absurd (h.symm.trans hend) Bool.noConfusion
    · rw [hroom] at hlt
      exact absurd hlt (Nat.not_lt.2 h)

/-- Moving the origin of the positions from WBUF index 0 to position 1 (R242). -/
theorem word_sub_allOnes (a : Word) : a - 0xFFFFFFFF#32 = a + 1#32 := by bv_omega

theorem encStarted_bufOffset (s : State) (wbuf : Ram Byte 0#8) (limit : Word) (p : PriceRams) :
    (encStarted s wbuf limit p).win.bufOffset = 0xFFFFFFFF#32 := BitVec.zero_add 0xFFFFFFFF#32

theorem encStarted_pos (s : State) (wbuf : Ram Byte 0#8) (limit : Word) (p : PriceRams) :
    (encStarted s wbuf limit p).win.pos = 1#32 := word_sub_allOnes 0#32

section
variable {s : State} (hlegal : encOptionsLegal s.opts s.dictCap = true) {wbuf : Ram Byte 0#8} {limit : Word}
  (hr : Refilled (encCreated s) (refilledState (encCreated s) wbuf limit)) {p : PriceRams}
include hlegal

theorem windowSize_lt : windowSize s.opts < 2 ^ 31 := by
  obtain ⟨_, hdict, _, _, _, _, _, hfast⟩ := encOptionsLegal_iff.1 hlegal
  rw [windowSize]
  omega

theorem encStarted_refillCount : refillCount (encCreated s) = min s.host.src.length (windowSize s.opts) := by
  rw [refillCount, windowRoom, encCreated_blockSize hlegal]
  rfl

theorem encStarted_srcEof :
    decide (s.host.src.length < windowRoom (encCreated s)) = decide (s.host.src.length < windowSize s.opts) := by
  rw [windowRoom, encCreated_blockSize hlegal]
  rfl

theorem encStarted_streamPos : (encStarted s wbuf limit p).win.streamPos =
    BitVec.ofNat 32 (min s.host.src.length (windowSize s.opts) + 1) := by
  show 0#32 + BitVec.ofNat 32 (refillCount (encCreated s)) - 0xFFFFFFFF#32 = _
  rw [word_sub_allOnes, BitVec.zero_add, BitVec.ofNat_add, encStarted_refillCount hlegal]

theorem encStarted_blockSize : (encStarted s wbuf limit p).win.blockSize = BitVec.ofNat 32 (windowSize s.opts) := by
  rw [← encCreated_blockSize hlegal, BitVec.ofNat_toNat, BitVec.setWidth_eq]
  rfl

theorem encStarted_streamEnd : (encStarted s wbuf limit p).win.streamEnd =
    decide (s.host.src.length < windowSize s.opts) := encStarted_srcEof hlegal

theorem encStarted_keepAfter : (encStarted s wbuf limit p).win.keepAfter.toNat = s.opts.fastBytes.toNat + 274 :=
  encCreated_keepAfter (s := s) hlegal

include hr

/-- The window's rules hold of the first bytes read (R211, R212). -/
theorem windowOk_encStarted : WindowOk (encStarted s wbuf limit p) := by
  have hsize := windowSize_lt hlegal
  have hn : min s.host.src.length (windowSize s.opts) ≤ windowSize s.opts := Nat.min_le_right _ _
  have hfull : (encStarted s wbuf limit p).win.streamEnd = false →
      min s.host.src.length (windowSize s.opts) = windowSize s.opts := fun h => by
    rw [encStarted_streamEnd hlegal, decide_eq_false_iff_not, Nat.not_lt] at h
    exact Nat.min_eq_right h
  have hoffset := encStarted_bufOffset s wbuf limit p
  have hpos := congrArg BitVec.toNat (encStarted_pos s wbuf limit p)
  have hkeep := encStarted_keepAfter hlegal (wbuf := wbuf) (limit := limit) (p := p)
  have hblock := congrArg BitVec.toNat (encStarted_blockSize hlegal (wbuf := wbuf) (limit := limit) (p := p))
  have hstream := congrArg BitVec.toNat (encStarted_streamPos hlegal (wbuf := wbuf) (limit := limit) (p := p))
  have hroom : s.opts.fastBytes.toNat + 274 ≤ windowSize s.opts := by rw [windowSize]; omega
  rw [BitVec.toNat_ofNat] at hblock hstream hpos
  exact
    { filled := by
        rw [hoffset, BitVec.toNat_add, hstream, hblock]
        simp only [BitVec.toNat_ofNat]
        omega
      ahead := by
        omega
      inside := fun q hq _ hlt => by
        rw [hstream] at hlt
        rw [hoffset, BitVec.toNat_add, hblock]
        simp only [BitVec.toNat_ofNat]
        omega
      lookAhead := fun h => by
        have hlen := hfull h
        omega
      limit := fun h => by
        have hlim : limit.toNat + (s.opts.fastBytes.toNat + 274) = windowSize s.opts := by
          have := hr.limit (by
            rw [encStarted_streamEnd hlegal, ← encStarted_srcEof hlegal, decide_eq_false_iff_not] at h
            exact Nat.not_lt.1 h)
          rwa [encCreated_keepAfter hlegal, encCreated_blockSize hlegal] at this
        have hlen := hfull h
        have hlimit : (encStarted s wbuf limit p).win.posLimit = limit + 1#32 := word_sub_allOnes limit
        have hlimit := congrArg BitVec.toNat hlimit
        rw [BitVec.toNat_add, BitVec.toNat_ofNat] at hlimit
        omega
      below := by
        omega }

/-- The first bytes of the source stand at the positions from 1 on (R202, R206). -/
theorem byteAt_encStarted {k : Nat} (h : k < s.host.src.length) (hk : k < windowSize s.opts) :
    byteAt (encStarted s wbuf limit p) (BitVec.ofNat 32 (k + 1)) = s.host.src[k] := by
  have hsize := windowSize_lt hlegal
  have hindex : (0xFFFFFFFF#32 + BitVec.ofNat 32 (k + 1)).toNat = 0 + k := by
    rw [BitVec.toNat_add, BitVec.toNat_ofNat, BitVec.toNat_ofNat]
    omega
  rw [byteAt, encStarted_bufOffset, hindex]
  exact hr.bytes k h (by rw [windowRoom, encCreated_blockSize hlegal]; exact hk)

end

/-- Nothing is stored in HASH and SON yet (R242). -/
theorem finderOk_encStarted (s : State) (wbuf : Ram Byte 0#8) (limit : Word) (p : PriceRams) :
    FinderOk (encStarted s wbuf limit p) :=
  finderOk_fresh (by rw [encStarted_pos]; decide) rfl fun _ => rfl

/-- Settles O48: with the source ready the window fills, and the state is `encStarted`. -/
theorem encStartState : Obligations.EncStartState := by
  unfold Obligations.EncStartState
  intro s hs he hg hlegal size hsource n
  have hgate : Gate.startE.answer (clearResults s) = .run := by
    rw [gate_clearResults]
    exact (gate_run_iff _ _).2 hg
  obtain ⟨wbuf, limit, p, hr, hrun⟩ := encStart_completes (s := clearResults s) hg.2 hlegal hsource
  have hexec : exec .encStart s = .next (encStarted (clearResults s) wbuf limit p) := by
    show command .encStart .startE encStart s = _
    rw [command_runs he rfl hgate, hrun]
    rfl
  obtain ⟨_, _, _, hlc, hlp, hpb, _, _⟩ := encOptionsLegal_iff.1 hlegal
  have hlegal' : encOptionsLegal (clearResults s).opts (clearResults s).dictCap = true := hlegal
  have hcount : refillCount (encCreated (clearResults s)) = n := encStarted_refillCount hlegal'
  have heof := encStarted_srcEof hlegal'
  refine ⟨_, hexec, exec_keeps_inv hexec hs, windowOk_encStarted hlegal' hr, finderOk_encStarted _ _ _ _, ?_, ?_,
    derivedOf_eq hlp hpb, fun _ => rfl, rfl, rfl, rfl, rfl, rfl, freshEnc_eq hlegal, encStarted_blockSize hlegal',
    encStarted_pos _ _ _ _, encStarted_streamPos hlegal', encStarted_bufOffset _ _ _ _, encStarted_streamEnd hlegal',
    fun k hk hkn => byteAt_encStarted hlegal' hr hk (Nat.lt_of_lt_of_le hkn (Nat.min_le_right _ _)), rfl, rfl,
    fun _ => rfl, fun _ => rfl, fun _ => rfl, fun _ => rfl, rfl, ?_, rfl⟩
  · show ({ err := s.status.err, phase := .enc, srcEof := decide (_ < _), endSeen := false,
            hdrOk := false } : Status) = _
    rw [he]
    exact congrArg
      (fun b => ({ err := .none, phase := .enc, srcEof := b, endSeen := false, hdrOk := false } : Status)) heof
  · show ({ nowPos := 0, inCount := 0 + BitVec.ofNat 64 (refillCount _), outCount := 0 } : Counters) = _
    rw [hcount]
    exact congrArg (fun c => ({ nowPos := 0, inCount := c, outCount := 0 } : Counters)) (BitVec.zero_add _)
  · show ({ s.host with src := s.host.src.drop (refillCount (encCreated (clearResults s))) } : HostSide) = _
    rw [hcount]

end Sys2Proof.Machine
end

section
/-! SUPPORT. The order of a command's checks (O8): a command is its rule behind the gate of the opcode map, and a rule
begins with the checks of its operands. -/

namespace Sys2Proof.Machine

/-- Every command is its rule behind the gate its row of the opcode map names (R150). (The gate `.any`, which lets every
state pass, would be evaluated away without the tests of `command` in front of it.) -/
theorem exec_eq_command (i : Instr) : ∃ body : Eng Unit, ∀ s, exec i s = command i (gateOf i) body s := by
  cases i <;> exact ⟨_, fun _ => rfl⟩

/-- A rule that begins with a check faults as the check does, or as the rest does where the check passes. -/
theorem faults_of_check {α : Type} {ok : Bool} {c : ErrCode} {g : Unit → Eng α} {s : State}
    (h : ok = true → g () s = .error .ended (faultEntry c s)) :
    (check ok c >>= g) s = .error .ended (faultEntry c s) := by
  rw [Eng.bind_check]
  cases ok with
  | true => exact h rfl
  | false => rfl

/-- A rule that begins with a check that passes. -/
theorem bind_passed {α : Type} {ok : Bool} {c : ErrCode} {g : Unit → Eng α} {s : State} (h : ok = true) :
    (check ok c >>= g) s = g () s := by
  rw [Eng.bind_check, if_pos h]

/-- A check that fails is the rule's end. -/
theorem faults_of_failed {α : Type} {ok : Bool} {c : ErrCode} {g : Unit → Eng α} {s : State} (h : ¬ ok = true) :
    (check ok c >>= g) s = .error .ended (faultEntry c s) :=
  faults_of_check fun ht => absurd ht h

end Sys2Proof.Machine
end

section
/-! SUPPORT. The operand checks, one lemma a check: it passes exactly where the spec's range holds (R142, R304, R329,
R389). -/

namespace Sys2Proof.Machine

/-- What a passed check says. -/
theorem passed {p q : Prop} [Decidable p] (h : decide p = true) (hpq : p → q) : q := hpq (of_decide_eq_true h)

theorem isByte_iff {v : Word} : isByte v = true ↔ v.toNat < 256 := decide_eq_true_iff

theorem lengthInside_iff {v : Word} : (decide (2 ≤ v.toNat) && decide (v.toNat ≤ 273)) = true ↔
    2 ≤ v.toNat ∧ v.toNat ≤ 273 := by
  simp

theorem tree_inside_iff {base n count : Nat} : base + 2 ^ n - 1 < count ↔ base + 2 ^ n ≤ count := by
  have := Nat.two_pow_pos n
  omega

theorem hash_inside_iff {s : State} :
    (decide (windowIndex s 0#32 < s.win.blockSize.toNat) && decide (windowIndex s 1#32 < s.win.blockSize.toNat) &&
      (!s.mf.hashArray || (decide (windowIndex s 2#32 < s.win.blockSize.toNat) &&
        decide (windowIndex s 3#32 < s.win.blockSize.toNat)))) = true ↔ operandsLegal .mfHash s := by
  cases ha : s.mf.hashArray
  · simp only [operandsLegal, ha, Nat.forall_lt_succ_right, Bool.and_eq_true, decide_eq_true_eq, Bool.not_false,
      Bool.true_or, and_true, Bool.false_eq_true, if_false, Nat.not_lt_zero, false_implies, implies_true, true_and]
  · simp only [operandsLegal, ha, Nat.forall_lt_succ_right, Bool.and_eq_true, decide_eq_true_eq, Bool.not_true,
      Bool.false_or, if_true, Nat.not_lt_zero, false_implies, implies_true, true_and, and_assoc]

/-- The length check of OW_COPY (R542). -/
theorem copyLength_iff {v : Word} : (decide (1 ≤ v.toNat) && decide (v.toNat ≤ 273)) = true ↔
    1 ≤ v.toNat ∧ v.toNat ≤ 273 := by
  simp

theorem decisionLegal_iff {s : State} : decisionLegal s.x.a0 s.x.a1 = true ↔ operandsLegal .encSymbol s := by
  simp only [decisionLegal, operandsLegal, Bool.or_eq_true, Bool.and_eq_true, decide_eq_true_eq]
  rfl

theorem copyDistanceOk_iff {s : State} {r : Word} :
    copyDistanceOk s r = true ↔ r.toNat < s.cnt.nowPos.toNat ∧ r.toNat < s.ow.size.toNat := by
  simp [copyDistanceOk]

/-- A PROB value PRICE_BIT takes with SEL 1 (R304). -/
theorem probValue_iff {v : Word} : (decide (v ≠ 0#32) && decide (v.toNat < 2048)) = true ↔ 1 ≤ v.toNat ∧
    v.toNat ≤ 2047 := by
  simp only [Bool.and_eq_true, decide_eq_true_eq, ne_eq, ← BitVec.toNat_inj, BitVec.toNat_ofNat]
  omega

/-- The ST_* commands with SEL 0 check the state they are given (R390 to R393). -/
theorem stateCommand_faults {sel : Bool} {f : CState → CState} {s : State} (h : ¬(sel = true ∨ s.x.a0.toNat ≤ 11)) :
    stateCommand sel f s = .error .ended (faultEntry .bounds s) := by
  obtain ⟨hsel, ha⟩ := not_or.1 h
  rw [stateCommand, if_neg hsel, Eng.bind_opA0]
  exact faults_of_failed fun ht => ha (passed ht id)

/-- An operand outside the range its command's rule gives faults BOUNDS before anything else the rule does. -/
theorem rule_faults_bounds {s : State} : ∀ {i : Instr}, ¬ operandsLegal i s → ∃ body : Eng Unit,
    (∀ t, exec i t = command i (gateOf i) body t) ∧ body s = .error .ended (faultEntry .bounds s)
  | .regRead, h | .regWrite, h => ⟨_, fun _ => rfl, faults_of_failed fun ht => h (isByte_iff.1 ht)⟩
  | .probRead, h | .rceBit _, h | .rcdBit, h => ⟨_, fun _ => rfl, faults_of_failed fun ht => h (passed ht id)⟩
  | .matchRead, h => ⟨_, fun _ => rfl, Eng.bind_error ((ramRead_run _ _ _).trans (if_neg h)) _⟩
  | .wbGetByte, h => ⟨_, fun _ => rfl, faults_of_failed fun ht => h (passed ht id)⟩
  | .mfHash, h => ⟨_, fun _ => rfl, faults_of_failed fun ht => h (hash_inside_iff.1 ht)⟩
  | .priceBit true _, h => ⟨_, fun _ => rfl, Eng.bind_error (faults_of_failed fun ht => h (probValue_iff.1 ht)) _⟩
  | .priceBit false _, h => ⟨_, fun _ => rfl, Eng.bind_error (f := do probIndexCheck s.x.a0; probRead s.x.a0)
      (faults_of_failed fun ht => h (passed ht id)) _⟩
  | .btEnc _, h | .btRevEnc _, h | .btDec _, h | .btRevDec _, h | .btPrice _, h | .btRevPrice _, h =>
    ⟨_, fun _ => rfl, faults_of_failed fun ht => h (tree_inside_iff.1 (of_decide_eq_true ht))⟩
  | .stChar _, h | .stMatch _, h | .stRep _, h | .stShortRep _, h => ⟨_, fun _ => rfl, stateCommand_faults h⟩
  | .litEnc, h => ⟨_, fun _ => rfl, faults_of_check fun h0 => faults_of_failed fun h2 =>
    h ⟨isByte_iff.1 h0, isByte_iff.1 h2⟩⟩
  | .litEncM, h => ⟨_, fun _ => rfl, faults_of_check fun h0 => faults_of_check fun h2 => faults_of_failed fun h3 =>
      h ⟨isByte_iff.1 h0, isByte_iff.1 h2, isByte_iff.1 h3⟩⟩
  | .litDec, h => ⟨_, fun _ => rfl, faults_of_failed fun h2 => h (isByte_iff.1 h2)⟩
  | .litDecM, h => ⟨_, fun _ => rfl, faults_of_check fun h2 => faults_of_failed fun h3 =>
      h ⟨isByte_iff.1 h2, isByte_iff.1 h3⟩⟩
  | .litPrice false, h => ⟨_, fun _ => rfl, faults_of_check fun hp => faults_of_check fun h0 =>
    faults_of_failed fun h2 =>
      h ⟨passed hp id, isByte_iff.1 h0, isByte_iff.1 h2, Bool.noConfusion⟩⟩
  | .litPrice true, h => ⟨_, fun _ => rfl, faults_of_check fun hp => faults_of_check fun h0 => faults_of_check fun h2 =>
      faults_of_failed fun h3 =>
        h ⟨passed hp id, isByte_iff.1 h0, isByte_iff.1 h2, fun _ => isByte_iff.1 h3⟩⟩
  | .lenEnc _, h | .lenPrice _, h => ⟨_, fun _ => rfl, faults_of_check fun h0 => faults_of_failed fun h1 =>
      h ⟨passed h0 id, passed h1 id⟩⟩
  | .lenDec _, h | .priceLenTable _, h => ⟨_, fun _ => rfl, faults_of_failed fun ht => h (passed ht id)⟩
  | .distEnc, h | .distDec, h => ⟨_, fun _ => rfl, faults_of_failed fun ht => h (lengthInside_iff.1 ht)⟩
  | .repUse, h => ⟨_, fun _ => rfl, faults_of_failed fun ht => h (passed ht id)⟩
  | .pricePosLen, h => ⟨_, fun _ => rfl, faults_of_check fun h1 => faults_of_failed fun h2 =>
      h (and_assoc.1 ⟨lengthInside_iff.1 h1, passed h2 id⟩)⟩
  | .priceRep, h => ⟨_, fun _ => rfl, faults_of_check fun h0 => faults_of_check fun h1 => faults_of_check fun h2 =>
      faults_of_failed fun h3 => h ⟨passed h0 id, and_assoc.1 ⟨lengthInside_iff.1 h1,
        passed h2 id, passed h3 id⟩⟩⟩
  | .priceShortRep, h => ⟨_, fun _ => rfl, faults_of_check fun h0 => faults_of_failed fun h1 =>
      h ⟨passed h0 id, passed h1 id⟩⟩
  | .encSymbol, h => ⟨_, fun _ => rfl, faults_of_failed fun ht => h (decisionLegal_iff.1 ht)⟩
  | .owGetByte, h => ⟨_, fun _ => rfl, faults_of_failed fun ht => h (passed ht id)⟩
  | .owPutByte, h => ⟨_, fun _ => rfl, faults_of_failed fun ht => h (isByte_iff.1 ht)⟩
  | .owCopy, h => ⟨_, fun _ => rfl, faults_of_check fun h0 => faults_of_failed fun h1 =>
      h (and_assoc.1 ⟨copyDistanceOk_iff.1 h0, copyLength_iff.1 h1⟩)⟩
  | .nop, h | .reset, h | .wbMatchLen, h | .wbAvail, h | .mfGetMatches, h | .mfSkip, h | .mfMovePos, h
  | .rceDirect _, h | .rcdDirect _, h | .posSlot, h | .repPush, h | .optGetOptimum, h | .priceFillDist, h
  | .priceFillAlign, h | .encStart, h | .hdrWrite, h | .encStep, h | .encRun, h | .encFinish, h | .hdrRead, h
  | .decStart, h | .decStep, h | .decRun, h => absurd trivial h

/-- A command its gate does not let run, without an error. -/
theorem command_not_run {i : Instr} {g : Gate} {s : State} (he : s.status.err = .none) (hw : i.wellFormed = true)
    (hg : ¬ g.accepts s) (body : Eng Unit) :
    command i g body s = if g.answer s = .skip then .next (clearResults s)
      else .next (faultEntry .seqError (clearResults s)) := by
  rcases command_cases i g body s with ⟨herr, _, _⟩ | ⟨_, hill, _⟩ | ⟨_, _, ⟨hr, _⟩ | ⟨hr, e⟩ | ⟨hr, e⟩⟩
  · exact absurd he herr
  · exact absurd (hw.symm.trans hill) Bool.noConfusion
  · exact absurd ((gate_run_iff g s).1 ((gate_clearResults g s).symm.trans hr)) hg
  · rw [e, if_pos ((gate_clearResults g s).symm.trans hr)]
  · rw [e, if_neg (by rw [← gate_clearResults, hr]; exact GateAnswer.noConfusion)]

/-- Settles O8: the gate decides first (`command_not_run`); behind it the operand checks are the first lines of every
rule (`rule_faults_bounds`). -/
theorem checksInOrder : Obligations.ChecksInOrder := by
  unfold Obligations.ChecksInOrder
  intro i s he hw
  refine ⟨fun hacc hno => ?_, fun hacc hno => ?_, fun hacc hop => ?_⟩
  · obtain ⟨body, e⟩ := exec_eq_command i
    rw [e, command_not_run he hw hacc, if_pos ((gate_skip_iff _ _).2 ⟨hacc, hno⟩)]
    rfl
  · obtain ⟨body, e⟩ := exec_eq_command i
    rw [e, command_not_run he hw hacc, if_neg fun hs => hno ((gate_skip_iff _ _).1 hs).2, faultEntry_clearResults he]
  · obtain ⟨body, e, hf⟩ := rule_faults_bounds (s := clearResults s) (i := i) hop
    rw [e, command_runs he hw ((gate_clearResults _ _).trans ((gate_run_iff _ _).2 hacc)), hf, finish_ended,
      faultEntry_clearResults he]

end Sys2Proof.Machine
end

section
/-! SUPPORT. The header (O50, O55): the five bytes written before the payload, and read back as options. -/

namespace Sys2Proof.Machine

/-- The bytes of DICT_SIZE, least significant first (R484). -/
theorem dictSize_bytes (v : Word) :
    v.extractLsb' 0 8 = BitVec.ofNat 8 (v.toNat % 256) ∧ v.extractLsb' 8 8 = BitVec.ofNat 8 (v.toNat / 2 ^ 8 % 256) ∧
      v.extractLsb' 16 8 = BitVec.ofNat 8 (v.toNat / 2 ^ 16 % 256) ∧
        v.extractLsb' 24 8 = BitVec.ofNat 8 (v.toNat / 2 ^ 24) := by
  refine ⟨?_, ?_, ?_, ?_⟩ <;> apply BitVec.eq_of_toNat_eq <;> simp [Nat.shiftRight_eq_div_pow]

/-- A sink that takes every byte takes the next one (R111). -/
theorem bind_sinkWrite {α : Type} {s : State} (h : s.host.sinkRoom = none) (b : Byte) (g : Unit → Eng α) :
    (sinkWrite b >>= g) s = g () (emit [b] s) :=
  Eng.bind_ok (sinkWrite_free h b) g

/-- A command that is ready runs its rule. -/
theorem Runnable.runs {i : Instr} {s : State} (h : Runnable i s) (body : Eng Unit) :
    command i (gateOf i) body s = finish (body (clearResults s)) := by
  obtain ⟨he, hw, hg, _⟩ := h
  exact command_runs he hw ((gate_clearResults _ _).trans ((gate_run_iff _ _).2 hg)) body

/-- Settles O50: the one check, then the five bytes. -/
theorem headerWrite : Obligations.HeaderWrite := by
  unfold Obligations.HeaderWrite
  intro s ⟨_, hr, hroom⟩
  refine ⟨fun hzero => ?_, fun hne => ?_⟩
  · obtain ⟨h0, h1, h2, h3⟩ := dictSize_bytes s.opts.dictSize
    have hout : decide ((clearResults s).cnt.outCount = 0#64) = true := decide_eq_true hzero
    refine (hr.runs _).trans ?_
    rw [Eng.bind_look, Eng.bind_check, hout, if_pos rfl, Eng.bind_look, bind_sinkWrite (by exact hroom),
      bind_sinkWrite (by exact hroom), bind_sinkWrite (by exact hroom), bind_sinkWrite (by exact hroom),
      sinkWrite_free (by exact hroom), finish_ok, emit_append, emit_append, emit_append,
      emit_append, ← h0, ← h1, ← h2, ← h3]
    rfl
  · refine ((hr.runs _).trans (congrArg finish (faults_of_failed fun ht => hne (passed ht id)))).trans ?_
    rw [finish_ended, faultEntry_clearResults hr.1]

/-! ### HDR_READ -/

/-- The source read to its end, and the end seen (R110). -/
def drained (s : State) : State :=
  { s with
    host := { s.host with src := [] }
    cnt := { s.cnt with inCount := s.cnt.inCount + BitVec.ofNat 64 s.host.src.length }
    status := { s.status with srcEof := true } }

/-- A computation that needs `n` source bytes faults TRUNCATED where the source ends within them (R520). -/
def Truncates {α : Type} (n : Nat) (f : Eng α) : Prop :=
  ∀ s : State, s.status.srcEof = false → s.host.srcEnd = true → s.host.src.length < n →
    f s = .error .ended (faultEntry .truncated (drained s))

theorem truncates_zero {α : Type} (f : Eng α) : Truncates 0 f := fun _ _ _ h => absurd h (Nat.not_lt_zero _)

theorem bind_srcReadOrTruncated {α : Type} {s : State} (he : s.status.srcEof = false) {b : Byte} {rest : List Byte}
    (hs : s.host.src = b :: rest) (g : Byte → Eng α) : (srcReadOrTruncated >>= g) s = g b (bytePopped rest s) :=
  Eng.bind_ok (srcReadOrTruncated_byte he hs) g

theorem srcReadOrTruncated_end {s : State} (he : s.status.srcEof = true ∨ s.host.src = [] ∧ s.host.srcEnd = true) :
    srcReadOrTruncated s =
      .error .ended (faultEntry .truncated { s with status := { s.status with srcEof := true } }) := by
  unfold srcReadOrTruncated
  rcases srcRead_cases s with ⟨ht, e⟩ | ⟨b, rest, hf, hs, _⟩ | ⟨_, _, _, e⟩ | ⟨hf, _, hend, _⟩
  · rw [Eng.bind_ok e, ← ht]
    rfl
  · simp [hf, hs] at he
  · exact Eng.bind_ok e _
  · simp [hf, hend] at he

/-- A byte that must exist, and then `n` more. -/
theorem Truncates.read_bind {α : Type} {n : Nat} {g : Byte → Eng α} (hg : ∀ b, Truncates n (g b)) :
    Truncates (n + 1) (srcReadOrTruncated >>= g) := fun s he hend hlen => by
  cases hs : s.host.src with
  | nil =>
    rw [Eng.bind_error (srcReadOrTruncated_end (.inr ⟨hs, hend⟩)), drained, hs]
    simp only [List.length_nil, BitVec.add_zero]
    rw [← hs]
  | cons b rest =>
    rw [hs, List.length_cons] at hlen
    rw [bind_srcReadOrTruncated he hs, hg b (bytePopped rest s) he hend (Nat.lt_of_succ_lt_succ hlen),
      drained, drained, hs,
      List.length_cons, Nat.add_comm, BitVec.ofNat_add, ← BitVec.add_assoc]
    rfl

/-- The rule of HDR_READ after it has cleared the counters (R520). -/
theorem hdrRead_truncates (s : State) (hend : s.host.srcEnd = true) (hlen : s.host.src.length < 5) :
    hdrRead s = .error .ended (faultEntry .truncated (drained (headerCleared s))) :=
  Truncates.read_bind (fun _ => .read_bind fun _ => .read_bind fun _ => .read_bind fun _ => .read_bind fun _ =>
    truncates_zero _) (headerCleared s) rfl hend hlen

theorem toNat_byteWord (b : Byte) : (byteWord b).toNat = b.toNat := by
  rw [byteWord, BitVec.toNat_setWidth, Nat.mod_eq_of_lt (b.isLt.trans (by decide))]

/-- Bits put above a number that ends below them. -/
theorem or_shiftLeft (a : Nat) {n b : Nat} (h : b < 2 ^ n) : b ||| a <<< n = b + 2 ^ n * a := by
  rw [Nat.or_comm, ← Nat.shiftLeft_add_eq_or_of_lt h, Nat.shiftLeft_eq, Nat.mul_comm, Nat.add_comm]

/-- The bytes of DICT_SIZE put together again (R520). -/
theorem dictSize_of_bytes (h1 h2 h3 h4 : Byte) :
    byteWord h1 ||| (byteWord h2 <<< 8) ||| (byteWord h3 <<< 16) ||| (byteWord h4 <<< 24) =
      BitVec.ofNat 32 (h1.toNat + 2 ^ 8 * h2.toNat + 2 ^ 16 * h3.toNat + 2 ^ 24 * h4.toNat) := by
  have b1 := h1.isLt
  have b2 := h2.isLt
  have b3 := h3.isLt
  have b4 := h4.isLt
  have shifted (h : Byte) {n : Nat} (hn : n ≤ 24) : (byteWord h <<< n).toNat = h.toNat <<< n := by
    have hlt : h.toNat * 2 ^ n < 2 ^ 32 :=
      (Nat.mul_lt_mul_of_pos_right h.isLt (Nat.two_pow_pos n)).trans_le
        ((Nat.mul_le_mul_left _ (Nat.pow_le_pow_right Nat.two_pos hn)).trans (by decide))
    rw [BitVec.toNat_shiftLeft, toNat_byteWord, Nat.shiftLeft_eq, Nat.mod_eq_of_lt hlt]
  apply BitVec.eq_of_toNat_eq
  rw [BitVec.toNat_or, BitVec.toNat_or, BitVec.toNat_or, shifted h2 (by omega), shifted h3 (by omega),
    shifted h4 (by omega), toNat_byteWord, or_shiftLeft h2.toNat b1, or_shiftLeft h3.toNat (n := 16) (by omega),
    or_shiftLeft h4.toNat (n := 24) (by omega), BitVec.toNat_ofNat, Nat.mod_eq_of_lt (by omega)]

/-- The state after five header bytes. -/
def headerTaken (rest : List Byte) (s : State) : State :=
  bytePopped rest (bytePopped rest (bytePopped rest (bytePopped rest (bytePopped rest s))))

theorem hdrRead_run {s : State} {h0 h1 h2 h3 h4 : Byte} {rest : List Byte}
    (hs : s.host.src = h0 :: h1 :: h2 :: h3 :: h4 :: rest) :
    hdrRead s = (check (decide (h0.toNat < 225)) .headerInvalid >>= fun _ =>
      put fun s => headerAccepted (headerOptions s.opts h0 h1 h2 h3 h4) s) (headerTaken rest (headerCleared s)) := by
  refine (bind_srcReadOrTruncated (s := headerCleared s) rfl hs _).trans ?_
  rw [bind_srcReadOrTruncated (by rfl) (by rfl), bind_srcReadOrTruncated (by rfl) (by rfl),
    bind_srcReadOrTruncated (by rfl) (by rfl), bind_srcReadOrTruncated (by rfl) (by rfl)]
  rfl

/-- Settles O55: the five reads (`hdrRead_run`, `hdrRead_truncates`), then the test of the first byte. -/
theorem headerRead : Obligations.HeaderRead := by
  unfold Obligations.HeaderRead
  intro s he hg
  have run : exec .hdrRead s = finish (hdrRead (clearResults s)) :=
    command_runs he rfl ((gate_clearResults _ _).trans ((gate_run_iff _ _).2 hg)) _
  refine ⟨fun h0 h1 h2 h3 h4 rest hs => ⟨fun hok => ?_, fun hbad => ?_⟩, fun hlen hend => ?_⟩
  · rw [run, hdrRead_run (s := clearResults s) hs, Eng.bind_check, if_pos (decide_eq_true hok), put_run, finish_ok,
      headerOptions, dictSize_of_bytes]
    rfl
  · rw [run, hdrRead_run (s := clearResults s) hs, faults_of_failed fun ht => absurd (passed ht id) (Nat.not_lt.2 hbad),
      finish_ended, faultEntry_first (by exact he)]
    rfl
  · rw [run, hdrRead_truncates (clearResults s) hend hlen, finish_ended, faultEntry_first (by exact he),
      ← BitVec.zero_add (BitVec.ofNat 64 s.host.src.length)]
    rfl

end Sys2Proof.Machine
end

section
/-! SUPPORT. The range decoder on a source that has no byte (O34). -/

namespace Sys2Proof.Machine

/-- `RcdDecodeBit` takes the bit its registers decide, and then renormalizes (R290). -/
theorem rcdDecodeBit_run {s : State} {i : Word} (hi : i.toNat < s.prob.size) {b : Bool} (hb : agrees s (.model i b)) :
    rcdDecodeBit i s = (rcdNormalizeIfLow >>= fun _ => pure b) (bitTaken s (.model i b)) := by
  have hb : b = decide ((decodeBound s i).toNat ≤ s.rcd.code.toNat) := hb
  subst hb
  unfold rcdDecodeBit probRead probWrite
  rw [Eng.bind_ok (ramRead_ok hi), Eng.bind_look, Eng.bind_put, bitBound_eq, rcdNarrow_eq]
  refine (Eng.bind_ok (ramWrite_ok (by exact hi)) _).trans ?_
  rw [adapted_eq]
  rfl

theorem rcdNormalizeIfLow_of_high {s : State} (h : 2 ^ 24 ≤ s.rcd.range.toNat) : rcdNormalizeIfLow s = .ok () s := by
  unfold rcdNormalizeIfLow
  rw [Eng.bind_look, if_neg (Nat.not_lt.2 h)]
  rfl

theorem rcdNormalizeIfLow_of_low {s : State} (h : s.rcd.range.toNat < 2 ^ 24) :
    rcdNormalizeIfLow s = rcdNormalize s := by
  unfold rcdNormalizeIfLow
  rw [Eng.bind_look, if_pos h]

theorem srcReadOrTruncated_waits {s : State} (he : s.status.srcEof = false) (hs : s.host.src = [])
    (hend : s.host.srcEnd = false) : srcReadOrTruncated s = .error (.stuck .sourceWait) s := by
  rcases srcRead_cases s with ⟨ht, _⟩ | ⟨_, _, _, hne, _⟩ | ⟨_, _, ht, _⟩ | ⟨_, _, _, e⟩
  · exact absurd (ht.symm.trans he) Bool.noConfusion
  · exact absurd (hne.symm.trans hs) (List.cons_ne_nil _ _)
  · exact absurd (ht.symm.trans hend) Bool.noConfusion
  · exact Eng.bind_error e _

/-- What a sequence does depends on what its first part does. -/
theorem Eng.bind_congr {α β : Type} {f f' : Eng α} {s s' : State} (h : f s = f' s') (g : α → Eng β) :
    (f >>= g) s = (f' >>= g) s' := by
  rw [Eng.bind_run, Eng.bind_run, h]

/-- RCD_BIT with the bit `b` decided: the bit taken, the renormalization, then R0 (R302). -/
theorem exec_rcdBit {s : State} {b : Bool} (hs : Inv s) (hr : Runnable .rcdBit s)
    (hb : agrees (results 0#32 0#32 s) (.model s.x.a0 b)) :
    exec .rcdBit s = finish ((rcdNormalizeIfLow >>= fun _ => setR0 (bitWord b))
      (bitTaken (results 0#32 0#32 s) (.model s.x.a0 b))) := by
  have hi : s.x.a0.toNat < s.derived.probCount.toNat := hr.2.2.2
  have bit := rcdDecodeBit_run (s := results 0#32 0#32 s) (hs.probSize ▸ hi) hb
  refine (hr.runs _).trans (congrArg finish ?_)
  refine (bind_passed (decide_eq_true hi)).trans ?_
  refine (Eng.bind_congr bit _).trans ?_
  exact congrFun (bind_assoc _ _ _) _

/-- Settles O34: the bit is taken (`exec_rcdBit`); the renormalization then needs a byte or not. -/
theorem rangeDecoderWithoutBytes : Obligations.RangeDecoderWithoutBytes := by
  unfold Obligations.RangeDecoderWithoutBytes
  intro s b hs hr hsrc hb t
  have run := exec_rcdBit hs hr hb
  refine ⟨fun hhigh => ?_, fun hlow hend => ?_, fun hlow hend heof => ?_⟩
  · rw [run, Eng.bind_ok (rcdNormalizeIfLow_of_high hhigh), setR0_run, finish_ok]
    rfl
  · have e : rcdNormalizeIfLow t =
        .error .ended (faultEntry .truncated { t with status := { t.status with srcEof := true } }) :=
      (rcdNormalizeIfLow_of_low hlow).trans
        (Eng.bind_error (srcReadOrTruncated_end (s := t) (hend.symm.imp id fun h => ⟨hsrc, h⟩)) _)
    rw [run, Eng.bind_error e, finish_ended, faultEntry_first (by exact hr.1)]
    rfl
  · have e : rcdNormalizeIfLow t = .error (.stuck .sourceWait) t :=
      (rcdNormalizeIfLow_of_low hlow).trans (Eng.bind_error (srcReadOrTruncated_waits (s := t) heof hsrc hend) _)
    rw [run, Eng.bind_error e, finish_stuck]

end Sys2Proof.Machine
end

section
/-! SUPPORT. Classes of computations. `Looks φ C` and `Acts π φ C` say that a class `C` of computations is closed under
the ways the model's `do` blocks are put together, of reads that do not see the changes `φ` of the state, and of updates
that keep `π` of the state and do not see `φ` either. The rules of a unit then lie in every such class, shown once in
the model's order: that a unit keeps a part of the state, and that it does not depend on another, are two classes. -/

namespace Sys2Proof.Machine

/-- A class closed under sequencing, faults with a code, and reads that do not see `φ`. -/
structure Looks {ι : Type} (φ : ι → State → State) (C : ∀ {α : Type}, Eng α → Prop) : Prop where
  pure : ∀ {α : Type} (a : α), C (pure a : Eng α)
  bind : ∀ {α β : Type} {f : Eng α} {g : α → Eng β}, C f → (∀ a, C (g a)) → C (f >>= g)
  look : ∀ {α : Type} {f : State → α}, (∀ i s, f (φ i s) = f s) → C (look f)
  raise : ∀ {α : Type} (c : ErrCode) (_ : c ≠ .none := by decide), C (raise c : Eng α)

/-- And under updates that keep `π` and do not see `φ`. -/
structure Acts {ι γ : Type} (π : State → γ) (φ : ι → State → State) (C : ∀ {α : Type}, Eng α → Prop) : Prop
    extends Looks φ C where
  update : ∀ {u : State → State}, (∀ s, π (u s) = π s) → (∀ i s, u (φ i s) = φ i (u s)) → C (put u)

/-- A RAM read is a look at the RAM, and a fault past its size (R104). -/
theorem ramRead_eq {α : Type} {fill : α} (ram : State → Ram α fill) (i : Word) :
    ramRead ram i = look ram >>= fun r => if i.toNat < r.size then pure (r.get i.toNat) else raise .bounds := by
  funext s
  rw [ramRead_run, Eng.bind_look]
  split <;> rfl

/-- A RAM write is a look at the RAM, and the store or a fault past its size (R104). -/
theorem ramWrite_eq {α : Type} {fill : α} [DecidableEq α] (ram : State → Ram α fill)
    (store : State → Ram α fill → State) (i : Word) (v : α) :
    ramWrite ram store i v = look (fun s => (ram s).size) >>= fun n =>
      if i.toNat < n then put fun s => store s ((ram s).set i.toNat v) else raise .bounds := by
  funext s
  rw [ramWrite_run, Eng.bind_look]
  split <;> rfl

theorem check_eq (ok : Bool) (c : ErrCode) : check ok c = if ok then pure () else raise c := by
  cases ok <;> rfl

namespace Looks
variable {ι α β : Type} {φ : ι → State → State} {C : ∀ {α : Type}, Eng α → Prop} (h : Looks φ C)
include h

theorem look_bind {f : State → α} {g : α → Eng β} (hg : ∀ a, C (g a))
    (hf : ∀ i s, f (φ i s) = f s := by intro _ _; rfl) : C (Machine.look f >>= g) := h.bind (h.look hf) hg

omit h in
theorem ite (_ : Looks φ C) {c : Prop} [Decidable c] {f g : Eng α} (hf : C f) (hg : C g) : C (if c then f else g) := by
  split
  · exact hf
  · exact hg

/-- `let x ← if c then f else g`, then `k x`. -/
theorem ite_bind {c : Prop} [Decidable c] {f g : Eng α} {k : α → Eng β} (hf : C f) (hg : C g) (hk : ∀ a, C (k a)) :
    C (if c then f >>= k else g >>= k) := h.ite (h.bind hf hk) (h.bind hg hk)

/-- `if c then f`, then `k`. -/
theorem when {c : Prop} [Decidable c] {f : Eng Unit} {k : Unit → Eng β} (hf : C f) (hk : ∀ u, C (k u)) :
    C (if c then f >>= k else k ()) := h.ite (h.bind hf hk) (hk ())

/-- `if c then do let x ← f; g x`, then `k`. -/
theorem when_bind {c : Prop} [Decidable c] {f : Eng α} {g : α → Eng Unit} {k : Unit → Eng β} (hf : C f)
    (hg : ∀ a, C (g a)) (hk : ∀ u, C (k u)) : C (if c then (f >>= fun a => g a >>= k) else k ()) :=
  h.ite (h.bind hf fun a => h.bind (hg a) hk) (hk ())

theorem check (ok : Bool) (c : ErrCode) (hc : c ≠ .none := by decide) : C (check ok c) := by
  rw [check_eq]
  exact h.ite (h.pure ()) (h.raise c hc)

/-- A check of the state. -/
theorem check_of {f : State → Bool} (c : ErrCode) (hf : ∀ i s, f (φ i s) = f s := by intro _ _; rfl)
    (hc : c ≠ .none := by decide) : C (fun s => Machine.check (f s) c s : Eng Unit) :=
  h.look_bind (g := fun ok => Machine.check ok c) (fun ok => h.check ok c hc) hf

theorem ramRead {fill : α} {ram : State → Ram α fill} (i : Word)
    (hr : ∀ i s, ram (φ i s) = ram s := by intro _ _; rfl) : C (ramRead ram i) := by
  rw [ramRead_eq]
  exact h.look_bind (fun r => h.ite (h.pure _) (h.raise _)) hr

theorem forUp {body : Word → Eng Unit} (hb : ∀ i, C (body i)) : ∀ (n : Nat) (i : Word), C (forUp body n i)
  | 0, _ => h.pure ()
  | n + 1, i => h.bind (hb i) fun _ => forUp hb n _

end Looks

section
variable {ι γ : Type} {π : State → γ} {φ : ι → State → State} {C : ∀ {α : Type}, Eng α → Prop} (h : Acts π φ C)
include h

theorem Acts.put {u : State → State} (hπ : ∀ s, π (u s) = π s := by intro _; rfl)
    (hφ : ∀ i s, u (φ i s) = φ i (u s) := by intro _ _; rfl) : C (put u) := h.update hπ hφ

/-- A RAM write, where putting the RAM back is such an update. -/
theorem Acts.ramWrite {α : Type} {fill : α} [DecidableEq α] {ram : State → Ram α fill}
    {store : State → Ram α fill → State} {i : Word} {v : α} (hr : ∀ i s, ram (φ i s) = ram s := by intro _ _; rfl)
    (hπ : ∀ s, π (store s ((ram s).set i.toNat v)) = π s := by intro _; rfl)
    (hφ : ∀ j s, store (φ j s) ((ram (φ j s)).set i.toNat v) = φ j (store s ((ram s).set i.toNat v)) := by
      intro _ _; rfl) :
    C (ramWrite ram store i v) := by
  rw [ramWrite_eq]
  exact h.look_bind (fun _ => h.ite (h.update hπ hφ) (h.raise _)) fun j s => congrArg Ram.size (hr j s)

end

/-- A class for updates that keep less is one for updates that keep more. -/
theorem Acts.mono {ι γ : Type} {π : State → γ} {ρ : State → State} {φ : ι → State → State}
    {C : ∀ {α : Type}, Eng α → Prop} (h : Acts π φ C) (hρ : ∀ s, π (ρ s) = π s) : Acts ρ φ C :=
  { h.toLooks with update := fun hu hφ => h.update (fun s => (hρ _).symm.trans ((congrArg π (hu s)).trans (hρ s))) hφ }

/-- What a computation keeps (`Keeps`) is such a class, whatever `φ`. -/
theorem Keeps.acts {ι γ : Type} {π : State → γ} {φ : ι → State → State} (hfault : ∀ c s, π (faultEntry c s) = π s) :
    Acts π φ (Keeps π) where
  pure := .pure
  bind := .bind
  look := fun {_} {f} _ => .look f
  raise := fun c _ => .raise hfault c
  update := fun hu _ => .put hu

/-- And the source. -/
structure Refills {ι γ : Type} (π : State → γ) (φ : ι → State → State) (C : ∀ {α : Type}, Eng α → Prop) : Prop
    extends Acts π φ C where
  srcRead : C srcRead

/-- And the sink. -/
structure Streams {ι γ : Type} (π : State → γ) (φ : ι → State → State) (C : ∀ {α : Type}, Eng α → Prop) : Prop
    extends Refills π φ C where
  sinkWrite : ∀ b, C (sinkWrite b)

theorem Refills.mono {ι γ : Type} {π : State → γ} {ρ : State → State} {φ : ι → State → State}
    {C : ∀ {α : Type}, Eng α → Prop} (h : Refills π φ C) (hρ : ∀ s, π (ρ s) = π s) : Refills ρ φ C :=
  { h.toActs.mono hρ with srcRead := h.srcRead }

/-! ### What the units do not see -/

/-- Another room of the sink. -/
def withRoom (room : Option Nat) (s : State) : State := { s with host := { s.host with sinkRoom := room } }

/-- Another room of the sink, and the encoder's registers and RAMs of another state. -/
def withEncoder (p : Option Nat × State) (s : State) : State :=
  { withRoom p.1 s with
    win := p.2.win, wbuf := p.2.wbuf, mf := p.2.mf, son := p.2.son, hash := p.2.hash, matchBuf := p.2.matchBuf
    rce := p.2.rce, enc := p.2.enc, opt := p.2.opt, price := p.2.price }

/-- A read that does not see the sink's room and the encoder does not see the room. -/
theorem Looks.shared {C : ∀ {α : Type}, Eng α → Prop} (h : Looks withRoom C) : Looks withEncoder C :=
  { h with look := fun hf => h.look fun r s => hf (r, s) s }

/-! ### What the units keep -/

/-- The sink. -/
def sinkSide (s : State) : List Byte × Option Nat := (s.host.sink, s.host.sinkRoom)

/-- A RAM of the same size without contents. -/
def emptied {α : Type} {fill : α} (r : Ram α fill) : Ram α fill := { r with cells := [] }

/-- All but the window (R203 to R206), its size kept. -/
def windowRest (s : State) : State :=
  { s with
    win := { s.win with bufOffset := 0, pos := 0, streamPos := 0, posLimit := 0, streamEnd := false }
    wbuf := emptied s.wbuf }

/-- All but the window and the trees of the match finder (R249, R250). -/
def finderRest (s : State) : State :=
  { windowRest s with son := emptied s.son, hash := emptied s.hash, mf := { s.mf with cycPos := 0 } }

/-- All but the window and the match finder (R245). -/
def searchRest (s : State) : State :=
  { finderRest s with matchBuf := emptied s.matchBuf, mf := { s.mf with cycPos := 0, numPairs := 0 } }

/-- All but the window, the match finder and the parser (R420). -/
def parserRest (s : State) : State := { searchRest s with opt := emptied s.opt, enc := EncRegs.reset }

/-- All but what a decoder stream changes (R290, R385, R510, R525). -/
def decoderRest (s : State) : State :=
  { s with
    status := { s.status with phase := .idle, endSeen := false }
    cnt := { s.cnt with nowPos := 0 }
    x := { s.x with r0 := 0, r1 := 0 }
    cstate := 0, rep := Reps.zero, prob := Ram.none, rcd := RcdRegs.reset
    ow := { s.ow with pos := 0 }, owbuf := Ram.none }

namespace Refills
variable {C : ∀ {α : Type}, Eng α → Prop}

theorem window (h : Refills finderRest withRoom C) : Refills windowRest withRoom C :=
  h.mono fun _ => rfl

theorem finder (h : Refills searchRest withRoom C) : Refills finderRest withRoom C :=
  h.mono fun _ => rfl

theorem search (h : Refills parserRest withRoom C) : Refills searchRest withRoom C :=
  h.mono fun _ => rfl

theorem parser (h : Refills sinkSide withRoom C) : Refills parserRest withRoom C :=
  h.mono fun _ => rfl

end Refills

/-- Where the encoder is kept, giving a state its own encoder again changes nothing but the room. -/
theorem withEncoder_of_decoderRest {s t : State} (h : decoderRest t = decoderRest s) (room : Option Nat) :
    withEncoder (room, s) t = withRoom room t :=
  have e : withEncoder (room, decoderRest s) t = withEncoder (room, decoderRest t) t := by rw [h]
  e

/-- The class of the whole engine is one for the decoder: an update that keeps the encoder and does not see it does not
see the sink's room. -/
theorem Streams.decoder {C : ∀ {α : Type}, Eng α → Prop} (h : Streams sinkSide withRoom C) :
    Streams decoderRest withEncoder C :=
  { h.shared with
    update := fun hu hφ => h.update
      (fun s => (congrArg sinkSide (hu s) : sinkSide (decoderRest _) = sinkSide (decoderRest _))) fun r s =>
      (hφ (r, s) s).trans (withEncoder_of_decoderRest (hu s) r)
    srcRead := h.srcRead
    sinkWrite := h.sinkWrite }

end Sys2Proof.Machine
end

section
/-! SUPPORT. The rules of the model lie in every class closed under their parts: one lemma a function of the model, in
its order, unit by unit. -/

namespace Sys2Proof.Machine

set_option Elab.async false

/-! ### The reads both coders share -/

namespace Looks
variable {C : ∀ {α : Type}, Eng α → Prop} (h : Looks withEncoder C)
include h

theorem probPriceRead (j : Nat) : C (probPriceRead j) :=
  have e : Machine.probPriceRead j = if j < 512 then Pure.pure (probPrice j) else Machine.raise .bounds := by
    funext s
    unfold Machine.probPriceRead
    split <;> rfl
  e ▸ h.ite (h.pure _) (h.raise _)

theorem owGetByte (r : Word) : C (owGetByte r) :=
  have e : Machine.owGetByte r = Machine.look (fun s => ((owIndex s.ow r).toNat, s.owbuf)) >>= fun p =>
      if p.1 < p.2.size then Pure.pure (p.2.get p.1) else Machine.raise .bounds := by
    funext s
    rw [Eng.bind_look]
    unfold Machine.owGetByte
    dsimp only
    split <;> rfl
  e ▸ h.look_bind fun _ => h.ite (h.pure _) (h.raise _)

theorem probRead (i : Word) : C (probRead i) := h.ramRead _

theorem bitPrice (p : Prob) (b : Bool) : C (bitPrice p b) := h.ite (h.probPriceRead _) (h.probPriceRead _)

theorem nodePrice (i : Word) (b : Bool) : C (nodePrice i b) := h.bind (h.probRead _) fun _ => h.bitPrice _ _

theorem btPriceFrom (base sym : Word) : ∀ (k : Nat) (m price : Word), C (btPriceFrom base sym k m price)
  | 0, _, price => h.pure price
  | k + 1, _, _ => h.bind (h.nodePrice _ _) fun _ => btPriceFrom base sym k _ _

theorem btPrice (base : Word) (n : Nat) (sym : Word) : C (btPrice base n sym) := h.btPriceFrom base sym n _ _

theorem btReversePriceFrom (base sym : Word) :
    ∀ (left k : Nat) (m price : Word), C (btReversePriceFrom base sym left k m price)
  | 0, _, _, price => h.pure price
  | left + 1, _, _, _ => h.bind (h.nodePrice _ _) fun _ => btReversePriceFrom base sym left _ _ _

theorem btReversePrice (base : Word) (n : Nat) (sym : Word) : C (btReversePrice base n sym) :=
  h.btReversePriceFrom base sym n _ _ _

theorem litPriceFrom (lb : Word) (mb sym : Byte) :
    ∀ (n : Nat) (c : Word) (same : Bool) (price : Word), C (litPriceFrom lb mb sym n c same price)
  | 0, _, _, price => h.pure price
  | n + 1, _, _, _ => h.bind (h.nodePrice _ _) fun _ => litPriceFrom lb mb sym n _ _ _

theorem litPrice (lb : Word) (matched : Bool) (mb sym : Byte) : C (litPrice lb matched mb sym) :=
  h.litPriceFrom lb mb sym 8 _ _ _

theorem lenPrice (l sym ps : Word) : C (lenPrice l sym ps) :=
  h.ite (h.bind (h.nodePrice _ _) fun _ => h.bind (h.btPrice _ _ _) fun _ => h.pure _)
    (h.ite (h.bind (h.nodePrice _ _) fun _ => h.bind (h.nodePrice _ _) fun _ => h.bind (h.btPrice _ _ _) fun _ =>
      h.pure _)
      (h.bind (h.nodePrice _ _) fun _ => h.bind (h.nodePrice _ _) fun _ => h.bind (h.btPrice _ _ _) fun _ =>
        h.pure _))

theorem specPosPrices : ∀ (n : Nat) (i : Word), C (specPosPrices n i)
  | 0, _ => h.pure _
  | n + 1, _ => h.bind (h.btReversePrice _ _ _) fun _ => h.bind (specPosPrices n _) fun _ => h.pure _

theorem shortRepPrice (st : CState) (ps : Word) : C (shortRepPrice st ps) :=
  h.bind (h.nodePrice _ _) fun _ => h.look_bind fun _ => h.bind (h.nodePrice _ _) fun _ => h.pure _

theorem pureRepPrice (i : Word) (st : CState) (ps : Word) : C (pureRepPrice i st ps) :=
  h.ite (h.bind (h.nodePrice _ _) fun _ => h.look_bind fun _ => h.bind (h.nodePrice _ _) fun _ => h.pure _)
    (h.ite (h.bind (h.nodePrice _ _) fun _ => h.bind (h.nodePrice _ _) fun _ => h.pure _)
      (h.bind (h.nodePrice _ _) fun _ => h.bind (h.nodePrice _ _) fun _ => h.bind (h.nodePrice _ _) fun _ =>
        h.pure _))

theorem literalPrice (st : CState) (ps position : Word) (prev matchByte curByte : Byte) :
    C (literalPrice st ps position prev matchByte curByte) :=
  h.look_bind fun _ => h.bind (h.nodePrice _ _) fun _ => h.look_bind fun _ => h.bind (h.litPrice _ _ _ _) fun _ =>
    h.pure _

theorem isMatchPrice (st : CState) (ps : Word) (b : Bool) : C (isMatchPrice st ps b) :=
  h.look_bind fun _ => h.nodePrice _ _

theorem repStartPrice (st : CState) (ps : Word) : C (repStartPrice st ps) :=
  h.bind (h.isMatchPrice _ _ _) fun _ => h.bind (h.nodePrice _ _) fun _ => h.pure _

end Looks

/-! ### The reads of the encoder side -/

namespace Looks
variable {C : ∀ {α : Type}, Eng α → Prop} (h : Looks withRoom C)
include h

theorem winIndexCheck (i : Word) : C (winIndexCheck i) := h.check_of _

theorem mfHashCheck : C mfHashCheck := h.check_of _

theorem wbufRead (i : Word) : C (wbufRead i) := h.ramRead _

theorem sonRead (i : Word) : C (sonRead i) := h.ramRead _

theorem hashRead (i : Word) : C (hashRead i) := h.ramRead _

theorem matchRead (i : Word) : C (matchRead i) := h.ramRead _

theorem optRead (i : Word) : C (optRead i) := h.ramRead _

theorem posSlotPriceRead (i : Word) : C (posSlotPriceRead i) := h.ramRead _

theorem distPriceRead (i : Word) : C (distPriceRead i) := h.ramRead _

theorem alignPriceRead (i : Word) : C (alignPriceRead i) := h.ramRead _

theorem lenPriceRead (k : Bool) (i : Word) : C (lenPriceRead k i) := h.ite (h.ramRead _) (h.ramRead _)

theorem lenCounterRead (k : Bool) (i : Word) : C (lenCounterRead k i) := h.ite (h.ramRead _) (h.ramRead _)

theorem winGetByte (i : Word) : C (winGetByte i) := h.look_bind fun _ => h.wbufRead _

theorem winCompare (p d : Word) : ∀ (left : Nat) (n : Word), C (winCompare p d left n)
  | 0, n => h.pure n
  | left + 1, _ => h.bind (h.wbufRead _) fun _ => h.bind (h.wbufRead _) fun _ => h.ite (winCompare p d left _)
    (h.pure _)

theorem winMatchLen (i r limit : Word) : C (winMatchLen i r limit) :=
  h.look_bind fun _ => h.winCompare _ _ _ _

theorem mfHashAt (c : Word) : C (mfHashAt c) :=
  h.look_bind fun _ => h.bind (h.wbufRead _) fun _ => h.bind (h.wbufRead _) fun _ =>
    h.ite (h.bind (h.wbufRead _) fun _ => h.bind (h.wbufRead _) fun _ => h.pure _) (h.pure _)

theorem mfExtend (pby c : Word) : ∀ (n : Nat) (len : Word), C (mfExtend pby c n len)
  | 0, len => h.pure len
  | n + 1, _ => h.bind (h.wbufRead _) fun _ => h.bind (h.wbufRead _) fun _ => h.ite (mfExtend pby c n _) (h.pure _)

theorem mfCandidateLen (w : Walk) (p : WalkPos) (pby : Word) : C (mfCandidateLen w p pby) :=
  h.bind (h.wbufRead _) fun _ => h.bind (h.wbufRead _) fun _ => h.ite (h.bind (h.mfExtend _ _ _ _) fun _ =>
    h.pure _) (h.pure _)

theorem mfHeadMatches (w : Walk) (head : Word) : C (mfHeadMatches w head) :=
  h.ite (h.pure _) (h.look_bind fun _ => h.bind (h.wbufRead _) fun _ => h.bind (h.wbufRead _) fun _ => h.pure _)

theorem repPrice (i len : Word) (st : CState) (ps : Word) : C (repPrice i len st ps) :=
  h.bind (h.lenPriceRead _ _) fun _ => h.bind (h.shared.pureRepPrice _ _ _) fun _ => h.pure _

theorem distPrice (d lps : Word) : C (distPrice d lps) :=
  h.ite (h.distPriceRead _) (h.bind (h.posSlotPriceRead _) fun _ => h.bind (h.alignPriceRead _) fun _ => h.pure _)

theorem posLenPrice (d len ps : Word) : C (posLenPrice d len ps) :=
  h.bind (h.distPrice _ _) fun _ => h.bind (h.lenPriceRead _ _) fun _ => h.pure _

theorem extendMatch (lenRes numPairs : Word) : C (extendMatch lenRes numPairs) :=
  h.look_bind fun _ => h.look_bind fun _ =>
    h.ite (h.bind (h.matchRead _) fun _ => h.bind (h.winMatchLen _ _ _) fun _ => h.pure _) (h.pure _)

theorem repLengths (reps : Reps) : C (repLengths reps) :=
  h.bind (h.winMatchLen _ _ _) fun _ => h.bind (h.winMatchLen _ _ _) fun _ => h.bind (h.winMatchLen _ _ _) fun _ =>
    h.bind (h.winMatchLen _ _ _) fun _ => h.pure _

theorem skipPairs (l : Word) : ∀ (n : Nat) (offs : Word), C (skipPairs l n offs)
  | 0, _ => h.raise _
  | n + 1, _ => h.bind (h.matchRead _) fun _ => h.ite (skipPairs l n _) (h.pure _)

theorem arrive (cur : Word) : C (arrive cur) :=
  h.bind (h.optRead _) fun _ => h.ite_bind
    (h.ite (h.bind (h.optRead _) fun _ => h.pure _) (h.bind (h.optRead _) fun _ => h.pure _))
    (h.bind (h.optRead _) fun _ => h.pure _)
    fun _ => h.ite (h.bind (h.optRead _) fun _ => h.pure _) (h.bind (h.optRead _) fun _ => h.pure _)

theorem nodeAt (cur position : Word) (st : CState) (reps : Reps) : C (nodeAt cur position st reps) :=
  h.bind (h.optRead _) fun _ => h.bind (h.winGetByte _) fun _ => h.bind (h.winGetByte _) fun _ => h.look_bind fun _ =>
    h.bind (h.winGetByte _) fun _ => h.bind (h.shared.literalPrice _ _ _ _ _ _) fun _ =>
      h.bind (h.shared.isMatchPrice _ _ _) fun _ =>
      h.bind (h.shared.nodePrice _ _) fun _ => h.look_bind fun _ => h.look_bind fun _ => h.pure _

end Looks

/-! ### The window -/

namespace Refills
variable {C : ∀ {α : Type}, Eng α → Prop} (h : Refills windowRest withRoom C)
include h

theorem wbufWrite (i : Word) (v : Byte) : C (wbufWrite i v) := h.ramWrite

theorem winReadLoop : ∀ n : Nat, C (winReadLoop n)
  | 0 => h.pure ()
  | n + 1 => h.look_bind fun _ => h.ite (h.pure ()) (h.bind h.srcRead fun
    | none => h.put
    | some _ => h.bind (h.wbufWrite _ _) fun _ => h.bind (h.put) fun _ => winReadLoop n)

theorem winReadBlock : C winReadBlock :=
  h.look_bind fun _ => h.ite (h.pure ()) (h.look_bind fun _ => h.winReadLoop _)

theorem winMoveBytes (offset : Word) : ∀ (n : Nat) (i : Word), C (winMoveBytes offset n i)
  | 0, _ => h.pure ()
  | n + 1, _ => h.bind (h.wbufRead _) fun _ => h.bind (h.wbufWrite _ _) fun _ => winMoveBytes offset n _

theorem winMoveBlock : C winMoveBlock :=
  h.look_bind fun _ => h.bind (h.winMoveBytes _ _ _) fun _ => h.put

theorem winMovePos : C winMovePos :=
  h.bind (h.put) fun _ => h.look_bind fun _ => h.ite (h.when h.winMoveBlock fun _ => h.winReadBlock) (h.pure ())

theorem winReduceOffsets (sub : Word) : C (winReduceOffsets sub) := h.put

end Refills

/-! ### The match finder -/

namespace Refills
variable {C : ∀ {α : Type}, Eng α → Prop} (h : Refills finderRest withRoom C)
include h

theorem sonWrite (i v : Word) : C (sonWrite i v) := h.ramWrite

theorem hashWrite (i v : Word) : C (hashWrite i v) := h.ramWrite

theorem mfNormalize : C mfNormalize :=
  h.look_bind fun _ => h.bind (h.put) fun _ => h.window.winReduceOffsets _

theorem mfMovePos : C mfMovePos :=
  h.bind (h.put) fun _ => h.bind h.window.winMovePos fun _ => h.look_bind fun _ => h.ite h.mfNormalize (h.pure ())

theorem mfCloseWalk (p : WalkPos) : C (mfCloseWalk p) := h.bind (h.sonWrite _ _) fun _ => h.sonWrite _ _

theorem mfGraft (p : WalkPos) (cp : Word) : C (mfGraft p cp) :=
  h.bind (h.sonRead _) fun _ => h.bind (h.sonWrite _ _) fun _ => h.bind (h.sonRead _) fun _ => h.sonWrite _ _

theorem mfDescend (w : Walk) (p : WalkPos) (cp pby len : Word) : C (mfDescend w p cp pby len) :=
  h.bind (h.wbufRead _) fun _ => h.bind (h.wbufRead _) fun _ =>
    h.ite (h.bind (h.sonWrite _ _) fun _ => h.bind (h.sonRead _) fun _ => h.pure _)
      (h.bind (h.sonWrite _ _) fun _ => h.bind (h.sonRead _) fun _ => h.pure _)

theorem mfWalkSkip (w : Walk) : ∀ (n : Nat) (p : WalkPos), C (mfWalkSkip w n p)
  | 0, _ => h.mfCloseWalk _
  | n + 1, _ => h.ite (h.mfCloseWalk _)
    (h.look_bind fun _ => h.look_bind fun _ => h.look_bind fun _ => h.bind (h.mfCandidateLen _ _ _) fun _ =>
      h.ite (h.mfGraft _ _) (h.bind (h.mfDescend _ _ _ _ _) fun _ => mfWalkSkip w n _))

theorem mfInsert (lenLimit : Word) : C (mfInsert lenLimit) :=
  h.look_bind fun _ => h.look_bind fun _ => h.bind (h.mfHashAt _) fun _ =>
    h.when_bind (h.hashWrite _ _) (fun _ => h.hashWrite _ _) fun _ => h.bind (h.hashRead _) fun _ =>
      h.bind (h.hashWrite _ _) fun _ => h.mfWalkSkip _ _ _

theorem mfSkipOne : C mfSkipOne :=
  h.look_bind fun
    | none => h.mfMovePos
    | some _ => h.bind (h.mfInsert _) fun _ => h.mfMovePos

theorem mfSkip : ∀ n : Nat, C (mfSkip n)
  | 0 => h.pure ()
  | n + 1 => h.bind h.mfSkipOne fun _ => mfSkip n

end Refills

/-! ### The search -/

namespace Refills
variable {C : ∀ {α : Type}, Eng α → Prop} (h : Refills searchRest withRoom C)
include h

theorem matchWrite (i v : Word) : C (matchWrite i v) := h.ramWrite

theorem mfPutPair (off len dist : Word) : C (mfPutPair off len dist) :=
  h.bind (h.matchWrite _ _) fun _ => h.matchWrite _ _

theorem mfWalkCollect (w : Walk) : ∀ (n : Nat) (p : WalkPos), C (mfWalkCollect w n p)
  | 0, _ => h.bind (h.finder.mfCloseWalk _) fun _ => h.pure _
  | n + 1, _ => h.ite (h.bind (h.finder.mfCloseWalk _) fun _ => h.pure _)
    (h.look_bind fun _ => h.look_bind fun _ => h.look_bind fun _ => h.bind (h.mfCandidateLen _ _ _) fun _ => h.ite
      (h.bind (h.mfPutPair _ _ _) fun _ => h.ite (h.bind (h.finder.mfGraft _ _) fun _ => h.pure _)
        (h.bind (h.finder.mfDescend _ _ _ _ _) fun _ => mfWalkCollect w n _))
      (h.bind (h.finder.mfDescend _ _ _ _ _) fun _ => mfWalkCollect w n _))

theorem mfHead2 (w : Walk) (head2 : Word) : C (mfHead2 w head2) :=
  h.bind (h.mfHeadMatches _ _) fun _ =>
    h.ite (h.look_bind fun _ => h.bind (h.mfPutPair _ _ _) fun _ => h.pure _) (h.pure _)

theorem mfHead3 (w : Walk) (off maxLen head2 head3 : Word) : C (mfHead3 w off maxLen head2 head3) :=
  h.bind (h.mfHeadMatches _ _) fun _ =>
    h.ite (h.look_bind fun _ => h.bind (h.mfPutPair _ _ _) fun _ => h.pure _) (h.pure _)

theorem mfShortHeads (w : Walk) (hs : Hashes) (curMatch : Word) : C (mfShortHeads w hs curMatch) :=
  h.look_bind fun _ => h.bind (h.hashRead _) fun _ => h.bind (h.hashRead _) fun _ =>
    h.bind (h.finder.hashWrite _ _) fun _ =>
    h.bind (h.finder.hashWrite _ _) fun _ => h.bind (h.mfHead2 _ _) fun _ => h.bind (h.mfHead3 _ _ _ _ _) fun _ =>
      h.ite (h.pure _) (h.pure _)

theorem mfDirectHead (w : Walk) (curMatch off maxLen : Word) : C (mfDirectHead w curMatch off maxLen) :=
  h.look_bind fun _ => h.ite
    (h.look_bind fun _ => h.bind (h.wbufRead _) fun _ => h.bind (h.wbufRead _) fun _ =>
      h.ite (h.look_bind fun _ => h.bind (h.mfPutPair _ _ _) fun _ => h.pure _) (h.pure _))
    (h.pure _)

theorem mfSearch (lenLimit : Word) : C (mfSearch lenLimit) :=
  h.look_bind fun _ => h.look_bind fun _ => h.bind (h.mfHashAt _) fun _ => h.bind (h.hashRead _) fun _ =>
    h.ite_bind (h.mfShortHeads _ _ _) (h.pure _) fun _ => h.bind (h.finder.hashWrite _ _) fun _ =>
      h.bind (h.mfDirectHead _ _ _ _) fun _ => h.mfWalkCollect _ _ _

theorem mfGetMatches : C mfGetMatches :=
  h.look_bind fun
    | none => h.bind h.finder.mfMovePos fun _ => h.bind (h.put) fun _ => h.pure _
    | some _ => h.bind (h.mfSearch _) fun _ => h.bind h.finder.mfMovePos fun _ => h.bind (h.put) fun _ => h.pure _

end Refills

/-! ### The parser -/

namespace Refills
variable {C : ∀ {α : Type}, Eng α → Prop} (h : Refills parserRest withRoom C)
include h

theorem optWrite (i : Word) (v : OptRec) : C (optWrite i v) := h.ramWrite

theorem readMatchDistances : C readMatchDistances :=
  h.bind h.search.mfGetMatches fun _ => h.ite_bind (h.pure _) (h.bind (h.matchRead _) fun _ =>
    h.extendMatch _ _) fun _ =>
    h.bind (h.put) fun _ => h.pure _

theorem encMovePos (n : Word) : C (encMovePos n) :=
  h.ite (h.bind (h.search.finder.mfSkip _) fun _ => h.put) (h.pure ())

theorem optModify (k : Word) (f : OptRec → OptRec) : C (optModify k f) :=
  h.bind (h.optRead _) fun _ => h.optWrite _ _

theorem relax (k c : Word) (f : OptRec → OptRec) : C (relax k c f) :=
  h.bind (h.optRead _) fun _ => h.ite (h.optWrite _ _) (h.pure ())

theorem extendTurns : ∀ (n : Nat) (lenEnd : Word), C (extendTurns n lenEnd)
  | 0, _ => h.pure ()
  | n + 1, _ => h.bind (h.optModify _ _) fun _ => extendTurns n _

theorem extendTo (lenEnd k : Word) : C (extendTo lenEnd k) := h.bind (h.extendTurns _ _) fun _ => h.pure _

theorem expandRecord (r : OptRec) (posMem : Word) : C (expandRecord r posMem) :=
  h.ite (h.bind (h.optModify _ _) fun _ => h.ite (h.optModify _ _) (h.pure ())) (h.pure ())

theorem backwardLoop : ∀ (n : Nat) (cur posMem backMem : Word), C (backwardLoop n cur posMem backMem)
  | 0, _, _, _ => h.raise _
  | n + 1, _, _, _ => h.bind (h.optRead _) fun _ => h.bind (h.expandRecord _ _) fun _ => h.bind (h.optRead _) fun _ =>
    h.bind (h.optWrite _ _) fun _ => h.ite (h.pure ()) (backwardLoop n _ _ _)

theorem backward (cur : Word) : C (backward cur) :=
  h.bind (h.put) fun _ => h.bind (h.optRead _) fun _ => h.bind (h.backwardLoop _ _ _ _) fun _ =>
    h.bind (h.optRead _) fun _ => h.bind (h.put) fun _ => h.pure _

theorem infinityFrom : ∀ (n : Nat) (l : Word), C (infinityFrom n l)
  | 0, _ => h.pure ()
  | n + 1, _ => h.bind (h.optModify _ _) fun _ => infinityFrom n _

theorem repEdges (price ps back : Word) : ∀ (n : Nat) (l : Word), C (repEdges price ps back n l)
  | 0, _ => h.pure ()
  | n + 1, _ => h.bind (h.lenPriceRead _ _) fun _ => h.bind (h.relax _ _ _) fun _ => repEdges price ps back n _

theorem repEdgesOf (repMatchPrice ps : Word) (st : CState) (lens : Reps) (i : Nat) :
    C (repEdgesOf repMatchPrice ps st lens i) :=
  h.ite (h.bind (h.shared.pureRepPrice _ _ _) fun _ => h.repEdges _ _ _ _ _) (h.pure ())

theorem matchEdges (normalMatchPrice numPairs ps : Word) :
    ∀ (n : Nat) (l offs : Word), C (matchEdges normalMatchPrice numPairs ps n l offs)
  | 0, _, _ => h.raise _
  | n + 1, _, _ => h.bind (h.matchRead _) fun _ => h.bind (h.posLenPrice _ _ _) fun _ =>
    h.bind (h.relax _ _ _) fun _ =>
    h.bind (h.matchRead _) fun _ => h.ite (h.ite (h.pure ()) (matchEdges _ _ _ n _ _)) (matchEdges _ _ _ n _ _)

theorem literalEdge (nd : Node) : C (literalEdge nd) :=
  h.bind (h.optRead _) fun _ => h.ite (h.bind (h.optWrite _ _) fun _ => h.pure _) (h.pure _)

theorem shortRepEdge (nd : Node) : C (shortRepEdge nd) :=
  h.bind (h.optRead _) fun _ => h.ite
    (h.bind (h.shared.shortRepPrice _ _) fun _ => h.ite (h.bind (h.optWrite _ _) fun _ => h.pure _) (h.pure _))
    (h.pure _)

theorem litRep0Edge (nd : Node) (lenEnd : Word) : C (litRep0Edge nd lenEnd) :=
  h.look_bind fun _ => h.bind (h.winMatchLen _ _ _) fun _ => h.ite
    (h.look_bind fun _ => h.bind (h.shared.repStartPrice _ _) fun _ => h.bind (h.extendTo _ _) fun _ =>
      h.bind (h.repPrice _ _ _ _) fun _ => h.bind (h.relax _ _ _) fun _ => h.pure _)
    (h.pure _)

theorem tripleEdge (nd : Node) (lenEnd : Word) (st2 : CState) (price len d back : Word) :
    C (tripleEdge nd lenEnd st2 price len d back) :=
  h.ite
    (h.look_bind fun _ => h.bind (h.winMatchLen _ _ _) fun _ => h.ite
      (h.look_bind fun _ => h.look_bind fun _ => h.bind (h.shared.nodePrice _ _) fun _ =>
        h.bind (h.winGetByte _) fun _ =>
        h.look_bind fun _ => h.bind (h.winGetByte _) fun _ => h.bind (h.winGetByte _) fun _ =>
          h.bind (h.shared.litPrice _ _ _ _) fun _ => h.look_bind fun _ =>
            h.bind (h.shared.repStartPrice _ _) fun _ =>
            h.bind (h.extendTo _ _) fun _ => h.bind (h.repPrice _ _ _ _) fun _ => h.bind (h.relax _ _ _) fun _ =>
              h.pure _)
      (h.pure _))
    (h.pure _)

theorem repEdgesAt (nd : Node) (ri : Word) : ∀ (n : Nat) (l lenEnd : Word), C (repEdgesAt nd ri n l lenEnd)
  | 0, _, _ => h.pure _
  | n + 1, _, _ => h.bind (h.extendTo _ _) fun _ => h.bind (h.repPrice _ _ _ _) fun _ =>
    h.bind (h.relax _ _ _) fun _ =>
    repEdgesAt nd ri n _ _

theorem repTurn (nd : Node) (ri : Nat) (lenEnd startLen : Word) : C (repTurn nd ri lenEnd startLen) :=
  h.bind (h.winMatchLen _ _ _) fun _ => h.ite
    (h.bind (h.repEdgesAt _ _ _ _ _) fun _ => h.bind (h.repPrice _ _ _ _) fun _ =>
      h.bind (h.tripleEdge _ _ _ _ _ _ _) fun _ =>
      h.pure _)
    (h.pure _)

theorem repTurns (nd : Node) (lenEnd : Word) : C (repTurns nd lenEnd) :=
  h.bind (h.repTurn _ _ _ _) fun _ => h.bind (h.repTurn _ _ _ _) fun _ => h.bind (h.repTurn _ _ _ _) fun _ =>
    h.repTurn _ _ _ _

theorem clipMatches (newLen numPairs avail : Word) : C (clipMatches newLen numPairs avail) :=
  h.ite (h.bind (h.skipPairs _ _ _) fun _ => h.bind (h.search.matchWrite _ _) fun _ => h.pure _) (h.pure _)

theorem matchEdgesAt (nd : Node) (normalMatchPrice numPairs : Word) :
    ∀ (n : Nat) (len offs lenEnd : Word), C (matchEdgesAt nd normalMatchPrice numPairs n len offs lenEnd)
  | 0, _, _, _ => h.raise _
  | n + 1, _, _, _ => h.bind (h.matchRead _) fun _ => h.bind (h.posLenPrice _ _ _) fun _ =>
    h.bind (h.relax _ _ _) fun _ =>
    h.bind (h.matchRead _) fun _ => h.ite
      (h.bind (h.tripleEdge _ _ _ _ _ _ _) fun _ => h.ite (h.pure _) (matchEdgesAt _ _ _ n _ _ _))
      (matchEdgesAt _ _ _ n _ _ _)

theorem matchTurn (nd : Node) (newLen numPairs startLen lenEnd : Word) :
    C (matchTurn nd newLen numPairs startLen lenEnd) :=
  h.bind (h.clipMatches _ _ _) fun _ => h.ite
    (h.bind (h.shared.nodePrice _ _) fun _ => h.bind (h.extendTo _ _) fun _ => h.bind (h.skipPairs _ _ _) fun _ =>
      h.matchEdgesAt _ _ _ _ _ _ _)
    (h.pure _)

theorem edgesFrom (nd : Node) (newLen numPairs lenEnd : Word) : C (edgesFrom nd newLen numPairs lenEnd) :=
  h.bind (h.literalEdge _) fun _ => h.bind (h.shortRepEdge _) fun _ => h.ite (h.pure _)
    (h.ite_bind (h.litRep0Edge _ _) (h.pure _) fun _ => h.bind (h.repTurns _ _) fun _ => h.matchTurn _ _ _ _ _)

theorem forwardPass : ∀ (n : Nat) (last lenEnd position : Word), C (forwardPass n last lenEnd position)
  | 0, _, _, _ => h.raise _
  | n + 1, _, _, _ => h.ite (h.backward _) (h.bind h.readMatchDistances fun _ => h.look_bind fun _ => h.ite
    (h.bind (h.put) fun _ => h.backward _)
    (h.bind (h.arrive _) fun _ => h.bind (h.optModify _ _) fun _ => h.bind (h.nodeAt _ _ _ _) fun _ =>
      h.bind (h.edgesFrom _ _ _ _) fun _ => forwardPass n _ _ _))

theorem firstEdges (position lenMain numPairs : Word) (lens : Reps) (curByte matchByte : Byte) :
    C (firstEdges position lenMain numPairs lens curByte matchByte) :=
  h.look_bind fun _ => h.bind (h.optModify _ _) fun _ => h.look_bind fun _ => h.look_bind fun _ =>
    h.bind (h.shared.literalPrice _ _ _ _ _ _) fun _ => h.bind (h.optModify _ _) fun _ =>
      h.bind (h.shared.isMatchPrice _ _ _) fun _ =>
      h.bind (h.shared.nodePrice _ _) fun _ =>
        h.when_bind (h.shared.shortRepPrice _ _) (fun _ => h.relax _ _ _) fun _ => h.ite
        (h.bind (h.optRead _) fun _ => h.pure _)
        (h.bind (h.optModify _ _) fun _ => h.look_bind fun _ => h.bind (h.optModify _ _) fun _ =>
          h.bind (h.infinityFrom _ _) fun _ => h.bind (h.repEdgesOf _ _ _ _ _) fun _ =>
            h.bind (h.repEdgesOf _ _ _ _ _) fun _ =>
            h.bind (h.repEdgesOf _ _ _ _ _) fun _ => h.bind (h.repEdgesOf _ _ _ _ _) fun _ =>
              h.bind (h.shared.nodePrice _ _) fun _ =>
              h.when_bind (h.skipPairs _ _ _) (fun _ => h.matchEdges _ _ _ _ _ _) fun _ => h.forwardPass _ _ _ _)

theorem passStart : C passStart :=
  h.look_bind fun _ => h.ite (h.bind (h.put) fun _ => h.pure _) h.readMatchDistances

theorem newPass (position : Word) : C (newPass position) :=
  h.bind (h.put) fun _ => h.bind h.passStart fun _ => h.look_bind fun _ => h.ite (h.pure _)
    (h.look_bind fun _ => h.bind (h.repLengths _) fun _ => h.look_bind fun _ => h.ite
      (h.bind (h.encMovePos _) fun _ => h.pure _)
      (h.ite (h.bind (h.matchRead _) fun _ => h.bind (h.encMovePos _) fun _ => h.pure _)
        (h.bind (h.winGetByte _) fun _ => h.bind (h.winGetByte _) fun _ => h.ite (h.pure _)
          (h.firstEdges _ _ _ _ _ _))))

theorem getOptimum (position : Word) : C (getOptimum position) :=
  h.look_bind fun _ => h.ite (h.bind (h.optRead _) fun _ => h.bind (h.put) fun _ => h.pure _) (h.newPass _)

end Refills

/-! ### The price tables -/

namespace Refills
variable {C : ∀ {α : Type}, Eng α → Prop} (h : Refills sinkSide withRoom C)
include h

theorem posSlotPriceWrite (i v : Word) : C (posSlotPriceWrite i v) := h.ramWrite

theorem distPriceWrite (i v : Word) : C (distPriceWrite i v) := h.ramWrite

theorem alignPriceWrite (i v : Word) : C (alignPriceWrite i v) := h.ramWrite

theorem lenPriceWrite (k : Bool) (i v : Word) : C (lenPriceWrite k i v) :=
  h.ite (h.ramWrite) (h.ramWrite)

theorem lenCounterWrite (k : Bool) (i v : Word) : C (lenCounterWrite k i v) :=
  h.ite (h.ramWrite) (h.ramWrite)

theorem fillSlot (lps slot : Word) : C (fillSlot lps slot) :=
  h.bind (h.shared.btPrice _ _ _) fun _ => h.posSlotPriceWrite _ _

theorem fillSlotDirect (lps slot : Word) : C (fillSlotDirect lps slot) :=
  h.bind (h.posSlotPriceRead _) fun _ => h.posSlotPriceWrite _ _

theorem fillDistNear (lps i : Word) : C (fillDistNear lps i) :=
  h.bind (h.posSlotPriceRead _) fun _ => h.distPriceWrite _ _

theorem fillDistFar (lps : Word) : ∀ (l : List Word) (i : Word), C (fillDistFar lps l i)
  | [], _ => h.pure ()
  | _ :: l, _ => h.bind (h.posSlotPriceRead _) fun _ => h.bind (h.distPriceWrite _ _) fun _ => fillDistFar lps l _

theorem fillClass (tmp : List Word) (lps : Word) : C (fillClass tmp lps) :=
  h.look_bind fun _ => h.bind (h.shared.forUp (h.fillSlot _) _ _) fun _ =>
    h.bind (h.shared.forUp (h.fillSlotDirect _) _ _) fun _ =>
    h.bind (h.shared.forUp (h.fillDistNear _) _ _) fun _ => h.fillDistFar _ _ _

theorem fillDistancesPrices : C fillDistancesPrices :=
  h.bind (h.shared.specPosPrices _ _) fun _ => h.bind (h.shared.forUp (h.fillClass _) _ _) fun _ => h.put

theorem fillAlign (i : Word) : C (fillAlign i) :=
  h.bind (h.shared.btReversePrice _ _ _) fun _ => h.alignPriceWrite _ _

theorem fillAlignPrices : C fillAlignPrices := h.bind (h.shared.forUp h.fillAlign _ _) fun _ => h.put

theorem fillLen (k : Bool) (ps i : Word) : C (fillLen k ps i) :=
  h.bind (h.shared.lenPrice _ _ _) fun _ => h.lenPriceWrite _ _ _

theorem updateLenTable (k : Bool) (ps : Word) : C (updateLenTable k ps) :=
  h.look_bind fun _ => h.bind (h.shared.forUp (h.fillLen _ _) _ _) fun _ => h.lenCounterWrite _ _ _

theorem lenCountDown (k : Bool) (ps : Word) : C (lenCountDown k ps) :=
  h.bind (h.lenCounterRead _ _) fun _ => h.bind (h.lenCounterWrite _ _ _) fun _ => h.ite (h.updateLenTable _ _)
    (h.pure ())

end Refills

/-! ### The decoder -/

namespace Streams
variable {C : ∀ {α : Type}, Eng α → Prop} (h : Streams decoderRest withEncoder C)
include h

theorem probWrite (i : Word) (v : Prob) : C (probWrite i v) := h.ramWrite

theorem owbufWrite (i : Word) (v : Byte) : C (owbufWrite i v) := h.ramWrite

theorem srcReadOrTruncated : C srcReadOrTruncated :=
  h.bind h.srcRead fun
    | some b => h.pure b
    | none => h.raise _

theorem rcdLoad : ∀ n : Nat, C (rcdLoad n)
  | 0 => h.pure ()
  | n + 1 => h.bind h.srcReadOrTruncated fun _ => h.bind (h.put) fun _ => rcdLoad n

theorem rcdInit : C rcdInit := h.bind (h.put) fun _ => h.rcdLoad 5

theorem rcdNormalize : C rcdNormalize :=
  h.bind h.srcReadOrTruncated fun _ => h.bind (h.put) fun _ => h.put

theorem rcdNormalizeIfLow : C rcdNormalizeIfLow := h.look_bind fun _ => h.ite h.rcdNormalize (h.pure ())

theorem rcdDecodeBit (i : Word) : C (rcdDecodeBit i) :=
  h.bind (h.probRead _) fun _ => h.look_bind fun _ => h.bind (h.put) fun _ => h.bind (h.probWrite _ _) fun _ =>
    h.bind h.rcdNormalizeIfLow fun _ => h.pure _

theorem rcdDirectLoop : ∀ (n : Nat) (v : Word), C (rcdDirectLoop n v)
  | 0, v => h.pure v
  | n + 1, _ => h.look_bind fun _ => h.bind (h.put) fun _ => h.bind h.rcdNormalizeIfLow fun _ =>
    rcdDirectLoop n _

theorem rcdDecodeDirect (n : Nat) : C (rcdDecodeDirect n) := h.rcdDirectLoop n _

theorem btDecodeFrom (base : Word) : ∀ (k : Nat) (m : Word), C (btDecodeFrom base k m)
  | 0, m => h.pure m
  | k + 1, _ => h.bind (h.rcdDecodeBit _) fun _ => btDecodeFrom base k _

theorem btDecode (base : Word) (n : Nat) : C (btDecode base n) :=
  h.bind (h.btDecodeFrom base n _) fun _ => h.pure _

theorem btReverseDecodeFrom (base : Word) :
    ∀ (left k : Nat) (m sym : Word), C (btReverseDecodeFrom base left k m sym)
  | 0, _, _, sym => h.pure sym
  | left + 1, _, _, _ => h.bind (h.rcdDecodeBit _) fun _ => btReverseDecodeFrom base left _ _ _

theorem btReverseDecode (base : Word) (n : Nat) : C (btReverseDecode base n) :=
  h.btReverseDecodeFrom base n _ _ _

theorem cstateSet (v : CState) : C (cstateSet v) := h.put

theorem litDecodeFrom (lb : Word) : ∀ (n : Nat) (c : Word), C (litDecodeFrom lb n c)
  | 0, c => h.pure c
  | n + 1, _ => h.bind (h.rcdDecodeBit _) fun _ => litDecodeFrom lb n _

theorem litDecode (lb : Word) : C (litDecode lb) := h.bind (h.litDecodeFrom lb 8 _) fun _ => h.pure _

theorem litDecodeMatchedFrom (lb : Word) (mb : Byte) :
    ∀ (n : Nat) (c : Word) (same : Bool), C (litDecodeMatchedFrom lb mb n c same)
  | 0, c, _ => h.pure c
  | n + 1, _, _ => h.bind (h.rcdDecodeBit _) fun _ => litDecodeMatchedFrom lb mb n _ _

theorem litDecodeMatched (lb : Word) (mb : Byte) : C (litDecodeMatched lb mb) :=
  h.bind (h.litDecodeMatchedFrom lb mb 8 _ _) fun _ => h.pure _

theorem lenDecode (l ps : Word) : C (lenDecode l ps) :=
  h.bind (h.rcdDecodeBit _) fun _ => h.ite
    (h.bind (h.rcdDecodeBit _) fun _ =>
      h.ite (h.bind (h.btDecode _ _) fun _ => h.pure _) (h.bind (h.btDecode _ _) fun _ => h.pure _))
    (h.btDecode _ _)

theorem distDecode (len : Word) : C (distDecode len) :=
  h.bind (h.btDecode _ _) fun _ => h.ite (h.pure _)
    (h.ite (h.bind (h.btReverseDecode _ _) fun _ => h.pure _)
      (h.bind (h.rcdDecodeDirect _) fun _ => h.bind (h.btReverseDecode _ _) fun _ => h.pure _))

theorem repUse (i : Word) : C (repUse i) :=
  h.look_bind fun _ => h.bind (h.put) fun _ => h.pure _

theorem repPush (d : Word) : C (repPush d) := h.put

theorem setPhase (p : Phase) : C (setPhase p) := h.put

theorem owPutByte (b : Byte) : C (owPutByte b) :=
  h.look_bind fun _ => h.bind (h.owbufWrite _ _) fun _ => h.bind (h.put) fun _ => h.bind (h.sinkWrite _) fun _ =>
    h.put

theorem owCopy (r : Word) : ∀ n : Nat, C (owCopy r n)
  | 0 => h.pure ()
  | n + 1 => h.bind (h.owGetByte _) fun _ => h.bind (h.owPutByte _) fun _ => owCopy r n

theorem distCheck (isMatch : Bool) : C (distCheck isMatch) :=
  h.look_bind fun _ => h.look_bind fun _ => h.ite (h.ite (h.bind (h.put) fun _ => h.pure _) (h.raise _)) (h.pure _)

theorem copyFromRep0 (len : Word) : C (copyFromRep0 len) :=
  h.look_bind fun _ => h.look_bind fun _ => h.bind (h.owCopy _ _) fun _ => h.pure _

theorem decodeLiteral (st : CState) : C (decodeLiteral st) :=
  h.look_bind fun _ => h.ite_bind (h.pure _) (h.owGetByte _) fun _ => h.look_bind fun _ => h.ite_bind (h.litDecode _)
    (h.look_bind fun _ => h.bind (h.owGetByte _) fun _ => h.litDecodeMatched _ _)
    fun _ => h.bind (h.owPutByte _) fun _ => h.bind (h.cstateSet _) fun _ => h.pure _

theorem decodeLongRep (st : CState) (ps i : Word) : C (decodeLongRep st ps i) :=
  h.bind (h.repUse _) fun _ => h.bind (h.lenDecode _ _) fun _ => h.bind (h.cstateSet _) fun _ =>
    h.bind (h.distCheck _) fun _ =>
    h.bind (h.copyFromRep0 _) fun _ => h.pure _

theorem decodeShortRep (st : CState) : C (decodeShortRep st) :=
  h.bind (h.cstateSet _) fun _ => h.bind (h.distCheck _) fun _ => h.look_bind fun _ => h.bind (h.owGetByte _) fun _ =>
    h.bind (h.owPutByte _) fun _ => h.pure _

theorem decodeRep (st : CState) (ps : Word) : C (decodeRep st ps) :=
  h.look_bind fun _ => h.bind (h.check _ _) fun _ => h.bind (h.rcdDecodeBit _) fun _ => h.ite
    (h.bind (h.rcdDecodeBit _) fun _ =>
      h.ite (h.bind (h.rcdDecodeBit _) fun _ => h.decodeLongRep _ _ _) (h.decodeLongRep _ _ _))
    (h.look_bind fun _ => h.bind (h.rcdDecodeBit _) fun _ => h.ite (h.decodeLongRep _ _ _) (h.decodeShortRep _))

theorem decodeMatch (st : CState) (ps : Word) : C (decodeMatch st ps) :=
  h.bind (h.lenDecode _ _) fun _ => h.bind (h.cstateSet _) fun _ => h.bind (h.distDecode _) fun _ =>
    h.bind (h.repPush _) fun _ =>
    h.bind (h.distCheck _) fun _ => h.ite (h.pure _) (h.bind (h.copyFromRep0 _) fun _ => h.pure _)

theorem decodeOne : C decodeOne :=
  h.look_bind fun _ => h.look_bind fun _ => h.look_bind fun _ => h.look_bind fun _ =>
    h.bind (h.rcdDecodeBit _) fun _ => h.ite
    (h.bind (h.rcdDecodeBit _) fun _ => h.ite (h.decodeRep _ _) (h.decodeMatch _ _))
    (h.decodeLiteral _)

theorem decodeSymbol : C decodeSymbol :=
  h.look_bind fun _ => h.ite (h.bind (h.setPhase _) fun _ => h.pure _)
    (h.bind h.decodeOne fun _ => h.ite (h.pure _) (h.look_bind fun _ => h.when (h.setPhase _) fun _ => h.pure _))

theorem decRunLoop : ∀ n : Nat, C (decRunLoop n)
  | 0 => h.pure ()
  | n + 1 => h.bind h.decodeSymbol fun _ => h.look_bind fun _ => h.ite (h.pure ()) (decRunLoop n)

end Streams

/-! ### The encoder -/

namespace Streams
variable {C : ∀ {α : Type}, Eng α → Prop} (h : Streams sinkSide withRoom C)
include h

theorem rceEmit : ∀ (k : Nat) (t carry : Byte), C (rceEmit k t carry)
  | 0, _, _ => h.pure ()
  | k + 1, _, _ => h.bind (h.sinkWrite _) fun _ => h.bind (h.put) fun _ => rceEmit k _ _

theorem rceShiftLow : C rceShiftLow :=
  h.look_bind fun _ => h.when_bind (h.rceEmit _ _ _) (fun _ => h.put) fun _ => h.put

theorem rceNormalize : C rceNormalize :=
  h.look_bind fun _ => h.ite (h.bind (h.put) fun _ => h.rceShiftLow) (h.pure ())

theorem rceEncodeBit (i : Word) (b : Bool) : C (rceEncodeBit i b) :=
  h.bind (h.shared.probRead _) fun _ => h.bind (h.put) fun _ => h.bind (h.decoder.probWrite _ _) fun _ =>
    h.rceNormalize

theorem rceEncodeDirect (v : Word) : ∀ n : Nat, C (rceEncodeDirect v n)
  | 0 => h.pure ()
  | n + 1 => h.bind (h.put) fun _ => h.bind h.rceNormalize fun _ => rceEncodeDirect v n

theorem rceFlush : C rceFlush :=
  h.bind h.rceShiftLow fun _ => h.bind h.rceShiftLow fun _ => h.bind h.rceShiftLow fun _ =>
    h.bind h.rceShiftLow fun _ =>
    h.rceShiftLow

theorem btEncodeFrom (base sym : Word) : ∀ (k : Nat) (m : Word), C (btEncodeFrom base sym k m)
  | 0, _ => h.pure ()
  | k + 1, _ => h.bind (h.rceEncodeBit _ _) fun _ => btEncodeFrom base sym k _

theorem btEncode (base : Word) (n : Nat) (sym : Word) : C (btEncode base n sym) :=
  h.btEncodeFrom base sym n _

theorem btReverseEncodeFrom (base sym : Word) :
    ∀ (left k : Nat) (m : Word), C (btReverseEncodeFrom base sym left k m)
  | 0, _, _ => h.pure ()
  | left + 1, _, _ => h.bind (h.rceEncodeBit _ _) fun _ => btReverseEncodeFrom base sym left _ _

theorem btReverseEncode (base : Word) (n : Nat) (sym : Word) : C (btReverseEncode base n sym) :=
  h.btReverseEncodeFrom base sym n _ _

theorem litEncodeFrom (lb : Word) (sym : Byte) : ∀ (n : Nat) (c : Word), C (litEncodeFrom lb sym n c)
  | 0, _ => h.pure ()
  | n + 1, _ => h.bind (h.rceEncodeBit _ _) fun _ => litEncodeFrom lb sym n _

theorem litEncode (lb : Word) (sym : Byte) : C (litEncode lb sym) := h.litEncodeFrom lb sym 8 _

theorem litEncodeMatchedFrom (lb : Word) (mb sym : Byte) :
    ∀ (n : Nat) (c : Word) (same : Bool), C (litEncodeMatchedFrom lb mb sym n c same)
  | 0, _, _ => h.pure ()
  | n + 1, _, _ => h.bind (h.rceEncodeBit _ _) fun _ => litEncodeMatchedFrom lb mb sym n _ _

theorem litEncodeMatched (lb : Word) (mb sym : Byte) : C (litEncodeMatched lb mb sym) :=
  h.litEncodeMatchedFrom lb mb sym 8 _ _

theorem lenEncode (l sym ps : Word) : C (lenEncode l sym ps) :=
  h.ite (h.bind (h.rceEncodeBit _ _) fun _ => h.btEncode _ _ _)
    (h.ite (h.bind (h.rceEncodeBit _ _) fun _ => h.bind (h.rceEncodeBit _ _) fun _ => h.btEncode _ _ _)
      (h.bind (h.rceEncodeBit _ _) fun _ => h.bind (h.rceEncodeBit _ _) fun _ => h.btEncode _ _ _))

theorem distEncode (dist len : Word) : C (distEncode dist len) :=
  h.bind (h.btEncode _ _ _) fun _ => h.ite (h.pure _)
    (h.ite (h.bind (h.btReverseEncode _ _ _) fun _ => h.pure _)
      (h.bind (h.rceEncodeDirect _ _) fun _ => h.bind (h.btReverseEncode _ _ _) fun _ => h.pure _))

theorem winCreate (keepBefore keepAfter reserve : Word) : C (winCreate keepBefore keepAfter reserve) := h.put

theorem winInit : C winInit := h.bind (h.put) fun _ => h.parser.search.finder.window.winReadBlock

theorem mfCreate : C mfCreate :=
  h.look_bind fun _ => h.look_bind fun _ => h.look_bind fun _ => h.bind (h.winCreate _ _ _) fun _ => h.put

theorem mfInit : C mfInit :=
  h.bind h.winInit fun _ => h.bind (h.put) fun _ =>
    h.bind (h.parser.search.finder.window.winReduceOffsets _) fun _ => h.put

theorem fillLenTables : C fillLenTables :=
  h.look_bind fun _ => h.bind (h.shared.forUp (h.updateLenTable _) _ _) fun _ =>
    h.shared.forUp (h.updateLenTable _) _ _

theorem encStart : C encStart :=
  h.look_bind fun _ => h.bind (h.shared.check _ _) fun _ => h.bind (h.put) fun _ => h.bind h.mfCreate fun _ =>
    h.bind (h.put) fun _ => h.bind (h.decoder.setPhase _) fun _ => h.bind h.mfInit fun _ =>
      h.bind h.fillDistancesPrices fun _ => h.bind h.fillAlignPrices fun _ => h.fillLenTables

theorem encodeLiteral (ps : Word) : C (encodeLiteral ps) :=
  h.look_bind fun _ => h.look_bind fun _ => h.bind (h.rceEncodeBit _ _) fun _ => h.look_bind fun _ =>
    h.bind (h.winGetByte _) fun _ => h.look_bind fun _ => h.look_bind fun _ => h.look_bind fun _ => h.ite
      (h.bind (h.litEncode _ _) fun _ => h.bind (h.put) fun _ => h.decoder.cstateSet _)
      (h.look_bind fun _ => h.bind (h.winGetByte _) fun _ => h.bind (h.litEncodeMatched _ _ _) fun _ =>
        h.bind (h.put) fun _ => h.decoder.cstateSet _)

theorem encodeRepChoice (st : CState) (ps len back : Word) : C (encodeRepChoice st ps len back) :=
  h.ite (h.bind (h.rceEncodeBit _ _) fun _ => h.look_bind fun _ => h.rceEncodeBit _ _)
    (h.bind (h.rceEncodeBit _ _) fun _ => h.ite (h.rceEncodeBit _ _) (h.bind (h.rceEncodeBit _ _) fun _ =>
      h.rceEncodeBit _ _))

theorem encodeRep (ps len back : Word) : C (encodeRep ps len back) :=
  h.look_bind fun _ => h.bind (h.rceEncodeBit _ _) fun _ => h.bind (h.encodeRepChoice _ _ _ _) fun _ => h.ite
    (h.bind (h.decoder.cstateSet _) fun _ => h.bind (h.decoder.repUse _) fun _ => h.pure ())
    (h.bind (h.lenEncode _ _ _) fun _ => h.bind (h.lenCountDown _ _) fun _ => h.bind (h.decoder.cstateSet _) fun _ =>
      h.bind (h.decoder.repUse _) fun _ => h.pure ())

theorem encodeMatch (ps len dist : Word) : C (encodeMatch ps len dist) :=
  h.look_bind fun _ => h.bind (h.rceEncodeBit _ _) fun _ => h.bind (h.lenEncode _ _ _) fun _ =>
    h.bind (h.lenCountDown _ _) fun _ => h.bind (h.distEncode _ _) fun _ => h.when (h.put) fun _ =>
      h.bind (h.decoder.repPush _) fun _ => h.bind (h.put) fun _ => h.decoder.cstateSet _

theorem encodeCopy (ps len back : Word) : C (encodeCopy ps len back) :=
  h.look_bind fun _ => h.look_bind fun _ => h.bind (h.rceEncodeBit _ _) fun _ =>
    h.ite_bind (h.encodeRep _ _ _) (h.encodeMatch _ _ _) fun _ => h.look_bind fun _ =>
      h.bind (h.winGetByte _) fun _ =>
      h.put

theorem encodeSymbol (len back : Word) : C (encodeSymbol len back) :=
  h.look_bind fun _ => h.look_bind fun _ => h.ite_bind (h.encodeLiteral _) (h.encodeCopy _ _ _) fun _ => h.put

theorem encodeFirstByte : C encodeFirstByte :=
  h.bind h.parser.readMatchDistances fun _ => h.look_bind fun _ => h.look_bind fun _ =>
    h.bind (h.rceEncodeBit _ _) fun _ =>
    h.bind (h.decoder.cstateSet _) fun _ => h.look_bind fun _ => h.bind (h.winGetByte _) fun _ => h.look_bind fun _ =>
      h.bind (h.litEncode _ _) fun _ => h.put

theorem encodeEndMarker : C encodeEndMarker :=
  h.look_bind fun _ => h.look_bind fun _ => h.look_bind fun _ => h.look_bind fun _ =>
    h.bind (h.rceEncodeBit _ _) fun _ =>
    h.bind (h.rceEncodeBit _ _) fun _ => h.bind (h.decoder.cstateSet _) fun _ => h.bind (h.lenEncode _ _ _) fun _ =>
      h.bind (h.lenCountDown _ _) fun _ => h.bind (h.distEncode _ _) fun _ => h.pure ()

theorem encFinishStream : C encFinishStream :=
  h.look_bind fun _ => h.when h.encodeEndMarker fun _ => h.bind h.rceFlush fun _ => h.decoder.setPhase _

theorem finishIfEmpty : C finishIfEmpty := h.look_bind fun _ => h.ite h.encFinishStream (h.pure ())

theorem afterDecision : C afterDecision :=
  h.look_bind fun _ => h.ite (h.when h.fillDistancesPrices fun _ => h.when h.fillAlignPrices fun _ =>
    h.finishIfEmpty) (h.pure ())

theorem encFirstStep : C encFirstStep :=
  h.look_bind fun _ => h.ite h.encFinishStream
    (h.bind h.encodeFirstByte fun _ => h.bind h.put fun _ => h.bind h.put fun _ => h.finishIfEmpty)

theorem encNextStep : C encNextStep :=
  h.look_bind fun _ => h.bind (h.parser.getOptimum _) fun _ => h.bind (h.encodeSymbol _ _) fun _ =>
    h.bind h.put fun _ =>
    h.bind h.put fun _ => h.afterDecision

theorem encStep : C encStep := h.look_bind fun _ => h.ite h.encFirstStep h.encNextStep

theorem encRunLoop : ∀ n : Nat, C (encRunLoop n)
  | 0 => h.pure ()
  | n + 1 => h.bind h.encStep fun _ => h.look_bind fun _ => h.ite (h.pure ()) (encRunLoop n)

end Streams

end Sys2Proof.Machine
end

section
/-! SUPPORT. The commands' rules lie in the classes of their units. -/

namespace Sys2Proof.Machine

/-- A command whose rule, behind the gate of its row of the opcode map, lies in the class `C`. -/
def RuleIn (C : ∀ {α : Type}, Eng α → Prop) (i : Instr) : Prop :=
  ∃ body : Eng Unit, (∀ s, exec i s = command i (gateOf i) body s) ∧ C body

/-- All but R0 and R1. -/
def resultsRest (s : State) : State := { s with x := { s.x with r0 := 0, r1 := 0 } }

section
variable {C : ∀ {α : Type}, Eng α → Prop}

/-- The commands without side effects (R118). -/
theorem Acts.readOnly (h : Acts resultsRest withRoom C) : ∀ {i : Instr}, isReadOnly i = true → RuleIn C i
  | .nop, _ => ⟨_, fun _ => rfl, h.pure ()⟩
  | .regRead, _ => ⟨_, fun _ => rfl, h.look_bind fun _ => h.bind (h.check _ _) fun _ => h.look_bind fun
      | some _ => h.put
      | none => h.raise _⟩
  | .probRead, _ => ⟨_, fun _ => rfl, h.look_bind fun _ => h.bind (h.check_of _) fun _ =>
      h.bind (h.shared.probRead _) fun _ => h.put⟩
  | .matchRead, _ => ⟨_, fun _ => rfl, h.look_bind fun _ => h.bind (h.matchRead _) fun _ => h.bind h.put fun _ =>
      h.look_bind fun _ => h.put⟩
  | .wbGetByte, _ => ⟨_, fun _ => rfl, h.look_bind fun _ => h.bind (h.winIndexCheck _) fun _ =>
      h.bind (h.winGetByte _) fun _ => h.put⟩
  | .wbMatchLen, _ => ⟨_, fun _ => rfl, h.look_bind fun _ => h.look_bind fun _ => h.look_bind fun _ =>
      h.bind (h.winMatchLen _ _ _) fun _ => h.put⟩
  | .wbAvail, _ => ⟨_, fun _ => rfl, h.look_bind fun _ => h.put⟩
  | .mfHash, _ => ⟨_, fun _ => rfl, h.bind h.mfHashCheck fun _ => h.look_bind fun _ => h.look_bind fun _ =>
      h.bind (h.mfHashAt _) fun _ => h.bind h.put fun _ => h.put⟩
  | .priceBit true _, _ => ⟨_, fun _ => rfl, h.look_bind fun _ =>
    h.bind (h.bind (h.check _ _) fun _ => h.pure _) fun _ =>
      h.bind (h.shared.bitPrice _ _) fun _ => h.put⟩
  | .priceBit false _, _ => ⟨_, fun _ => rfl, h.look_bind fun _ => h.bind (h.bind (h.check_of _) fun _ =>
      h.shared.probRead _) fun _ => h.bind (h.shared.bitPrice _ _) fun _ => h.put⟩
  | .btPrice _, _ => ⟨_, fun _ => rfl, h.look_bind fun _ => h.look_bind fun _ => h.bind (h.check_of _) fun _ =>
      h.bind (h.shared.btPrice _ _ _) fun _ => h.put⟩
  | .btRevPrice _, _ => ⟨_, fun _ => rfl, h.look_bind fun _ => h.look_bind fun _ => h.bind (h.check_of _) fun _ =>
      h.bind (h.shared.btReversePrice _ _ _) fun _ => h.put⟩
  | .stChar false, _ | .stMatch false, _ | .stRep false, _ | .stShortRep false, _ =>
    ⟨_, fun _ => rfl, h.look_bind fun _ => h.bind (h.check _ _) fun _ => h.put⟩
  | .litPrice _, _ => ⟨_, fun _ => rfl, h.look_bind fun _ => h.look_bind fun _ => h.look_bind fun _ =>
      h.look_bind fun _ => h.bind (h.check_of _) fun _ => h.bind (h.check _ _) fun _ => h.bind (h.check _ _) fun _ =>
        h.when (h.check _ _) fun _ => h.look_bind fun _ => h.bind (h.shared.litPrice _ _ _ _) fun _ => h.put⟩
  | .lenPrice _, _ => ⟨_, fun _ => rfl, h.look_bind fun _ => h.look_bind fun _ => h.bind (h.check _ _) fun _ =>
      h.bind (h.check_of _) fun _ => h.bind (h.shared.lenPrice _ _ _) fun _ => h.put⟩
  | .posSlot, _ => ⟨_, fun _ => rfl, h.look_bind fun _ => h.put⟩
  | .pricePosLen, _ => ⟨_, fun _ => rfl, h.look_bind fun _ => h.look_bind fun _ => h.look_bind fun _ =>
      h.bind (h.check _ _) fun _ => h.bind (h.check_of _) fun _ => h.bind (h.posLenPrice _ _ _) fun _ => h.put⟩
  | .priceRep, _ => ⟨_, fun _ => rfl, h.look_bind fun _ => h.look_bind fun _ => h.look_bind fun _ =>
    h.look_bind fun _ =>
      h.bind (h.check _ _) fun _ => h.bind (h.check _ _) fun _ => h.bind (h.check _ _) fun _ =>
        h.bind (h.check_of _) fun _ => h.bind (h.repPrice _ _ _ _) fun _ => h.put⟩
  | .priceShortRep, _ => ⟨_, fun _ => rfl, h.look_bind fun _ => h.look_bind fun _ => h.bind (h.check _ _) fun _ =>
      h.bind (h.check_of _) fun _ => h.bind (h.shared.shortRepPrice _ _) fun _ => h.put⟩
  | .owGetByte, _ => ⟨_, fun _ => rfl, h.look_bind fun _ => h.look_bind fun _ => h.bind (h.check _ _) fun _ =>
      h.bind (h.shared.owGetByte _) fun _ => h.put⟩

/-- The commands of a decoder stream (R147). -/
theorem Streams.decoderCommand (h : Streams decoderRest withEncoder C) :
    ∀ {i : Instr}, gateOf i = .dec ∨ gateOf i = .runD → RuleIn C i
  | .rcdBit, _ => ⟨_, fun _ => rfl, h.look_bind fun _ => h.bind (h.check_of _) fun _ =>
    h.bind (h.rcdDecodeBit _) fun _ => h.put⟩
  | .rcdDirect _, _ => ⟨_, fun _ => rfl, h.bind (h.rcdDecodeDirect _) fun _ => h.put⟩
  | .btDec _, _ => ⟨_, fun _ => rfl, h.look_bind fun _ => h.bind (h.check_of _) fun _ =>
    h.bind (h.btDecode _ _) fun _ => h.put⟩
  | .btRevDec _, _ => ⟨_, fun _ => rfl, h.look_bind fun _ => h.bind (h.check_of _) fun _ =>
      h.bind (h.btReverseDecode _ _) fun _ => h.put⟩
  | .litDec, _ => ⟨_, fun _ => rfl, h.look_bind fun _ => h.look_bind fun _ => h.bind (h.check _ _) fun _ =>
      h.look_bind fun _ => h.bind (h.litDecode _) fun _ => h.put⟩
  | .litDecM, _ => ⟨_, fun _ => rfl, h.look_bind fun _ => h.look_bind fun _ => h.look_bind fun _ =>
      h.bind (h.check _ _) fun _ => h.bind (h.check _ _) fun _ => h.look_bind fun _ =>
        h.bind (h.litDecodeMatched _ _) fun _ => h.put⟩
  | .lenDec _, _ => ⟨_, fun _ => rfl, h.look_bind fun _ => h.bind (h.check_of _) fun _ =>
    h.bind (h.lenDecode _ _) fun _ => h.put⟩
  | .distDec, _ => ⟨_, fun _ => rfl, h.look_bind fun _ => h.bind (h.check _ _) fun _ =>
    h.bind (h.distDecode _) fun _ => h.put⟩
  | .decStep, _ => ⟨_, fun _ => rfl, h.bind h.decodeSymbol fun _ => h.bind h.put fun _ => h.put⟩
  | .decRun, _ => ⟨_, fun _ => rfl, h.look_bind fun _ => h.decRunLoop _⟩
  | .owPutByte, _ => ⟨_, fun _ => rfl, h.look_bind fun _ => h.bind (h.check _ _) fun _ => h.owPutByte _⟩
  | .owCopy, _ => ⟨_, fun _ => rfl, h.look_bind fun _ => h.look_bind fun _ => h.look_bind fun _ =>
      h.bind (h.check _ _) fun _ => h.bind (h.check _ _) fun _ => h.owCopy _ _⟩

theorem decClear_sinkSide (s : State) : sinkSide (decClear s) = sinkSide s := by
  unfold decClear
  cases s.status.hdrOk <;> rfl

theorem decClear_withRoom (r : Option Nat) (s : State) : decClear (withRoom r s) = withRoom r (decClear s) := by
  unfold decClear withRoom
  dsimp only
  cases s.status.hdrOk <;> rfl

theorem Streams.decStart (h : Streams sinkSide withRoom C) : C decStart :=
  h.look_bind fun _ => h.bind (h.check _ _) fun _ => h.bind (h.put decClear_sinkSide decClear_withRoom) fun _ =>
    h.decoder.rcdInit

theorem Streams.hdrRead (h : Streams sinkSide withRoom C) : C hdrRead :=
  have read := h.decoder.srcReadOrTruncated
  h.bind h.put fun _ => h.bind read fun _ => h.bind read fun _ => h.bind read fun _ => h.bind read fun _ =>
    h.bind read fun _ => h.bind (h.check _ _) fun _ => h.put

/-- Every command. -/
theorem Streams.command (h : Streams sinkSide withRoom C) : ∀ i : Instr, RuleIn C i
  | .nop | .regRead | .probRead | .matchRead | .wbGetByte | .wbMatchLen | .wbAvail | .mfHash | .priceBit _ _
  | .btPrice _ | .btRevPrice _ | .litPrice _ | .lenPrice _ | .posSlot | .pricePosLen | .priceRep | .priceShortRep
  | .owGetByte | .stChar false | .stMatch false | .stRep false | .stShortRep false =>
    Acts.readOnly (h.toActs.mono fun _ => rfl) rfl
  | .rcdBit | .rcdDirect _ | .btDec _ | .btRevDec _ | .litDec | .litDecM | .lenDec _ | .distDec | .owPutByte
  | .owCopy =>
    h.decoder.decoderCommand (.inl rfl)
  | .decStep | .decRun => h.decoder.decoderCommand (.inr rfl)
  | .reset => ⟨_, fun _ => rfl, h.put⟩
  | .regWrite => ⟨_, fun _ => rfl, h.look_bind fun _ => h.look_bind fun _ => h.bind (h.check _ _) fun _ =>
    h.look_bind fun
      | none => h.raise _
      | some _ => h.look_bind fun _ => h.bind (h.check _ _) fun _ => h.put⟩
  | .mfGetMatches => ⟨_, fun _ => rfl, h.bind h.parser.search.mfGetMatches fun _ => h.bind h.put fun _ =>
      h.ite_bind (h.pure _) (h.matchRead _) fun _ => h.put⟩
  | .mfSkip => ⟨_, fun _ => rfl, h.look_bind fun _ => h.parser.search.finder.mfSkip _⟩
  | .mfMovePos => ⟨_, fun _ => rfl, h.parser.search.finder.mfMovePos⟩
  | .rceBit _ => ⟨_, fun _ => rfl, h.look_bind fun _ => h.bind (h.check_of _) fun _ => h.rceEncodeBit _ _⟩
  | .rceDirect _ => ⟨_, fun _ => rfl, h.look_bind fun _ => h.rceEncodeDirect _ _⟩
  | .btEnc _ => ⟨_, fun _ => rfl, h.look_bind fun _ => h.look_bind fun _ => h.bind (h.check_of _) fun _ =>
      h.btEncode _ _ _⟩
  | .btRevEnc _ => ⟨_, fun _ => rfl, h.look_bind fun _ => h.look_bind fun _ => h.bind (h.check_of _) fun _ =>
      h.btReverseEncode _ _ _⟩
  | .stChar true | .stMatch true | .stRep true | .stShortRep true =>
    ⟨_, fun _ => rfl, h.look_bind fun _ => h.bind h.put fun _ => h.put⟩
  | .litEnc => ⟨_, fun _ => rfl, h.look_bind fun _ => h.look_bind fun _ => h.look_bind fun _ =>
      h.bind (h.check _ _) fun _ => h.bind (h.check _ _) fun _ => h.look_bind fun _ => h.litEncode _ _⟩
  | .litEncM => ⟨_, fun _ => rfl, h.look_bind fun _ => h.look_bind fun _ => h.look_bind fun _ => h.look_bind fun _ =>
      h.bind (h.check _ _) fun _ => h.bind (h.check _ _) fun _ => h.bind (h.check _ _) fun _ => h.look_bind fun _ =>
        h.litEncodeMatched _ _ _⟩
  | .lenEnc _ => ⟨_, fun _ => rfl, h.look_bind fun _ => h.look_bind fun _ => h.bind (h.check _ _) fun _ =>
      h.bind (h.check_of _) fun _ => h.bind (h.lenEncode _ _ _) fun _ => h.lenCountDown _ _⟩
  | .distEnc => ⟨_, fun _ => rfl, h.look_bind fun _ => h.look_bind fun _ => h.bind (h.check _ _) fun _ =>
      h.bind (h.distEncode _ _) fun _ => h.put⟩
  | .repUse => ⟨_, fun _ => rfl, h.look_bind fun _ => h.bind (h.check _ _) fun _ => h.bind (h.decoder.repUse _) fun _ =>
      h.put⟩
  | .repPush => ⟨_, fun _ => rfl, h.look_bind fun _ => h.put⟩
  | .optGetOptimum => ⟨_, fun _ => rfl, h.look_bind fun _ => h.bind (h.parser.getOptimum _) fun _ =>
    h.bind h.put fun _ =>
      h.put⟩
  | .priceFillDist => ⟨_, fun _ => rfl, h.fillDistancesPrices⟩
  | .priceFillAlign => ⟨_, fun _ => rfl, h.fillAlignPrices⟩
  | .priceLenTable _ => ⟨_, fun _ => rfl, h.look_bind fun _ => h.bind (h.check_of _) fun _ => h.updateLenTable _ _⟩
  | .encStart => ⟨_, fun _ => rfl, h.encStart⟩
  | .hdrWrite => ⟨_, fun _ => rfl, h.look_bind fun _ => h.bind (h.check _ _) fun _ => h.look_bind fun _ =>
      h.bind (h.sinkWrite _) fun _ => h.bind (h.sinkWrite _) fun _ => h.bind (h.sinkWrite _) fun _ =>
        h.bind (h.sinkWrite _) fun _ => h.sinkWrite _⟩
  | .encStep => ⟨_, fun _ => rfl, h.encStep⟩
  | .encRun => ⟨_, fun _ => rfl, h.bind (h.encRunLoop _) fun _ => h.put⟩
  | .encSymbol => ⟨_, fun _ => rfl, h.look_bind fun _ => h.look_bind fun _ => h.bind (h.check _ _) fun _ =>
      h.encodeSymbol _ _⟩
  | .encFinish => ⟨_, fun _ => rfl, h.encFinishStream⟩
  | .hdrRead => ⟨_, fun _ => rfl, h.hdrRead⟩
  | .decStart => ⟨_, fun _ => rfl, h.decStart⟩

end

end Sys2Proof.Machine
end

section
/-! SUPPORT. The commands without side effects (O17). -/

namespace Sys2Proof.Machine

/-- A computation that changes R0 and R1 at most, completed or faulted, and never waits. -/
def OnlyAnswers {α : Type} (f : Eng α) : Prop :=
  ∀ s, ∃ r0 r1, (∃ a, f s = .ok a (results r0 r1 s)) ∨ ∃ c, f s = .error .ended (faultEntry c (results r0 r1 s))

theorem onlyAnswers_acts {ι : Type} (φ : ι → State → State) : Acts resultsRest φ OnlyAnswers where
  pure := fun a s => ⟨s.x.r0, s.x.r1, .inl ⟨a, rfl⟩⟩
  look := fun {_ f} _ s => ⟨s.x.r0, s.x.r1, .inl ⟨f s, rfl⟩⟩
  raise := fun c _ s => ⟨s.x.r0, s.x.r1, .inr ⟨c, rfl⟩⟩
  update := fun {u} hu _ s => by
    have e : u s = results (u s).x.r0 (u s).x.r1 (resultsRest (u s)) := rfl
    rw [hu s] at e
    exact ⟨_, _, .inl ⟨(), congrArg (EStateM.Result.ok ()) e⟩⟩
  bind := fun hf hg s => by
    obtain ⟨r0, r1, ⟨a, e⟩ | ⟨c, e⟩⟩ := hf s
    · obtain ⟨q0, q1, ha⟩ := hg a (results r0 r1 s)
      rw [Eng.bind_ok e]
      exact ⟨q0, q1, ha⟩
    · exact ⟨r0, r1, .inr ⟨c, Eng.bind_error e _⟩⟩

/-- What a command without side effects ends in. -/
def answered (r0 r1 : Word) (e : ErrCode) (s : State) : State :=
  { results r0 r1 s with status := { s.status with err := e } }

/-- A fault of a command that has changed R0 and R1 at most. -/
theorem faultEntry_results (c : ErrCode) (r0 r1 : Word) (s : State) :
    faultEntry c (results r0 r1 s) = answered 0#32 0#32 (s.status.record c).err s := by
  unfold faultEntry answered Status.record results
  split <;> rfl

theorem record_err_of_err {t : Status} (h : t.err ≠ .none) (c : ErrCode) : (t.record c).err = t.err := by
  rw [Status.record, if_neg h]

/-- A next state in which R0, R1 and, without an error before, STATUS.ERR may differ. -/
def Answers (s : State) (o : Host.Outcome State Fault Refusal) : Prop :=
  ∃ r0 r1 e, o = .next (answered r0 r1 e s) ∧ (s.status.err ≠ .none → e = s.status.err)

theorem answers_results (r0 r1 : Word) (s : State) : Answers s (.next (results r0 r1 s)) :=
  ⟨r0, r1, s.status.err, rfl, fun _ => rfl⟩

theorem answers_faultEntry (c : ErrCode) (r0 r1 : Word) (s : State) :
    Answers s (.next (faultEntry c (results r0 r1 s))) :=
  ⟨0#32, 0#32, _, congrArg _ (faultEntry_results c r0 r1 s), fun h => record_err_of_err h c⟩

/-- A command whose rule changes R0 and R1 at most. -/
theorem command_answers {i : Instr} {g : Gate} {body : Eng Unit} (hb : OnlyAnswers body) (s : State) :
    Answers s (command i g body s) := by
  rcases command_cases i g body s with ⟨_, _, e⟩ | ⟨_, _, e⟩ | ⟨_, _, ⟨_, e⟩ | ⟨_, e⟩ | ⟨_, e⟩⟩ <;> rw [e]
  · exact answers_results 0 0 s
  · exact answers_faultEntry _ 0 0 s
  · obtain ⟨r0, r1, ⟨_, hr⟩ | ⟨c, hr⟩⟩ := hb (clearResults s) <;> rw [hr]
    · exact answers_results r0 r1 s
    · exact answers_faultEntry c r0 r1 s
  · exact answers_results 0 0 s
  · exact answers_faultEntry _ 0 0 s

/-- Settles O17: the rule of every such command is made of reads, checks, and writes of R0 and R1 (`Acts.readOnly`). -/
theorem readOnlyCommands : Obligations.ReadOnlyCommands := by
  unfold Obligations.ReadOnlyCommands
  intro i s hi
  obtain ⟨body, e, hb⟩ := (onlyAnswers_acts withRoom).readOnly hi
  rw [e]
  exact command_answers hb s

end Sys2Proof.Machine
end

section
/-! SUPPORT. Two states a command does not tell apart: another room of the sink (O16), and other contents of the encoder
for the decoder's commands (O21). -/

namespace Sys2Proof.Machine

/-- A result with its end state changed. -/
def mapEnd {α : Type} (ψ : State → State) : EStateM.Result Stop State α → EStateM.Result Stop State α
  | .ok a t => .ok a (ψ t)
  | .error e t => .error e (ψ t)

/-- A change of the state that the checks of every command do not see, and that fault entry does not touch. -/
structure Unseen (ψ : State → State) : Prop where
  status : ∀ s, (ψ s).status = s.status
  clear : ∀ s, clearResults (ψ s) = ψ (clearResults s)
  fault : ∀ c s, faultEntry c (ψ s) = ψ (faultEntry c s)
  gate : ∀ (g : Gate) s, g.answer (ψ s) = g.answer s

/-- Such a change leaves a command where it was: at its rule, or at an end before it that keeps the host's side. -/
theorem Unseen.command_cases {ψ : State → State} (h : Unseen ψ) (i : Instr) (g : Gate) (body : Eng Unit) (s : State) :
    (∃ u, u.host = s.host ∧ command i g body s = .next u ∧ command i g body (ψ s) = .next (ψ u)) ∨
    (command i g body s = finish (body (clearResults s)) ∧
      command i g body (ψ s) = finish (body (ψ (clearResults s)))) := by
  have hs := h.status (clearResults s)
  have hg := h.gate g (clearResults s)
  unfold command
  simp only [h.clear, h.fault, hs, hg]
  split
  · exact .inl ⟨clearResults s, rfl, rfl, rfl⟩
  · split
    · exact .inl ⟨faultEntry .illegalCmd (clearResults s), rfl, rfl, rfl⟩
    · cases g.answer (clearResults s) with
      | run => exact .inr ⟨rfl, rfl⟩
      | skip => exact .inl ⟨clearResults s, rfl, rfl, rfl⟩
      | refuse => exact .inl ⟨faultEntry .seqError (clearResults s), rfl, rfl, rfl⟩

/-! ### The decoder and the encoder's contents -/

/-- The encoder's registers and RAMs of another state. -/
def otherEncoder (e s : State) : State := withEncoder (s.host.sinkRoom, e) s

/-- A computation that does the same with other contents of the encoder. -/
def IgnoresEncoder (e : State) {α : Type} (f : Eng α) : Prop :=
  ∀ s, f (otherEncoder e s) = mapEnd (otherEncoder e) (f s)

theorem ignoresEncoder_streams (e : State) : Streams decoderRest withEncoder (IgnoresEncoder e) where
  pure := fun _ _ => rfl
  raise := fun _ _ _ => rfl
  look := fun {_ f} hf s => congrArg (fun a => EStateM.Result.ok a (otherEncoder e s)) (hf (s.host.sinkRoom, e) s)
  update := fun {u} hu hφ s => congrArg (EStateM.Result.ok ()) ((hφ (s.host.sinkRoom, e) s).trans
    (congrArg (fun r => withEncoder (r, e) (u s)) (congrArg (fun t => t.host.sinkRoom) (hu s)).symm))
  bind := fun {_ _ f g} hf hg s => by
    rw [Eng.bind_run, hf s, Eng.bind_run]
    cases f s with
    | ok a t => exact hg a t
    | error x t => rfl
  srcRead := fun s => by
    unfold srcRead otherEncoder withEncoder withRoom
    dsimp only
    split
    · rfl
    · split
      · rfl
      · split <;> rfl
  sinkWrite := fun b s => by
    unfold sinkWrite otherEncoder withEncoder withRoom
    dsimp only
    split <;> rfl

theorem unseen_otherEncoder (e : State) : Unseen (otherEncoder e) where
  status := fun _ => rfl
  clear := fun _ => rfl
  fault := fun _ _ => rfl
  gate := fun g _ => by cases g <;> rfl

/-- Settles O21: no rule of the decoder reads the encoder's side (`Streams.decoderCommand`). -/
theorem decoderIgnoresEncoder : Obligations.DecoderIgnoresEncoder := by
  unfold Obligations.DecoderIgnoresEncoder
  intro i s e hi other
  obtain ⟨body, hexec, hb⟩ := (ignoresEncoder_streams e).decoderCommand hi
  rw [hexec, hexec]
  rcases (unseen_otherEncoder e).command_cases i (gateOf i) body s with ⟨u, _, hs, hψ⟩ | ⟨hs, hψ⟩
  · rw [hs]
    exact hψ
  · rw [hs]
    refine hψ.trans ?_
    rw [hb]
    rcases body (clearResults s) with t | ⟨_ | f, t⟩ <;> rfl

end Sys2Proof.Machine
end

section
/-! SUPPORT. Back-pressure (O16): with a sink that takes `total` bytes in all, a computation ends as it does with a sink
that takes every byte, or waits for the sink at the first byte too many. -/

namespace Sys2Proof.Machine

/-- A sink that holds `total` bytes in all. -/
def squeeze (total : Nat) (s : State) : State := withRoom (some (total - s.host.sink.length)) s

/-- `r` ends with a free sink that has only grown from `s` on. -/
structure Grows {α : Type} (s : State) (r : EStateM.Result Stop State α) : Prop where
  free : (endState r).host.sinkRoom = none
  grows : s.host.sink.length ≤ (endState r).host.sink.length

/-- `r'` is `r` as a sink of `total` bytes has it. -/
structure Limited {α : Type} (total : Nat) (r r' : EStateM.Result Stop State α) : Prop where
  fits : (endState r).host.sink.length ≤ total → r' = mapEnd (squeeze total) r
  waits : total < (endState r).host.sink.length → ∃ u, r' = .error (.stuck .sinkWait) u

/-- A computation that a smaller sink makes wait, and changes nothing else of. -/
def Squeezes {α : Type} (f : Eng α) : Prop := ∀ s, s.host.sinkRoom = none →
  Grows s (f s) ∧ ∀ total, s.host.sink.length ≤ total → Limited total (f s) (f (squeeze total s))

/-- A computation that neither sees the room nor writes a byte. -/
theorem squeezes_of_blind {α : Type} {f : Eng α} (hs : ∀ s, sinkSide (endState (f s)) = sinkSide s)
    (hf : ∀ r s, f (withRoom r s) = mapEnd (withRoom r) (f s)) : Squeezes f := fun s hfree => by
  have hsink : (endState (f s)).host.sink = s.host.sink := congrArg Prod.fst (hs s)
  refine ⟨⟨(congrArg Prod.snd (hs s)).trans hfree, by rw [hsink]⟩, fun total hle => ⟨fun _ => ?_, fun hlt => ?_⟩⟩
  · have e : mapEnd (withRoom (some (total - s.host.sink.length))) (f s) = mapEnd (squeeze total) (f s) := by
      cases hr : f s with
      | ok a t =>
        rw [hr] at hsink
        rw [mapEnd, mapEnd, squeeze, ← hsink]
        rfl
      | error x t =>
        rw [hr] at hsink
        rw [mapEnd, mapEnd, squeeze, ← hsink]
        rfl
    exact (hf _ s).trans e
  · rw [hsink] at hlt
    omega

theorem Squeezes.bind {α β : Type} {f : Eng α} {g : α → Eng β} (hf : Squeezes f) (hg : ∀ a, Squeezes (g a)) :
    Squeezes (f >>= g) := fun s hfree => by
  obtain ⟨⟨hfree', hgrow⟩, hlim⟩ := hf s hfree
  cases hr : f s with
  | error x t =>
    rw [hr] at hfree' hgrow hlim
    rw [Eng.bind_error hr]
    refine ⟨⟨hfree', hgrow⟩, fun total hle => ⟨fun hfit => ?_, fun hlt => ?_⟩⟩
    · exact Eng.bind_error ((hlim total hle).fits hfit) g
    · obtain ⟨u, e⟩ := (hlim total hle).waits hlt
      exact ⟨u, Eng.bind_error e g⟩
  | ok a t =>
    rw [hr] at hfree' hgrow hlim
    obtain ⟨⟨hfree2, hgrow2⟩, hlim2⟩ := hg a t hfree'
    rw [Eng.bind_ok hr]
    refine ⟨⟨hfree2, hgrow.trans hgrow2⟩, fun total hle => ?_⟩
    by_cases hmid : t.host.sink.length ≤ total
    · rw [Eng.bind_ok ((hlim total hle).fits hmid)]
      exact hlim2 total hmid
    · obtain ⟨u, e⟩ := (hlim total hle).waits (Nat.lt_of_not_le hmid)
      rw [Eng.bind_error e]
      exact ⟨fun hfit => absurd (hgrow2.trans hfit) hmid, fun _ => ⟨u, rfl⟩⟩

theorem sinkWrite_squeezes (b : Byte) : Squeezes (sinkWrite b) := fun s hfree => by
  rw [sinkWrite_free hfree]
  refine ⟨⟨hfree, Nat.le_succ _⟩, fun total hle => ⟨fun hfit => ?_, fun hlt => ⟨squeeze total s, ?_⟩⟩⟩
  · have hroom : total - s.host.sink.length = total - (s.host.sink.length + 1) + 1 := by
      have : s.host.sink.length + 1 ≤ total := hfit
      omega
    unfold squeeze withRoom sinkWrite
    rw [hroom]
    rfl
  · have hroom : total - s.host.sink.length = 0 := by
      have : total < s.host.sink.length + 1 := hlt
      omega
    unfold squeeze withRoom sinkWrite
    rw [hroom]

theorem srcRead_squeezes : Squeezes srcRead := by
  refine squeezes_of_blind (fun s => ?_) fun r s => ?_
  · rcases srcRead_cases s with ⟨_, e⟩ | ⟨_, _, _, _, e⟩ | ⟨_, _, _, e⟩ | ⟨_, _, _, e⟩ <;> rw [e] <;> rfl
  · unfold srcRead withRoom
    dsimp only
    split
    · rfl
    · split
      · rfl
      · split <;> rfl

theorem squeezes_streams : Streams sinkSide withRoom Squeezes where
  pure := fun _ => squeezes_of_blind (fun _ => rfl) fun _ _ => rfl
  raise := fun _ _ => squeezes_of_blind (fun _ => rfl) fun _ _ => rfl
  look := fun hf => squeezes_of_blind (fun _ => rfl) fun r s =>
    congrArg (fun a => EStateM.Result.ok a (withRoom r s)) (hf r s)
  update := fun hu hφ => squeezes_of_blind hu fun r s => congrArg (EStateM.Result.ok ()) (hφ r s)
  bind := .bind
  srcRead := srcRead_squeezes
  sinkWrite := sinkWrite_squeezes

theorem unseen_squeeze (total : Nat) : Unseen (squeeze total) where
  status := fun _ => rfl
  clear := fun _ => rfl
  fault := fun _ _ => rfl
  gate := fun g _ => by cases g <;> rfl

/-- Settles O16: every rule is made of parts that do not see the sink's room, and of bytes written to the sink
(`squeezes_streams`, `Streams.command`). -/
theorem sinkBackPressure : Obligations.SinkBackPressure := by
  unfold Obligations.SinkBackPressure
  intro i s t room hfree ht
  obtain ⟨body, hexec, hb⟩ := squeezes_streams.command i
  have hstart : { s with host := { s.host with sinkRoom := some room } } = squeeze (s.host.sink.length + room) s := by
    rw [squeeze, Nat.add_sub_cancel_left]
    rfl
  rw [hexec] at ht
  rw [hstart, hexec]
  rcases (unseen_squeeze (s.host.sink.length + room)).command_cases i (gateOf i) body s with ⟨u, hu, hs, hψ⟩ | ⟨hs, hψ⟩
  · cases hs.symm.trans ht
    rw [hψ, if_pos (by rw [hu]; exact Nat.le_add_right _ _)]
    rfl
  · obtain ⟨-, hlim⟩ := hb (clearResults s) hfree
    obtain ⟨hfits, hwaits⟩ := hlim (s.host.sink.length + room) (Nat.le_add_right _ _)
    have hend : endState (body (clearResults s)) = t := by
      rcases finish_eq_next.1 (hs.symm.trans ht) with e | e <;> rw [e] <;> rfl
    rw [hψ]
    rw [hend] at hfits hwaits
    split
    · next hle =>
      rw [hfits hle]
      rcases finish_eq_next.1 (hs.symm.trans ht) with e | e <;> rw [e] <;> rfl
    · next hlt =>
      obtain ⟨u, e⟩ := hwaits (Nat.lt_of_not_le hlt)
      rw [e, finish_stuck]

end Sys2Proof.Machine
end

section
/-! SUPPORT. The frame of the match finder and parser commands (O19). -/

namespace Sys2Proof.Machine

/-- All but the source, the results and what fault entry writes. -/
def sourceRest (s : State) : State :=
  { s with
    host := { s.host with src := [] }
    cnt := { s.cnt with inCount := 0 }
    status := { s.status with err := .none, srcEof := false }
    x := { s.x with r0 := 0, r1 := 0 } }

/-- Of a unit that keeps `ρ`, faults and source reads keep this much. -/
theorem keeps_refills {ι : Type} {φ : ι → State → State} {ρ : State → State}
    (hfault : ∀ c s, sourceRest (ρ (faultEntry c s)) = sourceRest (ρ s))
    (htaken : ∀ rest s, sourceRest (ρ (bytePopped rest s)) = sourceRest (ρ s))
    (hended : ∀ s, sourceRest (ρ { s with status := { s.status with srcEof := true } }) = sourceRest (ρ s)) :
    Refills ρ φ (Keeps (fun s => sourceRest (ρ s))) where
  toActs := { Keeps.acts (φ := φ) hfault with update := fun hu _ => .put fun s => congrArg sourceRest (hu s) }
  srcRead := fun s => by
    rcases srcRead_cases s with ⟨_, e⟩ | ⟨_, rest, _, _, e⟩ | ⟨_, _, _, e⟩ | ⟨_, _, _, e⟩ <;> rw [e]
    · rfl
    · exact htaken rest s
    · exact hended s
    · rfl

/-- Fault entry writes nothing of the host's side, and of STATUS the error alone. -/
theorem faultEntry_eq (c : ErrCode) (s : State) : faultEntry c s =
    { s with status := { s.status with err := (s.status.record c).err }, x := { s.x with r0 := 0, r1 := 0 } } := by
  unfold faultEntry Status.record
  split <;> rfl

theorem finder_keeps : Refills finderRest withRoom (Keeps fun s => sourceRest (finderRest s)) :=
  keeps_refills (fun c s => by rw [faultEntry_eq]; rfl) (fun _ _ => rfl) fun _ => rfl

theorem search_keeps : Refills searchRest withRoom (Keeps fun s => sourceRest (searchRest s)) :=
  keeps_refills (fun c s => by rw [faultEntry_eq]; rfl) (fun _ _ => rfl) fun _ => rfl

theorem parser_keeps : Refills parserRest withRoom (Keeps fun s => sourceRest (parserRest s)) :=
  keeps_refills (fun c s => by rw [faultEntry_eq]; rfl) (fun _ _ => rfl) fun _ => rfl

/-- The match finder's trees, and what the window leaves alone. -/
theorem window_keeps : Refills windowRest withRoom (Keeps fun s => sourceRest (windowRest s)) :=
  keeps_refills (fun c s => by rw [faultEntry_eq]; rfl) (fun _ _ => rfl) fun _ => rfl

/-- R0 and R1 are 0. -/
def NoResults (s : State) : Prop := s.x.r0 = 0#32 ∧ s.x.r1 = 0#32

theorem finder_noResults : Refills finderRest withRoom (Preserves NoResults) where
  pure := .pure
  bind := .bind
  look := fun _ _ hs => hs
  raise := fun _ _ _ _ => ⟨rfl, rfl⟩
  update := fun hu _ s hs => by
    have hx : (_ : State).x = s.x := congrArg (fun t => t.x) (hu s)
    exact ⟨(congrArg XRegs.r0 hx).trans hs.1, (congrArg XRegs.r1 hx).trans hs.2⟩
  srcRead := fun s hs => by
    rcases srcRead_cases s with ⟨_, e⟩ | ⟨_, _, _, _, e⟩ | ⟨_, _, _, e⟩ | ⟨_, _, _, e⟩ <;> rw [e]
    · exact hs
    · exact hs
    · exact hs
    · trivial

/-- `t` with all but the finder's, the parser's and the source's parts of `s`. -/
def finderChanged (t s : State) : State :=
  { s with
    win := { s.win with bufOffset := t.win.bufOffset, pos := t.win.pos, streamPos := t.win.streamPos,
                        posLimit := t.win.posLimit, streamEnd := t.win.streamEnd }
    mf := { s.mf with cycPos := t.mf.cycPos, numPairs := t.mf.numPairs }
    wbuf := t.wbuf, son := t.son, hash := t.hash, matchBuf := t.matchBuf, opt := t.opt, enc := t.enc
    host := { s.host with src := t.host.src }
    cnt := { s.cnt with inCount := t.cnt.inCount }
    status := { s.status with err := t.status.err, srcEof := t.status.srcEof }
    x := { s.x with r0 := t.x.r0, r1 := t.x.r1 } }

theorem eq_finderChanged {s t : State} (h : sourceRest (parserRest t) = sourceRest (parserRest s)) :
    t = finderChanged t s := by
  have e := congrArg (finderChanged t) h
  dsimp only [finderChanged, sourceRest, parserRest, searchRest, finderRest, windowRest] at e
  exact e

/-- Of two states that agree in what `MfMovePos` may not change, the trees and MF.cbs are the same. -/
theorem trees_eq {s t : State} (h : sourceRest (windowRest t) = sourceRest (windowRest s)) :
    t.son = s.son ∧ t.hash = s.hash ∧ t.mf.cbs = s.mf.cbs := by
  have hson := congrArg State.son h
  have hhash := congrArg State.hash h
  have hmf := congrArg State.mf h
  exact ⟨hson, hhash, congrArg MfRegs.cbs hmf⟩

/-- `MfMovePos` rebases at one position only, and then stands at MF.cbs (R250, R254). -/
theorem mfMovePos_keeps_trees (s : State) (hpos : (endState (mfMovePos s)).win.pos ≠ s.mf.cbs) :
    (endState (mfMovePos s)).son = s.son ∧ (endState (mfMovePos s)).hash = s.hash := by
  have hkept := window_keeps.winMovePos { s with mf := { s.mf with cycPos := nextCycPos s.mf } }
  rw [mfMovePos, Eng.bind_put] at hpos ⊢
  cases hr : winMovePos { s with mf := { s.mf with cycPos := nextCycPos s.mf } } with
  | error e t =>
    rw [hr] at hkept
    obtain ⟨hson, hhash, -⟩ := trees_eq hkept
    rw [Eng.bind_error hr]
    exact ⟨hson, hhash⟩
  | ok a t =>
    rw [hr] at hkept
    obtain ⟨hson, hhash, hcbs⟩ := trees_eq hkept
    have hcbs : t.mf.cbs = s.mf.cbs := hcbs
    rw [Eng.bind_ok hr, Eng.bind_look] at hpos ⊢
    split at hpos
    · exact absurd (show t.win.pos - (t.win.pos - t.mf.cbs) = s.mf.cbs by rw [hcbs]; bv_omega) hpos
    · next hne =>
      rw [if_neg hne]
      exact ⟨hson, hhash⟩

/-- Of a command whose rule keeps this much, the whole does. -/
theorem sourceRest_of_command {ρ : State → State} {i : Instr} {g : Gate} {body : Eng Unit} {s t : State}
    (ht : command i g body s = .next t) (h : Keeps (fun s => sourceRest (ρ s)) body)
    (hclear : ∀ s, sourceRest (ρ (clearResults s)) = sourceRest (ρ s))
    (hfault : ∀ c s, sourceRest (ρ (faultEntry c s)) = sourceRest (ρ s)) :
    sourceRest (ρ t) = sourceRest (ρ s) :=
  Keeps.command (π := fun s => sourceRest (ρ s)) ht h hclear hfault

/-- The four commands keep all but the window, the match finder and the parser. -/
theorem parserRest_of_exec {i : Instr} {s t : State}
    (hi : i = .mfMovePos ∨ i = .mfSkip ∨ i = .mfGetMatches ∨ i = .optGetOptimum) (ht : exec i s = .next t) :
    sourceRest (parserRest t) = sourceRest (parserRest s) := by
  have h := parser_keeps
  have put (v : Word) : Keeps (fun s => sourceRest (parserRest s)) (setR0 v) := .put fun _ => rfl
  have of {i : Instr} {body : Eng Unit} (ht : command i .enc body s = .next t)
      (hb : Keeps (fun s => sourceRest (parserRest s)) body) : sourceRest (parserRest t) = sourceRest (parserRest s) :=
    sourceRest_of_command ht hb (fun _ => rfl) fun c s => by rw [faultEntry_eq]; rfl
  rcases hi with rfl | rfl | rfl | rfl
  · exact of ht h.search.finder.mfMovePos
  · exact of ht (h.look_bind fun _ => h.search.finder.mfSkip _)
  · exact of ht (h.bind h.search.mfGetMatches fun _ => h.bind (put _) fun _ =>
      h.ite_bind (h.pure _) (h.matchRead _) fun _ => .put fun _ => rfl)
  · exact of ht (h.look_bind fun _ => h.bind (h.getOptimum _) fun _ => h.bind (put _) fun _ => .put fun _ => rfl)

/-- The match finder's commands keep all but the window and the match finder. -/
theorem searchRest_of_exec {i : Instr} {s t : State} (hi : i = .mfMovePos ∨ i = .mfSkip ∨ i = .mfGetMatches)
    (ht : exec i s = .next t) : sourceRest (searchRest t) = sourceRest (searchRest s) := by
  have h := search_keeps
  have put (v : Word) : Keeps (fun s => sourceRest (searchRest s)) (setR0 v) := .put fun _ => rfl
  have of {i : Instr} {body : Eng Unit} (ht : command i .enc body s = .next t)
      (hb : Keeps (fun s => sourceRest (searchRest s)) body) : sourceRest (searchRest t) = sourceRest (searchRest s) :=
    sourceRest_of_command ht hb (fun _ => rfl) fun c s => by rw [faultEntry_eq]; rfl
  rcases hi with rfl | rfl | rfl
  · exact of ht h.finder.mfMovePos
  · exact of ht (h.look_bind fun _ => h.finder.mfSkip _)
  · exact of ht (h.bind h.mfGetMatches fun _ => h.bind (put _) fun _ =>
      h.ite_bind (h.pure _) (h.matchRead _) fun _ => .put fun _ => rfl)

/-- A rule of the match finder in a command of its own: MATCHES and its count stay, and there are no results. -/
theorem finderRest_of_command {i : Instr} {body : Eng Unit} {s t : State}
    (hkeeps : Keeps (fun s => sourceRest (finderRest s)) body) (hresults : Preserves NoResults body)
    (ht : command i .enc body s = .next t) :
    t.matchBuf = s.matchBuf ∧ t.mf.numPairs = s.mf.numPairs ∧ t.x.r0 = 0#32 ∧ t.x.r1 = 0#32 := by
  have hkept : sourceRest (finderRest t) = sourceRest (finderRest s) :=
    sourceRest_of_command ht hkeeps (fun _ => rfl) fun c s => by rw [faultEntry_eq]; rfl
  obtain ⟨h0, h1⟩ : NoResults t :=
    Preserves.command ht (fun _ => hresults _ ⟨rfl, rfl⟩) ⟨rfl, rfl⟩ fun _ => ⟨rfl, rfl⟩
  have hbuf := congrArg State.matchBuf hkept
  have hpairs := congrArg MfRegs.numPairs (congrArg State.mf hkept)
  exact ⟨hbuf, hpairs, h0, h1⟩

theorem finderRest_of_exec {i : Instr} {s t : State} (hi : i = .mfMovePos ∨ i = .mfSkip) (ht : exec i s = .next t) :
    t.matchBuf = s.matchBuf ∧ t.mf.numPairs = s.mf.numPairs ∧ t.x.r0 = 0#32 ∧ t.x.r1 = 0#32 := by
  rcases hi with rfl | rfl
  · exact finderRest_of_command finder_keeps.mfMovePos finder_noResults.mfMovePos ht
  · exact finderRest_of_command (finder_keeps.look_bind fun _ => finder_keeps.mfSkip _)
      (finder_noResults.look_bind fun _ => finder_noResults.mfSkip _) ht

theorem mfMovePos_trees_of_exec {s t : State} (ht : exec .mfMovePos s = .next t) (hpos : t.win.pos ≠ s.mf.cbs) :
    t.son = s.son ∧ t.hash = s.hash := by
  rcases command_cases .mfMovePos .enc mfMovePos s with ⟨_, _, e⟩ | ⟨_, _, e⟩ | ⟨_, _, ⟨_, e⟩ | ⟨_, e⟩ | ⟨_, e⟩⟩
  case inr.inr.inl =>
    have hend : t = endState (mfMovePos (clearResults s)) := by
      rcases finish_eq_next.1 (e.symm.trans ht) with e | e <;> rw [e] <;> rfl
    subst hend
    exact mfMovePos_keeps_trees (clearResults s) hpos
  all_goals
    cases e.symm.trans ht
    exact ⟨rfl, rfl⟩

/-- Settles O19: the units' frames (`parser_keeps`, `search_keeps`, `finder_keeps`, `window_keeps`), one a clause. -/
theorem finderFrame : Obligations.FinderFrame := by
  unfold Obligations.FinderFrame
  intro i s t hi ht
  refine ⟨eq_finderChanged (parserRest_of_exec hi ht), fun hne => ?_, fun hm => finderRest_of_exec hm ht, ?_⟩
  · have h := searchRest_of_exec (by tauto) ht
    have hopt := congrArg State.opt h
    have henc := congrArg State.enc h
    exact ⟨hopt, henc⟩
  · rintro rfl hpos
    exact mfMovePos_trees_of_exec ht fun e => hpos (congrArg BitVec.toNat e)

end Sys2Proof.Machine
end

section
/-! SUPPORT. The end of an encoder stream in closed form (R442, R443, R482, R483): the prices a refresh reads, the
length counters, the end marker and the flush. -/

namespace Sys2Proof.Machine

/-! ### The prices of the length coder (R377, R442) -/

/-- A rule answers the price of a path of bits and changes nothing. -/
def Prices (f : Eng Word) (path : List CodedBit) : Prop :=
  ∀ s, TablesReady s → PathFits s.prob.size path → f s = .ok (pathCost s path) s

theorem bitPrice_run {p : Prob} (h : 31 ≤ p.toNat ∧ p.toNat ≤ 2017) (b : Bool) (s : State) :
    bitPrice p b s = .ok (bitCost p b) s := by
  cases b
  · have e : p.toNat >>> 2 = p.toNat / 4 := Nat.shiftRight_eq_div_pow _ 2
    exact (if_pos (by omega)).trans (by rw [e]; rfl)
  · have e : (2048 - p.toNat) >>> 2 = (2048 - p.toNat) / 4 := Nat.shiftRight_eq_div_pow _ 2
    exact (if_pos (by omega)).trans (by rw [e]; rfl)

theorem nodePrice_run {s : State} (hs : TablesReady s) {i : Word} (hi : i.toNat < s.prob.size) (b : Bool) :
    nodePrice i b s = .ok (bitCost (s.prob.get i.toNat) b) s :=
  (Eng.bind_ok (ramRead_ok hi) _).trans (bitPrice_run (hs.range _) b s)

theorem btPriceFrom_run (base sym : Word) {s : State} (hs : TablesReady s) : ∀ (k m : Nat) (price : Word),
    PathFits s.prob.size (treeFrom base sym k m) →
    btPriceFrom base sym k (BitVec.ofNat 32 m) price s = .ok (price + pathCost s (treeFrom base sym k m)) s
  | 0, _, price, _ => congrArg (EStateM.Result.ok · s) (BitVec.add_zero price).symm
  | k + 1, m, price, hf => by
    rw [treeFrom, pathFits_cons] at hf
    rw [btPriceFrom, childNode_ofNat, Eng.bind_ok (nodePrice_run hs hf.1 _), btPriceFrom_run base sym hs k _ _ hf.2,
      BitVec.add_assoc]
    rfl

theorem btPrice_prices (base sym : Word) (n : Nat) :
    Prices (btPrice base n sym) (treePath base n sym) := fun s hs hf => by
  have e : treeFrom base sym n 1 = treePath base n sym := by rw [treeFrom_eq]; simp [treePath]
  rw [← e] at hf ⊢
  exact (btPriceFrom_run base sym hs n 1 0#32 hf).trans (by rw [BitVec.zero_add])

/-- One bit priced, then a path. -/
theorem Prices.cons {i : Word} {b : Bool} {f : Eng Word} {path : List CodedBit} (hf : Prices f path) :
    Prices (nodePrice i b >>= fun c => f >>= fun t => pure (c + t)) (.model i b :: path) := fun s hs hp => by
  rw [pathFits_cons] at hp
  rw [Eng.bind_ok (nodePrice_run hs hp.1 b), Eng.bind_ok (hf s hs hp.2)]
  rfl

/-- Two bits priced, then a path. -/
theorem Prices.cons_cons {i j : Word} {b d : Bool} {f : Eng Word} {path : List CodedBit} (hf : Prices f path) :
    Prices (nodePrice i b >>= fun c => nodePrice j d >>= fun c2 => f >>= fun t => pure (c + c2 + t))
      (.model i b :: .model j d :: path) := fun s hs hp => by
  rw [pathFits_cons, pathFits_cons] at hp
  rw [Eng.bind_ok (nodePrice_run hs hp.1 b), Eng.bind_ok (nodePrice_run hs hp.2.1 d), Eng.bind_ok (hf s hs hp.2.2)]
  exact congrArg (EStateM.Result.ok · s) (BitVec.add_assoc _ _ _)

theorem lenPrice_prices (k : Bool) (sym ps : Word) : Prices (lenPrice (lenCoder k) sym ps) (lengthPath k sym ps) := by
  unfold lenPrice lengthPath
  split
  · exact (btPrice_prices _ _ _).cons
  · split
    · exact (btPrice_prices _ _ _).cons_cons
    · exact (btPrice_prices _ _ _).cons_cons

theorem PathFits.mono {n m : Nat} {path : List CodedBit} (h : PathFits n path) (hnm : n ≤ m) : PathFits m path :=
  fun c hc => by
    have hfit := h c hc
    cases c with
    | model i b => exact Nat.lt_of_lt_of_le hfit hnm
    | direct b => trivial

/-- The length coders end at entry 1846 (R375). -/
theorem lengthPath_fits (k : Bool) (sym : Word) {ps : Word} (hps : ps.toNat < 16) :
    PathFits 1846 (lengthPath k sym ps) := by
  have hl : (lengthBase k).toNat ≤ 1332 := by cases k <;> decide
  have hfirst (b : Bool) : (CodedBit.model (lengthBase k) b).fits 1846 := by
    show (lengthBase k).toNat < 1846
    omega
  have hnext (b : Bool) : (CodedBit.model (lengthBase k + 1#32) b).fits 1846 := by
    show (lengthBase k + 1#32).toNat < 1846
    bv_omega
  unfold lengthPath
  split
  · exact pathFits_cons.2 ⟨hfirst _, treePath_fits _ (by bv_omega)⟩
  · split
    · exact pathFits_cons.2 ⟨hfirst _, pathFits_cons.2 ⟨hnext _, treePath_fits _ (by bv_omega)⟩⟩
    · exact pathFits_cons.2 ⟨hfirst _, pathFits_cons.2 ⟨hnext _, treePath_fits _ (by bv_omega)⟩⟩

theorem pathCost_congr {s t : State} (h : t.prob = s.prob) (path : List CodedBit) :
    pathCost t path = pathCost s path := by
  induction path with
  | nil => rfl
  | cons c path ih => cases c <;> simp only [pathCost, h, ih]

/-! ### The length tables (R442, R443) -/

/-- A length coder's price table. -/
def lengthPrices (k : Bool) (s : State) : Ram Word 0#32 := if k then s.price.lenRep else s.price.lenMatch

/-- A length coder's price table written. -/
def setLengthPrices (k : Bool) (r : Ram Word 0#32) (s : State) : State :=
  if k then { s with price := { s.price with lenRep := r } } else { s with price := { s.price with lenMatch := r } }

/-- The entries of one position state's row from symbol `i` on, `n` of them. -/
def rowRefreshed (s : State) (k : Bool) (ps : Word) (i n : Nat) (r : Ram Word 0#32) : Ram Word 0#32 :=
  (List.range' i n).foldl
    (fun r j => r.set (ps.toNat * 272 + j) (pathCost s (lengthPath k (BitVec.ofNat 32 j) ps))) r

theorem rowRefreshed_congr {s t : State} (h : t.prob = s.prob) (k : Bool) (ps : Word) (i n : Nat) :
    rowRefreshed t k ps i n = rowRefreshed s k ps i n := by
  unfold rowRefreshed
  simp only [pathCost_congr h]

theorem rowRefreshed_zero (s : State) (k : Bool) (ps : Word) (n : Nat) (r : Ram Word 0#32) :
    rowRefreshed s k ps 0 n r = refreshedLengths s k ps n r := by
  rw [rowRefreshed, refreshedLengths, List.range_eq_range']

theorem setLengthPrices_prob (k : Bool) (r : Ram Word 0#32) (s : State) : (setLengthPrices k r s).prob = s.prob := by
  cases k <;> rfl

theorem setLengthPrices_lengthPrices (k : Bool) (s : State) : setLengthPrices k (lengthPrices k s) s = s := by
  cases k <;> rfl

theorem setLengthPrices_twice (k : Bool) (r q : Ram Word 0#32) (s : State) :
    setLengthPrices k r (setLengthPrices k q s) = setLengthPrices k r s := by
  cases k <;> rfl

theorem lengthPrices_setLengthPrices (k : Bool) (r : Ram Word 0#32) (s : State) :
    lengthPrices k (setLengthPrices k r s) = r := by
  cases k <;> rfl

theorem lengthPrices_size {s : State} (hs : TablesReady s) (k : Bool) : (lengthPrices k s).size = 4352 := by
  obtain ⟨_, _, _, hmatch, hrep, _, _⟩ := FillsPrices.sizes_of_ready hs
  cases k
  · exact hmatch
  · exact hrep

theorem TablesReady.lengthPrices_set {s : State} (hs : TablesReady s) (k : Bool) (i : Nat) (v : Word) :
    TablesReady (setLengthPrices k ((lengthPrices k s).set i v) s) := by
  cases k
  · exact hs.price_written (p := { s.price with lenMatch := s.price.lenMatch.set i v }) rfl
  · exact hs.price_written (p := { s.price with lenRep := s.price.lenRep.set i v }) rfl

theorem lenPriceWrite_run {s : State} {k : Bool} {i : Word} (hi : i.toNat < (lengthPrices k s).size) (v : Word) :
    lenPriceWrite k i v s = .ok () (setLengthPrices k ((lengthPrices k s).set i.toNat v) s) := by
  cases k
  · exact ramWrite_ok (ram := (·.price.lenMatch))
      (store := fun s r => { s with price := { s.price with lenMatch := r } }) hi
  · exact ramWrite_ok (ram := (·.price.lenRep))
      (store := fun s r => { s with price := { s.price with lenRep := r } }) hi

theorem fillLen_run {s : State} (hs : TablesReady s) (k : Bool) {ps : Word} (hps : ps.toNat < 16) {i : Nat}
    (hi : i < 272) :
    fillLen k ps (BitVec.ofNat 32 i) s = .ok () (setLengthPrices k ((lengthPrices k s).set (ps.toNat * 272 + i)
      (pathCost s (lengthPath k (BitVec.ofNat 32 i) ps))) s) := by
  have hidx : (lenPriceIdx ps (BitVec.ofNat 32 i)).toNat = ps.toNat * 272 + i := by
    simp only [lenPriceIdx, BitVec.toNat_add, BitVec.toNat_mul, BitVec.toNat_ofNat]
    omega
  have hcost := lenPrice_prices k (BitVec.ofNat 32 i) ps s hs ((lengthPath_fits k _ hps).mono hs.entries)
  rw [fillLen, Eng.bind_ok hcost, lenPriceWrite_run (by rw [hidx, lengthPrices_size hs]; omega), hidx]

theorem fillLens_run (k : Bool) {ps : Word} (hps : ps.toNat < 16) :
    ∀ (n i : Nat) {s : State}, TablesReady s → i + n ≤ 272 →
    forUp (fillLen k ps) n (BitVec.ofNat 32 i) s =
      .ok () (setLengthPrices k (rowRefreshed s k ps i n (lengthPrices k s)) s)
  | 0, _, s, _, _ => congrArg (EStateM.Result.ok ()) (setLengthPrices_lengthPrices k s).symm
  | n + 1, i, s, hs, hi => by
    rw [forUp, Eng.bind_ok (fillLen_run hs k hps (by omega)), ← BitVec.ofNat_add,
      fillLens_run k hps n (i + 1) (hs.lengthPrices_set k _ _) (by omega), setLengthPrices_twice,
      rowRefreshed_congr (setLengthPrices_prob k _ s), lengthPrices_setLengthPrices]
    rfl

theorem setLengthCounter_run {s : State} (hs : TablesReady s) (k : Bool) {ps : Word} (hps : ps.toNat < 16) (n : Word) :
    lenCounterWrite k ps n s = .ok () (setLengthCounter k ps n s) := by
  obtain ⟨_, _, _, _, _, hmatch, hrep⟩ := FillsPrices.sizes_of_ready hs
  cases k
  · exact ramWrite_ok (ram := (·.price.cntMatch))
      (store := fun s r => { s with price := { s.price with cntMatch := r } }) (by rw [hmatch]; exact hps)
  · exact ramWrite_ok (ram := (·.price.cntRep))
      (store := fun s r => { s with price := { s.price with cntRep := r } }) (by rw [hrep]; exact hps)

theorem setLengthCounter_ready {s : State} (hs : TablesReady s) (k : Bool) (ps n : Word) :
    TablesReady (setLengthCounter k ps n s) := by
  cases k
  · exact hs.price_written (p := { s.price with cntMatch := s.price.cntMatch.set ps.toNat n }) rfl
  · exact hs.price_written (p := { s.price with cntRep := s.price.cntRep.set ps.toNat n }) rfl

theorem lengthCounter_run {s : State} (hs : TablesReady s) (k : Bool) {ps : Word} (hps : ps.toNat < 16) :
    lenCounterRead k ps s = .ok (lengthCounter s k ps) s := by
  obtain ⟨_, _, _, _, _, hmatch, hrep⟩ := FillsPrices.sizes_of_ready hs
  cases k
  · exact ramRead_ok (ram := (·.price.cntMatch)) (by rw [hmatch]; exact hps)
  · exact ramRead_ok (ram := (·.price.cntRep)) (by rw [hrep]; exact hps)

/-- `UpdateLenTable` (R442). -/
theorem updateLenTable_run {s : State} (hs : TablesReady s) (k : Bool) {ps : Word} (hps : ps.toNat < 16) :
    updateLenTable k ps s = .ok () (lengthsRefreshed k ps s) := by
  have hfill := fillLens_run k hps s.enc.lenTableSize.toNat 0 hs (by have := hs.lengths; omega)
  have hready :
      TablesReady (setLengthPrices k (rowRefreshed s k ps 0 s.enc.lenTableSize.toNat (lengthPrices k s)) s) := by
    have hsize (l : List Nat) (r : Ram Word 0#32) : (l.foldl (fun r j =>
        r.set (ps.toNat * 272 + j) (pathCost s (lengthPath k (BitVec.ofNat 32 j) ps))) r).size = r.size := by
      induction l generalizing r with
      | nil => rfl
      | cons j l ih => exact ih _
    cases k
    · exact hs.price_written (p := { s.price with lenMatch := _ }) (by
        simp only [PriceRams.sizes, rowRefreshed, hsize, lengthPrices, Bool.false_eq_true, if_false])
    · exact hs.price_written (p := { s.price with lenRep := _ }) (by
        simp only [PriceRams.sizes, rowRefreshed, hsize, lengthPrices, if_true])
  rw [updateLenTable, Eng.bind_look, Eng.bind_ok hfill, setLengthCounter_run hready k hps]
  rw [rowRefreshed_zero, lengthsRefreshed]
  cases k <;> rfl

/-- `LenCountDown` (R443). -/
theorem lenCountDown_run {s : State} (hs : TablesReady s) (k : Bool) {ps : Word} (hps : ps.toNat < 16) :
    lenCountDown k ps s = .ok () (countedDown k ps s) := by
  rw [lenCountDown, Eng.bind_ok (lengthCounter_run hs k hps), Eng.bind_ok (setLengthCounter_run hs k hps _),
    Eng.ite_run, updateLenTable_run (setLengthCounter_ready hs k ps _) k hps, countedDown]
  by_cases hzero : lengthCounter s k ps - 1#32 = 0#32
  · rw [if_pos hzero, if_pos hzero]
  · rw [if_neg hzero, if_neg hzero]
    rfl

end Sys2Proof.Machine
end

section
/-! SUPPORT. The indices of the model (R356, R358, R361), and the end marker and the flush in closed form (R286, R482,
R483). -/

namespace Sys2Proof.Machine

/-! ### The indices of PROB -/

/-- posStateMask is `2^PB − 1` for a PB of 0..4 (R42). -/
def MaskOf (mask : Word) (pb : Nat) : Prop := pb ≤ 4 ∧ mask = BitVec.ofNat 32 (2 ^ pb - 1)

theorem Inv.posStateMask {s : State} (hs : Inv s) (hp : s.status.phase = .enc) :
    ∃ pb, MaskOf s.derived.posStateMask pb := by
  obtain ⟨_, hlegal, hderived⟩ := hs.encOptions hp
  obtain ⟨_, _, _, _, hlp, hpb, _, _⟩ := encOptionsLegal_iff.1 hlegal
  rw [derivedOf_eq hlp hpb] at hderived
  exact ⟨s.opts.pb.toNat, hpb, congrArg Derived.posStateMask hderived⟩

theorem MaskOf.toNat {mask : Word} {pb : Nat} (h : MaskOf mask pb) : mask.toNat = 2 ^ pb - 1 := by
  obtain ⟨hpb, rfl⟩ := h
  have hpow : 2 ^ pb ≤ 2 ^ 4 := Nat.pow_le_pow_right (by decide) hpb
  rw [BitVec.toNat_ofNat, Nat.mod_eq_of_lt (by omega)]

theorem MaskOf.succ {mask : Word} {pb : Nat} (h : MaskOf mask pb) : mask.toNat + 1 = 2 ^ pb := by
  have hpos : 0 < 2 ^ pb := Nat.two_pow_pos pb
  rw [h.toNat]
  omega

theorem MaskOf.oneBits {mask : Word} {pb : Nat} (h : MaskOf mask pb) : oneBits mask = pb := by
  have hall : ∀ n : Fin 5, Machine.oneBits (BitVec.ofNat 32 (2 ^ n.val - 1)) = n.val := by decide
  obtain ⟨hpb, rfl⟩ := h
  exact hall ⟨pb, by omega⟩

/-- `position & posStateMask` (R356). -/
theorem lowHalf_and_mask {s : State} {pb : Nat} (h : MaskOf s.derived.posStateMask pb) :
    lowHalf s.cnt.nowPos &&& s.derived.posStateMask = posState s := by
  have hpow : 2 ^ pb ∣ 2 ^ 32 := Nat.pow_dvd_pow 2 (by have := h.1; omega)
  have hlt : s.cnt.nowPos.toNat % 2 ^ pb < 2 ^ pb := Nat.mod_lt _ (Nat.two_pow_pos pb)
  have hle : 2 ^ pb ≤ 2 ^ 32 := Nat.le_of_dvd (by decide) hpow
  apply BitVec.eq_of_toNat_eq
  rw [posState, h.succ, BitVec.toNat_and, h.toNat, Nat.and_two_pow_sub_one_eq_mod, BitVec.toNat_ofNat, lowHalf,
    BitVec.toNat_setWidth, Nat.mod_mod_of_dvd _ hpow]
  exact (Nat.mod_eq_of_lt (Nat.lt_of_lt_of_le hlt hle)).symm

theorem posState_lt {s : State} {pb : Nat} (h : MaskOf s.derived.posStateMask pb) : (posState s).toNat < 2 ^ pb := by
  rw [posState, h.succ, BitVec.toNat_ofNat]
  exact Nat.lt_of_le_of_lt (Nat.mod_le _ _) (Nat.mod_lt _ (Nat.two_pow_pos pb))

theorem MaskOf.pow_le {mask : Word} {pb : Nat} (h : MaskOf mask pb) : 2 ^ pb ≤ 16 :=
  Nat.pow_le_pow_right (by decide) h.1

/-- `(st << posStateMaskBits) | ps` is a sum (R358). -/
theorem stateIndex_eq {s : State} {pb : Nat} (h : MaskOf s.derived.posStateMask pb) (st : CState) {ps : Word}
    (hps : ps.toNat < 2 ^ pb) : stateIndex s.derived.posStateMask st ps = stateEntry s 0 st ps := by
  have hst := st.isLt
  have hpow := h.pow_le
  have hmul : st.toNat * 2 ^ pb ≤ 15 * 16 := Nat.mul_le_mul (by omega) hpow
  have hwide : (st.setWidth 32).toNat = st.toNat := by
    rw [BitVec.toNat_setWidth]
    omega
  have hshift : (st.setWidth 32 <<< pb).toNat = st.toNat <<< pb := by
    rw [BitVec.toNat_shiftLeft, hwide, Nat.shiftLeft_eq]
    omega
  apply BitVec.eq_of_toNat_eq
  rw [stateIndex, stateEntry, h.oneBits, h.succ, BitVec.toNat_or, hshift, Nat.or_comm, or_shiftLeft st.toNat hps,
    BitVec.toNat_ofNat, Nat.zero_add, Nat.mod_eq_of_lt (by omega), Nat.mul_comm (2 ^ pb), Nat.add_comm]

theorem entryOf_eq (base : Nat) (st : CState) : BitVec.ofNat 32 base + st.setWidth 32 = entryOf base st := by
  have hst := st.isLt
  apply BitVec.eq_of_toNat_eq
  rw [entryOf, BitVec.toNat_add, BitVec.toNat_setWidth, BitVec.toNat_ofNat, BitVec.toNat_ofNat]
  omega

/-- The IsMatch entries are PROB's first 192 (R358). -/
theorem stateEntry_lt {s : State} {pb : Nat} (h : MaskOf s.derived.posStateMask pb) {st : CState} (hst : st.toNat ≤ 11)
    {ps : Word} (hps : ps.toNat < 2 ^ pb) : (stateEntry s 0 st ps).toNat < 192 := by
  have hpow := h.pow_le
  have hmul : st.toNat * 2 ^ pb ≤ 11 * 2 ^ pb := Nat.mul_le_mul_right _ hst
  rw [stateEntry, h.succ, BitVec.toNat_ofNat]
  omega

theorem onChar_eq : ∀ (st : CState) (b : Byte), st.toNat ≤ 11 → onChar st = stateAfter st (.literal b) := by
  have hall : ∀ st : CState, st.toNat ≤ 11 → onChar st = stateAfter st (.literal 0) := by decide
  exact fun st _ h => hall st h

theorem onMatch_eq : ∀ (st : CState) (d l : Word), st.toNat ≤ 11 → onMatch st = stateAfter st (.copy d l) := by
  have hall : ∀ st : CState, st.toNat ≤ 11 → onMatch st = stateAfter st (.copy 0 0) := by decide
  exact fun st _ _ h => hall st h

/-! ### What coding a path leaves alone -/

/-- STATE, the encoder's registers, the results and NOW_POS put in place. -/
def dressed (v : CState) (e : EncRegs) (x : XRegs) (n : DWord) (s : State) : State :=
  { s with cstate := v, enc := e, x := x, cnt := { s.cnt with nowPos := n } }

theorem renormalized_dressed (v : CState) (e : EncRegs) (x : XRegs) (n : DWord) (s : State) :
    renormalized (dressed v e x n s) = dressed v e x n (renormalized s) := by
  unfold renormalized
  by_cases hlow : s.rce.range.toNat < 2 ^ 24
  · rw [if_pos hlow, if_pos (show (dressed v e x n s).rce.range.toNat < 2 ^ 24 from hlow)]
    rfl
  · rw [if_neg hlow, if_neg (show ¬ (dressed v e x n s).rce.range.toNat < 2 ^ 24 from hlow)]

theorem codeBit_dressed (v : CState) (e : EncRegs) (x : XRegs) (n : DWord) (s : State) (c : CodedBit) :
    codeBit (dressed v e x n s) c = dressed v e x n (codeBit s c) := by
  cases c <;>
  · simp only [codeBit]
    rw [← renormalized_dressed]
    rfl

theorem codePath_dressed (v : CState) (e : EncRegs) (x : XRegs) (n : DWord) (path : List CodedBit) (s : State) :
    codePath (dressed v e x n s) path = dressed v e x n (codePath s path) := by
  induction path generalizing s with
  | nil => rfl
  | cons c path ih => rw [codePath_cons, codePath_cons, codeBit_dressed, ih]

end Sys2Proof.Machine
end

section
/-! SUPPORT. The end marker and the flush in closed form (R286, R482, R483). -/

namespace Sys2Proof.Machine

/-! ### What coding a path leaves alone -/

/-- `s` with the range coder's part of `t`: PROB, the encoder's interval and the sink. -/
def coderPart (t s : State) : State :=
  { s with
    prob := t.prob, rce := t.rce, host := { s.host with sink := t.host.sink }
    cnt := { s.cnt with outCount := t.cnt.outCount } }

theorem renormalized_eq_coderPart (s : State) : renormalized s = coderPart (renormalized s) s := by
  unfold renormalized
  split <;> rfl

theorem codeBit_eq_coderPart (s : State) (c : CodedBit) : codeBit s c = coderPart (codeBit s c) s := by
  cases c
  · exact renormalized_eq_coderPart _
  · exact renormalized_eq_coderPart _

theorem codePath_eq_coderPart (path : List CodedBit) (s : State) : codePath s path = coderPart (codePath s path) s := by
  induction path generalizing s with
  | nil => rfl
  | cons c path ih =>
    have hbit := congrArg (coderPart (codePath (codeBit s c) path)) (codeBit_eq_coderPart s c)
    exact (ih (codeBit s c)).trans hbit

theorem codePath_status (path : List CodedBit) (s : State) : (codePath s path).status = s.status := by
  have h := congrArg State.status (codePath_eq_coderPart path s)
  exact h

/-- `s` with STATE set. -/
def atState (v : CState) (s : State) : State := { s with cstate := v }

theorem atState_host (v : CState) (s : State) : (atState v s).host = s.host := rfl

theorem codePath_atState (path : List CodedBit) (v : CState) (s : State) :
    codePath (atState v s) path = atState v (codePath s path) := by
  have hset := congrArg (atState v) (codePath_eq_coderPart path s)
  have hdressed := congrArg (dressed v s.enc s.x s.cnt.nowPos) (codePath_eq_coderPart path s)
  exact (codePath_dressed v s.enc s.x s.cnt.nowPos path s).trans (hdressed.trans hset.symm)

theorem lengthsRefreshed_atState (k : Bool) (ps : Word) (v : CState) (s : State) :
    lengthsRefreshed k ps (atState v s) = atState v (lengthsRefreshed k ps s) := by
  have h (n : Nat) (r : Ram Word 0#32) : refreshedLengths (atState v s) k ps n r = refreshedLengths s k ps n r := by
    unfold refreshedLengths
    simp only [pathCost_congr (t := atState v s) (s := s) rfl]
  unfold lengthsRefreshed
  simp only [h]
  cases k <;> rfl

theorem countedDown_atState (k : Bool) (ps : Word) (v : CState) (s : State) :
    countedDown k ps (atState v s) = atState v (countedDown k ps s) := by
  have hset (n : Word) : setLengthCounter k ps n (atState v s) = atState v (setLengthCounter k ps n s) := by
    cases k <;> rfl
  have hcount : lengthCounter (atState v s) k ps = lengthCounter s k ps := by cases k <;> rfl
  simp only [countedDown, hcount, hset, lengthsRefreshed_atState]
  split <;> rfl

theorem countedDown_kept (k : Bool) (ps : Word) (s : State) :
    (countedDown k ps s).status = s.status ∧ (countedDown k ps s).host = s.host := by
  unfold countedDown lengthsRefreshed setLengthCounter
  cases k <;>
  · dsimp only
    split <;> exact ⟨rfl, rfl⟩

/-! ### A state that codes -/

/-- An encoder stream whose sink takes every byte. -/
structure Encodes (s : State) : Prop where
  inv : Inv s
  phase : s.status.phase = .enc
  room : s.host.sinkRoom = none

namespace Encodes
variable {s : State} (h : Encodes s)
include h

theorem ready : TablesReady s := h.inv.tablesReady h.phase

/-- A computation that codes a path of the fixed entries of PROB codes it. -/
theorem codes {f : Eng Unit} {path : List CodedBit} (hf : Codes f path) (hfit : PathFits 1846 path) :
    f s = .ok () (codePath s path) := hf s h.room (hfit.mono h.ready.entries)

theorem coded {f : Eng Unit} {path : List CodedBit} (hf : Codes f path) (hfit : PathFits 1846 path)
    (hkept : Preserves Inv f) : Encodes (codePath s path) where
  inv := by
    have hend := hkept s h.inv
    rwa [h.codes hf hfit] at hend
  phase := (congrArg Status.phase (codePath_status path s)).trans h.phase
  room := (codePath_sinkRoom path s).trans h.room

theorem countDown (k : Bool) {ps : Word} (hps : ps.toNat < 16) :
    lenCountDown k ps s = .ok () (countedDown k ps s) := lenCountDown_run h.ready k hps

theorem countedDown (k : Bool) {ps : Word} (hps : ps.toNat < 16) : Encodes (countedDown k ps s) := by
  obtain ⟨hstatus, hhost⟩ := countedDown_kept k ps s
  have hend := inv_stable.lenCountDown k ps s h.inv
  rw [h.countDown k hps] at hend
  exact ⟨hend, (congrArg Status.phase hstatus).trans h.phase, (congrArg HostSide.sinkRoom hhost).trans h.room⟩

theorem atState {v : CState} (hv : v.toNat ≤ 11) : Encodes (atState v s) :=
  ⟨inv_stable.coderState v hv h.inv, h.phase, h.room⟩

theorem posState_lt : (posState s).toNat < 16 := by
  obtain ⟨pb, hpb⟩ := h.inv.posStateMask h.phase
  exact Nat.lt_of_lt_of_le (Machine.posState_lt hpb) hpb.pow_le

theorem lowHalf_and_mask : lowHalf s.cnt.nowPos &&& s.derived.posStateMask = posState s := by
  obtain ⟨pb, hpb⟩ := h.inv.posStateMask h.phase
  exact Machine.lowHalf_and_mask hpb

theorem isMatch_entry : stateIndex s.derived.posStateMask s.cstate (posState s) =
    stateEntry s 0 s.cstate (posState s) := by
  obtain ⟨pb, hpb⟩ := h.inv.posStateMask h.phase
  exact stateIndex_eq hpb _ (Machine.posState_lt hpb)

theorem matchStart_fits (b : Bool) : PathFits 1846 (matchStart s b) := by
  obtain ⟨pb, hpb⟩ := h.inv.posStateMask h.phase
  have hfirst := stateEntry_lt hpb h.inv.coderState (Machine.posState_lt hpb)
  have hsecond : (entryOf 192 s.cstate).toNat < 1846 := by
    have hst := h.inv.coderState
    rw [entryOf, BitVec.toNat_ofNat]
    omega
  exact pathFits_cons.2 ⟨show _ < _ by omega, pathFits_cons.2 ⟨hsecond, fun _ hc => nomatch hc⟩⟩

end Encodes

/-! ### The end of the stream -/

theorem rceFlush_run {s : State} (h : s.host.sinkRoom = none) : rceFlush s = .ok () (flushed s) := by
  have h1 := rceShiftLow_run s h
  have h2 := rceShiftLow_run (shiftLowState s) h
  have h3 := rceShiftLow_run (shiftLowState (shiftLowState s)) h
  have h4 := rceShiftLow_run (shiftLowState (shiftLowState (shiftLowState s))) h
  rw [rceFlush, Eng.bind_ok h1, Eng.bind_ok h2, Eng.bind_ok h3, Eng.bind_ok h4]
  exact rceShiftLow_run _ h

theorem reversePath_fits {base : Word} {n m : Nat} (sym : Word) (h : base.toNat + 2 ^ n ≤ m) :
    PathFits m (reversePath base n sym) := by
  intro c hc
  obtain ⟨k, hk, rfl⟩ := List.mem_map.mp hc
  have hk := List.mem_range.mp hk
  have hnode := reverseNode_lt sym k
  have hpow : 2 ^ (k + 1) ≤ 2 ^ n := Nat.pow_le_pow_right (by decide) hk
  have hadd := toNat_add_le base (BitVec.ofNat 32 (reverseNode sym k))
  have hmod : (BitVec.ofNat 32 (reverseNode sym k)).toNat ≤ reverseNode sym k := by
    rw [BitVec.toNat_ofNat]
    exact Nat.mod_le _ _
  show _ < _
  omega

theorem directPath_fits (m : Nat) (v : Word) (n : Nat) : PathFits m (directPath v n) := by
  intro c hc
  obtain ⟨k, _, rfl⟩ := List.mem_map.mp hc
  trivial

/-- The distance coder's trees lie in the fixed entries of PROB (R378, R381). -/
theorem distancePath_fits (dist : Word) {len : Word} : PathFits 1846 (distancePath dist len) := by
  have hslot : (slotTree len).toNat + 2 ^ 6 ≤ 1846 := by
    rw [slotTree, BitVec.toNat_ofNat]
    omega
  have hspec : ∀ slot : Fin 14,
      (BitVec.ofNat 32 (688 + slotStart slot.val - slot.val - 1)).toNat + 2 ^ footerOf slot.val ≤ 1846 := by decide
  unfold distancePath
  refine pathFits_append.2 ⟨treePath_fits _ hslot, ?_⟩
  split
  · exact fun _ hc => nomatch hc
  · split
    · next hlt => exact reversePath_fits _ (hspec ⟨_, hlt⟩)
    · exact pathFits_append.2 ⟨directPath_fits _ _ _, reversePath_fits _ (by decide)⟩

theorem endMarkerCoded_eq (s : State) : endMarkerCoded s = atState (stateAfter s.cstate (.copy 0xFFFFFFFF#32 2#32))
    (codePath (countedDown false (posState s)
      (codePath s (matchStart s false ++ lengthPath false 0#32 (posState s)))) (distancePath 0xFFFFFFFF#32 2#32)) := rfl

/-- `EncodeEndMarker` (R482). -/
theorem encodeEndMarker_run {s : State} (h : Encodes s) : encodeEndMarker s = .ok () (endMarkerCoded s) := by
  have hps := h.posState_lt
  obtain ⟨hmatch, hrep⟩ := pathFits_append.1
    (show PathFits 1846 ([.model (stateEntry s 0 s.cstate (posState s)) true] ++ [.model (entryOf 192 s.cstate) false])
      from h.matchStart_fits false)
  have h1 := h.coded (Codes.bit _ _) hmatch (inv_stable.rceEncodeBit _ _)
  have h2 := (h1.coded (Codes.bit _ _) hrep (inv_stable.rceEncodeBit _ _)).atState (onMatch_le s.cstate)
  have hlength := lengthPath_fits false 0#32 hps
  have h3 := h2.coded (lenEncode_codes false 0#32 (posState s)) hlength (inv_stable.lenEncode _ _ _)
  have h4 := h3.countedDown false hps
  have hdist := distEncode_run (dist := 0xFFFFFFFF#32) (len := 2#32) (by decide) h4.room
    ((distancePath_fits _).mono h4.ready.entries)
  have hset : endMarkerCoded s = codePath (countedDown false (posState s) (codePath (atState (onMatch s.cstate)
      (codePath s (matchStart s false))) (lengthPath false 0#32 (posState s)))) (distancePath 0xFFFFFFFF#32 2#32) := by
    rw [codePath_atState, countedDown_atState, codePath_atState, ← codePath_append,
      onMatch_eq _ 0xFFFFFFFF#32 2#32 h.inv.coderState, endMarkerCoded_eq]
  rw [encodeEndMarker, Eng.bind_look, posStateOf, Eng.bind_look, cstateGet, Eng.bind_look, isMatchIdx, Eng.bind_look,
    h.lowHalf_and_mask, h.isMatch_entry, isRepIdx, entryOf_eq 192, Eng.bind_ok (h.codes (Codes.bit _ _) hmatch),
    Eng.bind_ok (h1.codes (Codes.bit _ _) hrep), cstateSet, Eng.bind_put]
  exact (Eng.bind_ok (h2.codes (lenEncode_codes false 0#32 (posState s)) hlength) _).trans <|
    (Eng.bind_ok (h3.countDown false hps) _).trans <| (Eng.bind_ok hdist _).trans <|
    congrArg (EStateM.Result.ok ()) hset.symm

theorem endMarkerCoded_room {s : State} (h : s.host.sinkRoom = none) : (endMarkerCoded s).host.sinkRoom = none := by
  rw [endMarkerCoded_eq, atState_host, codePath_sinkRoom, (countedDown_kept _ _ _).2, codePath_sinkRoom, h]

/-- `EncFinishStream` (R483). -/
theorem encFinishStream_run {s : State} (h : Encodes s) : encFinishStream s = .ok () (streamFinished s) := by
  rw [encFinishStream, Eng.bind_look, streamFinished]
  by_cases hmark : s.opts.endMark = 1#1
  · rw [if_pos hmark, if_pos (decide_eq_true hmark)]
    exact (Eng.bind_ok (encodeEndMarker_run h) _).trans (Eng.bind_ok (rceFlush_run (endMarkerCoded_room h.room)) _)
  · rw [if_neg hmark, if_neg (by rw [decide_eq_true_iff]; exact hmark)]
    exact Eng.bind_ok (rceFlush_run h.room) _

end Sys2Proof.Machine
end

section
/-! SUPPORT. A search in a command of its own and in the first ENC_STEP: what MF_GETMATCHES leaves, the extension of its
longest match (R410), and how many words it writes. -/

namespace Sys2Proof.Machine

/-! ### Faults have codes -/

/-- A computation that a fault ends has recorded an error (R610). -/
def FaultsWithCode {α : Type} (f : Eng α) : Prop := ∀ s t, f s = .error .ended t → t.status.err ≠ .none

theorem faultEntry_err_ne {c : ErrCode} (hc : c ≠ .none) (s : State) : (faultEntry c s).status.err ≠ .none := by
  by_cases h : s.status.err = .none
  · rw [faultEntry_first h]
    exact hc
  · rw [faultEntry_later h]
    exact h

theorem faultsWithCode_refills {γ : Type} {π : State → γ} : Refills π withRoom FaultsWithCode where
  pure := fun _ _ _ h => nomatch h
  bind := fun hf hg s t h => by
    rcases Eng.bind_eq_error.1 h with h | ⟨a, u, _, h⟩
    · exact hf s t h
    · exact hg a u t h
  look := fun _ _ _ h => nomatch h
  raise := fun c hc s t h => by
    cases h
    exact faultEntry_err_ne hc s
  update := fun _ _ _ _ h => nomatch h
  srcRead := fun s t h => by
    rcases srcRead_cases s with ⟨_, e⟩ | ⟨_, _, _, _, e⟩ | ⟨_, _, _, e⟩ | ⟨_, _, _, e⟩ <;> exact nomatch e.symm.trans h

/-- A command that ends without an error has completed its rule. -/
theorem Runnable.completes {i : Instr} {body : Eng Unit} {s t : State} (hr : Runnable i s)
    (ht : command i (gateOf i) body s = .next t) (he : t.status.err = .none) (hb : FaultsWithCode body) :
    body (clearResults s) = .ok () t := by
  rw [hr.runs] at ht
  rcases finish_eq_next.1 ht with h | h
  · exact h
  · exact absurd he (hb _ _ h)

/-! ### MF_GETMATCHES -/

/-- What a completed MF_GETMATCHES has done (R260). -/
theorem mfGetMatches_of_exec {s m : State} (hr : Runnable .mfGetMatches s) (hm : exec .mfGetMatches s = .next m)
    (he : m.status.err = .none) : ∃ (n l : Word) (t : State), mfGetMatches (clearResults s) = .ok n t ∧
      m = results n l t ∧ (n = 0#32 → l = 0#32) ∧
      (n ≠ 0#32 → (n - 2#32).toNat < t.matchBuf.size ∧ l = t.matchBuf.get (n - 2#32).toNat) := by
  have h := faultsWithCode_refills (π := sinkSide)
  change execMfGetMatches s = .next m at hm
  unfold execMfGetMatches at hm
  have hrun := hr.completes hm he <| h.bind h.parser.search.mfGetMatches fun _ => h.bind h.put fun _ =>
    h.ite_bind (h.pure _) (h.matchRead _) fun _ => h.put
  obtain ⟨n, t, hsearch, hrest⟩ := Eng.bind_eq_ok.1 hrun
  rw [Eng.bind_setR0] at hrest
  refine ⟨n, ?_⟩
  split at hrest
  · next hn =>
    cases hrest
    exact ⟨0#32, t, hsearch, rfl, fun _ => rfl, fun hne => absurd hn hne⟩
  · next hn =>
    obtain ⟨l, u, hread, hset⟩ := Eng.bind_eq_ok.1 hrest
    cases hset
    unfold matchRead at hread
    rw [ramRead_run] at hread
    split at hread
    · next hlt =>
      cases hread
      exact ⟨_, t, hsearch, rfl, fun hz => absurd hz hn, fun _ => ⟨hlt, rfl⟩⟩
    · exact nomatch hread

/-! ### The words a search writes -/

/-- A search keeps the size of MATCHES. -/
theorem matchBuf_size_of_keeps {α : Type} {f : Eng α} (hf : Keeps (fun s => sourceRest (searchRest s)) f)
    {s t : State} {a : α}
    (h : f s = .ok a t) : t.matchBuf.size = s.matchBuf.size := by
  have hkept := hf s
  rw [h] at hkept
  have hbuf := congrArg (fun u : State => u.matchBuf.size) hkept
  exact hbuf

theorem mfPutPair_ok {off len dist : Word} {s t : State} (h : mfPutPair off len dist s = .ok () t)
    (hsize : s.matchBuf.size < 2 ^ 32) : off.toNat + 2 ≤ s.matchBuf.size ∧ (off + 2#32).toNat = off.toNat + 2 := by
  obtain ⟨_, u, hfirst, hsecond⟩ := Eng.bind_eq_ok.1 h
  unfold matchWrite at hfirst hsecond
  rw [ramWrite_run] at hfirst hsecond
  split at hfirst
  · next hlt =>
    cases hfirst
    split at hsecond
    · next hlt' =>
      have hlt' : (off + 1#32).toNat < s.matchBuf.size := hlt'
      have hlt : off.toNat < s.matchBuf.size := hlt
      bv_omega
    · exact nomatch hsecond
  · exact nomatch hfirst

theorem mfDescend_off {w : Walk} {p q : WalkPos} {cp pby len : Word} {s t : State}
    (h : mfDescend w p cp pby len s = .ok q t) : q.off = p.off := by
  obtain ⟨a, _, _, h⟩ := Eng.bind_eq_ok.1 h
  obtain ⟨b, _, _, h⟩ := Eng.bind_eq_ok.1 h
  split at h
  all_goals
    obtain ⟨_, _, _, h⟩ := Eng.bind_eq_ok.1 h
    obtain ⟨_, _, _, h⟩ := Eng.bind_eq_ok.1 h
    cases h
    rfl

/-- A walk ends with no more words written than MATCHES holds. -/
theorem mfWalkCollect_fits (w : Walk) : ∀ (n : Nat) {p : WalkPos} {s t : State} {off : Word},
    mfWalkCollect w n p s = .ok off t → s.matchBuf.size < 2 ^ 32 → p.off.toNat ≤ s.matchBuf.size →
    off.toNat ≤ s.matchBuf.size
  | 0, p, s, t, off, h, _, hp => by
    obtain ⟨_, _, _, hpure⟩ := Eng.bind_eq_ok.1 h
    cases hpure
    exact hp
  | n + 1, p, s, t, off, h, hsize, hp => by
    have hk := search_keeps
    have descend {p q : WalkPos} {pby cp len : Word} {u v : State} (hu : u.matchBuf.size = s.matchBuf.size)
        (hp : p.off.toNat ≤ s.matchBuf.size) (hv : mfDescend w p cp pby len u = .ok q v)
        (h : mfWalkCollect w n q v = .ok off t) : off.toNat ≤ s.matchBuf.size := by
      have hsize' := matchBuf_size_of_keeps (hk.finder.mfDescend _ _ _ _ _) hv
      have hoff := mfDescend_off hv
      have hrest := mfWalkCollect_fits w n h (by omega) (by rw [hoff]; omega)
      omega
    rw [mfWalkCollect] at h
    split at h
    · obtain ⟨_, _, _, hpure⟩ := Eng.bind_eq_ok.1 h
      cases hpure
      exact hp
    · rw [Eng.bind_look, Eng.bind_look, Eng.bind_look] at h
      obtain ⟨r, u, hr, h⟩ := Eng.bind_eq_ok.1 h
      have hu := matchBuf_size_of_keeps (hk.finder.mfCandidateLen _ _ _) hr
      split at h
      · obtain ⟨_, v, hv, h⟩ := Eng.bind_eq_ok.1 h
        obtain ⟨hroom, hoff⟩ := mfPutPair_ok hv (by omega)
        have hsize' := matchBuf_size_of_keeps (hk.mfPutPair _ _ _) hv
        split at h
        · obtain ⟨_, _, _, hpure⟩ := Eng.bind_eq_ok.1 h
          cases hpure
          show (p.off + 2#32).toNat ≤ _
          omega
        · obtain ⟨q, x, hx, h⟩ := Eng.bind_eq_ok.1 h
          exact descend (by omega) (by show (p.off + 2#32).toNat ≤ _; omega) hx h
      · obtain ⟨q, x, hx, h⟩ := Eng.bind_eq_ok.1 h
        exact descend hu hp hx h

/-- The words the short hashes' heads have written, and that they are written in pairs (R245). -/
theorem mfHead2_fits {w : Walk} {head : Word} {r : Word × Word} {s t : State} (h : mfHead2 w head s = .ok r t)
    (hsize : s.matchBuf.size < 2 ^ 32) : r.1 = 0#32 ∨ r.1 = 2#32 ∧ 2 ≤ s.matchBuf.size := by
  obtain ⟨hit, u, hu, h⟩ := Eng.bind_eq_ok.1 h
  have hsize' := matchBuf_size_of_keeps (search_keeps.finder.mfHeadMatches _ _) hu
  split at h
  · rw [Eng.bind_look] at h
    obtain ⟨_, v, hv, h⟩ := Eng.bind_eq_ok.1 h
    have hroom := (mfPutPair_ok hv (by omega)).1
    cases h
    exact .inr ⟨rfl, by bv_omega⟩
  · cases h
    exact .inl rfl

theorem mfHead3_fits {w : Walk} {off maxLen head2 head3 : Word} {r : Word × Word × Word} {s t : State}
    (h : mfHead3 w off maxLen head2 head3 s = .ok r t) (hsize : s.matchBuf.size < 2 ^ 32)
    (hoff : off = 0#32 ∨ off = 2#32 ∧ 2 ≤ s.matchBuf.size) :
    r.1 = 0#32 ∨ 2 ≤ r.1.toNat ∧ r.1.toNat ≤ s.matchBuf.size := by
  obtain ⟨hit, u, hu, h⟩ := Eng.bind_eq_ok.1 h
  have hsize' := matchBuf_size_of_keeps (search_keeps.finder.mfHeadMatches _ _) hu
  split at h
  · rw [Eng.bind_look] at h
    obtain ⟨_, v, hv, h⟩ := Eng.bind_eq_ok.1 h
    obtain ⟨hroom, hnext⟩ := mfPutPair_ok hv (by omega)
    cases h
    exact .inr ⟨by dsimp only; omega, by dsimp only; omega⟩
  · cases h
    rcases hoff with rfl | ⟨rfl, hroom⟩
    · exact .inl rfl
    · exact .inr ⟨Nat.le_refl 2, hroom⟩

theorem mfShortHeads_fits {w : Walk} {hs : Hashes} {curMatch : Word} {r : Word × Word} {s t : State}
    (h : mfShortHeads w hs curMatch s = .ok r t) (hsize : s.matchBuf.size < 2 ^ 32) : r.1.toNat ≤ s.matchBuf.size := by
  have hk := search_keeps
  unfold mfShortHeads at h
  rw [Eng.bind_look] at h
  obtain ⟨head2, s1, h1, h⟩ := Eng.bind_eq_ok.1 h
  obtain ⟨head3, s2, h2, h⟩ := Eng.bind_eq_ok.1 h
  obtain ⟨_, s3, h3, h⟩ := Eng.bind_eq_ok.1 h
  obtain ⟨_, s4, h4, h⟩ := Eng.bind_eq_ok.1 h
  obtain ⟨r2, s5, h5, h⟩ := Eng.bind_eq_ok.1 h
  obtain ⟨r3, s6, h6, h⟩ := Eng.bind_eq_ok.1 h
  have e1 := matchBuf_size_of_keeps (hk.finder.hashRead _) h1
  have e2 := matchBuf_size_of_keeps (hk.finder.hashRead _) h2
  have e3 := matchBuf_size_of_keeps (hk.finder.hashWrite _ _) h3
  have e4 := matchBuf_size_of_keeps (hk.finder.hashWrite _ _) h4
  have e5 := matchBuf_size_of_keeps (hk.mfHead2 _ _) h5
  have hr2 := mfHead2_fits h5 (by omega)
  have hr3 := mfHead3_fits h6 (by omega) (by rw [e5]; exact hr2)
  split at h
  · next hzero =>
    cases h
    have hne := hzero.1
    show (r3.1 - 2#32).toNat ≤ _
    bv_omega
  · cases h
    show r3.1.toNat ≤ _
    bv_omega

theorem mfDirectHead_fits {w : Walk} {curMatch off maxLen : Word} {r : Word × Word} {s t : State}
    (h : mfDirectHead w curMatch off maxLen s = .ok r t) (hsize : s.matchBuf.size < 2 ^ 32)
    (hoff : off.toNat ≤ s.matchBuf.size) : r.1.toNat ≤ s.matchBuf.size := by
  have hk := search_keeps
  unfold mfDirectHead at h
  rw [Eng.bind_look] at h
  split at h
  · rw [Eng.bind_look] at h
    obtain ⟨a, s1, h1, h⟩ := Eng.bind_eq_ok.1 h
    obtain ⟨b, s2, h2, h⟩ := Eng.bind_eq_ok.1 h
    have e1 := matchBuf_size_of_keeps (hk.finder.wbufRead _) h1
    have e2 := matchBuf_size_of_keeps (hk.finder.wbufRead _) h2
    split at h
    · rw [Eng.bind_look] at h
      obtain ⟨_, v, hv, h⟩ := Eng.bind_eq_ok.1 h
      obtain ⟨hroom, hnext⟩ := mfPutPair_ok hv (by omega)
      cases h
      show (off + 2#32).toNat ≤ _
      omega
    · cases h
      exact hoff
  · cases h
    exact hoff

/-- A search writes no more words than MATCHES holds. -/
theorem mfSearch_fits {lenLimit off : Word} {s t : State} (h : mfSearch lenLimit s = .ok off t)
    (hsize : s.matchBuf.size < 2 ^ 32) : off.toNat ≤ s.matchBuf.size := by
  have hk := search_keeps
  unfold mfSearch at h
  rw [Eng.bind_look, Eng.bind_look] at h
  obtain ⟨hs, s1, h1, h⟩ := Eng.bind_eq_ok.1 h
  obtain ⟨curMatch, s2, h2, h⟩ := Eng.bind_eq_ok.1 h
  have e1 := matchBuf_size_of_keeps (hk.finder.mfHashAt _) h1
  have e2 := matchBuf_size_of_keeps (hk.finder.hashRead _) h2
  have rest {r : Word × Word} {u v : State} {i : Word} {w : Walk} {m : MfRegs} (hu : u.matchBuf.size = s.matchBuf.size)
      (hr : r.1.toNat ≤ s.matchBuf.size) (h : (hashWrite i s.win.pos >>= fun _ =>
        mfDirectHead w curMatch r.1 r.2 >>= fun r' =>
          mfWalkCollect w m.cutValue.toNat (mfWalkStart m curMatch r'.2 r'.1)) u =
        .ok off v) : off.toNat ≤ s.matchBuf.size := by
    obtain ⟨_, s4, h4, h⟩ := Eng.bind_eq_ok.1 h
    obtain ⟨r', s5, h5, h⟩ := Eng.bind_eq_ok.1 h
    have e4 := matchBuf_size_of_keeps (hk.finder.hashWrite _ _) h4
    have e5 := matchBuf_size_of_keeps (hk.mfDirectHead _ _ _ _) h5
    have hr' := mfDirectHead_fits h5 (by omega) (by omega)
    have hwalk := mfWalkCollect_fits _ _ h (by omega) (by show r'.1.toNat ≤ _; omega)
    omega
  split at h
  · obtain ⟨r, s3, h3, h⟩ := Eng.bind_eq_ok.1 h
    have e3 := matchBuf_size_of_keeps (hk.mfShortHeads _ _ _) h3
    have hr := mfShortHeads_fits h3 (by omega)
    exact rest (by omega) (by omega) h
  · exact rest (r := (0#32, 1#32)) (by omega) (Nat.zero_le _) h

/-- MATCHES' count set, at the end of a search (R245). -/
def setNumPairs (n : Word) (s : State) : State := { s with mf := { s.mf with numPairs := n } }

theorem mfGetMatches_of_none {s : State} (h : mfLenLimit s.mf s.win = none) :
    mfGetMatches s = (mfMovePos >>= fun _ => put (setNumPairs 0#32) >>= fun _ => pure 0#32) s := by
  rw [mfGetMatches, Eng.bind_look, h]
  rfl

theorem mfGetMatches_of_some {s : State} {lenLimit : Word} (h : mfLenLimit s.mf s.win = some lenLimit) :
    mfGetMatches s =
      (mfSearch lenLimit >>= fun off => mfMovePos >>= fun _ => put (setNumPairs off) >>= fun _ => pure off) s := by
  rw [mfGetMatches, Eng.bind_look, h]
  rfl

/-- The count a search reports is at most the words MATCHES holds. -/
theorem mfGetMatches_fits {off : Word} {s t : State} (h : mfGetMatches s = .ok off t)
    (hsize : s.matchBuf.size < 2 ^ 32) : off.toNat ≤ t.matchBuf.size := by
  rw [matchBuf_size_of_keeps search_keeps.mfGetMatches h]
  cases hl : mfLenLimit s.mf s.win with
  | none =>
    rw [mfGetMatches_of_none hl] at h
    obtain ⟨_, _, _, h⟩ := Eng.bind_eq_ok.1 h
    cases h
    exact Nat.zero_le _
  | some lenLimit =>
    rw [mfGetMatches_of_some hl] at h
    obtain ⟨off', s1, h1, h⟩ := Eng.bind_eq_ok.1 h
    obtain ⟨_, _, _, h⟩ := Eng.bind_eq_ok.1 h
    cases h
    exact mfSearch_fits h1 hsize

end Sys2Proof.Machine
end

section
/-! SUPPORT. The first ENC_STEP of a stream (O53): the search with the extension of its longest match, and the
literal. -/

namespace Sys2Proof.Machine

/-! ### The extension of a match (R208, R410) -/

/-- Offset `n` of a comparison lies inside WBUF on both sides (R104). -/
def ComparesInside (s : State) (p d : Word) (n : Nat) : Prop :=
  (p + BitVec.ofNat 32 n).toNat < s.wbuf.size ∧ (p + BitVec.ofNat 32 n - d).toNat < s.wbuf.size

/-- The two bytes of offset `n` of a comparison agree. -/
def ComparesEqual (s : State) (p d : Word) (n : Nat) : Prop :=
  s.wbuf.get (p + BitVec.ofNat 32 n).toNat = s.wbuf.get (p + BitVec.ofNat 32 n - d).toNat

theorem winCompare_equal {s : State} {p d : Word} {n : Nat} (h : ComparesInside s p d n) (he : ComparesEqual s p d n)
    (left : Nat) : winCompare p d (left + 1) (BitVec.ofNat 32 n) s =
      winCompare p d left (BitVec.ofNat 32 (n + 1)) s := by
  unfold ComparesEqual at he
  rw [winCompare, wbufRead, wbufRead, Eng.bind_ok (ramRead_ok (ram := (·.wbuf)) h.1),
    Eng.bind_ok (ramRead_ok (ram := (·.wbuf)) h.2), if_pos he, BitVec.ofNat_add]

theorem winCompare_differs {s : State} {p d : Word} {n : Nat} (h : ComparesInside s p d n)
    (hne : ¬ ComparesEqual s p d n) (left : Nat) :
    winCompare p d (left + 1) (BitVec.ofNat 32 n) s = .ok (BitVec.ofNat 32 n) s := by
  unfold ComparesEqual at hne
  rw [winCompare, wbufRead, wbufRead, Eng.bind_ok (ramRead_ok (ram := (·.wbuf)) h.1),
    Eng.bind_ok (ramRead_ok (ram := (·.wbuf)) h.2), if_neg hne]
  rfl

theorem winCompare_run {s : State} {p d : Word} {n : Nat} : ∀ (left k : Nat), k ≤ n → n ≤ k + left →
    (∀ j, k ≤ j → j < n → ComparesInside s p d j ∧ ComparesEqual s p d j) →
    n = k + left ∨ (ComparesInside s p d n ∧ ¬ ComparesEqual s p d n) →
    winCompare p d left (BitVec.ofNat 32 k) s = .ok (BitVec.ofNat 32 n) s
  | 0, k, hk, hn, _, _ => by
    rw [show n = k by omega]
    rfl
  | left + 1, k, hk, hn, hequal, hend => by
    by_cases hlt : k < n
    · obtain ⟨hin, heq⟩ := hequal k (Nat.le_refl k) hlt
      rw [winCompare_equal hin heq]
      exact winCompare_run left (k + 1) hlt (by omega) (fun j hj => hequal j (by omega)) (hend.imp (by omega) id)
    · have hkn : k = n := by omega
      subst hkn
      obtain ⟨hin, hne⟩ := hend.resolve_left (by omega)
      exact winCompare_differs hin hne left

/-- `WinMatchLen` counts the equal bytes (R208). -/
theorem winMatchLen_run {s : State} {i r limit : Word} {n : Nat} (hsize : s.wbuf.size = s.win.blockSize.toNat)
    (h : RunsFor s i r limit.toNat n) : winMatchLen i r limit s = .ok (BitVec.ofNat 32 n) s := by
  obtain ⟨hcap, hequal, hend⟩ := h
  have hlimit : (winMatchLimit s.win (s.win.pos + i) limit).toNat =
      if s.win.streamEnd ∧ s.win.streamPos.toNat < (s.win.pos + i).toNat + limit.toNat
        then s.win.streamPos.toNat - (s.win.pos + i).toNat else limit.toNat := by
    unfold winMatchLimit
    split
    · split
      · next hle => rw [BitVec.toNat_sub_of_le hle]
      · next hlt => exact (Nat.sub_eq_zero_of_le (Nat.le_of_not_le hlt)).symm
    · rfl
  rw [winMatchLen, Eng.bind_look]
  refine winCompare_run _ 0 (Nat.zero_le n) (by rw [hlimit, Nat.zero_add]; exact hcap) (fun j _ hj => ?_) ?_
  · obtain ⟨⟨hhere, hback⟩, heq⟩ := hequal j hj
    exact ⟨⟨hsize ▸ hhere, hsize ▸ hback⟩, heq⟩
  · rw [hlimit, Nat.zero_add]
    refine hend.imp id ?_
    rintro ⟨⟨hhere, hback⟩, hne⟩
    exact ⟨⟨hsize ▸ hhere, hsize ▸ hback⟩, hne⟩

/-- The position the encoder works ahead by one more (R411). -/
def oneAhead (s : State) : State := { s with enc := { s.enc with addOffset := s.enc.addOffset + 1#32 } }

/-- `ReadMatchDistances` after a search that found `n` words, the longest length `l`, whose extension stays inside
WBUF. -/
theorem readMatchDistances_run {s t : State} {n l : Word} (hsearch : mfGetMatches s = .ok n t)
    (hl : n = 0#32 ∧ l = 0#32 ∨ n ≠ 0#32 ∧ (n - 2#32).toNat < t.matchBuf.size ∧ l = t.matchBuf.get (n - 2#32).toNat)
    (hn : n.toNat ≤ t.matchBuf.size) (hmax : t.mf.matchMaxLen.toNat ≤ 273) (hsize : t.wbuf.size = t.win.blockSize.toNat)
    (hruns : n ≠ 0#32 → l = t.mf.matchMaxLen → t.opts.extendFast = 1#1 →
      ∃ more, RunsFor t (l - 1#32) (t.matchBuf.get (n - 1#32).toNat) (273 - l.toNat) more) :
    ∃ r, readMatchDistances s = .ok r (oneAhead t) := by
  rw [readMatchDistances, Eng.bind_ok hsearch]
  rcases hl with ⟨rfl, rfl⟩ | ⟨hne, hlt, rfl⟩
  · exact ⟨_, rfl⟩
  · rw [if_neg hne, matchRead]
    have hread : ramRead (·.matchBuf) (n - 2#32) t = .ok (t.matchBuf.get (n - 2#32).toNat) t := ramRead_ok hlt
    by_cases hext : t.matchBuf.get (n - 2#32).toNat = t.mf.matchMaxLen ∧ t.opts.extendFast = 1#1
    · obtain ⟨more, hmore⟩ := hruns hne hext.1 hext.2
      have hpair : ramRead (·.matchBuf) (n - 1#32) t = .ok (t.matchBuf.get (n - 1#32).toNat) t :=
        ramRead_ok (by show (n - 1#32).toNat < t.matchBuf.size; bv_omega)
      have hlimit : (Config.matchMaxLen - t.matchBuf.get (n - 2#32).toNat).toNat =
          273 - (t.matchBuf.get (n - 2#32).toNat).toNat := by
        rw [← hext.1] at hmax
        rw [BitVec.toNat_sub_of_le (show _ ≤ Config.matchMaxLen from hmax)]
        rfl
      have hcount := winMatchLen_run hsize (hlimit.symm ▸ hmore)
      refine ⟨(t.matchBuf.get (n - 2#32).toNat + BitVec.ofNat 32 more, n), ?_⟩
      have hrun : extendMatch (t.matchBuf.get (n - 2#32).toNat) n t =
          .ok (t.matchBuf.get (n - 2#32).toNat + BitVec.ofNat 32 more) t := by
        rw [extendMatch, Eng.bind_look, Eng.bind_look, if_pos ⟨hext.1, decide_eq_true hext.2⟩, matchRead,
          Eng.bind_ok hpair,
          Eng.bind_ok hcount]
        rfl
      exact (Eng.bind_ok ((Eng.bind_ok hread _).trans hrun) _).trans rfl
    · refine ⟨(t.matchBuf.get (n - 2#32).toNat, n), ?_⟩
      have hrun : extendMatch (t.matchBuf.get (n - 2#32).toNat) n t = .ok (t.matchBuf.get (n - 2#32).toNat) t := by
        rw [extendMatch, Eng.bind_look, Eng.bind_look, if_neg (fun h => hext ⟨h.1, of_decide_eq_true h.2⟩)]
        rfl
      exact (Eng.bind_ok ((Eng.bind_ok hread _).trans hrun) _).trans rfl

/-! ### The literal (R481) -/

theorem litBase_first (d : Derived) : 1846#32 + 0x300#32 * (((0#32 &&& d.litPosMask) <<< d.lcLatched.toNat) +
    byteWord ((0#8 : Byte) >>> (8 - d.lcLatched.toNat))) = literalTable d 0#32 0#8 := by
  simp [literalTable, byteWord]

theorem literalTable_first (d : Derived) : literalTable d 0#32 0#8 = 1846#32 := by
  simp [literalTable]

/-- PROB holds at least one literal table (R50). -/
theorem Encodes.literal_entries {s : State} (h : Encodes s) : 1846 + 768 ≤ s.prob.size := by
  obtain ⟨_, hlegal, hderived⟩ := h.inv.encOptions h.phase
  obtain ⟨_, _, _, hlc, hlp, hpb, _, _⟩ := encOptionsLegal_iff.1 hlegal
  rw [derivedOf_eq hlp hpb] at hderived
  have hpow : 2 ^ (s.opts.lc.toNat + s.opts.lp.toNat) ≤ 2 ^ 12 := Nat.pow_le_pow_right (by decide) (by omega)
  have hpos : 0 < 2 ^ (s.opts.lc.toNat + s.opts.lp.toNat) := Nat.two_pow_pos _
  rw [h.inv.probSize, hderived, BitVec.toNat_ofNat, Nat.mod_eq_of_lt (by omega)]
  omega

/-- The bits of the first literal. -/
def firstPath (s : State) (cur : Byte) : List CodedBit :=
  .model (stateEntry s 0 s.cstate 0#32) false :: literalPath (literalTable s.derived 0#32 0#8) cur

/-- The first byte coded as a literal, `ahead` the encoder's lead after it. -/
def firstByteCoded (ahead : Word) (s : State) : State :=
  let cur := windowByte s (0#32 - (ahead + 1#32))
  dressed (stateAfter s.cstate (.literal cur)) { s.enc with prevByte := cur, addOffset := ahead } s.x 1
    (codePath s (firstPath s cur))

/-- `WinGetByte` inside WBUF (R207). -/
theorem winGetByte_run {s : State} {i : Word} (h : windowIndex s i < s.wbuf.size) :
    winGetByte i s = .ok (windowByte s i) s := ramRead_ok (ram := (·.wbuf)) h

theorem codePath_kept (path : List CodedBit) (s : State) : (codePath s path).enc = s.enc ∧ (codePath s path).x = s.x ∧
    (codePath s path).cstate = s.cstate ∧ (codePath s path).win = s.win := by
  have h := codePath_eq_coderPart path s
  have henc := congrArg State.enc h
  have hx := congrArg State.x h
  have hstate := congrArg State.cstate h
  have hwin := congrArg State.win h
  exact ⟨henc, hx, hstate, hwin⟩

/-- The last updates of `EncodeFirstByte` (R481). -/
theorem put_firstByte {s : State} {v : CState} {e : EncRegs} {x : XRegs} (he : s.enc = e) (hx : s.x = x)
    (hv : s.cstate = v)
    (cur : Byte) : { s with
      enc := { s.enc with prevByte := cur, addOffset := s.enc.addOffset - 1#32 }, cnt := { s.cnt with nowPos := 1 } } =
      dressed v { e with prevByte := cur, addOffset := e.addOffset - 1#32 } x 1 s := by
  subst he hx hv
  rfl

theorem codeBit_kept (s : State) (c : CodedBit) : (codeBit s c).enc = s.enc ∧ (codeBit s c).win = s.win ∧
    (codeBit s c).wbuf = s.wbuf ∧ (codeBit s c).derived = s.derived ∧ (codeBit s c).x = s.x := by
  have h := codeBit_eq_coderPart s c
  have henc := congrArg State.enc h
  have hwin := congrArg State.win h
  have hwbuf := congrArg State.wbuf h
  have hderived := congrArg State.derived h
  have hx := congrArg State.x h
  exact ⟨henc, hwin, hwbuf, hderived, hx⟩

theorem dressed_atState (v w : CState) (e : EncRegs) (x : XRegs) (n : DWord) (s : State) :
    dressed v e x n (atState w s) = dressed v e x n s := rfl

theorem encodeFirstByte_run {s t : State} {r : Word × Word} (hread : readMatchDistances s = .ok r t) (h : Encodes t)
    {ahead : Word} (hahead : t.enc.addOffset = ahead + 1#32)
    (hinside : windowIndex t (0#32 - (ahead + 1#32)) < t.wbuf.size) :
    encodeFirstByte s = .ok () (firstByteCoded ahead t) := by
  obtain ⟨pb, hpb⟩ := h.inv.posStateMask h.phase
  have hps : (0#32 : Word).toNat < 2 ^ pb := Nat.two_pow_pos pb
  have hentries := h.literal_entries
  have hmatch : (stateEntry t 0 t.cstate 0#32).toNat < t.prob.size := by
    have hlt := stateEntry_lt hpb h.inv.coderState hps
    omega
  let u := atState (onChar t.cstate) (codeBit t (.model (stateEntry t 0 t.cstate 0#32) false))
  let cur := windowByte t (0#32 - (ahead + 1#32))
  obtain ⟨henc, hwin, hwbuf, hderived, hx⟩ := codeBit_kept t (.model (stateEntry t 0 t.cstate 0#32) false)
  have hcur : winGetByte (0#32 - u.enc.addOffset) u = .ok cur u := by
    have hoffset : u.enc.addOffset = ahead + 1#32 := (congrArg EncRegs.addOffset henc).trans hahead
    have hindex : windowIndex u (0#32 - (ahead + 1#32)) = windowIndex t (0#32 - (ahead + 1#32)) :=
      congrArg (fun w : WinRegs => (w.bufOffset + w.pos + (0#32 - (ahead + 1#32))).toNat) hwin
    have hbyte : windowByte u (0#32 - (ahead + 1#32)) = cur := by
      show u.wbuf.get _ = t.wbuf.get _
      rw [hindex, show u.wbuf = t.wbuf from hwbuf]
    rw [hoffset, winGetByte_run (by rw [hindex, show u.wbuf = t.wbuf from hwbuf]; exact hinside), hbyte]
  have hlit : litEncode (literalTable t.derived 0#32 0#8) cur u =
      .ok () (codePath u (literalPath (literalTable t.derived 0#32 0#8) cur)) := by
    refine litEncode_codes _ cur u ((codeBit_sinkRoom t _).trans h.room) ?_
    rw [literalTable_first]
    refine (treePath_fits _ (show 1846 + 2 ^ 8 ≤ t.prob.size by omega)).mono (Nat.le_of_eq ?_)
    exact (codeBit_prob_size t _).symm
  have hbase : litBase 0#32 0#8 u = .ok (literalTable t.derived 0#32 0#8) u := by
    rw [litBase, look_run, litBase_first, show u.derived = t.derived from hderived]
  rw [encodeFirstByte, Eng.bind_ok hread, cstateGet, Eng.bind_look, isMatchIdx, Eng.bind_look, stateIndex_eq hpb _ hps,
    Eng.bind_ok (rceEncodeBit_run h.room hmatch false)]
  refine (Eng.bind_ok hcur _).trans ((Eng.bind_ok hbase _).trans ((Eng.bind_ok hlit _).trans ?_))
  obtain ⟨henc', hx', hstate', -⟩ := codePath_kept (literalPath (literalTable t.derived 0#32 0#8) cur) u
  have hstate : u.cstate = stateAfter t.cstate (.literal cur) := onChar_eq _ cur h.inv.coderState
  have hput := put_firstByte (henc'.trans henc) (hx'.trans hx) (hstate'.trans hstate) cur
  refine congrArg (EStateM.Result.ok ()) (hput.trans ?_)
  rw [codePath_atState, dressed_atState, firstByteCoded, firstPath, codePath_cons, hahead, BitVec.add_sub_cancel]

/-! ### The step (R490) -/

/-- The state after the first ENC_STEP, `m` that after its search (R481, R490). -/
def firstStepDone (s m : State) : State :=
  let cur := windowByte m (0#32 - (s.enc.addOffset + 1#32))
  let t := codePath { m with x := { s.x with r0 := 1#32, r1 := 0xFFFFFFFF#32 } }
    (.model (stateEntry s 0 s.cstate 0#32) false :: literalPath (literalTable s.derived 0#32 0#8) cur)
  let u := { t with
    cstate := stateAfter s.cstate (.literal cur)
    enc := { s.enc with prevByte := cur }
    cnt := { t.cnt with nowPos := 1#64 } }
  if m.win.streamPos = m.win.pos then streamFinished u else u

/-- What a search leaves of the state it begins in. -/
structure SearchFrom (s t : State) : Prop where
  cstate : t.cstate = s.cstate
  derived : t.derived = s.derived
  enc : t.enc = s.enc
  operands : ∀ a b, { t.x with r0 := a, r1 := b } = { s.x with r0 := a, r1 := b }

theorem finishIfEmpty_run {s : State} (h : Encodes s) : finishIfEmpty s =
    .ok () (if s.win.streamPos = s.win.pos then streamFinished s else s) := by
  rw [finishIfEmpty, winAvail, Eng.bind_look, Eng.ite_run]
  by_cases hend : s.win.streamPos = s.win.pos
  · rw [if_pos hend, if_pos (by rw [hend, BitVec.sub_self]), encFinishStream_run h]
  · rw [if_neg hend, if_neg (fun hz => hend (by bv_omega))]
    rfl

theorem oneAhead_codePath (s : State) (path : List CodedBit) :
    codePath (oneAhead s) path = oneAhead (codePath s path) := by
  have hset := congrArg oneAhead (codePath_eq_coderPart path s)
  have hdressed := congrArg (dressed s.cstate { s.enc with addOffset := s.enc.addOffset + 1#32 } s.x s.cnt.nowPos)
    (codePath_eq_coderPart path s)
  exact (codePath_dressed s.cstate { s.enc with addOffset := s.enc.addOffset + 1#32 } s.x s.cnt.nowPos path s).trans
    (hdressed.trans hset.symm)

theorem firstPath_of_search {s t : State} (h : SearchFrom s t) (cur : Byte) : firstPath t cur = firstPath s cur := by
  rw [firstPath, firstPath, stateEntry, stateEntry, h.derived, h.cstate]

/-- The state in which the first step looks whether any input is left. -/
def firstCoded (s t : State) : State :=
  let cur := windowByte t (0#32 - (s.enc.addOffset + 1#32))
  dressed (stateAfter s.cstate (.literal cur)) { s.enc with prevByte := cur }
    { s.x with r0 := 1#32, r1 := 0xFFFFFFFF#32 } 1
    (codePath t (firstPath s cur))

theorem firstStepDone_eq (s t : State) : firstStepDone s t =
    if t.win.streamPos = t.win.pos then streamFinished (firstCoded s t) else firstCoded s t := by
  have hpath := codePath_dressed t.cstate t.enc { s.x with r0 := 1#32, r1 := 0xFFFFFFFF#32 } t.cnt.nowPos
    (firstPath s (windowByte t (0#32 - (s.enc.addOffset + 1#32)))) t
  have hresults : ({ t with x := { s.x with r0 := 1#32, r1 := 0xFFFFFFFF#32 } } : State) =
    dressed t.cstate t.enc { s.x with r0 := 1#32, r1 := 0xFFFFFFFF#32 } t.cnt.nowPos t := rfl
  dsimp only [firstStepDone, firstCoded, firstPath] at hpath ⊢
  rw [hresults, hpath]
  rfl

theorem results_firstByteCoded {s t : State} (h : SearchFrom s t) :
    results 1#32 0xFFFFFFFF#32 (firstByteCoded s.enc.addOffset (oneAhead t)) = firstCoded s t := by
  let cur := windowByte t (0#32 - (s.enc.addOffset + 1#32))
  have hpath : codePath (oneAhead t) (firstPath (oneAhead t) cur) = oneAhead (codePath t (firstPath s cur)) :=
    (oneAhead_codePath t (firstPath t cur)).trans (by rw [firstPath_of_search h])
  unfold firstByteCoded firstCoded
  change results _ _ (dressed _ _ _ _ (codePath (oneAhead t) (firstPath (oneAhead t) cur))) =
    dressed _ _ _ _ (codePath t (firstPath s cur))
  rw [hpath]
  generalize codePath t (firstPath s cur) = u
  change dressed (stateAfter t.cstate (.literal cur)) { t.enc with prevByte := cur, addOffset := s.enc.addOffset }
    { t.x with r0 := 1#32, r1 := 0xFFFFFFFF#32 } 1 u = _
  rw [h.cstate, h.enc, h.operands]

theorem encStep_first {s t : State} {r : Word × Word} (hs : Ready .encStep s) (hzero : s.cnt.nowPos = 0#64)
    (hleft : s.win.streamPos ≠ s.win.pos) (hread : readMatchDistances (clearResults s) = .ok r (oneAhead t))
    (ht : Encodes t) (hfrom : SearchFrom s t)
    (hinside : windowIndex t (0#32 - (s.enc.addOffset + 1#32)) < t.wbuf.size) :
    exec .encStep s = .next (firstStepDone s t) := by
  obtain ⟨hinv, hr, _⟩ := hs
  have hahead : Encodes (oneAhead t) := ⟨inv_stable.encoder _ rfl ht.inv, ht.phase, ht.room⟩
  have hbyte := encodeFirstByte_run hread hahead (congrArg (fun e : EncRegs => e.addOffset + 1#32) hfrom.enc) hinside
  have hstart : Inv (clearResults s) := inv_stable.results 0#32 0#32 hinv
  have hcoded : Encodes (firstByteCoded s.enc.addOffset (oneAhead t)) := by
    have hend := inv_stable.encodeFirstByte _ hstart
    rw [hbyte] at hend
    exact ⟨hend, (congrArg Status.phase (codePath_status _ (oneAhead t))).trans hahead.phase,
      (codePath_sinkRoom _ (oneAhead t)).trans hahead.room⟩
  have hlast : Encodes (firstCoded s t) := by
    rw [← results_firstByteCoded hfrom]
    exact ⟨inv_stable.results _ _ hcoded.inv, hcoded.phase, hcoded.room⟩
  obtain ⟨_, _, _, hwin⟩ := codePath_kept (firstPath s (windowByte t (0#32 - (s.enc.addOffset + 1#32)))) t
  have hfinish : finishIfEmpty (results 1#32 0xFFFFFFFF#32 (firstByteCoded s.enc.addOffset (oneAhead t))) =
      .ok () (firstStepDone s t) := by
    rw [results_firstByteCoded hfrom, finishIfEmpty_run hlast, firstStepDone_eq,
      show (firstCoded s t).win = t.win from hwin]
  rw [show exec .encStep s = command .encStep (gateOf .encStep) encStep s from rfl, hr.runs, encStep, Eng.bind_look,
    if_pos (show (clearResults s).cnt.nowPos = 0#64 from hzero), encFirstStep, winAvail, Eng.bind_look,
    if_neg (fun hz => hleft (by have hz : s.win.streamPos - s.win.pos = 0#32 := hz; bv_omega)), Eng.bind_ok hbyte]
  exact congrArg finish hfinish

/-! ### The search of the first step -/

theorem searchFrom_of_keeps {s t : State} (h : sourceRest (searchRest t) = sourceRest (searchRest s)) :
    SearchFrom s t where
  cstate := by
    have e := congrArg State.cstate h
    exact e
  derived := by
    have e := congrArg State.derived h
    exact e
  enc := by
    have e := congrArg State.enc h
    exact e
  operands := fun a b => by
    have e := congrArg (fun u : State => ({ u.x with r0 := a, r1 := b } : XRegs)) h
    exact e

/-- A search that completes leaves an encoder that codes, with its window and parameters. -/
theorem searched_encodes {s t : State} {n : Word} (h : Encodes s) (hsearch : mfGetMatches s = .ok n t) :
    Encodes t ∧ SearchFrom s t ∧ t.wbuf.size = t.win.blockSize.toNat ∧ t.win.blockSize = s.win.blockSize ∧
      t.mf.matchMaxLen = s.mf.matchMaxLen ∧ t.opts = s.opts ∧ t.mf.matchMaxLen.toNat ≤ 273 ∧ t.matchBuf.size = 548 := by
  have hend := inv_stable.mfGetMatches s h.inv
  have hkept := search_keeps.mfGetMatches s
  rw [hsearch] at hend hkept
  have hphase := congrArg (fun u : State => u.status.phase) hkept
  have hroom := congrArg (fun u : State => u.host.sinkRoom) hkept
  have hblock := congrArg (fun u : State => u.win.blockSize) hkept
  have hmax := congrArg (fun u : State => u.mf.matchMaxLen) hkept
  have hopts := congrArg State.opts hkept
  have ht : Encodes t := ⟨hend, hphase.trans h.phase, hroom.trans h.room⟩
  obtain ⟨hwbuf, _, _, hmatches, _⟩ := ht.inv.encRams ht.phase
  obtain ⟨hmf, _⟩ := ht.inv.encRegs ht.phase
  obtain ⟨_, hlegal, _⟩ := ht.inv.encOptions ht.phase
  obtain ⟨_, _, _, _, _, _, _, hfast⟩ := encOptionsLegal_iff.1 hlegal
  refine ⟨ht, searchFrom_of_keeps hkept, hwbuf, hblock, hmax, hopts, ?_, hmatches⟩
  rw [hmf]
  show (t.opts.fastBytes.setWidth 32).toNat ≤ 273
  rw [BitVec.toNat_setWidth]
  omega

/-- `WinMovePos` after its first step (R203). -/
def refillIfDue : Eng Unit := do
  let w ← look (·.win)
  if w.pos.toNat > w.posLimit.toNat then do
    if (w.bufOffset + w.pos).toNat > w.lastSafe.toNat then winMoveBlock
    winReadBlock

/-- `MfMovePos` after `WinMovePos` (R250). -/
def rebaseIfDue : Eng Unit := do
  let pos ← look (·.win.pos)
  if pos = Config.maxValForNormalize then mfNormalize

/-- `MfMovePos` moves on, then refills and rebases where due (R203, R250). -/
theorem mfMovePos_eq (s : State) : mfMovePos s = (refillIfDue >>= fun _ => rebaseIfDue) (advanced s) :=
  Eng.bind_congr (f := winMovePos) (f' := refillIfDue)
    (s := { s with mf := { s.mf with cycPos := nextCycPos s.mf } }) (s' := advanced s) rfl fun _ => rebaseIfDue

/-- `MfMovePos` where the window needs no refill and no rebasing (R203, R250). -/
theorem mfMovePos_inside {s : State} (h : MovesInside s) : mfMovePos s = .ok () (advanced s) := by
  obtain ⟨hlimit, hrebase⟩ := h
  have hnoRefill : ¬ (advanced s).win.pos.toNat > (advanced s).win.posLimit.toNat := Nat.not_lt.2 hlimit
  have hnoRebase : ¬ (advanced s).win.pos = Config.maxValForNormalize := hrebase
  have hrefill : refillIfDue (advanced s) = .ok () (advanced s) := by
    rw [refillIfDue, Eng.bind_look, if_neg hnoRefill]
    rfl
  rw [mfMovePos_eq, Eng.bind_ok hrefill, rebaseIfDue, Eng.bind_look, if_neg hnoRebase]
  rfl

theorem mfLenLimit_nearEnd {s : State} (h : NearEnd s) : mfLenLimit s.mf s.win = none := by
  rw [mfLenLimit, if_neg (Nat.not_le.2 h.1)]
  exact if_pos h.2

theorem firstStepDone_results (s t : State) (a b : Word) : firstStepDone s (results a b t) = firstStepDone s t := rfl

/-- Settles O53: a search (`readMatchDistances_run`) and the literal (`encStep_first`), for every search that completes
and near the end of the input. -/
theorem firstByteIsALiteral : Obligations.FirstByteIsALiteral := by
  unfold Obligations.FirstByteIsALiteral
  intro s hs hzero hleft
  obtain ⟨hinv, hr, hroom⟩ := hs
  obtain ⟨herr, _, hphase, _⟩ := hr
  have hstart : Encodes (clearResults s) := ⟨inv_stable.results 0#32 0#32 hinv, hphase, hroom⟩
  have step {n l : Word} {t : State} (hsearch : mfGetMatches (clearResults s) = .ok n t)
      (hl : n = 0#32 ∧ l = 0#32 ∨ n ≠ 0#32 ∧ (n - 2#32).toNat < t.matchBuf.size ∧ l = t.matchBuf.get (n - 2#32).toNat)
      (hruns : n ≠ 0#32 → l = s.mf.matchMaxLen → s.opts.extendFast = 1#1 →
        ∃ more, RunsFor t (l - 1#32) (t.matchBuf.get (n - 1#32).toNat) (273 - l.toNat) more)
      (hreadable : windowIndex t (0#32 - (s.enc.addOffset + 1#32)) < s.win.blockSize.toNat) :
      exec .encStep s = .next (firstStepDone s t) := by
    obtain ⟨ht, hfrom, hsize, hblock, hmax, hopts, hle, hwords⟩ := searched_encodes hstart hsearch
    have hfits := mfGetMatches_fits hsearch (by
      rw [← matchBuf_size_of_keeps search_keeps.mfGetMatches hsearch, hwords]
      decide)
    obtain ⟨r, hread⟩ := readMatchDistances_run hsearch hl hfits hle hsize (by rw [hmax, hopts]; exact hruns)
    exact encStep_first ⟨hinv, ⟨herr, rfl, hphase, trivial⟩, hroom⟩ hzero hleft hread ht
      ⟨hfrom.cstate, hfrom.derived, hfrom.enc, hfrom.operands⟩ (by rw [hsize, hblock]; exact hreadable)
  refine ⟨fun m hm he hruns hreadable => ?_, fun hmoves hnear hreadable => ?_⟩
  · obtain ⟨n, l, t, hsearch, rfl, hl0, hln⟩ := mfGetMatches_of_exec ⟨herr, rfl, hphase, trivial⟩ hm he
    refine (step hsearch ?_ (fun _ => hruns) hreadable).trans ?_
    · by_cases hn : n = 0#32
      · exact .inl ⟨hn, hl0 hn⟩
      · exact .inr ⟨hn, hln hn⟩
    · exact congrArg Host.Outcome.next (firstStepDone_results s t n l).symm
  · have hnear' : NearEnd (clearResults s) := hnear
    have hmoves' : MovesInside (clearResults s) := hmoves
    have hsearch : mfGetMatches (clearResults s) = .ok 0#32 (setNumPairs 0#32 (advanced (clearResults s))) := by
      rw [mfGetMatches_of_none (mfLenLimit_nearEnd hnear'), Eng.bind_ok (mfMovePos_inside hmoves')]
      rfl
    have hstep := step (l := 0#32) hsearch (.inl ⟨rfl, rfl⟩) (fun hne => absurd rfl hne) hreadable
    have hsame := firstStepDone_results s (setNumPairs 0#32 (advanced s)) 0#32 0#32
    exact hstep.trans (congrArg Host.Outcome.next hsame)

end Sys2Proof.Machine
end

section
/-! SUPPORT. The window moving on (R203 to R206, R211, R212): the block move, the refill, and the rules they keep. -/

namespace Sys2Proof.Machine

/-! ### Sizes and lines -/

/-- What a stream start fixes about the window's sizes (R201), and the buffer. -/
structure WindowSizes (s : State) : Prop where
  buffer : s.wbuf.size = s.win.blockSize.toNat
  wf : s.wbuf.wf = true
  lastSafe : s.win.lastSafe.toNat + s.win.keepAfter.toNat = s.win.blockSize.toNat
  reserve : s.win.keepBefore.toNat + s.win.keepAfter.toNat + 256 ≤ s.win.blockSize.toNat
  small : s.win.blockSize.toNat < 2 ^ 31

theorem Inv.windowSizes {s : State} (h : Inv s) (hphase : s.status.phase = .enc) : WindowSizes s := by
  obtain ⟨hwbuf, _⟩ := h.encRams hphase
  obtain ⟨_, _, _, _, hbefore, hafter, hsafe, hblock⟩ := h.encRegs hphase
  obtain ⟨_, hlegal, _⟩ := h.encOptions hphase
  obtain ⟨_, hdict, _, _, _, _, _, hfast⟩ := encOptionsLegal_iff.1 hlegal
  obtain ⟨_, hwf, _⟩ := (memory_wf_iff s).1 h.memory
  have hfast32 : (s.opts.fastBytes.setWidth 32).toNat = s.opts.fastBytes.toNat := by
    rw [BitVec.toNat_setWidth]
    omega
  have hafter' : s.win.keepAfter.toNat = s.opts.fastBytes.toNat + 274 := by
    rw [hafter, BitVec.toNat_add, hfast32, BitVec.toNat_ofNat]
    omega
  have hbefore' : s.win.keepBefore.toNat = s.opts.dictSize.toNat + 4096 := by
    rw [hbefore, BitVec.toNat_add, BitVec.toNat_ofNat]
    omega
  have hsize := blockSize_toNat (fast := s.opts.fastBytes.setWidth 32) hdict (by omega)
  rw [hfast32, BitVec.add_assoc _ (s.opts.fastBytes.setWidth 32), ← hbefore, ← hafter, ← hblock] at hsize
  exact
    { buffer := hwbuf
      wf := hwf
      lastSafe := by
        rw [hsafe, BitVec.toNat_sub_of_le (show s.win.keepAfter.toNat ≤ s.win.blockSize.toNat by omega)]
        omega
      reserve := by omega
      small := by omega }

/-- The places of the window's positions (R212): the rules `WindowOk` and the refill have in common. -/
structure WindowPlaced (s : State) : Prop where
  filled : (s.win.bufOffset + s.win.streamPos).toNat ≤ s.win.blockSize.toNat
  ahead : s.win.pos.toNat ≤ s.win.streamPos.toNat
  inside : ∀ p : Word, 1 ≤ p.toNat → s.win.pos.toNat ≤ p.toNat + s.win.keepBefore.toNat →
    p.toNat < s.win.streamPos.toNat → (s.win.bufOffset + p).toNat < s.win.blockSize.toNat
  started : 1 ≤ s.win.pos.toNat
  below : s.win.pos.toNat ≤ 0x7FFFFFFF

/-- The positions a window keeps stand in line in WBUF. -/
theorem WindowPlaced.line {s : State} (h : WindowPlaced s) (hs : WindowSizes s) {p : Word} (hp : 1 ≤ p.toNat)
    (hkept : s.win.pos.toNat ≤ p.toNat + s.win.keepBefore.toNat) (hle : p.toNat ≤ s.win.streamPos.toNat) :
    (s.win.bufOffset + p).toNat + s.win.streamPos.toNat = (s.win.bufOffset + s.win.streamPos).toNat + p.toNat := by
  have hfilled := h.filled
  have hsmall := hs.small
  by_contra hne
  have hgap : (s.win.bufOffset + s.win.streamPos).toNat + p.toNat < s.win.streamPos.toNat := by bv_omega
  -- the position whose place would be the last of all words
  have hlast := h.inside (BitVec.ofNat 32 (s.win.streamPos.toNat - (s.win.bufOffset + s.win.streamPos).toNat - 1))
    (by bv_omega) (by bv_omega) (by bv_omega)
  bv_omega

/-- The input ahead is no longer than the window. -/
theorem WindowPlaced.streamPos_le {s : State} (h : WindowPlaced s) (hs : WindowSizes s) :
    s.win.streamPos.toNat ≤ s.win.pos.toNat + s.win.blockSize.toNat := by
  have hline := h.line hs h.started (Nat.le_add_right _ _) h.ahead
  have hfilled := h.filled
  omega

/-! ### The block move (R204) -/

/-- `s` with another content of WBUF. -/
def withBuffer (r : Ram Byte 0#8) (s : State) : State := { s with wbuf := r }

/-- `n` bytes moved down by `offset`, from index `i` on. -/
structure BytesMoved (offset i n : Nat) (r r' : Ram Byte 0#8) : Prop where
  size : r'.size = r.size
  wf : r'.wf = true
  moved : ∀ j, i ≤ j → j < i + n → r'.get j = r.get (offset + j)
  below : ∀ j, j < i → r'.get j = r.get j

theorem winMoveBytes_run (offset : Word) : ∀ (n i : Nat) (s : State), s.wbuf.wf = true →
    offset.toNat + i + n ≤ s.wbuf.size → s.wbuf.size < 2 ^ 31 →
    ∃ r, winMoveBytes offset n (BitVec.ofNat 32 i) s = .ok () (withBuffer r s) ∧ BytesMoved offset.toNat i n s.wbuf r
  | 0, i, s, hwf, _, _ =>
    ⟨s.wbuf, rfl, rfl, hwf, fun j hi hj => absurd hj (by omega), fun _ _ => rfl⟩
  | n + 1, i, s, hwf, hroom, hsmall => by
    have hfrom : (offset + BitVec.ofNat 32 i).toNat = offset.toNat + i := by bv_omega
    have hto : (BitVec.ofNat 32 i).toNat = i := by
      rw [BitVec.toNat_ofNat]
      omega
    let r := s.wbuf.set i (s.wbuf.get (offset.toNat + i))
    have hread : wbufRead (offset + BitVec.ofNat 32 i) s = .ok (s.wbuf.get (offset.toNat + i)) s := by
      rw [← hfrom]
      exact ramRead_ok (ram := (·.wbuf)) (by rw [hfrom]; omega)
    have hwrite : wbufWrite (BitVec.ofNat 32 i) (s.wbuf.get (offset.toNat + i)) s = .ok () (withBuffer r s) := by
      have hlt : (BitVec.ofNat 32 i).toNat < s.wbuf.size := by omega
      exact (ramWrite_ok (ram := (·.wbuf)) hlt).trans (by rw [hto]; rfl)
    obtain ⟨r', hrun, hmoved⟩ := winMoveBytes_run offset n (i + 1) (withBuffer r s) (Ram.wf_set hwf (by omega) _)
      (by show offset.toNat + (i + 1) + n ≤ s.wbuf.size; omega) hsmall
    refine ⟨r', ?_, hmoved.size, hmoved.wf, fun j hi hj => ?_, fun j hj => ?_⟩
    · rw [winMoveBytes, Eng.bind_ok hread, Eng.bind_ok hwrite, ← BitVec.ofNat_add, hrun]
      rfl
    · by_cases hij : j = i
      · rw [hij, hmoved.below i (Nat.lt_succ_self i)]
        exact Ram.get_set_same hwf i _
      · rw [hmoved.moved j (by omega) (by omega)]
        exact Ram.get_set_other hwf (by omega) _
    · rw [hmoved.below j (by omega)]
      exact Ram.get_set_other hwf (by omega) _

/-- The window after a block move by `offset`, with `r` the bytes moved. -/
def blockMoved (offset : Word) (r : Ram Byte 0#8) (s : State) : State :=
  { s with wbuf := r, win := { s.win with bufOffset := s.win.bufOffset - offset } }

/-- What a block move keeps: the rules, and the bytes of the positions kept, with the current position near the
front. -/
structure BlockMoved (s t : State) : Prop where
  frame : ∃ offset r, t = blockMoved offset r s
  sizes : WindowSizes t
  placed : WindowPlaced t
  bytes : ∀ p : Word, 1 ≤ p.toNat → s.win.pos.toNat ≤ p.toNat + s.win.keepBefore.toNat →
    p.toNat < s.win.streamPos.toNat → byteAt t p = byteAt s p
  front : (t.win.bufOffset + t.win.pos).toNat = s.win.keepBefore.toNat + 1

theorem winMoveBlock_run {s : State} (h : WindowPlaced s) (hs : WindowSizes s)
    (hfar : s.win.lastSafe.toNat < (s.win.bufOffset + s.win.pos).toNat) :
    ∃ t, winMoveBlock s = .ok () t ∧ BlockMoved s t := by
  have hlast := hs.lastSafe
  have hreserve := hs.reserve
  have hsmall := hs.small
  have hfilled := h.filled
  have hahead := h.ahead
  have hstarted := h.started
  have hline := h.line hs h.started (Nat.le_add_right _ _) h.ahead
  have hoffset : (winMoveOffset s.win).toNat = (s.win.bufOffset + s.win.pos).toNat - s.win.keepBefore.toNat - 1 := by
    unfold winMoveOffset
    dsimp only
    rw [if_pos (by bv_omega)]
    bv_omega
  have hcount : (s.win.bufOffset + s.win.streamPos - winMoveOffset s.win).toNat =
      (s.win.bufOffset + s.win.streamPos).toNat - (winMoveOffset s.win).toNat := by bv_omega
  obtain ⟨r, hrun, hmoved⟩ := winMoveBytes_run (winMoveOffset s.win)
    (s.win.bufOffset + s.win.streamPos - winMoveOffset s.win).toNat 0 s hs.wf
    (by rw [hs.buffer, hcount]; omega) (by rw [hs.buffer]; exact hsmall)
  -- a position kept has its place moved down by the offset
  have hplace : ∀ p : Word, 1 ≤ p.toNat → s.win.pos.toNat ≤ p.toNat + s.win.keepBefore.toNat →
      p.toNat ≤ s.win.streamPos.toNat →
      (s.win.bufOffset - winMoveOffset s.win + p).toNat + (winMoveOffset s.win).toNat =
        (s.win.bufOffset + p).toNat := by
    intro p hp hkept hle
    have hp' := h.line hs hp hkept hle
    bv_omega
  refine ⟨blockMoved (winMoveOffset s.win) r s, ?_, ⟨_, _, rfl⟩, ?_, ?_, fun p hp hkept hlt => ?_, ?_⟩
  · rw [winMoveBlock, Eng.bind_look, Eng.bind_ok hrun]
    rfl
  · exact { hs with buffer := hmoved.size.trans hs.buffer, wf := hmoved.wf }
  · have hend := hplace s.win.streamPos (by omega) (by omega) (Nat.le_refl _)
    exact
      { h with
        filled := by
          show (s.win.bufOffset - winMoveOffset s.win + s.win.streamPos).toNat ≤ s.win.blockSize.toNat
          omega
        inside := fun p hp hkept hlt => by
          have hin := h.inside p hp hkept hlt
          have hplaced := hplace p hp hkept (Nat.le_of_lt hlt)
          show (s.win.bufOffset - winMoveOffset s.win + p).toNat < s.win.blockSize.toNat
          omega }
  · have hplaced := hplace p hp hkept (Nat.le_of_lt hlt)
    have hp' := h.line hs hp hkept (Nat.le_of_lt hlt)
    show r.get (s.win.bufOffset - winMoveOffset s.win + p).toNat = s.wbuf.get (s.win.bufOffset + p).toNat
    rw [hmoved.moved _ (Nat.zero_le _) (by omega), Nat.add_comm, hplaced]
  · have hplaced := hplace s.win.pos hstarted (by omega) hahead
    show (s.win.bufOffset - winMoveOffset s.win + s.win.pos).toNat = _
    omega

/-! ### The refill (R206) -/

/-- A window the refill may fill: until the input ends, with the current position far enough from the end of WBUF. -/
structure Refillable (s : State) : Prop where
  sizes : WindowSizes s
  placed : WindowPlaced s
  goesOn : s.win.streamEnd = false
  front : (s.win.bufOffset + s.win.pos).toNat + s.win.keepAfter.toNat ≤ s.win.blockSize.toNat
  limit : s.win.pos.toNat + s.win.keepAfter.toNat ≤ s.win.streamPos.toNat →
    s.win.posLimit.toNat + s.win.keepAfter.toNat = s.win.streamPos.toNat

/-- `s` with what a refill changes of `t`. -/
def withRefill (t s : State) : State :=
  { s with
    host := { s.host with src := t.host.src }
    cnt := { s.cnt with inCount := t.cnt.inCount }
    status := { s.status with srcEof := t.status.srcEof }
    wbuf := t.wbuf
    win := { s.win with streamPos := t.win.streamPos, posLimit := t.win.posLimit, streamEnd := t.win.streamEnd } }

/-- What a refill keeps and makes: the rules of the window, and the bytes already read. -/
structure WindowRefilled (s t : State) : Prop where
  frame : t = withRefill t s
  sizes : WindowSizes t
  placed : WindowPlaced t
  lookAhead : t.win.streamEnd = false → t.win.pos.toNat + t.win.keepAfter.toNat ≤ t.win.streamPos.toNat
  limit : t.win.streamEnd = false → t.win.posLimit.toNat + t.win.keepAfter.toNat = t.win.streamPos.toNat
  longer : s.win.streamPos.toNat ≤ t.win.streamPos.toNat
  bytes : ∀ p : Word, p.toNat < s.win.streamPos.toNat → byteAt t p = byteAt s p

/-- The WBUF elements past the last byte read. -/
def roomLeft (s : State) : Nat := s.win.blockSize.toNat - (s.win.bufOffset + s.win.streamPos).toNat

/-- The state after one byte of a refill (R206). -/
def byteRefilled (b : Byte) (rest : List Byte) (s : State) : State :=
  { bytePopped rest s with
    wbuf := s.wbuf.set (s.win.bufOffset + s.win.streamPos).toNat b, win := winAfterByte s.win }

/-- The state after the source's end in a refill (R206). -/
def sourceExhausted (s : State) : State :=
  { s with status := { s.status with srcEof := true }, win := winAtEof s.win }

namespace Refillable
variable {s : State} (h : Refillable s)
include h

theorem full_iff : s.win.bufOffset + s.win.streamPos = s.win.blockSize ↔ roomLeft s = 0 := by
  have hfilled := h.placed.filled
  rw [← BitVec.toNat_inj, roomLeft]
  omega

/-- A full window needs no turn. -/
theorem refilled_of_full (hfull : roomLeft s = 0) : WindowRefilled s s := by
  have hline := h.placed.line h.sizes h.placed.started (Nat.le_add_right _ _) h.placed.ahead
  have hfront := h.front
  have hfilled := h.placed.filled
  have hahead : s.win.pos.toNat + s.win.keepAfter.toNat ≤ s.win.streamPos.toNat := by
    unfold roomLeft at hfull
    omega
  exact
    { frame := rfl, sizes := h.sizes, placed := h.placed, lookAhead := fun _ => hahead, limit := fun _ => h.limit hahead
      longer := Nat.le_refl _, bytes := fun _ _ => rfl }

/-- The source's end ends the refill. -/
theorem refilled_of_eof : WindowRefilled s (sourceExhausted s) where
  frame := rfl
  sizes := { h.sizes with }
  placed := { h.placed with }
  lookAhead := fun hopen => nomatch hopen
  limit := fun hopen => nomatch hopen
  longer := Nat.le_refl _
  bytes := fun _ _ => rfl

theorem streamPos_succ : (s.win.streamPos + 1).toNat = s.win.streamPos.toNat + 1 := by
  have hle := h.placed.streamPos_le h.sizes
  have hsmall := h.sizes.small
  have hbelow := h.placed.below
  bv_omega

theorem byteRefilled (b : Byte) (rest : List Byte) (hroom : roomLeft s ≠ 0) : Refillable (byteRefilled b rest s) := by
  have hnext := h.streamPos_succ
  have hfilled := h.placed.filled
  have hsmall := h.sizes.small
  have hlt : (s.win.bufOffset + s.win.streamPos).toNat < s.win.blockSize.toNat := by
    unfold roomLeft at hroom
    omega
  exact
    { sizes := { h.sizes with wf := Ram.wf_set h.sizes.wf (by rw [h.sizes.buffer]; exact hlt) b }
      placed :=
        { h.placed with
          filled := by
            show (s.win.bufOffset + (s.win.streamPos + 1)).toNat ≤ s.win.blockSize.toNat
            bv_omega
          ahead := by
            have hahead := h.placed.ahead
            show s.win.pos.toNat ≤ (s.win.streamPos + 1).toNat
            omega
          inside := fun p hp hkept hp' => by
            have hp' : p.toNat < (s.win.streamPos + 1).toNat := hp'
            show (s.win.bufOffset + p).toNat < s.win.blockSize.toNat
            by_cases hold : p.toNat < s.win.streamPos.toNat
            · exact h.placed.inside p hp hkept hold
            · have hnew : p = s.win.streamPos := BitVec.eq_of_toNat_eq (by omega)
              rw [hnew]
              exact hlt }
      goesOn := h.goesOn
      front := h.front
      limit := fun hahead => by
        have hahead : s.win.pos.toNat + s.win.keepAfter.toNat ≤ (s.win.streamPos + 1).toNat := hahead
        show (if (s.win.pos + s.win.keepAfter).toNat ≤ (s.win.streamPos + 1).toNat then
          s.win.streamPos + 1 - s.win.keepAfter else s.win.posLimit).toNat + s.win.keepAfter.toNat =
            (s.win.streamPos + 1).toNat
        have hsum : (s.win.pos + s.win.keepAfter).toNat = s.win.pos.toNat + s.win.keepAfter.toNat := by bv_omega
        rw [if_pos (by omega)]
        bv_omega }

/-- A refill after one byte is the whole refill. -/
theorem refilled_of_byteRefilled {b : Byte} {rest : List Byte} {t : State}
    (ht : WindowRefilled (Machine.byteRefilled b rest s) t) : WindowRefilled s t where
  frame := ht.frame
  sizes := ht.sizes
  placed := ht.placed
  lookAhead := ht.lookAhead
  limit := ht.limit
  longer := by
    have hnext := h.streamPos_succ
    have hlonger : (s.win.streamPos + 1).toNat ≤ t.win.streamPos.toNat := ht.longer
    omega
  bytes := fun p hp => by
    have hnext := h.streamPos_succ
    have hplace : (s.win.bufOffset + p).toNat ≠ (s.win.bufOffset + s.win.streamPos).toNat := by bv_omega
    rw [ht.bytes p (show p.toNat < (s.win.streamPos + 1).toNat by omega)]
    exact Ram.get_set_other h.sizes.wf hplace b

end Refillable

/-- A refill that ends without waiting: the source ends, or has the bytes the window has room for (R110, R206). -/
def SourceReady (s : State) : Prop :=
  s.status.srcEof = true ∨ s.host.srcEnd = true ∨ roomLeft s ≤ s.host.src.length

/-- The refill loop fills the window or ends with the source, or waits. -/
theorem winReadLoop_ends : ∀ (n : Nat) (s : State), Refillable s → s.host.src.length < n →
    (∃ t, winReadLoop n s = .ok () t ∧ WindowRefilled s t) ∨
    (¬ SourceReady s ∧ ∃ t, winReadLoop n s = .error (.stuck .sourceWait) t)
  | 0, _, _, hn => absurd hn (Nat.not_lt_zero _)
  | n + 1, s, h, hn => by
    rw [winReadLoop, Eng.bind_look]
    by_cases hroom : roomLeft s = 0
    · rw [if_pos (h.full_iff.2 hroom)]
      exact .inl ⟨s, rfl, h.refilled_of_full hroom⟩
    rw [if_neg (mt h.full_iff.1 hroom)]
    rcases srcRead_cases s with ⟨he, e⟩ | ⟨b, rest, he, hsrc, e⟩ | ⟨he, hsrc, hend, e⟩ | ⟨he, hsrc, hend, e⟩
    · have hsame : ({ s with win := winAtEof s.win } : State) = sourceExhausted s := by
        have hstatus : s.status = { s.status with srcEof := true } := by rw [← he]
        exact congrArg (fun u => ({ s with status := u, win := winAtEof s.win } : State)) hstatus
      exact .inl ⟨_, (Eng.bind_ok e _).trans (congrArg (EStateM.Result.ok ()) hsame), h.refilled_of_eof⟩
    · have hlt : (s.win.bufOffset + s.win.streamPos).toNat < s.wbuf.size := by
        rw [h.sizes.buffer]
        unfold roomLeft at hroom
        omega
      have hw : wbufWrite (s.win.bufOffset + s.win.streamPos) b (bytePopped rest s) = .ok ()
          { bytePopped rest s with wbuf := s.wbuf.set (s.win.bufOffset + s.win.streamPos).toNat b } :=
        ramWrite_ok (ram := (·.wbuf)) hlt
      have hrun : (srcRead >>= fun x => match x with
          | none => put fun s => { s with win := winAtEof s.win }
          | some b => do
            wbufWrite (s.win.bufOffset + s.win.streamPos) b
            put fun s => { s with win := winAfterByte s.win }
            winReadLoop n) s = winReadLoop n (byteRefilled b rest s) :=
        (Eng.bind_ok e _).trans (Eng.bind_ok hw _)
      have hlen : s.host.src.length = rest.length + 1 := by rw [hsrc]; rfl
      have hshorter : rest.length < n := by omega
      rcases winReadLoop_ends n (byteRefilled b rest s) (h.byteRefilled b rest hroom) hshorter with
        ⟨t, ht, hr⟩ | ⟨hwait, t, ht⟩
      · exact .inl ⟨t, hrun.trans ht, h.refilled_of_byteRefilled hr⟩
      · refine .inr ⟨fun hready => hwait ?_, t, hrun.trans ht⟩
        refine hready.imp id (Or.imp id fun hle => ?_)
        show s.win.blockSize.toNat - (s.win.bufOffset + (s.win.streamPos + 1)).toNat ≤ rest.length
        have hsmall := h.sizes.small
        unfold roomLeft at hle hroom
        bv_omega
    · exact .inl ⟨_, Eng.bind_ok e _, h.refilled_of_eof⟩
    · refine .inr ⟨fun hready => ?_, s, Eng.bind_error e _⟩
      rcases hready with hr | hr | hr
      · exact absurd (hr.symm.trans he) Bool.noConfusion
      · exact absurd (hr.symm.trans hend) Bool.noConfusion
      · rw [hsrc] at hr
        exact hroom (Nat.le_zero.1 hr)

/-! ### The position moved on (R203) -/

/-- A window whose position has just moved on. -/
structure WindowMoved (s : State) : Prop where
  sizes : WindowSizes s
  placed : WindowPlaced s
  limit : s.win.streamEnd = false → s.win.posLimit.toNat + s.win.keepAfter.toNat = s.win.streamPos.toNat

/-- `s` with the window's changing registers, WBUF and the source's part of `t`. -/
def windowOf (t s : State) : State :=
  { s with
    host := { s.host with src := t.host.src }
    cnt := { s.cnt with inCount := t.cnt.inCount }
    status := { s.status with srcEof := t.status.srcEof }
    wbuf := t.wbuf
    win := { s.win with bufOffset := t.win.bufOffset, streamPos := t.win.streamPos, posLimit := t.win.posLimit,
                        streamEnd := t.win.streamEnd } }

/-- The window after its refill: the rules of R211 and R212, and the bytes of the positions kept. -/
structure WindowDone (s t : State) : Prop where
  frame : t = windowOf t s
  sizes : WindowSizes t
  placed : WindowPlaced t
  lookAhead : t.win.streamEnd = false → t.win.pos.toNat + t.win.keepAfter.toNat ≤ t.win.streamPos.toNat
  limit : t.win.streamEnd = false → t.win.posLimit.toNat + t.win.keepAfter.toNat = t.win.streamPos.toNat
  longer : s.win.streamPos.toNat ≤ t.win.streamPos.toNat
  bytes : ∀ p : Word, 1 ≤ p.toNat → s.win.pos.toNat ≤ p.toNat + s.win.keepBefore.toNat →
    p.toNat < s.win.streamPos.toNat → byteAt t p = byteAt s p

theorem WindowRefilled.done {s t : State} (h : WindowRefilled s t) : WindowDone s t where
  frame := by
    have hframe := h.frame
    rw [hframe, windowOf]
    rfl
  sizes := h.sizes
  placed := h.placed
  lookAhead := h.lookAhead
  limit := h.limit
  longer := h.longer
  bytes := fun p _ _ hlt => h.bytes p hlt

theorem BlockMoved.done {s u t : State} (h : BlockMoved s u) (ht : WindowDone u t) : WindowDone s t := by
  obtain ⟨⟨offset, r, rfl⟩, _, _, hbytes, _⟩ := h
  exact
    { frame := ht.frame
      sizes := ht.sizes
      placed := ht.placed
      lookAhead := ht.lookAhead
      limit := ht.limit
      longer := ht.longer
      bytes := fun p hp hkept hlt => (ht.bytes p hp hkept hlt).trans (hbytes p hp hkept hlt) }

namespace WindowMoved
variable {s : State} (h : WindowMoved s)
include h

/-- Nothing to read: the input has ended, or the limit is not reached. -/
theorem done (hahead : s.win.streamEnd = false → s.win.pos.toNat ≤ s.win.posLimit.toNat) : WindowDone s s where
  frame := rfl
  sizes := h.sizes
  placed := h.placed
  lookAhead := fun hopen => by
    have hlimit := h.limit hopen
    have hle := hahead hopen
    omega
  limit := h.limit
  longer := Nat.le_refl _
  bytes := fun _ _ _ _ => rfl

theorem winReadBlock_ends
    (hfront : (s.win.bufOffset + s.win.pos).toNat + s.win.keepAfter.toNat ≤ s.win.blockSize.toNat) :
    (∃ t, winReadBlock s = .ok () t ∧ WindowDone s t) ∨
    (¬ RefillReady s ∧ ∃ t, winReadBlock s = .error (.stuck .sourceWait) t) := by
  rw [winReadBlock, Eng.bind_look]
  cases hend : s.win.streamEnd with
  | true =>
    exact .inl ⟨s, rfl, h.done fun hopen => absurd (hopen.symm.trans hend) Bool.noConfusion⟩
  | false =>
    have hrefill : Refillable s :=
      { sizes := h.sizes, placed := h.placed, goesOn := hend, front := hfront, limit := fun _ => h.limit hend }
    rw [if_neg Bool.noConfusion, Eng.bind_look]
    rcases winReadLoop_ends _ s hrefill (Nat.lt_succ_self _) with ⟨t, hrun, ht⟩ | ⟨hwait, t, hrun⟩
    · exact .inl ⟨t, hrun, ht.done⟩
    · refine .inr ⟨fun hready => hwait ?_, t, hrun⟩
      rcases hready with hr | hr | hr | hr
      · exact absurd (hr.symm.trans hend) Bool.noConfusion
      · exact .inl hr
      · exact .inr (.inl hr)
      · exact .inr (.inr (by unfold roomLeft; omega))

/-- The refill after a move completes, or waits for a source that is not ready. -/
theorem refillIfDue_ends : (∃ t, refillIfDue s = .ok () t ∧ WindowDone s t) ∨
    (¬ RefillReady s ∧ ∃ t, refillIfDue s = .error (.stuck .sourceWait) t) := by
  have hlast := h.sizes.lastSafe
  have hreserve := h.sizes.reserve
  rw [refillIfDue, Eng.bind_look]
  by_cases hdue : s.win.pos.toNat > s.win.posLimit.toNat
  · rw [if_pos hdue]
    by_cases hfar : (s.win.bufOffset + s.win.pos).toNat > s.win.lastSafe.toNat
    · obtain ⟨u, hrun, hu⟩ := winMoveBlock_run h.placed h.sizes hfar
      have hmoved : WindowMoved u ∧
          (u.win.bufOffset + u.win.pos).toNat + u.win.keepAfter.toNat ≤ u.win.blockSize.toNat ∧
          (RefillReady s → RefillReady u) := by
        obtain ⟨⟨offset, r, rfl⟩, hsizes, hplaced, _, hfront⟩ := hu
        exact ⟨⟨hsizes, hplaced, h.limit⟩, by
          rw [hfront]
          show s.win.keepBefore.toNat + 1 + s.win.keepAfter.toNat ≤ s.win.blockSize.toNat
          omega, id⟩
      obtain ⟨hwindow, hfront, hready⟩ := hmoved
      rw [if_pos hfar, Eng.bind_ok hrun]
      rcases hwindow.winReadBlock_ends hfront with ⟨t, hread, ht⟩ | ⟨hwait, t, hread⟩
      · exact .inl ⟨t, hread, hu.done ht⟩
      · exact .inr ⟨fun hr => hwait (hready hr), t, hread⟩
    · rw [if_neg hfar]
      exact h.winReadBlock_ends (by omega)
  · rw [if_neg hdue]
    exact .inl ⟨s, rfl, h.done fun _ => Nat.le_of_not_lt hdue⟩

end WindowMoved

end Sys2Proof.Machine
end

section
/-! SUPPORT. The match finder's rules across a move of the position (R250, R251, R254): inserted at the current
position, they hold of the next one, whatever the window moves, and across the rebasing. -/

namespace Sys2Proof.Machine

/-! ### Sizes -/

/-- What a stream start fixes about the match finder (R240), and its RAMs. -/
structure FinderSizes (s : State) : Prop where
  son : s.son.size = 2 * s.mf.cbs.toNat
  hash : s.hash.size = s.mf.hashSizeSum.toNat
  words : s.matchBuf.size = 548
  sonWf : s.son.wf = true
  hashWf : s.hash.wf = true
  wordsWf : s.matchBuf.wf = true
  cycPos : s.mf.cycPos.toNat < s.mf.cbs.toNat
  cbs : s.mf.cbs.toNat = s.opts.dictSize.toNat + 1
  dict : 1 ≤ s.opts.dictSize.toNat ∧ s.opts.dictSize.toNat ≤ 2 ^ 30
  kept : s.mf.cbs.toNat + 4095 = s.win.keepBefore.toNat
  maxLen : s.mf.matchMaxLen.toNat = s.opts.fastBytes.toNat
  fast : 5 ≤ s.opts.fastBytes.toNat ∧ s.opts.fastBytes.toNat ≤ 273
  four : s.mf.hashArray = true → s.mf.fixHashSize = 66560#32 ∧ s.mf.numHashDirectBytes = 0#32 ∧
    s.mf.minMatchCheck = 4#32 ∧ s.mf.hashSizeSum.toNat = 66561 + s.mf.hashMask.toNat
  two : s.mf.hashArray = false → s.mf.fixHashSize = 0#32 ∧ s.mf.numHashDirectBytes = 2#32 ∧ s.mf.minMatchCheck = 3#32 ∧
    s.mf.hashSizeSum = 65536#32

/-- The mask of the main hash leaves room for the short ones (R240). -/
theorem hashMaskOf_lt (dict : Word) : (hashMaskOf dict).toNat < 2 ^ 31 := by
  have hshift (v : Word) : (v >>> 1).toNat < 2 ^ 31 := by
    rw [BitVec.toNat_ushiftRight, Nat.shiftRight_eq_div_pow]
    have := v.isLt
    omega
  have hor (v : Word) : ((v >>> 1) ||| 0xFFFF#32).toNat < 2 ^ 31 := by
    rw [BitVec.toNat_or]
    exact Nat.or_lt_two_pow (hshift v) (by decide)
  unfold hashMaskOf
  dsimp only
  split
  · exact hshift _
  · exact hor _

theorem Inv.finderSizes {s : State} (h : Inv s) (hphase : s.status.phase = .enc) : FinderSizes s := by
  obtain ⟨_, hson, hhash, hwords, _⟩ := h.encRams hphase
  obtain ⟨hmf, hcyc, _, _, hbefore, _⟩ := h.encRegs hphase
  obtain ⟨_, hlegal, _⟩ := h.encOptions hphase
  obtain ⟨hdict, hdict', _, _, _, _, hfast, hfast'⟩ := encOptionsLegal_iff.1 hlegal
  obtain ⟨_, _, hsonWf, hhashWf, hwordsWf, _⟩ := (memory_wf_iff s).1 h.memory
  have hfast32 : (s.opts.fastBytes.setWidth 32).toNat = s.opts.fastBytes.toNat := by
    rw [BitVec.toNat_setWidth]
    omega
  have hcbs : s.mf.cbs = s.opts.dictSize + 1#32 := congrArg MfRegs.cbs hmf
  have hmax : s.mf.matchMaxLen = s.opts.fastBytes.setWidth 32 := congrArg MfRegs.matchMaxLen hmf
  have hfour : s.mf.hashArray = decide (s.opts.mfHash = 1#1) := congrArg MfRegs.hashArray hmf
  have hfix : s.mf.fixHashSize = if decide (s.opts.mfHash = 1#1) then 1024#32 + 65536#32 else 0#32 :=
    congrArg MfRegs.fixHashSize hmf
  have hdirect : s.mf.numHashDirectBytes = if decide (s.opts.mfHash = 1#1) then 0#32 else 2#32 :=
    congrArg MfRegs.numHashDirectBytes hmf
  have hcheck : s.mf.minMatchCheck = if decide (s.opts.mfHash = 1#1) then 4#32 else 3#32 :=
    congrArg MfRegs.minMatchCheck hmf
  have hmask : s.mf.hashMask = if decide (s.opts.mfHash = 1#1) then hashMaskOf s.opts.dictSize else 0xFFFF#32 :=
    congrArg MfRegs.hashMask hmf
  have hsum : s.mf.hashSizeSum = if decide (s.opts.mfHash = 1#1) then
      hashMaskOf s.opts.dictSize + 1#32 + 1024#32 + 65536#32 else 65536#32 := congrArg MfRegs.hashSizeSum hmf
  have hmaskLt := hashMaskOf_lt s.opts.dictSize
  rw [← hfour] at hfix hdirect hcheck hmask hsum
  exact
    { son := hson, hash := hhash, words := hwords, sonWf := hsonWf, hashWf := hhashWf, wordsWf := hwordsWf
      cycPos := hcyc
      cbs := by bv_omega
      dict := ⟨hdict, hdict'⟩
      kept := by bv_omega
      maxLen := by rw [hmax, hfast32]
      fast := ⟨hfast, hfast'⟩
      four := fun hm => by
        rw [if_pos hm] at hfix hdirect hcheck hmask hsum
        exact ⟨hfix, hdirect, hcheck, by bv_omega⟩
      two := fun hm => by
        have hm' : ¬ s.mf.hashArray = true := by rw [hm]; exact Bool.noConfusion
        rw [if_neg hm'] at hfix hdirect hcheck hmask hsum
        exact ⟨hfix, hdirect, hcheck, hsum⟩ }

/-! ### The node of the current position -/

/-- The positions a search may follow, and the current one. -/
def Kept (s : State) (p : Word) : Prop := oldest s < p.toNat ∧ p.toNat ≤ s.win.pos.toNat

/-- The match finder's rules with the current position inserted: those of `FinderOk` for the positions kept. -/
structure FinderInserted (s : State) : Prop where
  heads : ∀ k : Nat, (s.hash.get k).toNat ≤ s.win.pos.toNat
  sons : ∀ k : Nat, (s.son.get k).toNat < s.win.pos.toNat
  older : ∀ p : Word, Kept s p →
    (s.son.get (2 * slotAt s p)).toNat < p.toNat ∧ (s.son.get (2 * slotAt s p + 1)).toNat < p.toNat
  read : ∀ k : Nat, Kept s (s.hash.get k) → (s.hash.get k).toNat + s.mf.minMatchCheck.toNat ≤ s.win.streamPos.toNat
  two : s.mf.hashArray = true → ∀ k : Nat, k < 1024 → Kept s (s.hash.get k) → hashTwo (standingAt (s.hash.get k) s) = k
  three : s.mf.hashArray = true → ∀ k : Nat, k < 65536 → Kept s (s.hash.get (1024 + k)) →
    hashThree (standingAt (s.hash.get (1024 + k)) s) = k
  main : ∀ k : Nat, s.mf.fixHashSize.toNat ≤ k → Kept s (s.hash.get k) → mainBucket (standingAt (s.hash.get k) s) = k

theorem slotAt_pos {s : State} (h : FinderSizes s) : slotAt s s.win.pos = s.mf.cycPos.toNat := by
  have hcyc := h.cycPos
  rw [slotAt, Nat.sub_self, Nat.sub_zero, Nat.add_mod_right, Nat.mod_eq_of_lt hcyc]

/-- Nothing inserted, the rules hold with the current position among those kept. -/
theorem FinderOk.inserted {s : State} (h : FinderOk s) : FinderInserted s := by
  have live {k : Nat} (hk : Kept s (s.hash.get k)) : Live s (s.hash.get k) := ⟨hk.1, h.past.1 k⟩
  exact
    { heads := fun k => Nat.le_of_lt (h.past.1 k)
      sons := h.past.2
      older := fun p hp => by
        by_cases hlt : p.toNat < s.win.pos.toNat
        · exact h.older p ⟨hp.1, hlt⟩
        · have heq : p.toNat = s.win.pos.toNat := by
            have hle := hp.2
            omega
          rw [heq]
          exact ⟨h.past.2 _, h.past.2 _⟩
      read := fun k hk => h.read k (live hk)
      two := fun hm k hlt hk => (h.short hm).1 k hlt (live hk)
      three := fun hm k hlt hk => (h.short hm).2 k hlt (live hk)
      main := fun k hle hk => h.main k hle (live hk) }

/-- A node's slot stays where it is when the position moves on (R250, R251). -/
theorem slotAt_advanced {s : State} (hs : FinderSizes s) (hpos : s.win.pos.toNat < 2 ^ 31) {p : Word}
    (hp : Live (advanced s) p) : slotAt (advanced s) p = slotAt s p := by
  have hcyc := hs.cycPos
  have hcbs := hs.cbs
  have hdict := hs.dict
  have hnext : (s.win.pos + 1#32).toNat = s.win.pos.toNat + 1 := by bv_omega
  obtain ⟨hold, hlt⟩ := hp
  change (s.win.pos + 1#32).toNat - s.mf.cbs.toNat < p.toNat at hold
  change p.toNat < (s.win.pos + 1#32).toNat at hlt
  show ((if s.mf.cbs.toNat ≤ (s.mf.cycPos + 1#32).toNat then 0#32 else s.mf.cycPos + 1#32).toNat + s.mf.cbs.toNat -
    ((s.win.pos + 1#32).toNat - p.toNat)) % s.mf.cbs.toNat = _
  rw [slotAt]
  split
  · next hwrap =>
    have hlast : s.mf.cycPos.toNat + 1 = s.mf.cbs.toNat := by bv_omega
    rw [← Nat.add_mod_right, BitVec.toNat_ofNat]
    congr 1
    omega
  · next hin =>
    have hsucc : (s.mf.cycPos + 1#32).toNat = s.mf.cycPos.toNat + 1 := by bv_omega
    congr 1
    omega

/-- The rules with the current position inserted are the rules of the next (R250). -/
theorem FinderInserted.advanced {s : State} (h : FinderInserted s) (hs : FinderSizes s)
    (hpos : s.win.pos.toNat < 2 ^ 31) :
    FinderOk (advanced s) := by
  have hnext : (Machine.advanced s).win.pos.toNat = s.win.pos.toNat + 1 := by
    show (s.win.pos + 1#32).toNat = _
    bv_omega
  have kept {p : Word} (hp : Live (Machine.advanced s) p) : Kept s p := by
    obtain ⟨hold, hlt⟩ := hp
    change (Machine.advanced s).win.pos.toNat - s.mf.cbs.toNat < p.toNat at hold
    have hcbs := hs.cbs
    exact ⟨by unfold oldest; omega, by omega⟩
  exact
    { past := ⟨fun k => by rw [hnext]; exact Nat.lt_succ_of_le (h.heads k), fun k => by
        rw [hnext]
        exact Nat.lt_succ_of_lt (h.sons k)⟩
      older := fun p hp => by
        rw [slotAt_advanced hs hpos hp]
        exact h.older p (kept hp)
      read := fun k hk => h.read k (kept hk)
      short := fun hm => ⟨fun k hlt hk => h.two hm k hlt (kept hk), fun k hlt hk => h.three hm k hlt (kept hk)⟩
      main := fun k hle hk => h.main k hle (kept hk) }

end Sys2Proof.Machine
end

section
/-! SUPPORT. The move to the next position (R250): the match finder's rules carried over the refill and the rebasing. -/

namespace Sys2Proof.Machine

/-! ### The hashes read bytes (R243, R244) -/

/-- The first `n` bytes at `q` in `t` are those at `p` in `s`. -/
def SameBytes (n : Nat) (s t : State) (p q : Word) : Prop :=
  ∀ i < n, byteAt t (q + BitVec.ofNat 32 i) = byteAt s (p + BitVec.ofNat 32 i)

theorem SameBytes.mono {n m : Nat} {s t : State} {p q : Word} (h : SameBytes n s t p q) (hmn : m ≤ n) :
    SameBytes m s t p q := fun i hi => h i (Nat.lt_of_lt_of_le hi hmn)

theorem hashTwo_congr {s t : State} {p q : Word} (h : SameBytes 2 s t p q) :
    hashTwo (standingAt q t) = hashTwo (standingAt p s) := by
  simp only [hashTwo, windowByte_standingAt]
  rw [h 0 (by decide), h 1 (by decide)]

theorem hashThreeWord_congr {s t : State} {p q : Word} (h : SameBytes 3 s t p q) :
    hashThreeWord (standingAt q t) = hashThreeWord (standingAt p s) := by
  simp only [hashThreeWord, windowByte_standingAt]
  rw [h 0 (by decide), h 1 (by decide), h 2 (by decide)]

theorem hashThree_congr {s t : State} {p q : Word} (h : SameBytes 3 s t p q) :
    hashThree (standingAt q t) = hashThree (standingAt p s) := by
  rw [hashThree, hashThreeWord_congr h]
  rfl

/-- The main bucket reads no more bytes than a search needs. -/
theorem mainBucket_congr {s t : State} (hs : FinderSizes s) (hmf : t.mf = s.mf) {p q : Word}
    (h : SameBytes s.mf.minMatchCheck.toNat s t p q) : mainBucket (standingAt q t) = mainBucket (standingAt p s) := by
  unfold mainBucket hashMain
  rw [standingAt_mf, standingAt_mf, hmf]
  congr 1
  cases hm : s.mf.hashArray with
  | true =>
    rw [(hs.four hm).2.2.1] at h
    rw [if_pos rfl, if_pos rfl, hashThreeWord_congr (h.mono (by decide)), windowByte_standingAt, windowByte_standingAt,
      h 3 (by decide)]
  | false =>
    rw [(hs.two hm).2.2.1] at h
    rw [if_neg Bool.noConfusion, if_neg Bool.noConfusion]
    simp only [windowByte_standingAt]
    rw [h 0 (by decide), h 1 (by decide)]

/-! ### Carried over -/

/-- What a refill and a rebasing by `sub` leave to the match finder: every stored position `sub` lower, and the bytes of
the positions kept. -/
structure FinderCarried (sub : Word) (s t : State) : Prop where
  mf : t.mf = s.mf
  hash : ∀ k, t.hash.get k = rebase sub (s.hash.get k)
  son : ∀ k, t.son.get k = rebase sub (s.son.get k)
  pos : t.win.pos.toNat + sub.toNat = s.win.pos.toNat
  lower : sub.toNat ≤ oldest s
  streamPos : s.win.streamPos.toNat ≤ t.win.streamPos.toNat + sub.toNat
  bytes : ∀ p : Word, 1 ≤ p.toNat → s.win.pos.toNat ≤ p.toNat + s.win.keepBefore.toNat →
    p.toNat < s.win.streamPos.toNat → byteAt t (p - sub) = byteAt s p

theorem rebase_toNat (sub v : Word) : (rebase sub v).toNat = v.toNat - sub.toNat := by
  unfold rebase
  split <;> bv_omega

namespace FinderCarried
variable {sub : Word} {s t : State} (h : FinderCarried sub s t)
include h

theorem oldest_eq : oldest t + sub.toNat = oldest s := by
  have hpos := h.pos
  have hlower := h.lower
  unfold oldest at hlower ⊢
  rw [h.mf]
  omega

/-- A position followed after the move was followed before it. -/
theorem live {v : Word} (hv : Live t (rebase sub v)) : Live s v ∧ rebase sub v = v - sub ∧ sub.toNat < v.toNat := by
  obtain ⟨hold, hlt⟩ := hv
  have holdest := h.oldest_eq
  have hpos := h.pos
  rw [rebase_toNat] at hold hlt
  refine ⟨⟨by omega, by omega⟩, if_neg (by omega), by omega⟩

theorem sameBytes (hs : FinderSizes s) {v : Word} (hv : Live s v) (hsub : sub.toNat < v.toNat) {n : Nat}
    (hread : v.toNat + n ≤ s.win.streamPos.toNat) : SameBytes n s t v (v - sub) := fun i hi => by
  have hkept := hs.kept
  have hcbs := hs.cbs
  obtain ⟨hold, hlt⟩ := hv
  unfold oldest at hold
  have hsum : (v + BitVec.ofNat 32 i).toNat = v.toNat + i := by bv_omega
  rw [← h.bytes (v + BitVec.ofNat 32 i) (by omega) (by omega) (by omega)]
  congr 1
  bv_omega

theorem slotAt_eq {p : Word} (hp : sub.toNat ≤ p.toNat) : slotAt t (p - sub) = slotAt s p := by
  have hpos := h.pos
  have hsub : (p - sub).toNat = p.toNat - sub.toNat := by bv_omega
  unfold slotAt
  rw [h.mf, hsub]
  congr 2
  omega

/-- The match finder's rules are carried over. -/
theorem finderOk (hs : FinderSizes s) (hok : FinderOk s) : FinderOk t where
  past := by
    have hpos := h.pos
    have hlower := h.lower
    unfold oldest at hlower
    have hcbs := hs.cbs
    constructor
    · intro k
      have hlt := hok.past.1 k
      rw [h.hash, rebase_toNat]
      omega
    · intro k
      have hlt := hok.past.2 k
      rw [h.son, rebase_toNat]
      omega
  older := fun p hp => by
    have hpos := h.pos
    have hplus : (p + sub).toNat = p.toNat + sub.toNat := by
      have hlt := hp.2
      bv_omega
    have hsame : rebase sub (p + sub) = p := BitVec.eq_of_toNat_eq (by rw [rebase_toNat]; omega)
    obtain ⟨hlive, hminus, hlt⟩ := h.live (v := p + sub) (by rw [hsame]; exact hp)
    obtain ⟨hleft, hright⟩ := hok.older _ hlive
    rw [← hsame, hminus, h.slotAt_eq (by omega), ← hminus, hsame, h.son, h.son, rebase_toNat, rebase_toNat]
    omega
  read := fun k hk => by
    rw [h.hash] at hk ⊢
    obtain ⟨hlive, _, hlt⟩ := h.live hk
    have hread := hok.read k hlive
    have hstream := h.streamPos
    rw [h.mf, rebase_toNat]
    omega
  short := fun hm => by
    rw [h.mf] at hm
    have hcheck := (hs.four hm).2.2.1
    constructor
    · intro k hlt hk
      rw [h.hash] at hk ⊢
      obtain ⟨hlive, heq, hsub⟩ := h.live hk
      have hread := hok.read k hlive
      rw [hcheck] at hread
      have hbytes := h.sameBytes hs hlive hsub hread
      rw [heq, hashTwo_congr (hbytes.mono (by decide)), (hok.short hm).1 k hlt hlive]
    · intro k hlt hk
      rw [h.hash] at hk ⊢
      obtain ⟨hlive, heq, hsub⟩ := h.live hk
      have hread := hok.read _ hlive
      rw [hcheck] at hread
      have hbytes := h.sameBytes hs hlive hsub hread
      rw [heq, hashThree_congr (hbytes.mono (by decide)), (hok.short hm).2 k hlt hlive]
  main := fun k hle hk => by
    rw [h.mf] at hle
    rw [h.hash] at hk ⊢
    obtain ⟨hlive, heq, hsub⟩ := h.live hk
    rw [heq, mainBucket_congr hs h.mf (h.sameBytes hs hlive hsub (hok.read k hlive)), hok.main k hle hlive]

end FinderCarried

/-! ### The refill and the rebasing -/

/-- A refill carries the match finder over. -/
theorem WindowDone.carried {s t : State} (h : WindowDone s t) : FinderCarried 0#32 s t := by
  have rebase_zero (v : Word) : v = rebase 0#32 v := BitVec.eq_of_toNat_eq (by rw [rebase_toNat]; rfl)
  have hmf := congrArg State.mf h.frame
  have hhash := congrArg State.hash h.frame
  have hson := congrArg State.son h.frame
  have hpos := congrArg (fun u : State => u.win.pos.toNat) h.frame
  exact
    { mf := hmf
      hash := fun k => (congrArg (·.get k) hhash).trans (rebase_zero _)
      son := fun k => (congrArg (·.get k) hson).trans (rebase_zero _)
      pos := hpos
      lower := Nat.zero_le _
      streamPos := h.longer
      bytes := fun p hp hkept hlt => by
        rw [BitVec.sub_zero]
        exact h.bytes p hp hkept hlt }

/-- The state after the rebasing (R254, R205). -/
def rebased (sub : Word) (s : State) : State :=
  { s with
    son := s.son.mapElems (rebase sub), hash := s.hash.mapElems (rebase sub)
    win := { s.win with bufOffset := s.win.bufOffset + sub, posLimit := s.win.posLimit - sub, pos := s.win.pos - sub,
                        streamPos := s.win.streamPos - sub } }

theorem mfNormalize_run (s : State) : mfNormalize s = .ok () (rebased (s.win.pos - s.mf.cbs) s) := rfl

theorem byteAt_rebased (sub : Word) (s : State) (p : Word) : byteAt (rebased sub s) (p - sub) = byteAt s p := by
  show s.wbuf.get (s.win.bufOffset + sub + (p - sub)).toNat = s.wbuf.get (s.win.bufOffset + p).toNat
  congr 2
  bv_omega

/-- The rebasing carries the match finder over. -/
theorem rebased_carried {s : State} (hs : FinderSizes s) (hle : s.mf.cbs.toNat ≤ s.win.pos.toNat) :
    FinderCarried (s.win.pos - s.mf.cbs) s (rebased (s.win.pos - s.mf.cbs) s) where
  mf := rfl
  hash := Ram.get_mapElems hs.hashWf _ rfl
  son := Ram.get_mapElems hs.sonWf _ rfl
  pos := by
    show (s.win.pos - (s.win.pos - s.mf.cbs)).toNat + _ = _
    bv_omega
  lower := by
    unfold oldest
    bv_omega
  streamPos := by
    show _ ≤ (s.win.streamPos - (s.win.pos - s.mf.cbs)).toNat + _
    bv_omega
  bytes := fun p _ _ _ => byteAt_rebased _ s p

/-- A window whose position stays below the rebasing keeps its rules (R211, R212). -/
theorem WindowDone.windowOk {s t : State} (h : WindowDone s t) (hpos : t.win.pos ≠ Config.maxValForNormalize) :
    WindowOk t where
  filled := h.placed.filled
  ahead := h.placed.ahead
  inside := h.placed.inside
  lookAhead := h.lookAhead
  limit := h.limit
  below := by
    have hle := h.placed.below
    have hne : t.win.pos.toNat ≠ 0x7FFFFFFF := fun heq => hpos (BitVec.eq_of_toNat_eq heq)
    omega

/-- The rebasing keeps the window's rules (R205, R211, R212). -/
theorem WindowDone.rebased_windowOk {s t : State} (h : WindowDone s t) (hf : FinderSizes t)
    (hpos : t.win.pos = Config.maxValForNormalize) : WindowOk (rebased (t.win.pos - t.mf.cbs) t) := by
  have hcbs := hf.cbs
  have hdict := hf.dict
  have hpos : t.win.pos = 0x7FFFFFFF#32 := hpos
  have hahead := h.placed.ahead
  have hsub : (t.win.pos - t.mf.cbs).toNat + t.mf.cbs.toNat = 0x7FFFFFFF := by bv_omega
  have hstream : (t.win.streamPos - (t.win.pos - t.mf.cbs)).toNat + (t.win.pos - t.mf.cbs).toNat =
    t.win.streamPos.toNat := by
    bv_omega
  have hnewPos : (t.win.pos - (t.win.pos - t.mf.cbs)).toNat = t.mf.cbs.toNat := by bv_omega
  exact
    { filled := by
        have hfilled := h.placed.filled
        show (t.win.bufOffset + (t.win.pos - t.mf.cbs) + (t.win.streamPos - (t.win.pos - t.mf.cbs))).toNat ≤ _
        rwa [show t.win.bufOffset + (t.win.pos - t.mf.cbs) + (t.win.streamPos - (t.win.pos - t.mf.cbs)) =
          t.win.bufOffset + t.win.streamPos by bv_omega]
      ahead := by
        show (t.win.pos - (t.win.pos - t.mf.cbs)).toNat ≤ (t.win.streamPos - (t.win.pos - t.mf.cbs)).toNat
        bv_omega
      inside := fun p hp hkept hlt => by
        change (t.win.pos - (t.win.pos - t.mf.cbs)).toNat ≤ p.toNat + t.win.keepBefore.toNat at hkept
        change p.toNat < (t.win.streamPos - (t.win.pos - t.mf.cbs)).toNat at hlt
        have hplus : (p + (t.win.pos - t.mf.cbs)).toNat = p.toNat + (t.win.pos - t.mf.cbs).toNat := by bv_omega
        have hin := h.placed.inside (p + (t.win.pos - t.mf.cbs)) (by omega) (by bv_omega) (by omega)
        show (t.win.bufOffset + (t.win.pos - t.mf.cbs) + p).toNat < _
        rwa [show t.win.bufOffset + (t.win.pos - t.mf.cbs) + p =
          t.win.bufOffset + (p + (t.win.pos - t.mf.cbs)) by bv_omega]
      lookAhead := fun hopen => by
        have hlook := h.lookAhead hopen
        show (t.win.pos - (t.win.pos - t.mf.cbs)).toNat + t.win.keepAfter.toNat ≤
          (t.win.streamPos - (t.win.pos - t.mf.cbs)).toNat
        bv_omega
      limit := fun hopen => by
        have hlook := h.lookAhead hopen
        have hlimit := h.limit hopen
        show (t.win.posLimit - (t.win.pos - t.mf.cbs)).toNat + t.win.keepAfter.toNat =
          (t.win.streamPos - (t.win.pos - t.mf.cbs)).toNat
        bv_omega
      below := by
        show (t.win.pos - (t.win.pos - t.mf.cbs)).toNat < 0x7FFFFFFF
        bv_omega }

/-- The position moved on within the window's rules. -/
theorem WindowOk.moved {s : State} (h : WindowOk s) (hs : WindowSizes s)
    (hlt : s.win.pos.toNat < s.win.streamPos.toNat) :
    WindowMoved (advanced s) := by
  have hbelow := h.below
  have hnext : (advanced s).win.pos.toNat = s.win.pos.toNat + 1 := by
    show (s.win.pos + 1#32).toNat = _
    bv_omega
  exact
    { sizes := { hs with }
      placed :=
        { filled := h.filled
          ahead := by rw [hnext]; exact hlt
          inside := fun p hp hkept hin => h.inside p hp (by
            rw [hnext] at hkept
            exact Nat.le_trans (Nat.le_succ _) hkept) hin
          started := by omega
          below := by omega }
      limit := h.limit }

/-- The move after a search or an insertion completes with the rules kept, or waits for a source that is not ready. -/
theorem mfMovePos_ends {s : State} (hw : WindowOk s) (hws : WindowSizes s) (hfs : FinderSizes s)
    (hlt : s.win.pos.toNat < s.win.streamPos.toNat) (hins : FinderInserted s) :
    (∃ t, mfMovePos s = .ok () t ∧ WindowOk t ∧ FinderOk t) ∨
    (¬ RefillReady s ∧ ∃ t, mfMovePos s = .error (.stuck .sourceWait) t) := by
  have hbelow := hw.below
  have hnext : FinderOk (advanced s) := hins.advanced hfs (by omega)
  have hsizes : FinderSizes (advanced s) := { hfs with
    cycPos := by
      have hcyc := hfs.cycPos
      have hcbs := hfs.cbs
      show (if s.mf.cbs.toNat ≤ (s.mf.cycPos + 1#32).toNat then 0#32 else s.mf.cycPos + 1#32).toNat < s.mf.cbs.toNat
      split
      · show 0 < _
        omega
      · omega }
  rw [mfMovePos_eq]
  rcases (hw.moved hws hlt).refillIfDue_ends with ⟨t, hrun, ht⟩ | ⟨hwait, t, hrun⟩
  · have hok : FinderOk t := ht.carried.finderOk hsizes hnext
    have htsizes : FinderSizes t := by
      rw [ht.frame]
      exact { hsizes with }
    rw [Eng.bind_ok hrun, rebaseIfDue, Eng.bind_look]
    by_cases hpos : t.win.pos = Config.maxValForNormalize
    · have hle : t.mf.cbs.toNat ≤ t.win.pos.toNat := by
        have hcbs := htsizes.cbs
        have hdict := htsizes.dict
        rw [hpos]
        show _ ≤ 0x7FFFFFFF
        omega
      rw [if_pos hpos, mfNormalize_run]
      exact .inl ⟨_, rfl, ht.rebased_windowOk htsizes hpos, (rebased_carried htsizes hle).finderOk htsizes hok⟩
    · rw [if_neg hpos]
      exact .inl ⟨t, rfl, ht.windowOk hpos, hok⟩
  · exact .inr ⟨hwait, t, Eng.bind_error hrun _⟩

end Sys2Proof.Machine
end

section
/-! SUPPORT. What a search reads and writes in a state that keeps the rules (R245): the bytes of a candidate, the tree
in SON, and the pairs in MATCHES. -/

namespace Sys2Proof.Machine

/-- A state that keeps the rules and has the bytes of a search's length limit ahead. -/
structure Searchable (s : State) (limit : Word) : Prop where
  window : WindowOk s
  windowSizes : WindowSizes s
  finder : FinderOk s
  finderSizes : FinderSizes s
  room : s.win.pos.toNat + limit.toNat ≤ s.win.streamPos.toNat
  least : s.mf.minMatchCheck.toNat ≤ limit.toNat
  most : limit.toNat ≤ s.opts.fastBytes.toNat

/-- `s` with the RAMs a search writes. -/
def searching (hash son pairs : Ram Word 0#32) (s : State) : State :=
  { s with hash := hash, son := son, matchBuf := pairs }

/-- The byte at offset `i` is that of the candidate. -/
def Agrees (s : State) (cand : Word) (i : Nat) : Prop :=
  byteAt s (s.win.pos + BitVec.ofNat 32 i) = byteAt s (cand + BitVec.ofNat 32 i)

/-- What a walk down the tree does not change (R245). -/
def walkOf (s : State) (limit : Word) : Walk :=
  { lenLimit := limit, minPos := mfMinPos s.mf s.win, c := s.win.bufOffset + s.win.pos }

theorem mfMinPos_toNat (s : State) : (mfMinPos s.mf s.win).toNat = oldest s := by
  unfold mfMinPos oldest
  split
  · bv_omega
  · show 0 = _
    omega

theorem Live.kept {s : State} {p : Word} (h : Live s p) : Kept s p := ⟨h.1, Nat.le_of_lt h.2⟩

namespace Searchable
variable {s : State} {limit : Word} (h : Searchable s limit)
include h

theorem three_le : 3 ≤ limit.toNat := by
  have hleast := h.least
  cases hm : s.mf.hashArray with
  | true =>
    rw [(h.finderSizes.four hm).2.2.1] at hleast
    exact Nat.le_trans (by decide) hleast
  | false =>
    rw [(h.finderSizes.two hm).2.2.1] at hleast
    exact hleast

theorem started : 1 ≤ s.win.pos.toNat := Nat.one_le_of_lt (h.finder.past.1 0)

theorem pos_kept : Kept s s.win.pos := by
  have hstarted := h.started
  have hcbs := h.finderSizes.cbs
  exact ⟨by unfold oldest; omega, Nat.le_refl _⟩

/-! ### Bytes -/

/-- The bytes from a kept position on, up to the length limit, lie inside WBUF (R104, R212). -/
theorem wbufRead_run {p : Word} (hp : Kept s p) {i : Nat} (hi : i < limit.toNat) (hash son pairs : Ram Word 0#32) :
    wbufRead (s.win.bufOffset + p + BitVec.ofNat 32 i) (searching hash son pairs s) =
      .ok (byteAt s (p + BitVec.ofNat 32 i)) (searching hash son pairs s) := by
  have hkept := h.finderSizes.kept
  have hroom := h.room
  have hlt := s.win.streamPos.isLt
  obtain ⟨hold, hle⟩ := hp
  unfold oldest at hold
  have hsum : (p + BitVec.ofNat 32 i).toNat = p.toNat + i := by bv_omega
  have hin := h.window.inside (p + BitVec.ofNat 32 i) (by omega) (by omega) (by omega)
  rw [BitVec.add_assoc]
  exact ramRead_ok (ram := (·.wbuf)) (s := searching hash son pairs s) (by
    show _ < s.wbuf.size
    rwa [h.windowSizes.buffer])

end Searchable

/-- `L` is how far a candidate's bytes agree from `start` on. -/
structure MatchLen (s : State) (limit : Word) (cand : Word) (start L : Nat) : Prop where
  ge : start ≤ L
  le : L ≤ limit.toNat
  agrees : ∀ i, start ≤ i → i < L → Agrees s cand i
  differs : L < limit.toNat → ¬ Agrees s cand L

namespace Searchable
variable {s : State} {limit : Word} (h : Searchable s limit)
include h

theorem mfExtend_run {cand : Word} (hc : Live s cand) (hash son pairs : Ram Word 0#32) : ∀ (n i : Nat),
    i + n = limit.toNat → ∃ L, MatchLen s limit cand i L ∧
      mfExtend (s.win.bufOffset + cand) (s.win.bufOffset + s.win.pos) n (BitVec.ofNat 32 i)
        (searching hash son pairs s) = .ok (BitVec.ofNat 32 L) (searching hash son pairs s)
  | 0, i, hi => ⟨i, ⟨Nat.le_refl _, by omega, fun _ _ _ => by omega, fun _ => by omega⟩, rfl⟩
  | n + 1, i, hi => by
    have hrun {f : Byte → Byte → Eng Word} : (wbufRead (s.win.bufOffset + cand + BitVec.ofNat 32 i) >>= fun a =>
        wbufRead (s.win.bufOffset + s.win.pos + BitVec.ofNat 32 i) >>= f a) (searching hash son pairs s) =
        f (byteAt s (cand + BitVec.ofNat 32 i)) (byteAt s (s.win.pos + BitVec.ofNat 32 i))
          (searching hash son pairs s) :=
      (Eng.bind_ok (h.wbufRead_run hc.kept (by omega) _ _ _) _).trans
        (Eng.bind_ok (h.wbufRead_run h.pos_kept (by omega) _ _ _) _)
    rw [mfExtend, hrun]
    by_cases heq : byteAt s (cand + BitVec.ofNat 32 i) = byteAt s (s.win.pos + BitVec.ofNat 32 i)
    · obtain ⟨L, hL, hext⟩ := mfExtend_run hc hash son pairs n (i + 1) (by omega)
      rw [if_pos heq, ← BitVec.ofNat_add, hext]
      refine ⟨L, ⟨by have := hL.ge; omega, hL.le, fun j hj hlt => ?_, hL.differs⟩, rfl⟩
      by_cases hij : j = i
      · rw [hij]
        exact heq.symm
      · exact hL.agrees j (by omega) hlt
    · rw [if_neg heq]
      exact ⟨i, ⟨Nat.le_refl _, by omega, fun _ _ _ => by omega, fun _ ha => heq ha.symm⟩, rfl⟩

theorem mfCandidateLen_run {p : WalkPos} (hc : Live s p.curMatch) (hlen : (minW p.len0 p.len1).toNat < limit.toNat)
    (hash son pairs : Ram Word 0#32) : ∃ L, MatchLen s limit p.curMatch (minW p.len0 p.len1).toNat L ∧
      mfCandidateLen (walkOf s limit) p (s.win.bufOffset + p.curMatch) (searching hash son pairs s) =
        .ok (decide ((minW p.len0 p.len1).toNat < L), BitVec.ofNat 32 L) (searching hash son pairs s) := by
  generalize hl : minW p.len0 p.len1 = l at hlen
  have hword : BitVec.ofNat 32 l.toNat = l := by rw [BitVec.ofNat_toNat, BitVec.setWidth_eq]
  have hlimit := limit.isLt
  have hrun {f : Byte → Byte → Eng (Bool × Word)} : (wbufRead (s.win.bufOffset + p.curMatch + l) >>= fun a =>
      wbufRead (s.win.bufOffset + s.win.pos + l) >>= f a) (searching hash son pairs s) =
      f (byteAt s (p.curMatch + l)) (byteAt s (s.win.pos + l)) (searching hash son pairs s) := by
    rw [← hword]
    exact (Eng.bind_ok (h.wbufRead_run hc.kept hlen _ _ _) _).trans
        (Eng.bind_ok (h.wbufRead_run h.pos_kept hlen _ _ _) _)
  have hagrees : Agrees s p.curMatch l.toNat ↔ byteAt s (p.curMatch + l) = byteAt s (s.win.pos + l) := by
    rw [Agrees, hword]
    exact eq_comm
  rw [mfCandidateLen, hl]
  refine Exists.imp (fun L => And.imp_right fun he => hrun.trans he) ?_
  by_cases heq : byteAt s (p.curMatch + l) = byteAt s (s.win.pos + l)
  · obtain ⟨L, hL, hext⟩ := h.mfExtend_run hc hash son pairs (limit - (l + 1#32)).toNat (l.toNat + 1) (by bv_omega)
    rw [BitVec.ofNat_add, hword] at hext
    have hge := hL.ge
    refine ⟨L, ⟨by omega, hL.le, fun j hj hlt => ?_, hL.differs⟩, ?_⟩
    · by_cases hij : j = l.toNat
      · rw [hij]
        exact hagrees.2 heq
      · exact hL.agrees j (by omega) hlt
    · rw [if_pos heq, decide_eq_true (by omega)]
      exact Eng.bind_ok hext _
  · refine ⟨l.toNat, ⟨Nat.le_refl _, Nat.le_of_lt hlen, fun _ _ _ => by omega, fun _ ha => heq (hagrees.1 ha)⟩, ?_⟩
    rw [if_neg heq, decide_eq_false (Nat.lt_irrefl _), hword]
    rfl

end Searchable

/-! ### The tree (R251) -/

/-- The node of a position `delta` back (R251). -/
theorem nodeIndex_toNat {s : State} (hs : FinderSizes s) {p : Word} (hp : Kept s p) :
    (mfNodeIndex s.mf (s.win.pos - p)).toNat = 2 * slotAt s p := by
  have hcyc := hs.cycPos
  have hcbs := hs.cbs
  have hdict := hs.dict
  obtain ⟨hold, hle⟩ := hp
  unfold oldest at hold
  have hdelta : (s.win.pos - p).toNat = s.win.pos.toNat - p.toNat := by bv_omega
  unfold mfNodeIndex slotAt
  split
  · next hback =>
    have hmod : (s.mf.cycPos.toNat + s.mf.cbs.toNat - (s.win.pos.toNat - p.toNat)) % s.mf.cbs.toNat =
        s.mf.cycPos.toNat - (s.win.pos.toNat - p.toNat) := by
      rw [show s.mf.cycPos.toNat + s.mf.cbs.toNat - (s.win.pos.toNat - p.toNat) =
        s.mf.cycPos.toNat - (s.win.pos.toNat - p.toNat) + s.mf.cbs.toNat by omega, Nat.add_mod_right,
        Nat.mod_eq_of_lt (by omega)]
    rw [hmod]
    bv_omega
  · next hwrap =>
    rw [Nat.mod_eq_of_lt (by omega)]
    bv_omega

/-- Different positions kept have different slots. -/
theorem slotAt_inj {s : State} (hs : FinderSizes s) {p q : Word} (hp : Kept s p) (hq : Kept s q)
    (h : slotAt s p = slotAt s q) : p = q := by
  have hindex : 2 * slotAt s p = 2 * slotAt s q := congrArg (2 * ·) h
  rw [← nodeIndex_toNat hs hp, ← nodeIndex_toNat hs hq] at hindex
  have hcyc := hs.cycPos
  have hcbs := hs.cbs
  have hdict := hs.dict
  obtain ⟨hold, hle⟩ := hp
  obtain ⟨hold', hle'⟩ := hq
  unfold oldest at hold hold'
  unfold mfNodeIndex at hindex
  split at hindex <;> split at hindex <;> bv_omega

theorem slotAt_lt {s : State} (hs : FinderSizes s) (p : Word) : slotAt s p < s.mf.cbs.toNat :=
  Nat.mod_lt _ (Nat.zero_lt_of_lt hs.cycPos)

/-- The subtrees of every node kept hang below older nodes. -/
structure TreeOk (s : State) (son : Ram Word 0#32) : Prop where
  size : son.size = 2 * s.mf.cbs.toNat
  wf : son.wf = true
  past : ∀ k : Nat, (son.get k).toNat < s.win.pos.toNat
  older : ∀ p : Word, Kept s p → ∀ b : Nat, b ≤ 1 → (son.get (2 * slotAt s p + b)).toNat < p.toNat

/-- `ptr` is a SON slot of a node newer than position `c`. -/
def OpenAbove (s : State) (c : Nat) (ptr : Word) : Prop :=
  ∃ (o : Word) (b : Nat), Kept s o ∧ b ≤ 1 ∧ ptr.toNat = 2 * slotAt s o + b ∧ c < o.toNat

theorem OpenAbove.mono {s : State} {c d : Nat} {ptr : Word} (h : OpenAbove s c ptr) (hd : d ≤ c) :
    OpenAbove s d ptr := by
  obtain ⟨o, b, ho, hb, hptr, hlt⟩ := h
  exact ⟨o, b, ho, hb, hptr, Nat.lt_of_le_of_lt hd hlt⟩

theorem FinderInserted.treeOk {s : State} (h : FinderInserted s) (hs : FinderSizes s) : TreeOk s s.son where
  size := hs.son
  wf := hs.sonWf
  past := h.sons
  older := fun p hp b hb => by
    obtain ⟨hleft, hright⟩ := h.older p hp
    interval_cases b
    · exact hleft
    · exact hright

namespace TreeOk
variable {s : State} {son : Ram Word 0#32} (h : TreeOk s son) (hs : FinderSizes s)
include h hs

/-- A node's slot takes an older position. -/
theorem set {o v : Word} (ho : Kept s o) {b : Nat} (hb : b ≤ 1) (hv : v.toNat < o.toNat) :
    TreeOk s (son.set (2 * slotAt s o + b) v) where
  size := h.size
  wf := Ram.wf_set h.wf (by rw [h.size]; have := slotAt_lt hs o; omega) v
  past := fun k => by
    by_cases hk : k = 2 * slotAt s o + b
    · rw [hk, Ram.get_set_same h.wf]
      exact Nat.lt_of_lt_of_le hv ho.2
    · rw [Ram.get_set_other h.wf hk]
      exact h.past k
  older := fun p hp c hc => by
    by_cases hk : 2 * slotAt s p + c = 2 * slotAt s o + b
    · rw [hk, Ram.get_set_same h.wf, slotAt_inj hs hp ho (by omega)]
      exact hv
    · rw [Ram.get_set_other h.wf hk]
      exact h.older p hp c hc

theorem sonWrite_run {ptr v : Word} {c : Nat} (ho : OpenAbove s c ptr) (hv : v.toNat ≤ c) (hash pairs : Ram Word 0#32) :
    ∃ son', sonWrite ptr v (searching hash son pairs s) = .ok () (searching hash son' pairs s) ∧ TreeOk s son' := by
  obtain ⟨o, b, ho, hb, hptr, hlt⟩ := ho
  refine ⟨_, ?_, h.set hs ho hb (Nat.lt_of_le_of_lt hv hlt)⟩
  rw [← hptr]
  exact ramWrite_ok (ram := (·.son)) (s := searching hash son pairs s) (by
    show _ < son.size
    rw [h.size, hptr]
    have := slotAt_lt hs o
    omega)

omit h in
/-- The subtree slots of a candidate. -/
theorem openAbove_child {p : Word} (hp : Live s p) {b : Nat} (hb : b ≤ 1) {c : Nat} (hc : c < p.toNat) :
    OpenAbove s c (mfNodeIndex s.mf (s.win.pos - p) + BitVec.ofNat 32 b) := by
  refine ⟨p, b, hp.kept, hb, ?_, hc⟩
  have hindex := nodeIndex_toNat hs hp.kept
  have hslot := slotAt_lt hs p
  have hcbs := hs.cbs
  have hdict := hs.dict
  bv_omega

/-- A subtree of a candidate is older. -/
theorem sonRead_run {p : Word} (hp : Live s p) {b : Nat} (hb : b ≤ 1) (hash pairs : Ram Word 0#32) :
    ∃ v, sonRead (mfNodeIndex s.mf (s.win.pos - p) + BitVec.ofNat 32 b) (searching hash son pairs s) =
      .ok v (searching hash son pairs s) ∧ v.toNat < p.toNat := by
  obtain ⟨o, b', _, hb', hptr, _⟩ := openAbove_child hs hp hb (c := 0) (Nat.zero_lt_of_lt hp.1)
  have hslot := slotAt_lt hs o
  have hindex : (mfNodeIndex s.mf (s.win.pos - p) + BitVec.ofNat 32 b).toNat = 2 * slotAt s p + b := by
    have hnode := nodeIndex_toNat hs hp.kept
    have hlt := slotAt_lt hs p
    have hcbs := hs.cbs
    have hdict := hs.dict
    bv_omega
  refine ⟨_, ramRead_ok (ram := (·.son)) (s := searching hash son pairs s) ?_, ?_⟩
  · show _ < son.size
    rw [h.size]
    omega
  · rw [hindex]
    exact h.older p hp.kept b hb

/-- Closing a walk keeps the tree (R245). -/
theorem mfCloseWalk_run {p : WalkPos} (h0 : OpenAbove s 0 p.ptr0) (h1 : OpenAbove s 0 p.ptr1)
    (hash pairs : Ram Word 0#32) :
    ∃ son', mfCloseWalk p (searching hash son pairs s) = .ok () (searching hash son' pairs s) ∧ TreeOk s son' := by
  obtain ⟨son₁, hrun₁, htree₁⟩ := h.sonWrite_run hs h0 (v := 0#32) (Nat.le_refl 0) hash pairs
  obtain ⟨son₂, hrun₂, htree₂⟩ := htree₁.sonWrite_run hs h1 (v := 0#32) (Nat.le_refl 0) hash pairs
  exact ⟨son₂, (Eng.bind_ok hrun₁ _).trans hrun₂, htree₂⟩

/-- Grafting a candidate's subtrees keeps the tree (R245). -/
theorem mfGraft_run {p : WalkPos} (hc : Live s p.curMatch) (h0 : OpenAbove s p.curMatch.toNat p.ptr0)
    (h1 : OpenAbove s p.curMatch.toNat p.ptr1) (hash pairs : Ram Word 0#32) :
    ∃ son', mfGraft p (mfNodeIndex s.mf (s.win.pos - p.curMatch)) (searching hash son pairs s) =
      .ok () (searching hash son' pairs s) ∧ TreeOk s son' := by
  obtain ⟨a, hread₁, ha⟩ := h.sonRead_run hs hc (b := 0) (by decide) hash pairs
  rw [BitVec.add_zero] at hread₁
  obtain ⟨son₁, hrun₁, htree₁⟩ := h.sonWrite_run hs h1 (v := a) (Nat.le_of_lt ha) hash pairs
  obtain ⟨b, hread₂, hb⟩ := htree₁.sonRead_run hs hc (b := 1) (Nat.le_refl 1) hash pairs
  obtain ⟨son₂, hrun₂, htree₂⟩ := htree₁.sonWrite_run hs h0 (v := b) (Nat.le_of_lt hb) hash pairs
  exact ⟨son₂, (Eng.bind_ok hread₁ _).trans <| (Eng.bind_ok hrun₁ _).trans <| (Eng.bind_ok hread₂ _).trans hrun₂,
    htree₂⟩

end TreeOk

/-! ### The pairs (R246) -/

/-- The length of pair `k`. -/
def pairLen (pairs : Ram Word 0#32) (k : Nat) : Nat := (pairs.get (2 * k)).toNat

/-- The length recorded before pair `n`, 1 before the first (R245). -/
def lastLen (pairs : Ram Word 0#32) (n : Nat) : Nat := if n = 0 then 1 else pairLen pairs (n - 1)

/-- The candidate pair `k` names. -/
def pairBack (s : State) (pairs : Ram Word 0#32) (k : Nat) : Word := s.win.pos - pairs.get (2 * k + 1) - 1#32

/-- The candidate in the main bucket (R245). -/
def bucketHead (s : State) : Word := s.hash.get (mainBucket s)

/-- A candidate's bytes agree up to `L`: all of them for the bucket head, else from `start` on. -/
def AgreesFrom (s : State) (cand : Word) (start L : Nat) : Prop :=
  ∀ i, (if cand = bucketHead s then 0 else start) ≤ i → i < L → Agrees s cand i

/-- What the first `n` pairs of a search say. -/
structure PairsOk (s : State) (limit : Word) (pairs : Ram Word 0#32) (n : Nat) : Prop where
  size : pairs.size = 548
  wf : pairs.wf = true
  long : ∀ k < n, k + 2 ≤ pairLen pairs k
  bounded : ∀ k < n, pairLen pairs k ≤ limit.toNat
  rising : ∀ k, k + 1 < n → pairLen pairs k < pairLen pairs (k + 1)
  near : ∀ k < n, (pairs.get (2 * k + 1)).toNat < s.opts.dictSize.toNat
  live : ∀ k < n, Live s (pairBack s pairs k)
  agrees : ∀ k < n, AgreesFrom s (pairBack s pairs k) (lastLen pairs k) (pairLen pairs k)

namespace PairsOk
variable {s : State} {limit : Word} {pairs : Ram Word 0#32} {n : Nat} (h : PairsOk s limit pairs n)
include h

theorem mono {m : Nat} (hm : m ≤ n) : PairsOk s limit pairs m where
  size := h.size
  wf := h.wf
  long := fun k hk => h.long k (by omega)
  bounded := fun k hk => h.bounded k (by omega)
  rising := fun k hk => h.rising k (by omega)
  near := fun k hk => h.near k (by omega)
  live := fun k hk => h.live k (by omega)
  agrees := fun k hk => h.agrees k (by omega)

theorem lt_lastLen : n < lastLen pairs n := by
  unfold lastLen
  split
  · omega
  · have hlong := h.long (n - 1) (by omega)
    omega

end PairsOk

theorem PairsOk.empty {s : State} {limit : Word} (hs : FinderSizes s) : PairsOk s limit s.matchBuf 0 where
  size := hs.words
  wf := hs.wordsWf
  long := fun _ hk => absurd hk (Nat.not_lt_zero _)
  bounded := fun _ hk => absurd hk (Nat.not_lt_zero _)
  rising := fun _ hk => absurd hk (Nat.not_lt_zero _)
  near := fun _ hk => absurd hk (Nat.not_lt_zero _)
  live := fun _ hk => absurd hk (Nat.not_lt_zero _)
  agrees := fun _ hk => absurd hk (Nat.not_lt_zero _)

/-- MATCHES with one more pair (R245). -/
def pairPut (pairs : Ram Word 0#32) (n : Nat) (len dist : Word) : Ram Word 0#32 :=
  (pairs.set (2 * n) len).set (2 * n + 1) dist

namespace PairsOk
variable {s : State} {limit : Word} {pairs : Ram Word 0#32} {n : Nat} (h : PairsOk s limit pairs n) {L : Nat}
  (hL : lastLen pairs n < L) (hle : L ≤ limit.toNat)
include h hL hle

/-- There is room for a pair longer than the last. -/
theorem pair_room (hfast : limit.toNat ≤ 273) : 2 * n + 2 ≤ 548 := by
  have hlt := h.lt_lastLen
  omega

theorem mfPutPair_run (hfast : limit.toNat ≤ 273) {off dist : Word} (hoff : off.toNat = 2 * n)
    (hash son : Ram Word 0#32) : mfPutPair off (BitVec.ofNat 32 L) dist (searching hash son pairs s) =
      .ok () (searching hash son (pairPut pairs n (BitVec.ofNat 32 L) dist) s) := by
  have hroom := h.pair_room hL hle hfast
  have hnext : (off + 1#32).toNat = 2 * n + 1 := by bv_omega
  have hsize := h.size
  have hfirst : matchWrite off (BitVec.ofNat 32 L) (searching hash son pairs s) =
      .ok () (searching hash son (pairs.set (2 * n) (BitVec.ofNat 32 L)) s) := by
    rw [← hoff]
    exact ramWrite_ok (ram := (·.matchBuf)) (s := searching hash son pairs s) (by show _ < pairs.size; omega)
  refine (Eng.bind_ok hfirst _).trans ?_
  rw [pairPut, ← hnext]
  exact ramWrite_ok (ram := (·.matchBuf)) (s := searching hash son (pairs.set (2 * n) (BitVec.ofNat 32 L)) s)
    (by show _ < pairs.size; omega)

end PairsOk

section
variable {pairs : Ram Word 0#32} (hwf : pairs.wf = true) {n : Nat} (hroom : 2 * n + 2 ≤ pairs.size) (len dist : Word)
include hwf hroom

theorem pairPut_wf : (pairPut pairs n len dist).wf = true :=
  Ram.wf_set (Ram.wf_set hwf (by omega) _) (by show _ < pairs.size; omega) _

theorem pairPut_same : (pairPut pairs n len dist).get (2 * n) = len ∧
    (pairPut pairs n len dist).get (2 * n + 1) = dist := by
  have hwf' := Ram.wf_set hwf (i := 2 * n) (by omega) len
  exact ⟨(Ram.get_set_other hwf' (by omega) _).trans (Ram.get_set_same hwf _ _), Ram.get_set_same hwf' _ _⟩

theorem pairPut_before {k : Nat} (hk : k < 2 * n) : (pairPut pairs n len dist).get k = pairs.get k := by
  have hwf' := Ram.wf_set hwf (i := 2 * n) (by omega) len
  exact (Ram.get_set_other hwf' (by omega) _).trans (Ram.get_set_other hwf (by omega) _)

end

/-- One more pair, of a candidate followed and a length above the last. -/
theorem PairsOk.put {s : State} {limit : Word} {pairs : Ram Word 0#32} {n : Nat} (h : PairsOk s limit pairs n)
    (hs : FinderSizes s) {L : Nat} (hL : lastLen pairs n < L) (hle : L ≤ limit.toNat) (hfast : limit.toNat ≤ 273)
    {cand : Word} (hc : Live s cand) (hag : AgreesFrom s cand (lastLen pairs n) L) :
    PairsOk s limit (pairPut pairs n (BitVec.ofNat 32 L) (s.win.pos - cand - 1#32)) (n + 1) ∧
      lastLen (pairPut pairs n (BitVec.ofNat 32 L) (s.win.pos - cand - 1#32)) (n + 1) = L := by
  have hroom : 2 * n + 2 ≤ pairs.size := by
    rw [h.size]
    exact h.pair_room hL hle hfast
  generalize hdist : s.win.pos - cand - 1#32 = dist
  generalize hnew : pairPut pairs n (BitVec.ofNat 32 L) dist = new
  obtain ⟨hlen, hdistance⟩ := pairPut_same h.wf hroom (BitVec.ofNat 32 L) dist
  rw [hnew] at hlen hdistance
  have hbefore {k : Nat} (hk : k < 2 * n) : new.get k = pairs.get k := by
    rw [← hnew]
    exact pairPut_before h.wf hroom _ _ hk
  have hnewLen : pairLen new n = L := by
    rw [pairLen, hlen, BitVec.toNat_ofNat]
    omega
  have holdLen {k : Nat} (hk : k < n) : pairLen new k = pairLen pairs k := by rw [pairLen, hbefore (by omega)]; rfl
  have hlast {k : Nat} (hk : k ≤ n) : lastLen new k = lastLen pairs k := by
    unfold lastLen
    split
    · rfl
    · exact holdLen (by omega)
  have hnewBack : pairBack s new n = cand := by
    rw [pairBack, hdistance]
    bv_omega
  have holdBack {k : Nat} (hk : k < n) : pairBack s new k = pairBack s pairs k := by
    rw [pairBack, hbefore (by omega)]
    rfl
  have hcount := h.lt_lastLen
  have split {P : Nat → Prop} (hold : ∀ k < n, P k) (hn : P n) : ∀ k < n + 1, P k := fun k hk => by
    rcases Nat.lt_succ_iff_lt_or_eq.1 hk with hk | rfl
    · exact hold k hk
    · exact hn
  refine ⟨?_, hnewLen⟩
  exact
    { size := by rw [← hnew]; exact h.size
      wf := by rw [← hnew]; exact pairPut_wf h.wf hroom _ _
      long := split (fun k hk => by rw [holdLen hk]; exact h.long k hk) (by omega)
      bounded := split (fun k hk => by rw [holdLen hk]; exact h.bounded k hk) (by omega)
      rising := fun k hk => by
        by_cases hkn : k + 1 < n
        · rw [holdLen hkn, holdLen (by omega)]
          exact h.rising k hkn
        · have heq : n = k + 1 := by omega
          subst heq
          rw [hnewLen, holdLen (Nat.lt_succ_self k)]
          exact hL
      near := split (fun k hk => by rw [hbefore (by omega)]; exact h.near k hk) (by
        have hcbs := hs.cbs
        obtain ⟨hold, hlt⟩ := hc
        unfold oldest at hold
        rw [hdistance, ← hdist]
        bv_omega)
      live := split (fun k hk => by rw [holdBack hk]; exact h.live k hk) (by rw [hnewBack]; exact hc)
      agrees := split (fun k hk => by rw [holdBack hk, hlast (Nat.le_of_lt hk), holdLen hk]; exact h.agrees k hk)
        (by rw [hnewBack, hlast (Nat.le_refl n), hnewLen]; exact hag) }

end Sys2Proof.Machine
end

section
/-! SUPPORT. The walk down the tree (R245): it always completes, keeps the tree in order, and adds only pairs of
followed candidates with rising lengths. -/

namespace Sys2Proof.Machine

theorem minW_toNat (a b : Word) : (minW a b).toNat = min a.toNat b.toNat := by
  unfold minW
  split
  · next hle => exact (Nat.min_eq_left (BitVec.le_def.1 hle)).symm
  · next hlt => exact (Nat.min_eq_right (Nat.le_of_not_le (mt BitVec.le_def.2 hlt))).symm

/-- What a search leaves: a tree in order, and the pairs its count of words names. -/
def Collected (s : State) (limit : Word) (son pairs : Ram Word 0#32) (off : Word) : Prop :=
  TreeOk s son ∧ ∃ n, PairsOk s limit pairs n ∧ off.toNat = 2 * n

/-- What holds wherever a walk stands: the tree, the pairs, and two open slots of nodes newer than the candidate. -/
structure WalkPart (s : State) (limit : Word) (son pairs : Ram Word 0#32) (p : WalkPos) (n : Nat) : Prop where
  tree : TreeOk s son
  found : PairsOk s limit pairs n
  off : p.off.toNat = 2 * n
  open0 : OpenAbove s p.curMatch.toNat p.ptr0
  open1 : OpenAbove s p.curMatch.toNat p.ptr1

/-- The longest length is that of the last pair, and bounds the lengths known to match. -/
structure Settled (limit : Word) (pairs : Ram Word 0#32) (p : WalkPos) (n : Nat) : Prop where
  recorded : p.maxLen.toNat = lastLen pairs n
  len0 : p.len0.toNat ≤ p.maxLen.toNat
  len1 : p.len1.toNat ≤ p.maxLen.toNat
  below : p.maxLen.toNat < limit.toNat

/-- A candidate known to agree in three bytes while the last pair is shorter: at the walk's start only, where the pair
of the bucket head was taken back (R245) or its two bytes are known from the hash (R248). -/
structure Pending (s : State) (pairs : Ram Word 0#32) (p : WalkPos) (n : Nat) : Prop where
  recorded : p.maxLen.toNat ≤ lastLen pairs n
  short : lastLen pairs n ≤ 2
  len0 : p.len0.toNat ≤ 2
  len1 : p.len1.toNat ≤ 2
  agrees : ∀ i < 3, Agrees s p.curMatch i

/-- A pending candidate agrees in three bytes at least. -/
theorem Pending.three_le {s : State} {limit : Word} (hs : Searchable s limit) {pairs : Ram Word 0#32}
    {p : WalkPos} {n : Nat}
    (h : Pending s pairs p n) {start L : Nat} (hL : MatchLen s limit p.curMatch start L) : 3 ≤ L := by
  have hthree := hs.three_le
  by_contra hlt
  exact hL.differs (by omega) (h.agrees L (by omega))

/-- The invariant of the walk. -/
structure WalkOk (s : State) (limit : Word) (son pairs : Ram Word 0#32) (p : WalkPos) (n : Nat) : Prop
    extends WalkPart s limit son pairs p n where
  ready : Live s p.curMatch → Settled limit pairs p n ∨ Pending s pairs p n
  head : p.curMatch = bucketHead s → Live s p.curMatch → ∀ i, i < (minW p.len0 p.len1).toNat → Agrees s p.curMatch i
  older : p.curMatch.toNat ≤ (bucketHead s).toNat

namespace WalkOk
variable {s : State} {limit : Word} {son pairs : Ram Word 0#32} {p : WalkPos} {n : Nat}
  (h : WalkOk s limit son pairs p n) (hs : Searchable s limit) (hc : Live s p.curMatch)
include h hs hc

theorem minLen_lt : (minW p.len0 p.len1).toNat < limit.toNat := by
  have hthree := hs.three_le
  rw [minW_toNat]
  rcases h.ready hc with hset | hpend
  · have hlen := hset.len0
    have hbelow := hset.below
    omega
  · have hlen := hpend.len0
    omega

variable {L : Nat} (hL : MatchLen s limit p.curMatch (minW p.len0 p.len1).toNat L)
include hL

/-- A length the walk records is above the last pair's, and the bytes before it agree. -/
theorem recorded (hmax : p.maxLen.toNat < L) : lastLen pairs n < L ∧ AgreesFrom s p.curMatch (lastLen pairs n) L := by
  have hmin := minW_toNat p.len0 p.len1
  rcases h.ready hc with hset | hpend
  · have hrec := hset.recorded
    have hlen := hset.len0
    refine ⟨by omega, fun i hi hlt => ?_⟩
    by_cases hknown : i < (minW p.len0 p.len1).toNat
    · split at hi
      · next hhead => exact h.head hhead hc i hknown
      · omega
    · exact hL.agrees i (by omega) hlt
  · have hthree := hpend.three_le hs hL
    have hshort := hpend.short
    have hlen := hpend.len0
    refine ⟨by omega, fun i _ hlt => ?_⟩
    by_cases hknown : i < 3
    · exact hpend.agrees i hknown
    · exact hL.agrees i (by omega) hlt

/-- Where nothing is recorded, the candidate was no pending one. -/
theorem settled_of_not_recorded (hno : ¬ ((minW p.len0 p.len1).toNat < L ∧ p.maxLen.toNat < L)) :
    Settled limit pairs p n ∧ L ≤ p.maxLen.toNat := by
  have hmin := minW_toNat p.len0 p.len1
  have hge := hL.ge
  rcases h.ready hc with hset | hpend
  · have hlen := hset.len0
    exact ⟨hset, by omega⟩
  · have hthree := hpend.three_le hs hL
    have hlen := hpend.len0
    have hrec := hpend.recorded
    have hshort := hpend.short
    exact absurd ⟨by omega, by omega⟩ hno

end WalkOk

/-! ### One step -/

namespace WalkPart
variable {s : State} {limit : Word} {son pairs : Ram Word 0#32} {p : WalkPos} {n : Nat}
  (h : WalkPart s limit son pairs p n) (hs : Searchable s limit)
include h hs

theorem close_run (hash : Ram Word 0#32) : ∃ son', mfCloseWalk p (searching hash son pairs s) =
    .ok () (searching hash son' pairs s) ∧ Collected s limit son' pairs p.off := by
  obtain ⟨son', hrun, htree⟩ :=
    h.tree.mfCloseWalk_run hs.finderSizes (h.open0.mono (Nat.zero_le _)) (h.open1.mono (Nat.zero_le _)) hash pairs
  exact ⟨son', hrun, htree, n, h.found, h.off⟩

variable (hc : Live s p.curMatch)
include hc

theorem graft_run (hash : Ram Word 0#32) :
    ∃ son', mfGraft p (mfNodeIndex s.mf (s.win.pos - p.curMatch)) (searching hash son pairs s) =
      .ok () (searching hash son' pairs s) ∧ Collected s limit son' pairs p.off := by
  obtain ⟨son', hrun, htree⟩ := h.tree.mfGraft_run hs.finderSizes hc h.open0 h.open1 hash pairs
  exact ⟨son', hrun, htree, n, h.found, h.off⟩

/-- The candidate takes an open slot, and one of its subtrees is the next. -/
theorem take_run {ptr : Word} (hptr : OpenAbove s p.curMatch.toNat ptr) {b : Nat} (hb : b ≤ 1) (hash : Ram Word 0#32) :
    ∃ next son', TreeOk s son' ∧ next.toNat < p.curMatch.toNat ∧ ∀ f : Word → Eng WalkPos,
      (sonWrite ptr p.curMatch >>= fun _ =>
        sonRead (mfNodeIndex s.mf (s.win.pos - p.curMatch) + BitVec.ofNat 32 b) >>= f) (searching hash son pairs s) =
        f next (searching hash son' pairs s) := by
  obtain ⟨son', hrun, htree⟩ := h.tree.sonWrite_run hs.finderSizes hptr (Nat.le_refl _) hash pairs
  obtain ⟨next, hread, hlt⟩ := htree.sonRead_run hs.finderSizes hc hb hash pairs
  exact ⟨next, son', htree, hlt, fun f => (Eng.bind_ok hrun _).trans (Eng.bind_ok hread _)⟩

/-- Descending into a subtree keeps the invariant (R245). -/
theorem descend_run (hset : Settled limit pairs p n) (hold : p.curMatch.toNat ≤ (bucketHead s).toNat) {L : Nat}
    (hL : L ≤ p.maxLen.toNat) (hash : Ram Word 0#32) :
    ∃ q son', mfDescend (walkOf s limit) p (mfNodeIndex s.mf (s.win.pos - p.curMatch)) (s.win.bufOffset + p.curMatch)
      (BitVec.ofNat 32 L) (searching hash son pairs s) = .ok q (searching hash son' pairs s) ∧
        WalkOk s limit son' pairs q n := by
  have hbelow := hset.below
  have hlimit := limit.isLt
  have hword : (BitVec.ofNat 32 L).toNat = L := by
    rw [BitVec.toNat_ofNat]
    omega
  have hrun {f : Byte → Byte → Eng WalkPos} : (wbufRead (s.win.bufOffset + p.curMatch + BitVec.ofNat 32 L) >>= fun a =>
      wbufRead (s.win.bufOffset + s.win.pos + BitVec.ofNat 32 L) >>= f a) (searching hash son pairs s) =
      f (byteAt s (p.curMatch + BitVec.ofNat 32 L)) (byteAt s (s.win.pos + BitVec.ofNat 32 L))
        (searching hash son pairs s) :=
    (Eng.bind_ok (hs.wbufRead_run hc.kept (by omega) _ _ _) _).trans
      (Eng.bind_ok (hs.wbufRead_run hs.pos_kept (by omega) _ _ _) _)
  refine Exists.imp (fun q => Exists.imp fun son' => And.imp_left fun he => hrun.trans he) ?_
  split
  · obtain ⟨next, son', htree, hlt, htake⟩ := h.take_run hs hc h.open1 (Nat.le_refl 1) hash
    refine ⟨_, son', htake _, ?_⟩
    exact
      { tree := htree, found := h.found, off := h.off
        open0 := h.open0.mono (Nat.le_of_lt hlt)
        open1 := TreeOk.openAbove_child hs.finderSizes hc (Nat.le_refl 1) hlt
        ready := fun _ => .inl ⟨hset.recorded, hset.len0, by rw [hword]; exact hL, hbelow⟩
        head := fun heq _ => absurd (congrArg BitVec.toNat heq) (by dsimp only; omega)
        older := by dsimp only; omega }
  · obtain ⟨next, son', htree, hlt, htake⟩ := h.take_run hs hc h.open0 (Nat.zero_le 1) hash
    rw [BitVec.add_zero] at htake
    refine ⟨_, son', htake _, ?_⟩
    have hchild := TreeOk.openAbove_child hs.finderSizes hc (Nat.zero_le 1) hlt
    rw [BitVec.add_zero] at hchild
    exact
      { tree := htree, found := h.found, off := h.off
        open0 := hchild
        open1 := h.open1.mono (Nat.le_of_lt hlt)
        ready := fun _ => .inl ⟨hset.recorded, by rw [hword]; exact hL, hset.len1, hbelow⟩
        head := fun heq _ => absurd (congrArg BitVec.toNat heq) (by dsimp only; omega)
        older := by dsimp only; omega }

end WalkPart

/-! ### The walk -/

/-- What a walk does with a candidate and the length of its match (R245). -/
def mfFollow (w : Walk) (k : Nat) (p : WalkPos) (delta cp pby : Word) (r : Bool × Word) : Eng Word :=
  if r.1 = true ∧ p.maxLen.toNat < r.2.toNat then do
    mfPutPair p.off r.2 (delta - 1#32)
    let q := { p with maxLen := r.2, off := p.off + 2#32 }
    if r.2 = w.lenLimit then do
      mfGraft q cp
      pure q.off
    else do
      let q' ← mfDescend w q cp pby r.2
      mfWalkCollect w k q'
  else do
    let q ← mfDescend w p cp pby r.2
    mfWalkCollect w k q

theorem mfWalkCollect_follow {w : Walk} {k : Nat} {p : WalkPos} {u : State} (h : ¬ p.curMatch.toNat ≤ w.minPos.toNat) :
    mfWalkCollect w (k + 1) p u = (mfCandidateLen w p (u.win.bufOffset + p.curMatch) >>=
      mfFollow w k p (u.win.pos - p.curMatch) (mfNodeIndex u.mf (u.win.pos - p.curMatch))
        (u.win.bufOffset + p.curMatch)) u := by
  rw [mfWalkCollect, if_neg h]
  rfl

/-- The walk completes. -/
theorem mfWalkCollect_run {s : State} {limit : Word} (hs : Searchable s limit) (hash : Ram Word 0#32) :
    ∀ (k : Nat) (p : WalkPos) (son pairs : Ram Word 0#32) (n : Nat), WalkOk s limit son pairs p n →
    ∃ off son' pairs', mfWalkCollect (walkOf s limit) k p (searching hash son pairs s) =
      .ok off (searching hash son' pairs' s) ∧ Collected s limit son' pairs' off
  | 0, p, son, pairs, n, h => by
    obtain ⟨son', hrun, hdone⟩ := h.toWalkPart.close_run hs hash
    exact ⟨p.off, son', pairs, Eng.bind_ok hrun _, hdone⟩
  | k + 1, p, son, pairs, n, h => by
    by_cases hold : p.curMatch.toNat ≤ (walkOf s limit).minPos.toNat
    · obtain ⟨son', hrun, hdone⟩ := h.toWalkPart.close_run hs hash
      refine ⟨p.off, son', pairs, ?_, hdone⟩
      rw [mfWalkCollect, if_pos hold]
      exact Eng.bind_ok hrun _
    have hc : Live s p.curMatch := by
      obtain ⟨o, _, ho, _, _, hlt⟩ := h.open0
      refine ⟨?_, Nat.lt_of_lt_of_le hlt ho.2⟩
      rw [← mfMinPos_toNat]
      exact Nat.lt_of_not_le hold
    have hfast : limit.toNat ≤ 273 := Nat.le_trans hs.most hs.finderSizes.fast.2
    obtain ⟨L, hL, hlen⟩ := hs.mfCandidateLen_run hc (h.minLen_lt hs hc) hash son pairs
    have hword : (BitVec.ofNat 32 L).toNat = L := by
      have hle := hL.le
      rw [BitVec.toNat_ofNat]
      omega
    have descend {q : WalkPos} {pairs₁ : Ram Word 0#32} {m : Nat} (hcur : q.curMatch = p.curMatch)
        (hq : WalkPart s limit son pairs₁ q m) (hset : Settled limit pairs₁ q m) (hLq : L ≤ q.maxLen.toNat) :
        ∃ off son' pairs', (mfDescend (walkOf s limit) q (mfNodeIndex s.mf (s.win.pos - p.curMatch))
          (s.win.bufOffset + p.curMatch) (BitVec.ofNat 32 L) >>= mfWalkCollect (walkOf s limit) k)
            (searching hash son pairs₁ s) = .ok off (searching hash son' pairs' s) ∧
              Collected s limit son' pairs' off := by
      rw [← hcur]
      obtain ⟨q', son₁, hrun, hwalk⟩ :=
        hq.descend_run hs (by rw [hcur]; exact hc) hset (by rw [hcur]; exact h.older) hLq hash
      obtain ⟨off, son', pairs', hrest, hdone⟩ := mfWalkCollect_run hs hash k q' son₁ pairs₁ m hwalk
      exact ⟨off, son', pairs', (Eng.bind_ok hrun _).trans hrest, hdone⟩
    rw [mfWalkCollect_follow hold]
    refine Exists.imp (fun _ => Exists.imp fun _ => Exists.imp fun _ =>
      And.imp_left fun he => (Eng.bind_ok hlen _).trans he) ?_
    have hcond : (decide ((minW p.len0 p.len1).toNat < L) = true ∧ p.maxLen.toNat < (BitVec.ofNat 32 L).toNat) ↔
        (minW p.len0 p.len1).toNat < L ∧ p.maxLen.toNat < L := by
      rw [hword, decide_eq_true_eq]
    by_cases hput : (minW p.len0 p.len1).toNat < L ∧ p.maxLen.toNat < L
    · obtain ⟨hlast, hag⟩ := h.recorded hs hc hL hput.2
      have hrun := h.found.mfPutPair_run hlast hL.le hfast (dist := s.win.pos - p.curMatch - 1#32) h.off hash son
      obtain ⟨hpairs, hnew⟩ := h.found.put hs.finderSizes hlast hL.le hfast hc hag
      have hroom := h.found.pair_room hlast hL.le hfast
      have hoff := h.off
      have hq : WalkPart s limit son _ { p with maxLen := BitVec.ofNat 32 L, off := p.off + 2#32 } (n + 1) :=
        { tree := h.tree, found := hpairs, off := by dsimp only; bv_omega, open0 := h.open0, open1 := h.open1 }
      rw [mfFollow, if_pos (hcond.2 hput)]
      refine Exists.imp (fun _ => Exists.imp fun _ => Exists.imp fun _ =>
        And.imp_left fun he => (Eng.bind_ok hrun _).trans he) ?_
      by_cases hfull : BitVec.ofNat 32 L = (walkOf s limit).lenLimit
      · rw [if_pos hfull]
        obtain ⟨son', hgraft, hdone⟩ := hq.graft_run hs hc hash
        exact ⟨_, son', _, Eng.bind_ok hgraft _, hdone⟩
      · rw [if_neg hfull]
        have hne : L ≠ limit.toNat := fun heq => hfull (BitVec.eq_of_toNat_eq (hword.trans heq))
        have hle := hL.le
        have hlens : p.len0.toNat ≤ L ∧ p.len1.toNat ≤ L := by
          rcases h.ready hc with hset | hpend
          · have h0 := hset.len0
            have h1 := hset.len1
            omega
          · have h0 := hpend.len0
            have h1 := hpend.len1
            have hthree := hpend.three_le hs hL
            omega
        exact descend rfl hq
          ⟨by rw [hnew]; exact hword, by rw [hword]; exact hlens.1, by rw [hword]; exact hlens.2, by rw [hword]; omega⟩
          (Nat.le_of_eq hword.symm)
    · obtain ⟨hset, hle⟩ := h.settled_of_not_recorded hs hc hL hput
      rw [mfFollow, if_neg (mt hcond.1 hput)]
      exact descend rfl h.toWalkPart hset hle

end Sys2Proof.Machine
end

section
/-! SUPPORT. The hashes of the current position and the candidates in their buckets (R243 to R245, R248): what equal
hashes say about the bytes, and the pairs the bucket heads give before the walk. -/

namespace Sys2Proof.Machine

/-! ### Equal hashes, equal bytes -/

theorem xor_mul_inj {a b c d : Nat} (ha : a < 256) (hb : b < 256) (h : a ^^^ c * 256 = b ^^^ d * 256) :
    a = b ∧ c = d := by
  have hlow (x y : Nat) (hx : x < 256) : (x ^^^ y * 256) % 2 ^ 8 = x := by
    rw [Nat.xor_mod_two_pow, Nat.mod_eq_of_lt hx, Nat.mul_mod_left, Nat.xor_zero]
  have hab : a = b := by rw [← hlow a c ha, h, hlow b d hb]
  rw [hab] at h
  have hcd := Nat.xor_right_injective h
  exact ⟨hab, by omega⟩

theorem xor_mod_inj {t a b : Nat} (n : Nat) (ha : a < 2 ^ n) (hb : b < 2 ^ n)
    (h : (t ^^^ a) % 2 ^ n = (t ^^^ b) % 2 ^ n) :
    a = b := by
  rw [Nat.xor_mod_two_pow, Nat.xor_mod_two_pow, Nat.mod_eq_of_lt ha, Nat.mod_eq_of_lt hb] at h
  exact Nat.xor_right_injective h

theorem byteWord_toNat (b : Byte) : (b.setWidth 32).toNat = b.toNat := by
  have hlt := b.isLt
  rw [BitVec.toNat_setWidth]
  omega

/-- Equal 10-bit hashes of two bytes, the first equal: the second equal (R243). -/
theorem second_byte_of_hash {t : Word} {a b : Byte}
    (h : (t ^^^ a.setWidth 32).toNat % 1024 = (t ^^^ b.setWidth 32).toNat % 1024) : a = b := by
  rw [BitVec.toNat_xor, BitVec.toNat_xor, byteWord_toNat, byteWord_toNat] at h
  have ha := a.isLt
  have hb := b.isLt
  exact BitVec.eq_of_toNat_eq (xor_mod_inj 10 (by omega) (by omega) h)

/-- Equal 16-bit hashes of three bytes, the first equal: the others equal (R243). -/
theorem third_byte_of_hash {t : Word} {a b c d : Byte}
    (h : (t ^^^ a.setWidth 32 ^^^ (c.setWidth 32 <<< 8)).toNat % 65536 =
      (t ^^^ b.setWidth 32 ^^^ (d.setWidth 32 <<< 8)).toNat % 65536) : a = b ∧ c = d := by
  have hshift (x : Byte) : (x.setWidth 32 <<< 8).toNat = x.toNat * 256 := by
    have hlt := x.isLt
    rw [BitVec.toNat_shiftLeft, byteWord_toNat, Nat.shiftLeft_eq]
    omega
  have hpair (x y : Byte) : x.toNat ^^^ y.toNat * 256 < 2 ^ 16 :=
    Nat.xor_lt_two_pow (by have := x.isLt; omega) (by have := y.isLt; omega)
  rw [BitVec.toNat_xor, BitVec.toNat_xor, BitVec.toNat_xor, BitVec.toNat_xor, byteWord_toNat, byteWord_toNat, hshift,
    hshift,
    Nat.xor_assoc, Nat.xor_assoc] at h
  obtain ⟨hab, hcd⟩ := xor_mul_inj a.isLt b.isLt (xor_mod_inj 16 (hpair a c) (hpair b d) h)
  exact ⟨BitVec.eq_of_toNat_eq hab, BitVec.eq_of_toNat_eq hcd⟩

theorem windowByte_eq (s : State) (i : Word) : windowByte s i = byteAt s (s.win.pos + i) := by
  rw [← windowByte_standingAt, standingAt_self]

/-- The candidate of the 2-byte hash agrees in two bytes where the first agrees. -/
theorem agrees_of_hashTwo {s : State} {p : Word} (h : hashTwo (standingAt p s) = hashTwo s) (h0 : Agrees s p 0) :
    ∀ i < 2, Agrees s p i := fun i hi => by
  simp only [hashTwo, windowByte_eq] at h
  rw [show byteAt s (s.win.pos + 0#32) = byteAt s (p + 0#32) from h0] at h
  interval_cases i
  · exact h0
  · exact (second_byte_of_hash h).symm

/-- The candidate of the 3-byte hash agrees in three bytes where the first agrees. -/
theorem agrees_of_hashThree {s : State} {p : Word} (h : hashThree (standingAt p s) = hashThree s) (h0 : Agrees s p 0) :
    ∀ i < 3, Agrees s p i := fun i hi => by
  simp only [hashThree, hashThreeWord, windowByte_eq] at h
  rw [show byteAt s (s.win.pos + 0#32) = byteAt s (p + 0#32) from h0] at h
  obtain ⟨h1, h2⟩ := third_byte_of_hash h
  interval_cases i
  · exact h0
  · exact h1.symm
  · exact h2.symm

/-- The candidate of the 2-byte main hash agrees in both bytes (R244, R248). -/
theorem agrees_of_mainBucket {s : State} {p : Word} (hm : s.mf.hashArray = false)
    (h : mainBucket (standingAt p s) = mainBucket s) : ∀ i < 2, Agrees s p i := fun i hi => by
  unfold mainBucket hashMain at h
  rw [standingAt_mf, hm, if_neg Bool.noConfusion, if_neg Bool.noConfusion] at h
  simp only [windowByte_eq] at h
  obtain ⟨h0, h1⟩ := xor_mul_inj (BitVec.isLt _) (BitVec.isLt _) (Nat.add_left_cancel h)
  interval_cases i
  · exact (BitVec.eq_of_toNat_eq h0).symm
  · exact (BitVec.eq_of_toNat_eq h1).symm

/-! ### The hashes -/

/-- `h` holds the hashes of the current position (R243, R244). -/
structure HashesOf (s : State) (h : Hashes) : Prop where
  two : s.mf.hashArray = true → h.h2.toNat = hashTwo s
  three : s.mf.hashArray = true → h.h3.toNat = hashThree s
  main : h.hv.toNat = hashMain s

theorem hashTwo_lt (s : State) : hashTwo s < 1024 := Nat.mod_lt _ (by decide)

theorem hashThree_lt (s : State) : hashThree s < 65536 := Nat.mod_lt _ (by decide)

theorem toNat_and_ones (v : Word) (m : Word) (n : Nat) (hm : m.toNat = 2 ^ n - 1) :
    (v &&& m).toNat = v.toNat % 2 ^ n := by
  rw [BitVec.toNat_and, hm, Nat.and_two_pow_sub_one_eq_mod]

theorem hash4_of (s : State) (hm : s.mf.hashArray = true) : HashesOf s
    (hash4 s.mf.hashMask (windowByte s 0#32) (windowByte s 1#32) (windowByte s 2#32) (windowByte s 3#32)) where
  two := fun _ => toNat_and_ones _ _ 10 rfl
  three := fun _ => toNat_and_ones _ _ 16 rfl
  main := by rw [hashMain, if_pos hm]; rfl

theorem hash2_of (s : State) (hm : s.mf.hashArray = false) :
    HashesOf s (hash2 (windowByte s 0#32) (windowByte s 1#32)) where
  two := fun h => absurd (h.symm.trans hm) Bool.noConfusion
  three := fun h => absurd (h.symm.trans hm) Bool.noConfusion
  main := by
    have hlt := (windowByte s 1#32).isLt
    rw [hashMain, if_neg (by rw [hm]; exact Bool.noConfusion)]
    show (byteWord _ ^^^ (byteWord _ <<< 8)).toNat = _
    rw [BitVec.toNat_xor, BitVec.toNat_shiftLeft, byteWord, byteWord, byteWord_toNat, byteWord_toNat, Nat.shiftLeft_eq]
    congr 1
    omega

/-- The main bucket lies in HASH, past the short ones (R240). -/
theorem mainBucket_lt {s : State} (hs : FinderSizes s) : mainBucket s < s.mf.hashSizeSum.toNat := by
  unfold mainBucket hashMain
  cases hm : s.mf.hashArray with
  | true =>
    obtain ⟨hfix, _, _, hsum⟩ := hs.four hm
    have hand : ((hashThreeWord s ^^^ (crcTable (windowByte s 3#32) <<< 5)) &&& s.mf.hashMask).toNat ≤
        s.mf.hashMask.toNat := by
      rw [BitVec.toNat_and]
      exact Nat.and_le_right
    rw [if_pos rfl, hfix, hsum, BitVec.toNat_ofNat]
    omega
  | false =>
    obtain ⟨hfix, _, _, hsum⟩ := hs.two hm
    have h0 := (windowByte s 0#32).isLt
    have h1 := (windowByte s 1#32).isLt
    have hxor : (windowByte s 0#32).toNat ^^^ (windowByte s 1#32).toNat * 256 < 2 ^ 16 :=
      Nat.xor_lt_two_pow (by omega) (by omega)
    rw [if_neg Bool.noConfusion, hfix, hsum, BitVec.toNat_ofNat, BitVec.toNat_ofNat]
    omega

theorem mainIndex_toNat {s : State} (hs : FinderSizes s) {v : Word} (hv : v.toNat = hashMain s) :
    (s.mf.fixHashSize + v).toNat = mainBucket s := by
  have hlt := mainBucket_lt hs
  unfold mainBucket at hlt ⊢
  have hsum := s.mf.hashSizeSum.isLt
  rw [BitVec.toNat_add, hv, Nat.mod_eq_of_lt (by omega)]

namespace Searchable
variable {s : State} {limit : Word} (hs : Searchable s limit)
include hs

theorem mfHashAt_run : ∃ h, mfHashAt (s.win.bufOffset + s.win.pos) s = .ok h s ∧ HashesOf s h := by
  have hthree := hs.three_le
  have hread {i : Nat} (hi : i < limit.toNat) :
      wbufRead (s.win.bufOffset + s.win.pos + BitVec.ofNat 32 i) s = .ok (windowByte s (BitVec.ofNat 32 i)) s := by
    rw [windowByte_eq]
    exact hs.wbufRead_run hs.pos_kept hi s.hash s.son s.matchBuf
  have hread0 : wbufRead (s.win.bufOffset + s.win.pos) s = .ok (windowByte s 0#32) s := by
    have := hread (i := 0) (by omega)
    rwa [BitVec.add_zero] at this
  rw [mfHashAt, Eng.bind_look, Eng.bind_ok hread0, Eng.bind_ok (hread (i := 1) (by omega))]
  cases hm : s.mf.hashArray with
  | true =>
    have hfour : 4 ≤ limit.toNat := by
      have hleast := hs.least
      rwa [(hs.finderSizes.four hm).2.2.1] at hleast
    refine ⟨_, ?_, hash4_of s hm⟩
    rw [if_pos rfl, Eng.bind_ok (hread (i := 2) (by omega)), Eng.bind_ok (hread (i := 3) (by omega))]
    rfl
  | false => exact ⟨_, rfl, hash2_of s hm⟩

/-! ### The bucket heads -/

/-- A hash head is a candidate where it is followed and its first byte agrees (R245). -/
theorem mfHeadMatches_run {head : Word} (hhead : head.toNat < s.win.pos.toNat) (hash son pairs : Ram Word 0#32) :
    ∃ hit, mfHeadMatches (walkOf s limit) head (searching hash son pairs s) = .ok hit (searching hash son pairs s) ∧
      (hit = true ↔ Live s head ∧ Agrees s head 0) := by
  have hthree := hs.three_le
  unfold mfHeadMatches
  by_cases hold : head.toNat ≤ (walkOf s limit).minPos.toNat
  · rw [if_pos hold]
    refine ⟨false, rfl, fun h => (nomatch h), fun h => absurd hold (Nat.not_le_of_lt ?_)⟩
    show (mfMinPos s.mf s.win).toNat < _
    rw [mfMinPos_toNat]
    exact h.1.1
  · have hlive : Live s head := by
      refine ⟨?_, hhead⟩
      rw [← mfMinPos_toNat]
      exact Nat.lt_of_not_le hold
    have ha := hs.wbufRead_run hlive.kept (i := 0) (by omega) hash son pairs
    have hb := hs.wbufRead_run hs.pos_kept (i := 0) (by omega) hash son pairs
    rw [BitVec.add_zero] at ha hb
    rw [if_neg hold, Eng.bind_look]
    refine ⟨_, (Eng.bind_ok ha _).trans (Eng.bind_ok hb _), ?_⟩
    rw [beq_iff_eq]
    exact ⟨fun h => ⟨hlive, h.symm⟩, fun h => h.2.symm⟩

end Searchable

/-- Where a search stands before its walk: `n` pairs recorded, and the bucket head settled or known to agree in three
bytes. -/
structure HeadsOk (s : State) (limit : Word) (pairs : Ram Word 0#32) (n : Nat) (off maxLen : Word) : Prop where
  found : PairsOk s limit pairs n
  off : off.toNat = 2 * n
  ready : maxLen.toNat = lastLen pairs n ∨
    (maxLen.toNat ≤ lastLen pairs n ∧ lastLen pairs n ≤ 2 ∧ ∀ i < 3, Agrees s (bucketHead s) i)
  short : maxLen.toNat ≤ 3

namespace Searchable
variable {s : State} {limit : Word} (hs : Searchable s limit)
include hs

/-- The pair of a hash head that agrees in `L` bytes. -/
theorem putHead_run {pairs : Ram Word 0#32} {n : Nat} (hpairs : PairsOk s limit pairs n) {L : Nat}
    (hL : lastLen pairs n < L) (hle : L ≤ limit.toNat) {head : Word} (hlive : Live s head)
    (hag : ∀ i < L, Agrees s head i)
    {off : Word} (hoff : off.toNat = 2 * n) (hash son : Ram Word 0#32) :
    ∃ pairs', mfPutPair off (BitVec.ofNat 32 L) (s.win.pos - head - 1#32) (searching hash son pairs s) =
      .ok () (searching hash son pairs' s) ∧ PairsOk s limit pairs' (n + 1) ∧ lastLen pairs' (n + 1) = L ∧
        lastLen pairs' n = lastLen pairs n := by
  have hfast : limit.toNat ≤ 273 := Nat.le_trans hs.most hs.finderSizes.fast.2
  obtain ⟨hput, hlast⟩ := hpairs.put hs.finderSizes hL hle hfast hlive (fun i _ hi => hag i hi)
  refine ⟨_, hpairs.mfPutPair_run hL hle hfast hoff hash son, hput, hlast, ?_⟩
  have hroom := hpairs.pair_room hL hle hfast
  unfold lastLen pairLen
  split
  · rfl
  · rw [pairPut_before hpairs.wf (by rw [hpairs.size]; exact hroom) _ _ (by omega)]

theorem mfHead2_run {head : Word} (hhead : head.toNat < s.win.pos.toNat)
    (htwo : Live s head → hashTwo (standingAt head s) = hashTwo s) {pairs : Ram Word 0#32}
    (hpairs : PairsOk s limit pairs 0)
    (hash son : Ram Word 0#32) : ∃ n pairs', mfHead2 (walkOf s limit) head (searching hash son pairs s) =
      .ok (BitVec.ofNat 32 (2 * n), BitVec.ofNat 32 (n + 1)) (searching hash son pairs' s) ∧ PairsOk s limit pairs' n ∧
        lastLen pairs' n = n + 1 ∧ n ≤ 1 ∧ (Live s head ∧ Agrees s head 0 → n = 1) := by
  obtain ⟨hit, hrun, hiff⟩ := hs.mfHeadMatches_run hhead hash son pairs
  rw [mfHead2, Eng.bind_ok hrun]
  cases hit with
  | true =>
    obtain ⟨hlive, hfirst⟩ := hiff.1 rfl
    obtain ⟨pairs', hput, hok, hlast, _⟩ :=
      hs.putHead_run hpairs (L := 2) (Nat.lt_succ_self 1) (by have := hs.three_le; omega) hlive
      (agrees_of_hashTwo (htwo hlive) hfirst) (off := 0#32) rfl hash son
    exact ⟨1, pairs', (Eng.bind_ok hput _), hok, hlast, Nat.le_refl 1, fun _ => rfl⟩
  | false => exact ⟨0, pairs, rfl, hpairs, rfl, Nat.zero_le 1, fun h => nomatch hiff.2 h⟩

/-- What the 3-byte hash head leaves: the pairs, and what is known of the head that stands for the last. -/
theorem mfHead3_run {head2 head3 : Word} (hhead : head3.toNat < s.win.pos.toNat)
    (hthree : Live s head3 → hashThree (standingAt head3 s) = hashThree s) {pairs : Ram Word 0#32} {n : Nat}
    (hpairs : PairsOk s limit pairs n) (hlast : lastLen pairs n = n + 1) (hn : n ≤ 1)
    (hhit : Live s head2 ∧ Agrees s head2 0 → n = 1) (hash son : Ram Word 0#32) :
    ∃ m maxLen head pairs', mfHead3 (walkOf s limit) (BitVec.ofNat 32 (2 * n)) (BitVec.ofNat 32 (n + 1)) head2 head3
      (searching hash son pairs s) = .ok (BitVec.ofNat 32 (2 * m), maxLen, head) (searching hash son pairs' s) ∧
        PairsOk s limit pairs' m ∧ maxLen.toNat = lastLen pairs' m ∧ m ≤ 2 ∧ maxLen.toNat ≤ 3 ∧
        (m ≠ 0 → lastLen pairs' (m - 1) ≤ 2 ∧ (lastLen pairs' (m - 1) = 1 ∨ ∀ i < 3, Agrees s head i)) := by
  obtain ⟨hit, hrun, hiff⟩ := hs.mfHeadMatches_run hhead hash son pairs
  rw [mfHead3, Eng.bind_ok hrun]
  cases hit with
  | true =>
    obtain ⟨hlive, hfirst⟩ := hiff.1 rfl
    have hag := agrees_of_hashThree (hthree hlive) hfirst
    -- the pairs that stay: none where the two heads are the same position
    have hstay : ∃ b, b ≤ n ∧ (if head3 = head2 then BitVec.ofNat 32 (2 * n) - 2#32 else BitVec.ofNat 32 (2 * n)) =
        BitVec.ofNat 32 (2 * b) ∧ lastLen pairs b ≤ 2 := by
      by_cases hsame : head3 = head2
      · have hone : n = 1 := hhit (by rw [← hsame]; exact ⟨hlive, hfirst⟩)
        exact ⟨0, Nat.zero_le n, by rw [if_pos hsame, hone]; rfl, Nat.le_succ 1⟩
      · exact ⟨n, Nat.le_refl n, by rw [if_neg hsame], by omega⟩
    obtain ⟨b, hb, hoff, hshort⟩ := hstay
    have hword : (BitVec.ofNat 32 (2 * b)).toNat = 2 * b := by
      rw [BitVec.toNat_ofNat]
      omega
    obtain ⟨pairs', hput, hok, hnew, hprev⟩ := hs.putHead_run (hpairs.mono hb) (L := 3) (by omega) hs.three_le hlive hag
      hword hash son
    refine ⟨b + 1, 3#32, head3, pairs', ?_, hok, hnew.symm, by omega, Nat.le_refl 3, fun _ => ⟨?_, .inr hag⟩⟩
    · rw [if_pos rfl, Eng.bind_look, hoff, Nat.mul_add, BitVec.ofNat_add]
      exact Eng.bind_ok hput _
    · rw [Nat.add_sub_cancel, hprev]
      exact hshort
  | false =>
    have hword : (BitVec.ofNat 32 (n + 1)).toNat = n + 1 := by
      rw [BitVec.toNat_ofNat]
      omega
    refine ⟨n, _, head2, pairs, rfl, hpairs, hword.trans hlast.symm, by omega, by omega, fun hne => ?_⟩
    have hone : n - 1 = 0 := by omega
    rw [hone]
    exact ⟨Nat.le_succ 1, .inl rfl⟩

omit hs in
theorem hashWrite_run {i v : Word} {hash son pairs : Ram Word 0#32} (hi : i.toNat < hash.size) :
    hashWrite i v (searching hash son pairs s) = .ok () (searching (hash.set i.toNat v) son pairs s) :=
  ramWrite_ok (ram := (·.hash)) (s := searching hash son pairs s) hi

/-- The candidates of the short hashes (R245). -/
theorem mfShortHeads_run (hm : s.mf.hashArray = true) {h : Hashes} (hh : HashesOf s h) :
    ∃ n off maxLen pairs, mfShortHeads (walkOf s limit) h (bucketHead s) s =
      .ok (off, maxLen)
        (searching ((s.hash.set (hashTwo s) s.win.pos).set (1024 + hashThree s) s.win.pos) s.son pairs s) ∧
        HeadsOk s limit pairs n off maxLen := by
  have hfs := hs.finderSizes
  have hsum := (hfs.four hm).2.2.2
  have hsize := hfs.hash
  have h2lt := hashTwo_lt s
  have h3lt := hashThree_lt s
  have hindex : (1024#32 + h.h3).toNat = 1024 + hashThree s := by
    have h3 := hh.three hm
    bv_omega
  have hread2 : hashRead h.h2 s = .ok (s.hash.get (hashTwo s)) s := by
    rw [← hh.two hm]
    exact ramRead_ok (ram := (·.hash)) (by rw [hh.two hm]; omega)
  have hread3 : hashRead (1024#32 + h.h3) s = .ok (s.hash.get (1024 + hashThree s)) s := by
    rw [← hindex]
    exact ramRead_ok (ram := (·.hash)) (by omega)
  have hwrite2 : hashWrite h.h2 s.win.pos s =
      .ok () (searching (s.hash.set (hashTwo s) s.win.pos) s.son s.matchBuf s) := by
    rw [← hh.two hm]
    exact hashWrite_run (hash := s.hash) (son := s.son) (pairs := s.matchBuf) (by rw [hh.two hm]; omega)
  have hwrite3 : hashWrite (1024#32 + h.h3) s.win.pos
      (searching (s.hash.set (hashTwo s) s.win.pos) s.son s.matchBuf s) = .ok ()
        (searching ((s.hash.set (hashTwo s) s.win.pos).set (1024 + hashThree s) s.win.pos) s.son s.matchBuf s) := by
    rw [← hindex]
    exact hashWrite_run (by show _ < s.hash.size; omega)
  generalize (s.hash.set (hashTwo s) s.win.pos).set (1024 + hashThree s) s.win.pos = hash at hwrite3 ⊢
  obtain ⟨htwo, hthree⟩ := hs.finder.short hm
  obtain ⟨n, pairs, hhead2, hpairs, hlast, hn, hhit⟩ := hs.mfHead2_run (hs.finder.past.1 (hashTwo s)) (htwo _ h2lt)
    (PairsOk.empty hfs) hash s.son
  obtain ⟨m, maxLen, head, pairs', hhead3, hpairs', hmax, hm2, hshort, hdrop⟩ :=
    hs.mfHead3_run (hs.finder.past.1 (1024 + hashThree s)) (hthree _ h3lt) hpairs hlast hn hhit hash s.son
  have hword : (BitVec.ofNat 32 (2 * m)).toNat = 2 * m := by
    rw [BitVec.toNat_ofNat]
    omega
  rw [mfShortHeads, Eng.bind_look, Eng.bind_ok hread2, Eng.bind_ok hread3, Eng.bind_ok hwrite2, Eng.bind_ok hwrite3,
    Eng.bind_ok hhead2, Eng.bind_ok hhead3]
  dsimp only
  split
  · next hback =>
    obtain ⟨hne, hhead⟩ := hback
    have hm0 : m ≠ 0 := fun hz => hne (by rw [hz])
    obtain ⟨hle, hor⟩ := hdrop hm0
    refine ⟨m - 1, _, _, pairs', rfl, hpairs'.mono (Nat.sub_le m 1), by bv_omega, ?_, by decide⟩
    rw [← hhead]
    rcases hor with hone | hag
    · exact .inl hone.symm
    · exact .inr ⟨Nat.one_le_of_lt (hpairs'.mono (Nat.sub_le m 1)).lt_lastLen, hle, hag⟩
  · exact ⟨m, _, _, pairs', rfl, hpairs', hword, .inl hmax, hshort⟩

end Searchable

end Sys2Proof.Machine
end

section
/-! SUPPORT. The search as a whole (R245): it completes, its pairs are in order, and the current position is
inserted. -/

namespace Sys2Proof.Machine

namespace Searchable
variable {s : State} {limit : Word} (hs : Searchable s limit)
include hs

/-! ### The walk's start -/

/-- The bytes the walk takes as known to match do (R248). -/
theorem direct_agrees (hlive : Live s (bucketHead s)) :
    ∀ i < s.mf.numHashDirectBytes.toNat, Agrees s (bucketHead s) i := by
  cases hm : s.mf.hashArray with
  | true =>
    rw [(hs.finderSizes.four hm).2.1]
    exact fun i hi => absurd hi (Nat.not_lt_zero i)
  | false =>
    rw [(hs.finderSizes.two hm).2.1]
    exact agrees_of_mainBucket hm (hs.finder.main _ (Nat.le_add_right _ _) hlive)

/-- The walk starts within its invariant where its candidate is settled or pending. -/
theorem walkStart_ok {pairs : Ram Word 0#32} {n : Nat} {off maxLen : Word} (hfound : PairsOk s limit pairs n)
    (hoff : off.toNat = 2 * n)
    (hready : Live s (bucketHead s) → Settled limit pairs (mfWalkStart s.mf (bucketHead s) maxLen off) n ∨
      Pending s pairs (mfWalkStart s.mf (bucketHead s) maxLen off) n) :
    WalkOk s limit s.son pairs (mfWalkStart s.mf (bucketHead s) maxLen off) n := by
  have hfs := hs.finderSizes
  have hcyc := hfs.cycPos
  have hcbs := hfs.cbs
  have hdict := hfs.dict
  have hpast := hs.finder.past.1 (mainBucket s)
  have hslot := slotAt_pos hfs
  exact
    { tree := hs.finder.inserted.treeOk hfs
      found := hfound
      off := hoff
      open0 := ⟨s.win.pos, 1, hs.pos_kept, Nat.le_refl 1, by
        rw [hslot]
        show ((s.mf.cycPos <<< 1) + 1#32).toNat = _
        bv_omega, hpast⟩
      open1 := ⟨s.win.pos, 0, hs.pos_kept, Nat.zero_le 1, by
        rw [hslot]
        show (s.mf.cycPos <<< 1).toNat = _
        bv_omega, hpast⟩
      ready := hready
      head := fun _ hlive i hi => hs.direct_agrees hlive i (by
        rw [minW_toNat] at hi
        exact Nat.lt_of_lt_of_le hi (Nat.min_le_left _ _))
      older := Nat.le_refl _ }

/-- The bucket head with the 2-byte hash: its pair, unless the walk records it longer (R248). -/
theorem mfDirectHead_run (hm : s.mf.hashArray = false) (hash : Ram Word 0#32) :
    ∃ n off maxLen pairs, mfDirectHead (walkOf s limit) (bucketHead s) 0#32 1#32 (searching hash s.son s.matchBuf s) =
      .ok (off, maxLen) (searching hash s.son pairs s) ∧
        WalkOk s limit s.son pairs (mfWalkStart s.mf (bucketHead s) maxLen off) n := by
  have hdirect := (hs.finderSizes.two hm).2.1
  have hthree := hs.three_le
  have hempty : PairsOk s limit s.matchBuf 0 := PairsOk.empty hs.finderSizes
  unfold mfDirectHead
  rw [Eng.bind_look]
  by_cases hold : (mfMinPos s.mf s.win).toNat < (bucketHead s).toNat
  · have hlive : Live s (bucketHead s) := ⟨by rw [← mfMinPos_toNat]; exact hold, hs.finder.past.1 _⟩
    have hknown := hs.direct_agrees hlive
    rw [hdirect] at hknown
    have hcond : (searching hash s.son s.matchBuf s).mf.numHashDirectBytes ≠ 0#32 ∧
        (walkOf s limit).minPos.toNat < (bucketHead s).toNat :=
          ⟨fun hzero => absurd (hdirect.symm.trans hzero) (by decide), hold⟩
    have ha := hs.wbufRead_run hlive.kept (i := 2) (by omega) hash s.son s.matchBuf
    have hb := hs.wbufRead_run hs.pos_kept (i := 2) (by omega) hash s.son s.matchBuf
    rw [if_pos hcond, Eng.bind_look]
    refine Exists.imp (fun n => Exists.imp fun off => Exists.imp fun maxLen => Exists.imp fun pairs =>
      And.imp_left fun he => (Eng.bind_ok ha _).trans ((Eng.bind_ok hb _).trans he)) ?_
    split
    · obtain ⟨pairs, hput, hok, hlast, _⟩ := hs.putHead_run hempty (L := 2) (Nat.lt_succ_self 1) (by omega) hlive hknown
        (off := 0#32) rfl hash s.son
      refine ⟨1, 2#32, 2#32, pairs, Eng.bind_ok hput _, hs.walkStart_ok hok rfl fun _ => .inl ⟨hlast.symm, ?_, ?_, ?_⟩⟩
      · exact Nat.le_of_eq (congrArg BitVec.toNat hdirect)
      · exact Nat.le_of_eq (congrArg BitVec.toNat hdirect)
      · exact hthree
    · next hsame =>
      refine ⟨0, 0#32, 1#32, s.matchBuf, rfl, hs.walkStart_ok hempty rfl fun _ =>
        .inr ⟨Nat.le_refl 1, Nat.le_succ 1, ?_, ?_, fun i hi => ?_⟩⟩
      · exact Nat.le_of_eq (congrArg BitVec.toNat hdirect)
      · exact Nat.le_of_eq (congrArg BitVec.toNat hdirect)
      · by_cases hi2 : i < 2
        · exact hknown i hi2
        · rw [show i = 2 by omega]
          exact (Decidable.not_not.1 hsame).symm
  · refine ⟨0, 0#32, 1#32, s.matchBuf, ?_, hs.walkStart_ok hempty rfl fun hlive => absurd ?_ hold⟩
    · rw [if_neg fun hcond => hold hcond.2]
      rfl
    · rw [mfMinPos_toNat]
      exact hlive.1

/-- With the 4-byte hash the bucket head waits for the walk (R245). -/
theorem mfDirectHead_four (hm : s.mf.hashArray = true) (off maxLen : Word) (hash pairs : Ram Word 0#32) :
    mfDirectHead (walkOf s limit) (bucketHead s) off maxLen (searching hash s.son pairs s) =
      .ok (off, maxLen) (searching hash s.son pairs s) := by
  unfold mfDirectHead
  rw [Eng.bind_look, if_neg fun hcond => hcond.1 (hs.finderSizes.four hm).2.1]
  rfl

theorem walkStart_four (hm : s.mf.hashArray = true) {pairs : Ram Word 0#32} {n : Nat} {off maxLen : Word}
    (h : HeadsOk s limit pairs n off maxLen) :
    WalkOk s limit s.son pairs (mfWalkStart s.mf (bucketHead s) maxLen off) n := by
  obtain ⟨_, hdirect, hcheck, _⟩ := hs.finderSizes.four hm
  have hleast := hs.least
  rw [hcheck] at hleast
  have hfour : 4 ≤ limit.toNat := hleast
  have hshort := h.short
  have hlen : (mfWalkStart s.mf (bucketHead s) maxLen off).len0.toNat = 0 := congrArg BitVec.toNat hdirect
  refine hs.walkStart_ok h.found h.off fun _ => h.ready.imp (fun hrec => ?_) fun hpend => ?_
  · exact ⟨hrec, by rw [hlen]; exact Nat.zero_le _, hlen.trans_le (Nat.zero_le _), Nat.lt_of_le_of_lt hshort hfour⟩
  · obtain ⟨hrec, hlast, hag⟩ := hpend
    exact ⟨hrec, hlast, hlen.trans_le (Nat.zero_le _), hlen.trans_le (Nat.zero_le _), hag⟩

/-! ### The search -/

/-- A search completes: its pairs in order, its tree in order, the buckets of the position written with it (R245). -/
theorem mfSearch_run : ∃ off son pairs, mfSearch limit s = .ok off (searching (headsWritten s) son pairs s) ∧
    Collected s limit son pairs off := by
  have hfs := hs.finderSizes
  have hlt : mainBucket s < s.hash.size := by
    rw [hfs.hash]
    exact mainBucket_lt hfs
  obtain ⟨h, hhash, hh⟩ := hs.mfHashAt_run
  have hindex := mainIndex_toNat hfs hh.main
  have hread : hashRead (s.mf.fixHashSize + h.hv) s = .ok (bucketHead s) s := by
    rw [bucketHead, ← hindex]
    exact ramRead_ok (ram := (·.hash)) (by rw [hindex]; exact hlt)
  -- the last bucket written
  have hwrite {hash pairs : Ram Word 0#32} (hsize : hash.size = s.hash.size) :
      hashWrite (s.mf.fixHashSize + h.hv) s.win.pos (searching hash s.son pairs s) =
        .ok () (searching (hash.set (mainBucket s) s.win.pos) s.son pairs s) := by
    rw [← hindex]
    exact hashWrite_run (by rw [hindex, hsize]; exact hlt)
  rw [mfSearch, Eng.bind_look, Eng.bind_look, Eng.bind_ok hhash, Eng.bind_ok hread]
  unfold headsWritten
  cases hm : s.mf.hashArray with
  | true =>
    obtain ⟨n, off, maxLen, pairs, hheads, hok⟩ := hs.mfShortHeads_run hm hh
    rw [if_pos rfl, if_pos rfl]
    obtain ⟨off', son', pairs', hwalk, hdone⟩ := mfWalkCollect_run hs _ s.mf.cutValue.toNat _ s.son pairs n
      (hs.walkStart_four hm hok)
    exact ⟨off', son', pairs', (Eng.bind_ok hheads _).trans <| (Eng.bind_ok (hwrite (by rfl)) _).trans <|
      (Eng.bind_ok (hs.mfDirectHead_four hm off maxLen _ pairs) _).trans hwalk, hdone⟩
  | false =>
    obtain ⟨n, off, maxLen, pairs, hdirect, hok⟩ := hs.mfDirectHead_run hm (s.hash.set (mainBucket s) s.win.pos)
    rw [if_neg Bool.noConfusion, if_neg Bool.noConfusion]
    obtain ⟨off', son', pairs', hwalk, hdone⟩ := mfWalkCollect_run hs _ s.mf.cutValue.toNat _ s.son pairs n hok
    exact ⟨off', son', pairs', (Eng.bind_ok (hwrite (hash := s.hash) (pairs := s.matchBuf) rfl) _).trans <|
      (Eng.bind_ok hdirect _).trans hwalk, hdone⟩

/-! ### The position inserted -/

/-- Every bucket is as before the search, or names the current position and has its hash. -/
theorem headsWritten_get (k : Nat) : (headsWritten s).get k = s.hash.get k ∨
    (headsWritten s).get k = s.win.pos ∧ (s.mf.hashArray = true → k < 1024 → hashTwo s = k) ∧
      (s.mf.hashArray = true → ∀ j < 65536, k = 1024 + j → hashThree s = j) ∧
      (s.mf.fixHashSize.toNat ≤ k → mainBucket s = k) := by
  have hfs := hs.finderSizes
  have hwf := hfs.hashWf
  have hmain : s.mf.fixHashSize.toNat ≤ mainBucket s := Nat.le_add_right _ _
  unfold headsWritten
  cases hm : s.mf.hashArray with
  | true =>
    obtain ⟨hfix, _, _, hsum⟩ := hfs.four hm
    have hfix : s.mf.fixHashSize.toNat = 66560 := congrArg BitVec.toNat hfix
    have hsize := hfs.hash
    have h2 := hashTwo_lt s
    have h3 := hashThree_lt s
    have hwf2 := Ram.wf_set hwf (i := hashTwo s) (by omega) s.win.pos
    have hwf3 := Ram.wf_set hwf2 (i := 1024 + hashThree s) (by show _ < s.hash.size; omega) s.win.pos
    rw [if_pos rfl]
    by_cases hkm : k = mainBucket s
    · rw [hkm, Ram.get_set_same hwf3]
      exact .inr ⟨rfl, fun _ _ => by omega, fun _ _ _ _ => by omega, fun _ => rfl⟩
    rw [Ram.get_set_other hwf3 hkm]
    by_cases hk3 : k = 1024 + hashThree s
    · rw [hk3, Ram.get_set_same hwf2]
      exact .inr ⟨rfl, fun _ _ => by omega, fun _ _ _ _ => by omega, fun _ => by omega⟩
    rw [Ram.get_set_other hwf2 hk3]
    by_cases hk2 : k = hashTwo s
    · rw [hk2, Ram.get_set_same hwf]
      exact .inr ⟨rfl, fun _ _ => rfl, fun _ _ _ _ => by omega, fun _ => by omega⟩
    · exact .inl (Ram.get_set_other hwf hk2 _)
  | false =>
    rw [if_neg Bool.noConfusion]
    by_cases hkm : k = mainBucket s
    · rw [hkm, Ram.get_set_same hwf]
      exact .inr ⟨rfl, fun h => (nomatch h), fun h => (nomatch h), fun _ => rfl⟩
    · exact .inl (Ram.get_set_other hwf hkm _)

theorem headsWritten_wf : (headsWritten s).wf = true ∧ (headsWritten s).size = s.hash.size := by
  have hfs := hs.finderSizes
  have hsize := hfs.hash
  have hmain := mainBucket_lt hfs
  unfold headsWritten
  cases hm : s.mf.hashArray with
  | true =>
    have hsum := (hfs.four hm).2.2.2
    have h2 := hashTwo_lt s
    have h3 := hashThree_lt s
    have hwf2 := Ram.wf_set hfs.hashWf (i := hashTwo s) (by omega) s.win.pos
    have hwf3 := Ram.wf_set hwf2 (i := 1024 + hashThree s) (by show _ < s.hash.size; omega) s.win.pos
    exact ⟨Ram.wf_set hwf3 (by show _ < s.hash.size; omega) _, rfl⟩
  | false => exact ⟨Ram.wf_set hfs.hashWf (by omega) _, rfl⟩

/-- A search leaves the current position inserted (R245). -/
theorem finderInserted {son : Ram Word 0#32} (htree : TreeOk s son) (pairs : Ram Word 0#32) :
    FinderInserted (searching (headsWritten s) son pairs s) := by
  have hold := hs.finder.inserted
  have hnew (k : Nat) := hs.headsWritten_get k
  -- a fact about every bucket holds where it held before and holds of the position's own buckets
  have bucket {P : Word → Prop} {k : Nat} (hkeep : (headsWritten s).get k = s.hash.get k → P (s.hash.get k))
      (hpos : (headsWritten s).get k = s.win.pos → (s.mf.hashArray = true → k < 1024 → hashTwo s = k) ∧
        (s.mf.hashArray = true → ∀ j < 65536, k = 1024 + j → hashThree s = j) ∧
        (s.mf.fixHashSize.toNat ≤ k → mainBucket s = k) → P s.win.pos) : P ((headsWritten s).get k) := by
    rcases hnew k with h | ⟨h, hhash⟩
    · rw [h]
      exact hkeep h
    · rw [h]
      exact hpos h hhash
  exact
    { heads := fun k => bucket (P := fun v => v.toNat ≤ s.win.pos.toNat) (fun _ => hold.heads k)
        fun _ _ => Nat.le_refl _
      sons := htree.past
      older := fun p hp => ⟨htree.older p hp 0 (Nat.zero_le 1), htree.older p hp 1 (Nat.le_refl 1)⟩
      read := fun k => bucket (P := fun v => Kept s v → v.toNat + s.mf.minMatchCheck.toNat ≤ s.win.streamPos.toNat)
        (fun _ => hold.read k) fun _ _ _ => Nat.le_trans (Nat.add_le_add_left hs.least _) hs.room
      two := fun hm k hlt => bucket (P := fun v => Kept s v → hashTwo (standingAt v s) = k) (fun _ => hold.two hm k hlt)
        fun _ hhash _ => hhash.1 hm hlt
      three := fun hm k hlt => bucket (P := fun v => Kept s v → hashThree (standingAt v s) = k)
        (fun _ => hold.three hm k hlt) fun _ hhash _ => hhash.2.1 hm k hlt rfl
      main := fun k hle => bucket (P := fun v => Kept s v → mainBucket (standingAt v s) = k) (fun _ => hold.main k hle)
        fun _ hhash _ => hhash.2.2 hle }

end Searchable

end Sys2Proof.Machine
end

section
/-! SUPPORT. MF_GETMATCHES as a whole (O31): the length limit, the search, and the move (R245, R252, R260). -/

namespace Sys2Proof.Machine

/-- A state with a length limit is searchable (R245). -/
theorem searchable_of_limit {s : State} (hw : WindowOk s) (hws : WindowSizes s) (hf : FinderOk s) (hfs : FinderSizes s)
    {limit : Word} (hlimit : mfLenLimit s.mf s.win = some limit) : Searchable s limit := by
  have hmax := hfs.maxLen
  have hfast := hfs.fast
  have hbelow := hw.below
  have hahead := hw.ahead
  have hcheck : s.mf.minMatchCheck.toNat ≤ 4 := by
    cases hm : s.mf.hashArray with
    | true => exact Nat.le_of_eq (congrArg BitVec.toNat (hfs.four hm).2.2.1)
    | false => exact Nat.le_trans (Nat.le_of_eq (congrArg BitVec.toNat (hfs.two hm).2.2.1)) (by decide)
  have hsum : (s.win.pos + s.mf.matchMaxLen).toNat = s.win.pos.toNat + s.opts.fastBytes.toNat := by
    rw [BitVec.toNat_add, hmax, Nat.mod_eq_of_lt (by omega)]
  have hbounds : s.win.pos.toNat + limit.toNat ≤ s.win.streamPos.toNat ∧ s.mf.minMatchCheck.toNat ≤ limit.toNat ∧
      limit.toNat ≤ s.opts.fastBytes.toNat := by
    unfold mfLenLimit at hlimit
    split at hlimit
    · cases hlimit
      omega
    · dsimp only at hlimit
      have hleft : (s.win.streamPos - s.win.pos).toNat = s.win.streamPos.toNat - s.win.pos.toNat := by bv_omega
      split at hlimit
      · exact nomatch hlimit
      · cases hlimit
        omega
  obtain ⟨hroom, hleast, hmost⟩ := hbounds
  exact
    { window := hw, windowSizes := hws, finder := hf, finderSizes := hfs, room := hroom, least := hleast, most := hmost }

/-- A move leaves MATCHES alone (R250). -/
theorem mfMovePos_matchBuf {s t : State} (h : mfMovePos s = .ok () t) : t.matchBuf = s.matchBuf := by
  have hkept := finder_keeps.mfMovePos s
  rw [h] at hkept
  have hbuf := congrArg (fun u : State => u.matchBuf) hkept
  exact hbuf

/-- The pairs a completed search reports (R245, R246). -/
theorem mfGetMatches_pairs {s t : State} {off : Word} (hw : WindowOk s) (hws : WindowSizes s) (hf : FinderOk s)
    (hfs : FinderSizes s) (h : mfGetMatches s = .ok off t) : t.mf.numPairs = off ∧
      ∃ limit n, PairsOk s limit t.matchBuf n ∧ off.toNat = 2 * n ∧ limit.toNat ≤ s.opts.fastBytes.toNat := by
  cases hl : mfLenLimit s.mf s.win with
  | none =>
    rw [mfGetMatches_of_none hl] at h
    obtain ⟨_, u, hmove, h⟩ := Eng.bind_eq_ok.1 h
    cases h
    refine ⟨rfl, 0#32, 0, ?_, rfl, Nat.zero_le _⟩
    show PairsOk s 0#32 u.matchBuf 0
    rw [mfMovePos_matchBuf hmove]
    exact PairsOk.empty hfs
  | some limit =>
    have hs := searchable_of_limit hw hws hf hfs hl
    obtain ⟨off', son, pairs, hsearch, _, n, hpairs, hoff⟩ := hs.mfSearch_run
    rw [mfGetMatches_of_some hl, Eng.bind_ok hsearch] at h
    obtain ⟨_, u, hmove, h⟩ := Eng.bind_eq_ok.1 h
    cases h
    refine ⟨rfl, limit, n, ?_, hoff, hs.most⟩
    show PairsOk s limit u.matchBuf n
    rw [mfMovePos_matchBuf hmove]
    exact hpairs

/-- A search with input left completes with the rules kept, or waits for a source that is not ready (R245, R252). -/
theorem mfGetMatches_ends {s : State} (hw : WindowOk s) (hws : WindowSizes s) (hf : FinderOk s) (hfs : FinderSizes s)
    (hlt : s.win.pos.toNat < s.win.streamPos.toNat) :
    (∃ off t, mfGetMatches s = .ok off t ∧ WindowOk t ∧ FinderOk t) ∨
    (¬ RefillReady s ∧ ∃ t, mfGetMatches s = .error (.stuck .sourceWait) t) := by
  have counted {off : Word} {u : State} (hmove : (∃ t, mfMovePos u = .ok () t ∧ WindowOk t ∧ FinderOk t) ∨
      (¬ RefillReady u ∧ ∃ t, mfMovePos u = .error (.stuck .sourceWait) t)) (hready : RefillReady s → RefillReady u)
      (hrun : mfGetMatches s = (mfMovePos >>= fun _ => put (setNumPairs off) >>= fun _ => pure off) u) :
      (∃ off t, mfGetMatches s = .ok off t ∧ WindowOk t ∧ FinderOk t) ∨
      (¬ RefillReady s ∧ ∃ t, mfGetMatches s = .error (.stuck .sourceWait) t) := by
    rcases hmove with ⟨t, hmove, hwindow, hfinder⟩ | ⟨hwait, t, hmove⟩
    · exact .inl ⟨off, setNumPairs off t, hrun.trans (Eng.bind_ok hmove _), { hwindow with }, { hfinder with }⟩
    · exact .inr ⟨fun hr => hwait (hready hr), t, hrun.trans (Eng.bind_error hmove _)⟩
  cases hl : mfLenLimit s.mf s.win with
  | none => exact counted (mfMovePos_ends hw hws hfs hlt hf.inserted) id (mfGetMatches_of_none hl)
  | some limit =>
    have hs := searchable_of_limit hw hws hf hfs hl
    obtain ⟨off, son, pairs, hsearch, htree, n, hpairs, _⟩ := hs.mfSearch_run
    have hwf : (headsWritten s).wf = true ∧ (headsWritten s).size = s.hash.size := hs.headsWritten_wf
    have hfs' : FinderSizes (searching (headsWritten s) son pairs s) :=
      { hfs with son := htree.size, hash := hwf.2.trans hfs.hash, words := hpairs.size
                 sonWf := htree.wf, hashWf := hwf.1, wordsWf := hpairs.wf }
    refine counted (mfMovePos_ends ?_ ?_ hfs' hlt (hs.finderInserted htree pairs)) id
      ((mfGetMatches_of_some hl).trans (Eng.bind_ok hsearch _))
    · exact { hw with }
    · exact { hws with }

/-- A command behind the gate ENC that ends without an error has been let through (R149). -/
theorem phase_of_mfGetMatches {s t : State} (he : s.status.err = .none) (h : exec .mfGetMatches s = .next t)
    (ht : t.status.err = .none) : s.status.phase = .enc := by
  by_contra hphase
  have hfault := (checksInOrder .mfGetMatches s he rfl).2.1 hphase id
  rw [h] at hfault
  cases hfault
  exact nomatch ht

/-- The pairs of a search are few enough, and its longest length is at most FAST_BYTES (R246). -/
theorem PairsOk.count_le {s : State} {limit : Word} {pairs : Ram Word 0#32} {n : Nat} (h : PairsOk s limit pairs n)
    (hfs : FinderSizes s) (hmost : limit.toNat ≤ s.opts.fastBytes.toNat) : n ≤ 272 := by
  by_contra hlt
  have hfast := hfs.fast
  have hlong := h.long 272 (by omega)
  have hbounded := h.bounded 272 (by omega)
  omega

/-- The last pair stands two words before the end (R260). -/
theorem lastPair_index {off : Word} {n : Nat} (hn : 0 < n) (hoff : off.toNat = 2 * n) :
    (off - 2#32).toNat = 2 * (n - 1) := by
  bv_omega

/-- MF_GETMATCHES returns where its search completes (R260). -/
theorem exec_mfGetMatches_of_ok {s t : State} {off : Word} {n : Nat} (hr : Runnable .mfGetMatches s)
    (h : mfGetMatches (clearResults s) = .ok off t) (hsize : t.matchBuf.size = 548) (hn : n ≤ 272)
    (hoff : off.toNat = 2 * n) :
    ∃ l, exec .mfGetMatches s = .next (results off l t) := by
  refine Exists.imp (fun l he => (hr.runs _).trans ((congrArg finish (Eng.bind_ok h _)).trans he)) ?_
  rw [Eng.bind_setR0]
  split
  · exact ⟨0#32, rfl⟩
  · next hne =>
    have hlt : (off - 2#32).toNat < 548 := by bv_omega
    have hread : matchRead (off - 2#32) { t with x := { t.x with r0 := off } } =
        .ok (t.matchBuf.get (off - 2#32).toNat) { t with x := { t.x with r0 := off } } :=
      ramRead_ok (ram := (·.matchBuf)) (by show _ < t.matchBuf.size; rw [hsize]; exact hlt)
    exact ⟨_, congrArg finish (Eng.bind_ok hread _)⟩

/-- A computation that completes has recorded no error (R610). -/
def CompletesCleanly {α : Type} (f : Eng α) : Prop := ∀ s a t, f s = .ok a t → t.status.err = s.status.err

theorem completesCleanly_refills : Refills searchRest withRoom CompletesCleanly where
  pure := fun _ _ _ _ h => by cases h; rfl
  bind := fun hf hg s b t h => by
    obtain ⟨a, u, hu, h⟩ := Eng.bind_eq_ok.1 h
    exact (hg a u b t h).trans (hf s a u hu)
  look := fun _ _ _ _ h => by cases h; rfl
  raise := fun _ _ _ _ _ h => nomatch h
  update := fun hu _ s _ _ h => by
    cases h
    have herr := congrArg (fun u : State => u.status.err) (hu s)
    exact herr
  srcRead := fun s a t h => by
    rcases srcRead_cases s with ⟨_, e⟩ | ⟨_, _, _, _, e⟩ | ⟨_, _, _, e⟩ | ⟨_, _, _, e⟩ <;> cases e.symm.trans h <;> rfl

/-- Settles O31: the search completes (`Searchable.mfSearch_run`), its walk keeps the tree and the pairs in order
(`WalkOk`), and the move carries the rules over (`mfMovePos_ends`). -/
theorem matchesRise : Obligations.MatchesRise := by
  unfold Obligations.MatchesRise
  refine ⟨fun s t hinv hw hf hexec he ht => ?_, fun s hinv hr hw hf hready hlt => ?_⟩
  · have hphase := phase_of_mfGetMatches he hexec ht
    have hws := hinv.windowSizes hphase
    have hfs := hinv.finderSizes hphase
    obtain ⟨off, l, u, hrun, rfl, hzero, hlong⟩ := mfGetMatches_of_exec ⟨he, rfl, hphase, trivial⟩ hexec ht
    obtain ⟨hcount, limit, n, hpairs, hoff, hmost⟩ :=
      mfGetMatches_pairs (s := clearResults s) { hw with } { hws with } { hf with } { hfs with } hrun
    refine ⟨⟨n, hpairs.count_le { hfs with } hmost, hoff, hcount, fun hn => hzero ?_,
      fun hn => ⟨?_, hpairs.long 0 hn, ?_⟩,
      hpairs.rising, fun k hk => ⟨hpairs.near k hk, hpairs.live k hk, hpairs.agrees k hk⟩⟩, fun hlt => ?_⟩
    · exact BitVec.eq_of_toNat_eq (by rw [hoff, hn]; rfl)
    · have hne : off ≠ 0#32 := fun hz => by
        rw [hz, BitVec.toNat_ofNat] at hoff
        omega
      show l.toNat = (u.matchBuf.get (2 * (n - 1))).toNat
      rw [← lastPair_index hn hoff]
      exact congrArg BitVec.toNat (hlong hne).2
    · exact Nat.le_trans (hpairs.bounded (n - 1) (by omega)) hmost
    · rcases mfGetMatches_ends (s := clearResults s) { hw with } { hws with } { hf with } { hfs with } hlt with
        ⟨_, v, hend, _, hfinder⟩ | ⟨_, v, hend⟩
      · cases hrun.symm.trans hend
        exact { hfinder with }
      · exact nomatch hrun.symm.trans hend
  · obtain ⟨he, _, hphase, _⟩ := id hr
    have hws := hinv.windowSizes hphase
    have hfs := hinv.finderSizes hphase
    rcases mfGetMatches_ends (s := clearResults s) { hw with } { hws with } { hf with } { hfs with } hlt with
      ⟨off, t, hend, hwindow, _⟩ | ⟨hwait, _⟩
    · obtain ⟨_, limit, n, hpairs, hoff, hmost⟩ :=
        mfGetMatches_pairs (s := clearResults s) { hw with } { hws with } { hf with } { hfs with } hend
      obtain ⟨l, hexec⟩ := exec_mfGetMatches_of_ok hr hend hpairs.size (hpairs.count_le { hfs with } hmost) hoff
      exact ⟨_, hexec, (completesCleanly_refills.mfGetMatches _ _ _ hend).trans he, { hwindow with }⟩
    · exact absurd hready hwait

end Sys2Proof.Machine
end

section
/-! SUPPORT. The encoding (30_encoding.md R141 to R151): a command word is its five fields, a pattern row of the opcode
table is a condition on each field, and every row of the table is one branch of the decoder (O1 to O4). -/

namespace Sys2Proof.Machine

/-! ### The fields of a word (R141) -/

/-- The word of five fields. -/
def fieldWord (f : CmdFields) : Word :=
  (f.res ++ (f.b ++ (f.n ++ (f.sel ++ f.opc) : BitVec (5 + (4 + 8))) : BitVec (1 + (5 + (4 + 8)))) :
    BitVec (14 + (1 + (5 + (4 + 8)))))

@[simp] theorem fieldWord_fieldsOf (w : Word) : fieldWord (fieldsOf w) = w := by
  have join : ∀ i len len', w.extractLsb' (i + len) len' ++ w.extractLsb' i len = w.extractLsb' i (len' + len) :=
    fun _ _ _ => BitVec.extractLsb'_append_extractLsb'_eq_extractLsb' rfl
  rw [fieldWord, fieldsOf, join 0 8 4, join 0 12 5, join 0 17 1, join 0 18 14]
  exact BitVec.extractLsb'_eq_self

@[simp] theorem fieldsOf_fieldWord (f : CmdFields) : fieldsOf (fieldWord f) = f := by
  obtain ⟨opc, sel, n, b, res⟩ := f
  simp [-Nat.reduceAdd, fieldWord, fieldsOf, BitVec.extractLsb'_append_eq_of_le, BitVec.extractLsb'_append_eq_of_add_le]

/-- Words are equal when their fields are. -/
theorem fieldWord_inj {f g : CmdFields} : fieldWord f = fieldWord g ↔ f = g :=
  ⟨fun h => by rw [← fieldsOf_fieldWord f, h, fieldsOf_fieldWord], congrArg _⟩

theorem fieldWord_and (f g : CmdFields) : fieldWord f &&& fieldWord g =
    fieldWord ⟨f.opc &&& g.opc, f.sel &&& g.sel, f.n &&& g.n, f.b &&& g.b, f.res &&& g.res⟩ := by
  rw [fieldWord, fieldWord, BitVec.and_append, BitVec.and_append, BitVec.and_append, BitVec.and_append, fieldWord]

/-- The word `encode` puts together, by its fields. -/
theorem assemble_eq (opc : BitVec 8) (sel : Bool) (n : BitVec 5) (b : Bool) :
    assemble opc sel n b = fieldWord ⟨opc, (BitVec.ofBool sel).setWidth 4, n, BitVec.ofBool b, 0#14⟩ := rfl

/-- The N field as the table's patterns read it (R144). -/
theorem count_eq (w : Word) : w.toNat / 2 ^ 12 % 32 = (fieldsOf w).n.toNat := by
  rw [fieldsOf, BitVec.extractLsb'_toNat, Nat.shiftRight_eq_div_pow]

/-- A word decodes when RES is 0 and its operation code's branch decodes the fields (R146). -/
theorem decode_eq_ok {w : Word} {i : Instr} :
    decode w = .ok i ↔ (fieldsOf w).res = 0#14 ∧ decodeOpc (fieldsOf w) = .ok i := by
  simp only [decode]
  split <;> simp_all

/-! ### A pattern row, field by field (R151) -/

/-- A row from its mnemonic, operation code and N range, and its masks for SEL, N and B; OPC and RES are compared whole. -/
def fieldRow (m : String) (opc : BitVec 8) (sel : BitVec 4) (n : BitVec 5) (b : BitVec 1) (nMin nMax : Nat) : OpRow :=
  ⟨m, fieldWord ⟨opc, 0#4, 0#5, 0#1, 0#14⟩, fieldWord ⟨0xFF#8, sel, n, b, 0x3FFF#14⟩, nMin, nMax⟩

theorem fieldRow_matches {m : String} {opc : BitVec 8} {sel : BitVec 4} {n : BitVec 5} {b : BitVec 1} {nMin nMax : Nat}
    (w : Word) : (fieldRow m opc sel n b nMin nMax).matches w ↔
      (fieldsOf w).res = 0#14 ∧ (fieldsOf w).opc = opc ∧ (fieldsOf w).sel &&& sel = 0#4 ∧ (fieldsOf w).b &&& b = 0#1 ∧
        (fieldsOf w).n &&& n = 0#5 ∧ nMin ≤ (fieldsOf w).n.toNat ∧ (fieldsOf w).n.toNat ≤ nMax := by
  have hopc : ∀ v : BitVec 8, v &&& 0xFF#8 = v := fun v => BitVec.and_allOnes
  have hres : ∀ v : BitVec 14, v &&& 0x3FFF#14 = v := fun v => BitVec.and_allOnes
  rw [OpRow.matches, count_eq, fieldRow]
  conv_lhs => enter [1, 1, 1]; rw [← fieldWord_fieldsOf w]
  rw [fieldWord_and, fieldWord_inj, CmdFields.mk.injEq, hopc, hres]
  tauto

theorem and_ones4 (v : BitVec 4) : v &&& 0xF#4 = v := BitVec.and_allOnes
theorem and_ones1 (v : BitVec 1) : v &&& 1#1 = v := BitVec.and_allOnes

/-- SEL compared but for its lowest bit is SEL 0/1 (R143). -/
theorem selMask_iff (v : BitVec 4) : v &&& 0xE#4 = 0#4 ↔ ∃ s, v = (BitVec.ofBool s).setWidth 4 := by
  revert v; decide

/-- B not compared is B 0/1 (R145). -/
theorem bitMask_iff (v : BitVec 1) : v &&& 0#1 = 0#1 ↔ ∃ b, v = BitVec.ofBool b := by revert v; decide

/-- The mask and the range of N in a row that has no count, a bit-tree row and a direct-bit row (R144). -/
theorem noCount_iff (n : BitVec 5) : (n &&& 0x1F#5 = 0#5 ∧ 0 ≤ n.toNat ∧ n.toNat ≤ 0) ↔ n = 0#5 := by revert n; decide

theorem treeCount_iff (n : BitVec 5) : (n &&& 0#5 = 0#5 ∧ 1 ≤ n.toNat ∧ n.toNat ≤ 8) ↔ treeCountOk n = true := by
  revert n; decide

theorem directCount_iff (n : BitVec 5) : (n &&& 0#5 = 0#5 ∧ 1 ≤ n.toNat ∧ n.toNat ≤ 31) ↔ directCountOk n = true := by
  revert n; decide

/-! ### The branches of the decoder -/

theorem plainOp_eq_ok {f : CmdFields} {i j : Instr} :
    plainOp f i = .ok j ↔ f.sel = 0#4 ∧ f.b = 0#1 ∧ f.n = 0#5 ∧ i = j := by
  rw [plainOp, noSel, noCount, noBit]
  split_ifs <;> simp_all

theorem selOp_eq_ok {f : CmdFields} {k : Bool → Instr} {j : Instr} :
    selOp f k = .ok j ↔ ∃ s, f.sel = (BitVec.ofBool s).setWidth 4 ∧ f.b = 0#1 ∧ f.n = 0#5 ∧ k s = j := by
  unfold selOp selField noCount noBit
  split_ifs <;> simp_all

theorem bitOp_eq_ok {f : CmdFields} {k : Bool → Instr} {j : Instr} :
    bitOp f k = .ok j ↔ ∃ b, f.sel = 0#4 ∧ f.b = BitVec.ofBool b ∧ f.n = 0#5 ∧ k b = j := by
  rw [bitOp, noSel, noCount]
  obtain h | h := BitVec.eq_zero_or_eq_one f.b <;> split_ifs <;> simp_all

theorem selBitOp_eq_ok {f : CmdFields} {k : Bool → Bool → Instr} {j : Instr} :
    selBitOp f k = .ok j ↔
      ∃ s b, f.sel = (BitVec.ofBool s).setWidth 4 ∧ f.b = BitVec.ofBool b ∧ f.n = 0#5 ∧ k s b = j := by
  unfold selBitOp selField noCount
  obtain h | h := BitVec.eq_zero_or_eq_one f.b <;> split_ifs <;> simp_all

theorem treeOp_eq_ok {f : CmdFields} {k : BitVec 5 → Instr} {j : Instr} :
    treeOp f k = .ok j ↔ f.sel = 0#4 ∧ f.b = 0#1 ∧ treeCountOk f.n = true ∧ k f.n = j := by
  rw [treeOp, noSel, noBit]
  split_ifs <;> simp_all

theorem directOp_eq_ok {f : CmdFields} {k : BitVec 5 → Instr} {j : Instr} :
    directOp f k = .ok j ↔ f.sel = 0#4 ∧ f.b = 0#1 ∧ directCountOk f.n = true ∧ k f.n = j := by
  rw [directOp, noSel, noBit]
  split_ifs <;> simp_all

/-! ### A row with its branch -/

/-- A row of the opcode table and the operation code whose branch of the decoder it is. -/
structure TableEntry where
  row : OpRow
  opc : BitVec 8
  /-- The row's pattern says which words of the operation code decode. -/
  matches_iff : ∀ w, row.matches w ↔ (fieldsOf w).opc = opc ∧ ∃ i, decode w = .ok i
  /-- What such a word decodes to. -/
  sound : ∀ {w i}, (fieldsOf w).opc = opc → decode w = .ok i →
    encode i = w ∧ i.wellFormed = true ∧ mnemonicOf i = row.mnemonic

namespace TableEntry

/-- A row and a branch that takes the fields the row's masks and range take. -/
def ofBranch (m : String) (opc : BitVec 8) (sel : BitVec 4) (n : BitVec 5) (b : BitVec 1) (nMin nMax : Nat)
    (branch : CmdFields → Except DecodeError Instr)
    (hbranch : ∀ f, f.opc = opc → decodeOpc f = branch f)
    (htakes : ∀ f, (∃ i, branch f = .ok i) ↔
      f.sel &&& sel = 0#4 ∧ f.b &&& b = 0#1 ∧ f.n &&& n = 0#5 ∧ nMin ≤ f.n.toNat ∧ f.n.toNat ≤ nMax)
    (hgives : ∀ f i, branch f = .ok i →
      encode i = fieldWord { f with opc := opc, res := 0#14 } ∧ i.wellFormed = true ∧ mnemonicOf i = m) :
    TableEntry where
  row := fieldRow m opc sel n b nMin nMax
  opc := opc
  matches_iff w := by
    simp only [fieldRow_matches, decode_eq_ok, ← htakes, exists_and_left]
    constructor
    · rintro ⟨hres, hopc, hi⟩
      exact ⟨hopc, hres, by rwa [hbranch _ hopc]⟩
    · rintro ⟨hopc, hres, hi⟩
      exact ⟨hres, hopc, by rwa [hbranch _ hopc] at hi⟩
  sound {w i} hopc hi := by
    obtain ⟨hres, hi⟩ := decode_eq_ok.1 hi
    obtain ⟨henc, hwf, hm⟩ := hgives _ i (hbranch _ hopc ▸ hi)
    refine ⟨?_, hwf, hm⟩
    rw [henc, ← hopc, ← hres]
    exact fieldWord_fieldsOf w

/-! One builder a shape of row; the decoder's branch and the encoder's word are read off by `rfl`. -/

/-- A row with no variable field. -/
def plain (opc : BitVec 8) (i : Instr)
    (hbranch : ∀ sel n b res, decodeOpc ⟨opc, sel, n, b, res⟩ = plainOp ⟨opc, sel, n, b, res⟩ i := by intros; rfl)
    (hword : encode i = assemble opc false 0#5 false := by rfl) (hwf : i.wellFormed = true := by rfl) : TableEntry :=
  ofBranch (mnemonicOf i) opc 0xF#4 0x1F#5 1#1 0 0 (plainOp · i) (fun | ⟨_, _, _, _, _⟩, rfl => hbranch _ _ _ _)
    (fun f => by simp only [plainOp_eq_ok, and_ones4, and_ones1, noCount_iff]; tauto)
    (fun f j hj => by
      obtain ⟨hs, hb, hn, rfl⟩ := plainOp_eq_ok.1 hj
      exact ⟨by rw [hword, assemble_eq, hs, hn, hb]; rfl, hwf, rfl⟩)

/-- A row whose SEL is 0/1 (R143). -/
def sel (opc : BitVec 8) (k : Bool → Instr)
    (hbranch : ∀ sel n b res, decodeOpc ⟨opc, sel, n, b, res⟩ = selOp ⟨opc, sel, n, b, res⟩ k := by intros; rfl)
    (hword : ∀ s, encode (k s) = assemble opc s 0#5 false := by intros; rfl)
    (hwf : ∀ s, (k s).wellFormed = true := by intros; rfl)
    (hname : ∀ s, mnemonicOf (k s) = mnemonicOf (k false) := by intros; rfl) : TableEntry :=
  ofBranch (mnemonicOf (k false)) opc 0xE#4 0x1F#5 1#1 0 0 (selOp · k) (fun | ⟨_, _, _, _, _⟩, rfl => hbranch _ _ _ _)
    (fun f => by simp only [selOp_eq_ok, selMask_iff, and_ones1, noCount_iff]; tauto)
    (fun f j hj => by
      obtain ⟨s, hs, hb, hn, rfl⟩ := selOp_eq_ok.1 hj
      exact ⟨by rw [hword, assemble_eq, hs, hn, hb]; rfl, hwf s, hname s⟩)

/-- A row whose B is 0/1 (R145). -/
def bit (opc : BitVec 8) (k : Bool → Instr)
    (hbranch : ∀ sel n b res, decodeOpc ⟨opc, sel, n, b, res⟩ = bitOp ⟨opc, sel, n, b, res⟩ k := by intros; rfl)
    (hword : ∀ b, encode (k b) = assemble opc false 0#5 b := by intros; rfl)
    (hwf : ∀ b, (k b).wellFormed = true := by intros; rfl)
    (hname : ∀ b, mnemonicOf (k b) = mnemonicOf (k false) := by intros; rfl) : TableEntry :=
  ofBranch (mnemonicOf (k false)) opc 0xF#4 0x1F#5 0#1 0 0 (bitOp · k) (fun | ⟨_, _, _, _, _⟩, rfl => hbranch _ _ _ _)
    (fun f => by simp only [bitOp_eq_ok, and_ones4, bitMask_iff, noCount_iff]; tauto)
    (fun f j hj => by
      obtain ⟨b, hs, hb, hn, rfl⟩ := bitOp_eq_ok.1 hj
      exact ⟨by rw [hword, assemble_eq, hs, hn, hb]; rfl, hwf b, hname b⟩)

/-- A row whose SEL and B are 0/1. -/
def selBit (opc : BitVec 8) (k : Bool → Bool → Instr)
    (hbranch : ∀ sel n b res, decodeOpc ⟨opc, sel, n, b, res⟩ = selBitOp ⟨opc, sel, n, b, res⟩ k := by intros; rfl)
    (hword : ∀ s b, encode (k s b) = assemble opc s 0#5 b := by intros; rfl)
    (hwf : ∀ s b, (k s b).wellFormed = true := by intros; rfl)
    (hname : ∀ s b, mnemonicOf (k s b) = mnemonicOf (k false false) := by intros; rfl) : TableEntry :=
  ofBranch (mnemonicOf (k false false)) opc 0xE#4 0x1F#5 0#1 0 0 (selBitOp · k)
    (fun | ⟨_, _, _, _, _⟩, rfl => hbranch _ _ _ _)
    (fun f => by simp only [selBitOp_eq_ok, selMask_iff, bitMask_iff, noCount_iff]; tauto)
    (fun f j hj => by
      obtain ⟨s, b, hs, hb, hn, rfl⟩ := selBitOp_eq_ok.1 hj
      exact ⟨by rw [hword, assemble_eq, hs, hn, hb], hwf s b, hname s b⟩)

/-- A bit-tree row: N is 1..8 (R144). -/
def tree (opc : BitVec 8) (k : BitVec 5 → Instr)
    (hbranch : ∀ sel n b res, decodeOpc ⟨opc, sel, n, b, res⟩ = treeOp ⟨opc, sel, n, b, res⟩ k := by intros; rfl)
    (hword : ∀ n, encode (k n) = assemble opc false n false := by intros; rfl)
    (hwf : ∀ n, (k n).wellFormed = treeCountOk n := by intros; rfl)
    (hname : ∀ n, mnemonicOf (k n) = mnemonicOf (k 1#5) := by intros; rfl) : TableEntry :=
  ofBranch (mnemonicOf (k 1#5)) opc 0xF#4 0#5 1#1 1 8 (treeOp · k) (fun | ⟨_, _, _, _, _⟩, rfl => hbranch _ _ _ _)
    (fun f => by simp only [treeOp_eq_ok, and_ones4, and_ones1, treeCount_iff]; tauto)
    (fun f j hj => by
      obtain ⟨hs, hb, hn, rfl⟩ := treeOp_eq_ok.1 hj
      exact ⟨by rw [hword, assemble_eq, hs, hb]; rfl, (hwf f.n).trans hn, hname f.n⟩)

/-- A direct-bit row: N is 1..31 (R144). -/
def direct (opc : BitVec 8) (k : BitVec 5 → Instr)
    (hbranch : ∀ sel n b res, decodeOpc ⟨opc, sel, n, b, res⟩ = directOp ⟨opc, sel, n, b, res⟩ k := by intros; rfl)
    (hword : ∀ n, encode (k n) = assemble opc false n false := by intros; rfl)
    (hwf : ∀ n, (k n).wellFormed = directCountOk n := by intros; rfl)
    (hname : ∀ n, mnemonicOf (k n) = mnemonicOf (k 1#5) := by intros; rfl) : TableEntry :=
  ofBranch (mnemonicOf (k 1#5)) opc 0xF#4 0#5 1#1 1 31 (directOp · k) (fun | ⟨_, _, _, _, _⟩, rfl => hbranch _ _ _ _)
    (fun f => by simp only [directOp_eq_ok, and_ones4, and_ones1, directCount_iff]; tauto)
    (fun f j hj => by
      obtain ⟨hs, hb, hn, rfl⟩ := directOp_eq_ok.1 hj
      exact ⟨by rw [hword, assemble_eq, hs, hb]; rfl, (hwf f.n).trans hn, hname f.n⟩)

end TableEntry

/-- The opcode table (R150) as rows with the decoder's branches. -/
def opcodeTable : List TableEntry :=
  [.plain 0x00#8 .nop, .plain 0x01#8 .reset, .plain 0x02#8 .regRead, .plain 0x03#8 .regWrite, .plain 0x04#8 .probRead,
   .plain 0x05#8 .matchRead, .plain 0x10#8 .wbGetByte, .plain 0x11#8 .wbMatchLen, .plain 0x12#8 .wbAvail,
   .plain 0x18#8 .mfGetMatches, .plain 0x19#8 .mfSkip, .plain 0x1A#8 .mfMovePos, .plain 0x1B#8 .mfHash,
   .bit 0x20#8 .rceBit, .direct 0x21#8 .rceDirect, .plain 0x28#8 .rcdBit, .direct 0x29#8 .rcdDirect,
   .selBit 0x2C#8 .priceBit, .tree 0x30#8 .btEnc, .tree 0x31#8 .btRevEnc, .tree 0x32#8 .btDec, .tree 0x33#8 .btRevDec,
   .tree 0x34#8 .btPrice, .tree 0x35#8 .btRevPrice, .sel 0x40#8 .stChar, .sel 0x41#8 .stMatch, .sel 0x42#8 .stRep,
   .sel 0x43#8 .stShortRep, .plain 0x44#8 .litEnc, .plain 0x45#8 .litEncM, .plain 0x46#8 .litDec,
   .plain 0x47#8 .litDecM, .sel 0x48#8 .litPrice, .sel 0x49#8 .lenEnc, .sel 0x4A#8 .lenDec, .sel 0x4B#8 .lenPrice,
   .plain 0x4C#8 .distEnc, .plain 0x4D#8 .distDec, .plain 0x4E#8 .posSlot, .plain 0x50#8 .repUse,
   .plain 0x51#8 .repPush, .plain 0x58#8 .optGetOptimum, .plain 0x59#8 .priceFillDist, .plain 0x5A#8 .priceFillAlign,
   .sel 0x5B#8 .priceLenTable, .plain 0x5C#8 .pricePosLen, .plain 0x5D#8 .priceRep, .plain 0x5E#8 .priceShortRep,
   .plain 0x60#8 .encStart, .plain 0x61#8 .hdrWrite, .plain 0x62#8 .encStep, .plain 0x63#8 .encRun,
   .plain 0x64#8 .encSymbol, .plain 0x65#8 .encFinish, .plain 0x70#8 .hdrRead, .plain 0x71#8 .decStart,
   .plain 0x72#8 .decStep, .plain 0x73#8 .decRun, .plain 0x74#8 .owGetByte, .plain 0x75#8 .owPutByte,
   .plain 0x76#8 .owCopy]

theorem opcodeTable_rows : opcodeTable.map TableEntry.row = opcodeRows := by rfl

/-- "OPC differs between rows" (R151). -/
theorem opcodeTable_nodup : (opcodeTable.map TableEntry.opc).Nodup := by decide

/-- Every operation code that decodes has a row (R150). -/
theorem opc_mem_of_decodeOpc {f : CmdFields} {i : Instr} (h : decodeOpc f = .ok i) :
    f.opc ∈ opcodeTable.map TableEntry.opc := by
  have hmem : ∀ {n}, f.opc.toNat = n → n ∈ opcodeTable.map (·.opc.toNat) →
      f.opc ∈ opcodeTable.map TableEntry.opc := by
    rintro _ rfl hn
    obtain ⟨e, he, hopc⟩ := List.mem_map.1 hn
    exact List.mem_map.2 ⟨e, he, BitVec.eq_of_toNat_eq hopc⟩
  unfold decodeOpc at h
  split at h
  case h_62 => cases h
  all_goals
    rename_i hopc
    exact hmem hopc (by decide)

theorem exists_entry_of_decode {w : Word} {i : Instr} (h : decode w = .ok i) :
    ∃ e ∈ opcodeTable, (fieldsOf w).opc = e.opc := by
  obtain ⟨e, he, hopc⟩ := List.mem_map.1 (opc_mem_of_decodeOpc (decode_eq_ok.1 h).2)
  exact ⟨e, he, hopc.symm⟩

theorem exists_entry_of_row {r : OpRow} (h : r ∈ opcodeRows) : ∃ e ∈ opcodeTable, e.row = r :=
  List.mem_map.1 (opcodeTable_rows ▸ h)

/-! ### The claims -/

/-- Settles O1: one round trip a command (Laws/PerInstr.lean). -/
theorem decodeOfEncode : Obligations.DecodeOfEncode := fun i =>
  open Laws in
  match i with
  | .nop => RoundTrip.nop | .reset => RoundTrip.reset | .regRead => RoundTrip.regRead
  | .regWrite => RoundTrip.regWrite | .probRead => RoundTrip.probRead | .matchRead => RoundTrip.matchRead
  | .wbGetByte => RoundTrip.wbGetByte | .wbMatchLen => RoundTrip.wbMatchLen | .wbAvail => RoundTrip.wbAvail
  | .mfGetMatches => RoundTrip.mfGetMatches | .mfSkip => RoundTrip.mfSkip | .mfMovePos => RoundTrip.mfMovePos
  | .mfHash => RoundTrip.mfHash | .rceBit b => RoundTrip.rceBit b | .rceDirect n => RoundTrip.rceDirect n
  | .rcdBit => RoundTrip.rcdBit | .rcdDirect n => RoundTrip.rcdDirect n | .priceBit sel b => RoundTrip.priceBit sel b
  | .btEnc n => RoundTrip.btEnc n | .btRevEnc n => RoundTrip.btRevEnc n | .btDec n => RoundTrip.btDec n
  | .btRevDec n => RoundTrip.btRevDec n | .btPrice n => RoundTrip.btPrice n | .btRevPrice n => RoundTrip.btRevPrice n
  | .stChar sel => RoundTrip.stChar sel | .stMatch sel => RoundTrip.stMatch sel | .stRep sel => RoundTrip.stRep sel
  | .stShortRep sel => RoundTrip.stShortRep sel | .litEnc => RoundTrip.litEnc | .litEncM => RoundTrip.litEncM
  | .litDec => RoundTrip.litDec | .litDecM => RoundTrip.litDecM | .litPrice sel => RoundTrip.litPrice sel
  | .lenEnc sel => RoundTrip.lenEnc sel | .lenDec sel => RoundTrip.lenDec sel
  | .lenPrice sel => RoundTrip.lenPrice sel | .distEnc => RoundTrip.distEnc | .distDec => RoundTrip.distDec
  | .posSlot => RoundTrip.posSlot | .repUse => RoundTrip.repUse | .repPush => RoundTrip.repPush
  | .optGetOptimum => RoundTrip.optGetOptimum | .priceFillDist => RoundTrip.priceFillDist
  | .priceFillAlign => RoundTrip.priceFillAlign | .priceLenTable sel => RoundTrip.priceLenTable sel
  | .pricePosLen => RoundTrip.pricePosLen | .priceRep => RoundTrip.priceRep
  | .priceShortRep => RoundTrip.priceShortRep | .encStart => RoundTrip.encStart | .hdrWrite => RoundTrip.hdrWrite
  | .encStep => RoundTrip.encStep | .encRun => RoundTrip.encRun | .encSymbol => RoundTrip.encSymbol
  | .encFinish => RoundTrip.encFinish | .hdrRead => RoundTrip.hdrRead | .decStart => RoundTrip.decStart
  | .decStep => RoundTrip.decStep | .decRun => RoundTrip.decRun | .owGetByte => RoundTrip.owGetByte
  | .owPutByte => RoundTrip.owPutByte | .owCopy => RoundTrip.owCopy

/-- Settles O2: the row of the word's operation code says what the word is (`TableEntry.sound`). -/
theorem encodeOfDecode : Obligations.EncodeOfDecode := by
  unfold Obligations.EncodeOfDecode
  intro w i h
  obtain ⟨e, _, hopc⟩ := exists_entry_of_decode h
  obtain ⟨henc, hwf, _⟩ := e.sound hopc h
  exact ⟨henc, hwf⟩

/-- Settles O3: the row of an operation code matches the words its branch decodes (`TableEntry.matches_iff`), and two
rows a word matches have its operation code. -/
theorem decodesByTheTable : Obligations.DecodesByTheTable := by
  unfold Obligations.DecodesByTheTable
  refine ⟨fun w m => ⟨?_, ?_⟩, fun w r hr q hq hrw hqw => ?_⟩
  · rintro ⟨i, h, rfl⟩
    obtain ⟨e, he, hopc⟩ := exists_entry_of_decode h
    obtain ⟨_, _, hname⟩ := e.sound hopc h
    exact ⟨e.row, opcodeTable_rows ▸ List.mem_map_of_mem he, hname.symm, (e.matches_iff w).2 ⟨hopc, i, h⟩⟩
  · rintro ⟨r, hr, rfl, hw⟩
    obtain ⟨e, _, rfl⟩ := exists_entry_of_row hr
    obtain ⟨hopc, i, h⟩ := (e.matches_iff w).1 hw
    obtain ⟨_, _, hname⟩ := e.sound hopc h
    exact ⟨i, h, hname⟩
  · obtain ⟨e, he, rfl⟩ := exists_entry_of_row hr
    obtain ⟨d, hd, rfl⟩ := exists_entry_of_row hq
    have hopc : e.opc = d.opc := ((e.matches_iff w).1 hrw).1.symm.trans ((d.matches_iff w).1 hqw).1
    rw [List.inj_on_of_nodup_map opcodeTable_nodup he hd hopc]

/-- Settles O4: each word is decoded. -/
theorem writtenWords : Obligations.WrittenWords := by
  unfold Obligations.WrittenWords
  decide

end Sys2Proof.Machine
end

section
/-! SUPPORT. Illegal words and the sticky error (30_encoding.md R146, R148, 60_exceptions.md R611; O6, O7). -/

namespace Sys2Proof.Machine

/-- The answer to an illegal word is fault entry, under a recorded error as without one (R146, R148). -/
theorem illegalCommand_eq (s : State) : illegalCommand s = .next (faultEntry .illegalCmd s) := by
  unfold illegalCommand
  dsimp only
  split
  · next he => rw [faultEntry_later (s := s) he, clearResults]
  · rfl

theorem step_illegal {s : State} {t : Transaction} {rest : List Transaction} {e : DecodeError}
    (hport : s.host.port = t :: rest) (hdec : decode t.word = .error e) :
    step s = .next (faultEntry .illegalCmd (accept t rest s)) := by
  rw [step, hport]
  dsimp only
  rw [hdec]
  exact illegalCommand_eq _

/-- Under a recorded error a command other than NOP, RESET and REG_READ only clears the results (R148). -/
theorem exec_ignored {i : Instr} {s : State} (he : s.status.err ≠ .none) (hi : runsUnderError i = false) :
    exec i s = .next (results 0#32 0#32 s) := by
  obtain ⟨body, hexec⟩ := exec_eq_command i
  rw [hexec]
  rcases command_cases i (gateOf i) body s with ⟨_, _, h⟩ | ⟨h, _⟩ | ⟨h, _⟩
  · exact h
  · exact absurd ⟨he, hi⟩ h
  · exact absurd ⟨he, hi⟩ h

theorem runsUnderError_eq_false {i : Instr} (hnop : i ≠ .nop) (hreset : i ≠ .reset) (hread : i ≠ .regRead) :
    runsUnderError i = false := by
  cases i with
  | nop => exact absurd rfl hnop
  | reset => exact absurd rfl hreset
  | regRead => exact absurd rfl hread
  | _ => rfl

theorem exec_nop (s : State) : exec .nop s = .next (results 0#32 0#32 s) := command_any_runs rfl rfl (pure ()) s

/-- REG_READ of an assigned number answers its row, with or without an error (R148, R562). -/
theorem exec_regRead_of_row {s : State} {v : Nat} (hrow : (s.x.a0.toNat, v) ∈ registerRows s) :
    exec .regRead s = .next (results (BitVec.ofNat 32 v) 0#32 s) := by
  obtain ⟨hn, hv, _⟩ := rowReads_of_mem hrow
  dsimp only at hn hv
  rw [exec_regRead, if_pos hn, hv]

/-- A REG_READ that would fault does not under a recorded error (R611). -/
theorem exec_regRead_without_row {s : State} (he : s.status.err ≠ .none)
    (hrow : ∀ v, (s.x.a0.toNat, v) ∉ registerRows s) : exec .regRead s = .next (results 0#32 0#32 s) := by
  have hfault : ∀ c, faultEntry c (clearResults s) = results 0#32 0#32 s := faultEntry_later (s := clearResults s) he
  rw [exec_regRead, regValue_eq_none (not_mem_registerNumbers hrow)]
  dsimp only
  rw [hfault, hfault, ite_self]

/-- REG_READ under a recorded error writes R0 and R1 alone. -/
theorem exec_regRead_under_error {s : State} (he : s.status.err ≠ .none) :
    ∃ v, exec .regRead s = .next (results v 0#32 s) := by
  by_cases hrow : ∃ v, (s.x.a0.toNat, v) ∈ registerRows s
  · obtain ⟨v, hv⟩ := hrow
    exact ⟨_, exec_regRead_of_row hv⟩
  · exact ⟨_, exec_regRead_without_row he (not_exists.1 hrow)⟩

/-- Under a recorded error every command but RESET writes R0 and R1 alone. -/
theorem exec_under_error {i : Instr} {s : State} (he : s.status.err ≠ .none) (hi : i ≠ .reset) :
    ∃ v, exec i s = .next (results v 0#32 s) := by
  by_cases hnop : i = .nop
  · exact ⟨_, hnop ▸ exec_nop s⟩
  by_cases hread : i = .regRead
  · exact hread ▸ exec_regRead_under_error he
  · exact ⟨_, exec_ignored he (runsUnderError_eq_false hnop hi hread)⟩

/-- Settles O7: every command but RESET writes the results alone (`exec_under_error`), and an illegal word's fault entry
under an error clears them (`step_illegal`). -/
theorem stickyError : Obligations.StickyError := by
  unfold Obligations.StickyError
  intro s he
  refine ⟨fun i hnop hreset hread => exec_ignored he (runsUnderError_eq_false hnop hreset hread),
    fun t rest e hport hdec => ?_, exec_nop s, ⟨_, exec_reset s, rfl⟩, fun v => exec_regRead_of_row,
    exec_regRead_without_row he, fun i t hi h => ?_⟩
  · rw [step_illegal hport hdec, faultEntry_later (s := accept t rest s) he]
    rfl
  · obtain ⟨v, hv⟩ := exec_under_error he hi
    cases hv.symm.trans h
    rfl

/-- Settles O6: fault entry records the error of the word (`step_illegal`), and the legality check comes before the gate
(`command_cases`). -/
theorem illegalWords : Obligations.IllegalWords := by
  unfold Obligations.IllegalWords
  refine ⟨fun s t rest e hport hdec => ?_, fun i s he hwf => ?_⟩
  · rw [step_illegal hport hdec]
    by_cases he : s.status.err = .none
    · rw [faultEntry_first (s := accept t rest s) he, if_pos he]
      rfl
    · rw [faultEntry_later (s := accept t rest s) he, if_neg he]
      rfl
  · obtain ⟨body, hexec⟩ := exec_eq_command i
    rw [hexec, ← faultEntry_clearResults he]
    rcases command_cases i (gateOf i) body s with ⟨herr, _⟩ | ⟨_, _, h⟩ | ⟨_, hlegal, _⟩
    · exact absurd he herr
    · exact h
    · exact absurd (hlegal.symm.trans hwf) Bool.noConfusion

end Sys2Proof.Machine
end

section
/-! SUPPORT. MF_MOVEPOS as a whole (O27, O28): the bytes a refill takes off the source stand in line behind those read
before, and the rebasing leaves every byte in its place (R203 to R206, R250, R254). -/

namespace Sys2Proof.Machine

/-! ### The bytes a refill takes (R206) -/

/-- The bytes `taken` have been read off the source into the window, behind the last byte read (R110, R206). -/
structure SourceTaken (taken : List Byte) (s t : State) : Prop where
  src : s.host.src = taken ++ t.host.src
  streamPos : t.win.streamPos = s.win.streamPos + BitVec.ofNat 32 taken.length
  bytes : ∀ k (h : k < taken.length), byteAt t (s.win.streamPos + BitVec.ofNat 32 k) = taken[k]

theorem sourceTaken_nil {s t : State} (hsrc : t.host.src = s.host.src) (hpos : t.win.streamPos = s.win.streamPos) :
    SourceTaken [] s t where
  src := hsrc.symm
  streamPos := hpos.trans (BitVec.add_zero _).symm
  bytes := fun k hk => absurd hk (Nat.not_lt_zero k)

/-- A refill loop that completes has refilled the window. -/
theorem winReadLoop_refilled {n : Nat} {s t : State} (h : Refillable s) (hn : s.host.src.length < n)
    (hrun : winReadLoop n s = .ok () t) : WindowRefilled s t := by
  rcases winReadLoop_ends n s h hn with ⟨u, hu, hrefilled⟩ | ⟨_, u, hu⟩
  · cases hrun.symm.trans hu
    exact hrefilled
  · exact nomatch hrun.symm.trans hu

/-- A turn of the refill loop that takes a byte (R206). -/
theorem winReadLoop_byte {s : State} {b : Byte} {rest : List Byte} (h : Refillable s) (hroom : roomLeft s ≠ 0)
    (hread : srcRead s = .ok (some b) (bytePopped rest s)) (n : Nat) :
    winReadLoop (n + 1) s = winReadLoop n (byteRefilled b rest s) := by
  have hlt : (s.win.bufOffset + s.win.streamPos).toNat < s.wbuf.size := by
    rw [h.sizes.buffer]
    unfold roomLeft at hroom
    omega
  have hwrite : wbufWrite (s.win.bufOffset + s.win.streamPos) b (bytePopped rest s) = .ok ()
      { bytePopped rest s with wbuf := s.wbuf.set (s.win.bufOffset + s.win.streamPos).toNat b } :=
    ramWrite_ok (ram := (·.wbuf)) hlt
  rw [winReadLoop, Eng.bind_look, if_neg (mt h.full_iff.1 hroom), Eng.bind_ok hread]
  exact Eng.bind_ok hwrite _

/-- The first byte taken stands behind the last byte read before, whatever is taken after it. -/
theorem Refillable.sourceTaken_cons {s t : State} {b : Byte} {rest taken : List Byte} (h : Refillable s)
    (hsrc : s.host.src = b :: rest) (ht : WindowRefilled (Machine.byteRefilled b rest s) t)
    (htaken : SourceTaken taken (Machine.byteRefilled b rest s) t) : SourceTaken (b :: taken) s t := by
  have hnext := h.streamPos_succ
  have hplus (k : Nat) : s.win.streamPos + BitVec.ofNat 32 (k + 1) = s.win.streamPos + 1 + BitVec.ofNat 32 k := by
    rw [Nat.add_comm, BitVec.ofNat_add, BitVec.add_assoc]
    rfl
  exact
    { src := hsrc.trans (congrArg (b :: ·) htaken.src)
      streamPos := htaken.streamPos.trans (hplus taken.length).symm
      bytes := fun k hk => by
        cases k with
        | zero =>
          rw [BitVec.add_zero, ht.bytes s.win.streamPos (show _ < (s.win.streamPos + 1).toNat by omega)]
          exact Ram.get_set_same h.sizes.wf _ b
        | succ k =>
          rw [hplus]
          exact htaken.bytes k (Nat.lt_of_succ_lt_succ hk) }

/-- What a refill loop that completes has taken off the source. -/
theorem winReadLoop_takes : ∀ (n : Nat) {s t : State}, Refillable s → s.host.src.length < n →
    winReadLoop n s = .ok () t → ∃ taken, SourceTaken taken s t
  | 0, _, _, _, hn, _ => absurd hn (Nat.not_lt_zero _)
  | n + 1, s, t, h, hn, hrun => by
    by_cases hroom : roomLeft s = 0
    · rw [winReadLoop, Eng.bind_look, if_pos (h.full_iff.2 hroom)] at hrun
      cases hrun
      exact ⟨[], sourceTaken_nil rfl rfl⟩
    have hturn := hrun
    rw [winReadLoop, Eng.bind_look, if_neg (mt h.full_iff.1 hroom)] at hturn
    rcases srcRead_cases s with ⟨_, e⟩ | ⟨b, rest, _, hsrc, e⟩ | ⟨_, _, _, e⟩ | ⟨_, _, _, e⟩
    · rw [Eng.bind_ok e] at hturn
      cases hturn
      exact ⟨[], sourceTaken_nil rfl rfl⟩
    · rw [winReadLoop_byte h hroom e] at hrun
      have hlen : rest.length < n := by
        rw [hsrc] at hn
        exact Nat.lt_of_succ_lt_succ hn
      have hnext := h.byteRefilled b rest hroom
      obtain ⟨taken, htaken⟩ := winReadLoop_takes n hnext hlen hrun
      exact ⟨b :: taken, h.sourceTaken_cons hsrc (winReadLoop_refilled hnext hlen hrun) htaken⟩
    · rw [Eng.bind_ok e] at hturn
      cases hturn
      exact ⟨[], sourceTaken_nil rfl rfl⟩
    · rw [Eng.bind_error e] at hturn
      exact nomatch hturn

namespace WindowMoved
variable {s t : State} (h : WindowMoved s)
include h

theorem winReadBlock_takes
    (hfront : (s.win.bufOffset + s.win.pos).toNat + s.win.keepAfter.toNat ≤ s.win.blockSize.toNat)
    (hrun : winReadBlock s = .ok () t) : ∃ taken, SourceTaken taken s t := by
  rw [winReadBlock, Eng.bind_look] at hrun
  cases hend : s.win.streamEnd with
  | true =>
    rw [if_pos hend] at hrun
    cases hrun
    exact ⟨[], sourceTaken_nil rfl rfl⟩
  | false =>
    have hrefill : Refillable s :=
      { sizes := h.sizes, placed := h.placed, goesOn := hend, front := hfront, limit := fun _ => h.limit hend }
    rw [hend, if_neg Bool.noConfusion, Eng.bind_look] at hrun
    exact winReadLoop_takes _ hrefill (Nat.lt_succ_self _) hrun

/-- The block move takes nothing; the refill after it has room for the look-ahead (R204). -/
theorem refillIfDue_takes (hrun : refillIfDue s = .ok () t) : ∃ taken, SourceTaken taken s t := by
  have hlast := h.sizes.lastSafe
  have hreserve := h.sizes.reserve
  rw [refillIfDue, Eng.bind_look] at hrun
  by_cases hdue : s.win.pos.toNat > s.win.posLimit.toNat
  · rw [if_pos hdue] at hrun
    by_cases hfar : (s.win.bufOffset + s.win.pos).toNat > s.win.lastSafe.toNat
    · obtain ⟨u, hmove, ⟨offset, r, rfl⟩, hsizes, hplaced, _, hfront⟩ := winMoveBlock_run h.placed h.sizes hfar
      have hmoved : WindowMoved (blockMoved offset r s) := ⟨hsizes, hplaced, h.limit⟩
      rw [if_pos hfar, Eng.bind_ok hmove] at hrun
      obtain ⟨taken, htaken⟩ := hmoved.winReadBlock_takes (by
        rw [hfront]
        show s.win.keepBefore.toNat + 1 + s.win.keepAfter.toNat ≤ s.win.blockSize.toNat
        omega) hrun
      exact ⟨taken, { htaken with }⟩
    · rw [if_neg hfar] at hrun
      exact h.winReadBlock_takes (by omega) hrun
  · rw [if_neg hdue] at hrun
    cases hrun
    exact ⟨[], sourceTaken_nil rfl rfl⟩

end WindowMoved

/-! ### The move and the rebasing (R203, R254) -/

/-- From `s` to `t` the position has moved on, every position then taken `sub` lower, with `taken` read off the source:
the positions still covered hold their bytes, and the new ones the bytes taken. -/
structure PositionMoved (sub : Word) (taken : List Byte) (s t : State) : Prop where
  pos : t.win.pos = s.win.pos + 1#32 - sub
  kept : ∀ p : Word, sub.toNat < p.toNat → s.win.pos.toNat + 1 ≤ p.toNat + s.win.keepBefore.toNat →
    p.toNat < s.win.streamPos.toNat → byteAt t (p - sub) = byteAt s p
  src : s.host.src = taken ++ t.host.src
  streamPos : t.win.streamPos = s.win.streamPos - sub + BitVec.ofNat 32 taken.length
  read : ∀ k (h : k < taken.length), byteAt t (s.win.streamPos - sub + BitVec.ofNat 32 k) = taken[k]

theorem WindowDone.positionMoved {s t : State} {taken : List Byte} (h : WindowDone (advanced s) t)
    (htaken : SourceTaken taken (advanced s) t) (hpos : s.win.pos.toNat < 0x7FFFFFFF) :
    PositionMoved 0#32 taken s t where
  pos := (congrArg (fun u : State => u.win.pos) h.frame).trans (BitVec.sub_zero _).symm
  kept := fun p hp hkept hlt => by
    have hnext : (advanced s).win.pos.toNat = s.win.pos.toNat + 1 := by
      show (s.win.pos + 1#32).toNat = _
      bv_omega
    rw [BitVec.sub_zero]
    exact h.bytes p hp (by rw [hnext]; exact hkept) hlt
  src := htaken.src
  streamPos := by
    rw [BitVec.sub_zero]
    exact htaken.streamPos
  read := fun k hk => by
    rw [BitVec.sub_zero]
    exact htaken.bytes k hk

/-- A rebasing leaves every byte in its place (R205, R254). -/
theorem PositionMoved.rebased {s t : State} {taken : List Byte} (h : PositionMoved 0#32 taken s t) (sub : Word) :
    PositionMoved sub taken s (rebased sub t) where
  pos := by
    have hpos := h.pos
    rw [BitVec.sub_zero] at hpos
    exact congrArg (· - sub) hpos
  kept := fun p hp hkept hlt => by
    rw [byteAt_rebased, ← h.kept p (Nat.lt_of_le_of_lt (Nat.zero_le _) hp) hkept hlt, BitVec.sub_zero]
  src := h.src
  streamPos := by
    have hstream := h.streamPos
    show t.win.streamPos - sub = _
    rw [hstream]
    bv_omega
  read := fun k hk => by
    rw [show s.win.streamPos - sub + BitVec.ofNat 32 k = s.win.streamPos - 0#32 + BitVec.ofNat 32 k - sub by bv_omega,
      byteAt_rebased]
    exact h.read k hk

/-- The cyclic slot moves on inside SON (R250). -/
theorem FinderSizes.advanced {s : State} (h : FinderSizes s) : FinderSizes (advanced s) :=
  { h with
    cycPos := by
      have hcbs := h.cbs
      show (if s.mf.cbs.toNat ≤ (s.mf.cycPos + 1#32).toNat then 0#32 else s.mf.cycPos + 1#32).toNat < s.mf.cbs.toNat
      split
      · show 0 < _
        omega
      · omega }

/-- What the rebasing that follows the move onto the next position takes off every position (R254). -/
def rebaseOf (s : State) : Word := if s.win.pos + 1#32 = 0x7FFFFFFF#32 then 0x7FFFFFFF#32 - s.mf.cbs else 0#32

theorem refillIfDue_notDue {s : State} (h : s.win.pos.toNat ≤ s.win.posLimit.toNat) : refillIfDue s = .ok () s := by
  rw [refillIfDue, Eng.bind_look, if_neg (Nat.not_lt.2 h)]
  rfl

theorem rebaseIfDue_due {s : State} (h : s.win.pos = 0x7FFFFFFF#32) :
    rebaseIfDue s = .ok () (rebased (0x7FFFFFFF#32 - s.mf.cbs) s) := by
  rw [rebaseIfDue, Eng.bind_look, if_pos (show s.win.pos = Config.maxValForNormalize from h), mfNormalize_run, h]

theorem rebaseIfDue_notDue {s : State} (h : s.win.pos ≠ 0x7FFFFFFF#32) : rebaseIfDue s = .ok () s := by
  rw [rebaseIfDue, Eng.bind_look, if_neg (show ¬ s.win.pos = Config.maxValForNormalize from h)]
  rfl

/-- With its refill ready, the move completes with the window's rules kept and the window faithful. -/
theorem mfMovePos_moves {s : State} (hw : WindowOk s) (hws : WindowSizes s) (hfs : FinderSizes s)
    (hlt : s.win.pos.toNat < s.win.streamPos.toNat) (hready : RefillReady s) :
    ∃ t taken, mfMovePos s = .ok () t ∧ WindowOk t ∧ PositionMoved (rebaseOf s) taken s t := by
  obtain ⟨u, hrun, hu⟩ := (hw.moved hws hlt).refillIfDue_ends.resolve_right fun hwait => hwait.1 hready
  obtain ⟨taken, htaken⟩ := (hw.moved hws hlt).refillIfDue_takes hrun
  have hmoved := hu.positionMoved htaken hw.below
  have hpos : u.win.pos = s.win.pos + 1#32 := hmoved.pos.trans (BitVec.sub_zero _)
  rw [mfMovePos_eq, Eng.bind_ok hrun, rebaseOf, ← hpos]
  by_cases hrebase : u.win.pos = 0x7FFFFFFF#32
  · have hcbs := congrArg (fun u : State => u.mf.cbs) hu.frame
    change u.mf.cbs = s.mf.cbs at hcbs
    have hsizes : FinderSizes u := by
      rw [hu.frame]
      exact { hfs.advanced with }
    have hok := hu.rebased_windowOk hsizes hrebase
    rw [hrebase, hcbs] at hok
    rw [rebaseIfDue_due hrebase, if_pos hrebase, hcbs]
    exact ⟨_, taken, rfl, hok, hmoved.rebased _⟩
  · rw [rebaseIfDue_notDue hrebase, if_neg hrebase]
    exact ⟨u, taken, rfl, hu.windowOk hrebase, hmoved⟩

theorem exec_mfMovePos_of_ok {s t : State} (hr : Runnable .mfMovePos s) (h : mfMovePos (clearResults s) = .ok () t) :
    exec .mfMovePos s = .next t := (hr.runs _).trans (congrArg finish h)

/-- Settles O27: the refill takes the source's next bytes in order (`winReadLoop_takes`), the block move and the rebasing
leave every position its byte (`PositionMoved`), and the match finder's rules are carried over (`mfMovePos_ends`). -/
theorem windowFaithful : Obligations.WindowFaithful := by
  unfold Obligations.WindowFaithful
  intro s hinv hr hw hready hlt
  obtain ⟨_, _, hphase, _⟩ := id hr
  have hw' : WindowOk (clearResults s) := { hw with }
  have hws : WindowSizes (clearResults s) := { hinv.windowSizes hphase with }
  have hfs : FinderSizes (clearResults s) := { hinv.finderSizes hphase with }
  obtain ⟨t, taken, hrun, hok, hmoved⟩ := mfMovePos_moves hw' hws hfs hlt hready
  refine ⟨t, taken, exec_mfMovePos_of_ok hr hrun, hok, fun hf => ?_,
    hmoved.pos, hmoved.kept, hmoved.src, hmoved.streamPos, hmoved.read⟩
  have hins : FinderInserted (clearResults s) := { hf.inserted with }
  obtain ⟨u, hu, _, hfinder⟩ := (mfMovePos_ends hw' hws hfs hlt hins).resolve_right fun hwait => hwait.1 hready
  cases hrun.symm.trans hu
  exact hfinder

/-- Onto the rebasing point, without a refill, the move rebases (R254). -/
theorem mfMovePos_rebases {s : State} (hpos : s.win.pos + 1#32 = 0x7FFFFFFF#32)
    (hlimit : (s.win.pos + 1#32).toNat ≤ s.win.posLimit.toNat) :
    mfMovePos s = .ok () (rebased (0x7FFFFFFF#32 - s.mf.cbs) (advanced s)) := by
  rw [mfMovePos_eq, Eng.bind_ok (refillIfDue_notDue (s := advanced s) hlimit)]
  exact rebaseIfDue_due (s := advanced s) hpos

/-- A rebasing takes the same off every stored position; those too old become 0 (R254). -/
theorem rebased_stored {s : State} (hfs : FinderSizes s) (sub : Word) (k : Nat) :
    ((rebased sub s).son.get k).toNat = (s.son.get k).toNat - sub.toNat ∧
      ((rebased sub s).hash.get k).toNat = (s.hash.get k).toNat - sub.toNat :=
  ⟨(congrArg BitVec.toNat (Ram.get_mapElems hfs.sonWf _ rfl k)).trans (rebase_toNat _ _),
    (congrArg BitVec.toNat (Ram.get_mapElems hfs.hashWf _ rfl k)).trans (rebase_toNat _ _)⟩

/-- Settles O28: without a refill the move is `mfMovePos_inside`, and onto the rebasing point it is followed by the
rebasing (`mfMovePos_rebases`). -/
theorem movesAndRebases : Obligations.MovesAndRebases := by
  unfold Obligations.MovesAndRebases
  refine ⟨fun s hr hinside => exec_mfMovePos_of_ok hr (mfMovePos_inside (s := clearResults s) hinside),
    fun s hinv hr hpos hlimit => ?_⟩
  obtain ⟨_, _, hphase, _⟩ := id hr
  have hfs : FinderSizes (advanced (clearResults s)) := FinderSizes.advanced { hinv.finderSizes hphase with }
  have hrun := mfMovePos_rebases (s := clearResults s) hpos hlimit
  have hcbs : s.win.pos + 1#32 - (0x7FFFFFFF#32 - s.mf.cbs) = s.mf.cbs := by
    rw [hpos]
    bv_omega
  refine ⟨_, exec_mfMovePos_of_ok hr hrun, ?_, fun k => (rebased_stored hfs _ k).1, fun k => (rebased_stored hfs _ k).2⟩
  rw [clearResults_mf]
  generalize 0x7FFFFFFF#32 - s.mf.cbs = sub at hcbs ⊢
  rw [← hcbs]
  rfl

end Sys2Proof.Machine
end

section
/-! SUPPORT. The commands that read one thing (O25) and WB_MATCHLEN (O26): each read lies inside its RAM, and the value
read is the result. -/

namespace Sys2Proof.Machine

/-! ### What a read command returns -/

/-- A command whose rule completes with its results alone changed. -/
theorem exec_results_of_ok {i : Instr} {body : Eng Unit} {s : State} {r0 r1 : Word} (hr : Runnable i s)
    (hexec : exec i s = command i (gateOf i) body s)
    (h : body (clearResults s) = .ok () (results r0 r1 (clearResults s))) : exec i s = .next (results r0 r1 s) :=
  hexec.trans ((hr.runs _).trans (congrArg finish h))

/-- A read of WBUF inside the window gives the byte there (R101, R207). -/
theorem wbufRead_window {s : State} (hsize : s.wbuf.size = s.win.blockSize.toNat) {i : Word}
    (h : windowIndex s i < s.win.blockSize.toNat) :
    wbufRead (s.win.bufOffset + s.win.pos + i) s = .ok (windowByte s i) s :=
  ramRead_ok (ram := (·.wbuf)) (hsize ▸ h)

theorem exec_probRead {s : State} (hinv : Inv s) (hr : Runnable .probRead s) :
    exec .probRead s = .next (results (BitVec.ofNat 32 (s.prob.get s.x.a0.toNat).toNat) 0#32 s) := by
  obtain ⟨_, _, _, hindex⟩ := id hr
  change s.x.a0.toNat < s.derived.probCount.toNat at hindex
  have hread : probRead s.x.a0 (clearResults s) = .ok (s.prob.get s.x.a0.toNat) (clearResults s) :=
    ramRead_ok (ram := (·.prob)) (show s.x.a0.toNat < s.prob.size from hinv.probSize ▸ hindex)
  rw [BitVec.ofNat_toNat]
  refine exec_results_of_ok hr rfl ?_
  rw [Eng.bind_opA0]
  exact (bind_passed (decide_eq_true hindex)).trans (Eng.bind_ok hread _)

theorem exec_matchRead {s : State} (hr : Runnable .matchRead s) :
    exec .matchRead s = .next (results (s.matchBuf.get s.x.a0.toNat) s.mf.numPairs s) := by
  obtain ⟨_, _, _, hindex⟩ := id hr
  have hread : matchRead s.x.a0 (clearResults s) = .ok (s.matchBuf.get s.x.a0.toNat) (clearResults s) :=
    ramRead_ok (ram := (·.matchBuf)) hindex
  exact exec_results_of_ok hr rfl (Eng.bind_ok hread _)

theorem exec_wbGetByte {s : State} (hsize : s.wbuf.size = s.win.blockSize.toNat) (hr : Runnable .wbGetByte s) :
    exec .wbGetByte s = .next (results (BitVec.ofNat 32 (windowByte s s.x.a0).toNat) 0#32 s) := by
  obtain ⟨_, _, _, hindex⟩ := id hr
  change windowIndex s s.x.a0 < s.win.blockSize.toNat at hindex
  have hread : winGetByte s.x.a0 (clearResults s) = .ok (windowByte s s.x.a0) (clearResults s) :=
    wbufRead_window (s := clearResults s) hsize hindex
  rw [BitVec.ofNat_toNat]
  refine exec_results_of_ok hr rfl ?_
  rw [Eng.bind_opA0]
  exact (bind_passed (decide_eq_true hindex)).trans (Eng.bind_ok hread _)

theorem exec_wbAvail {s : State} (hr : Runnable .wbAvail s) :
    exec .wbAvail s = .next (results (s.win.streamPos - s.win.pos) 0#32 s) :=
  exec_results_of_ok hr rfl rfl

/-! ### The hashes (R243, R244, R263) -/

/-- The hashes of the current position, where the bytes they read lie inside WBUF. -/
theorem mfHashAt_readable {s : State} (hsize : s.wbuf.size = s.win.blockSize.toNat) (hread : SearchReadable s) :
    ∃ h, mfHashAt (s.win.bufOffset + s.win.pos) s = .ok h s ∧ HashesOf s h := by
  have hbyte (k : Nat) (hk : k < if s.mf.hashArray then 4 else 2) :
      wbufRead (s.win.bufOffset + s.win.pos + BitVec.ofNat 32 k) s = .ok (windowByte s (BitVec.ofNat 32 k)) s :=
    wbufRead_window hsize (hread k hk)
  have hfirst (hk : 0 < if s.mf.hashArray then 4 else 2) :
      wbufRead (s.win.bufOffset + s.win.pos) s = .ok (windowByte s 0#32) s := by
    have h0 := hbyte 0 hk
    rwa [BitVec.add_zero] at h0
  rw [mfHashAt, Eng.bind_look]
  cases hm : s.mf.hashArray with
  | true =>
    rw [hm, if_pos rfl] at hbyte hfirst
    rw [Eng.bind_ok (hfirst (by decide)), Eng.bind_ok (hbyte 1 (by decide)), if_pos rfl,
      Eng.bind_ok (hbyte 2 (by decide)), Eng.bind_ok (hbyte 3 (by decide))]
    exact ⟨_, rfl, hash4_of s hm⟩
  | false =>
    rw [hm, if_neg Bool.noConfusion] at hbyte hfirst
    rw [Eng.bind_ok (hfirst (by decide)), Eng.bind_ok (hbyte 1 (by decide))]
    exact ⟨_, rfl, hash2_of s hm⟩

/-- `h3` above `h2` in one word (R263). -/
theorem shortHashes_word {s : State} {h : Hashes} (hof : HashesOf s h) (hm : s.mf.hashArray = true) :
    (h.h3 <<< 16) ||| h.h2 = BitVec.ofNat 32 (hashThree s * 2 ^ 16 + hashTwo s) := by
  have htwo := hashTwo_lt s
  have hthree := hashThree_lt s
  apply BitVec.eq_of_toNat_eq
  rw [BitVec.toNat_or, BitVec.toNat_shiftLeft, hof.two hm, hof.three hm, BitVec.toNat_ofNat, Nat.shiftLeft_eq,
    Nat.mod_eq_of_lt (by omega), Nat.mod_eq_of_lt (by omega), ← Nat.shiftLeft_eq,
    Nat.shiftLeft_add_eq_or_of_lt (show hashTwo s < 2 ^ 16 by omega)]

theorem exec_mfHash {s : State} (hsize : s.wbuf.size = s.win.blockSize.toNat) (hr : Runnable .mfHash s) :
    exec .mfHash s = .next (results (BitVec.ofNat 32 (hashMain s))
      (BitVec.ofNat 32 (if s.mf.hashArray then hashThree s * 2 ^ 16 + hashTwo s else 0)) s) := by
  obtain ⟨_, _, _, hread⟩ := id hr
  obtain ⟨h, hrun, hof⟩ := mfHashAt_readable (s := clearResults s) hsize hread
  have hof : HashesOf s h := { hof with }
  have hmain : h.hv = BitVec.ofNat 32 (hashMain s) := by
    rw [← hof.main, BitVec.ofNat_toNat, BitVec.setWidth_eq]
  have hshort : (if s.mf.hashArray then (h.h3 <<< 16) ||| h.h2 else 0#32) =
      BitVec.ofNat 32 (if s.mf.hashArray then hashThree s * 2 ^ 16 + hashTwo s else 0) := by
    cases hm : s.mf.hashArray with
    | true => exact shortHashes_word hof hm
    | false => rfl
  rw [← hmain, ← hshort]
  exact exec_results_of_ok hr rfl ((bind_passed (hash_inside_iff.2 hread)).trans (Eng.bind_ok hrun _))

/-- Settles O25, a lemma a command: the operand checks and the sizes of the RAMs (`Inv`) place every read. -/
theorem readCommands : Obligations.ReadCommands := by
  unfold Obligations.ReadCommands
  refine ⟨fun s => exec_probRead, fun s => exec_matchRead, fun s hinv hr => ?_, fun s => exec_wbAvail,
    fun s hinv hr => ?_⟩
  · obtain ⟨_, _, hphase, _⟩ := id hr
    exact exec_wbGetByte (hinv.windowSizes hphase).buffer hr
  · obtain ⟨_, _, hphase, _⟩ := id hr
    exact exec_mfHash (hinv.windowSizes hphase).buffer hr

/-! ### WB_MATCHLEN (R208, R221) -/

/-- The limit of a comparison, clipped at the stream's end (R208). -/
theorem winMatchLimit_toNat (w : WinRegs) (q limit : Word) : (winMatchLimit w q limit).toNat =
    if w.streamEnd ∧ w.streamPos.toNat < q.toNat + limit.toNat then w.streamPos.toNat - q.toNat else limit.toNat := by
  unfold winMatchLimit
  split
  · split
    · next hle => rw [BitVec.toNat_sub_of_le hle]
    · next hlt => exact (Nat.sub_eq_zero_of_le (Nat.le_of_not_le hlt)).symm
  · rfl

theorem winCompare_outside {s : State} {p d : Word} {n : Nat} (h : ¬ ComparesInside s p d n) (left : Nat) :
    winCompare p d (left + 1) (BitVec.ofNat 32 n) s = .error .ended (faultEntry .bounds s) := by
  rw [winCompare, wbufRead, wbufRead]
  by_cases hhere : (p + BitVec.ofNat 32 n).toNat < s.wbuf.size
  · have hback : ¬ (p + BitVec.ofNat 32 n - d).toNat < s.wbuf.size := fun hb => h ⟨hhere, hb⟩
    rw [Eng.bind_ok (ramRead_ok (ram := (·.wbuf)) hhere)]
    exact Eng.bind_error ((ramRead_run _ _ _).trans (if_neg hback)) _
  · exact Eng.bind_error ((ramRead_run _ _ _).trans (if_neg hhere)) _

/-- A comparison that agrees up to an index outside WBUF faults there (R104). -/
theorem winCompare_faults {s : State} {p d : Word} {n : Nat} (hout : ¬ ComparesInside s p d n) : ∀ (left k : Nat),
    k ≤ n → n < k + left → (∀ j, k ≤ j → j < n → ComparesInside s p d j ∧ ComparesEqual s p d j) →
    winCompare p d left (BitVec.ofNat 32 k) s = .error .ended (faultEntry .bounds s)
  | 0, k, hk, hn, _ => absurd hn (by omega)
  | left + 1, k, hk, hn, hequal => by
    by_cases hlt : k < n
    · obtain ⟨hin, heq⟩ := hequal k (Nat.le_refl k) hlt
      rw [winCompare_equal hin heq]
      exact winCompare_faults hout left (k + 1) hlt (by omega) fun j hj => hequal j (by omega)
    · obtain rfl : k = n := by omega
      exact winCompare_outside hout left

/-- Settles O26: the count is `winMatchLen_run`, the fault `winCompare_faults`. -/
theorem matchLength : Obligations.MatchLength := by
  unfold Obligations.MatchLength
  intro s hinv hr n q limit here back inside hn hequal
  obtain ⟨he, _, hphase, _⟩ := id hr
  have hsize := (hinv.windowSizes hphase).buffer
  refine ⟨fun hend => ?_, fun ⟨hlt, hout⟩ => ?_⟩
  · have hruns : RunsFor (clearResults s) s.x.a0 s.x.a1 s.x.a2.toNat n := ⟨hn, hequal, hend⟩
    exact exec_results_of_ok hr rfl (Eng.bind_ok (winMatchLen_run (s := clearResults s) hsize hruns) _)
  · have hfault : winMatchLen s.x.a0 s.x.a1 s.x.a2 (clearResults s) =
        .error .ended (faultEntry .bounds (clearResults s)) := by
      rw [winMatchLen, Eng.bind_look]
      refine winCompare_faults (n := n) (fun hin => hout ?_) _ 0 (Nat.zero_le n) ?_ fun j _ hj => ?_
      · obtain ⟨hhere, hback⟩ := hin
        exact ⟨hsize ▸ hhere, hsize ▸ hback⟩
      · rw [Nat.zero_add, winMatchLimit_toNat]
        exact hlt
      · obtain ⟨⟨hhere, hback⟩, heq⟩ := hequal j hj
        exact ⟨⟨hsize.symm ▸ hhere, hsize.symm ▸ hback⟩, heq⟩
    refine ((hr.runs _).trans (congrArg finish (Eng.bind_error hfault _))).trans ?_
    rw [finish_ended, faultEntry_clearResults he]

end Sys2Proof.Machine
end

section
/-! SUPPORT. What an insertion does not see (R249): with other contents of MATCHES, another count of its words and
another A0 the match finder's insertion does the same, whether it completes, faults or waits. `ignoresAside` makes this a
class of computations; the parts of an insertion lie in it, and those of a search, which write MATCHES, do not. -/

namespace Sys2Proof.Machine

/-- MATCHES, the count of its words, and A0. -/
structure Aside where
  pairs : Ram Word 0#32
  count : Word
  operand : Word

/-- Other contents of MATCHES, another count and another A0. -/
def withAside (e : Aside) (s : State) : State :=
  { s with matchBuf := e.pairs, mf := { s.mf with numPairs := e.count }, x := { s.x with a0 := e.operand } }

/-- A computation that does the same with another `Aside`. -/
def IgnoresAside {α : Type} (f : Eng α) : Prop := ∀ e s, f (withAside e s) = mapEnd (withAside e) (f s)

theorem ignoresAside : Refills (fun _ => ()) withAside IgnoresAside where
  pure := fun _ _ _ => rfl
  raise := fun c _ e s => by
    rw [raise_run, raise_run, mapEnd, faultEntry_eq, faultEntry_eq]
    rfl
  look := fun {_ f} hf e s => congrArg (fun a => EStateM.Result.ok a (withAside e s)) (hf e s)
  update := fun _ hφ e s => congrArg (EStateM.Result.ok ()) (hφ e s)
  bind := fun {_ _ f g} hf hg e s => by
    rw [Eng.bind_run, hf e s, Eng.bind_run]
    cases f s with
    | ok a t => exact hg a e t
    | error x t => rfl
  srcRead := fun e s => by
    unfold srcRead withAside
    dsimp only
    split
    · rfl
    · split
      · rfl
      · split <;> rfl

theorem IgnoresAside.ok {α : Type} {f : Eng α} (h : IgnoresAside f) {s t : State} {a : α} (hf : f s = .ok a t)
    (e : Aside) : f (withAside e s) = .ok a (withAside e t) := by
  rw [h e s, hf]
  rfl

namespace IgnoresAside

/-- A read of the match finder's registers, where what follows does not use the count. -/
theorem look_mf_bind {α : Type} {g : MfRegs → Eng α} (hg : ∀ m, IgnoresAside (g m))
    (hcount : ∀ m n, g { m with numPairs := n } = g m := by intro _ _; rfl) :
    IgnoresAside (look (·.mf) >>= g) := fun e s => by
  rw [Eng.bind_look, Eng.bind_look, ← hg s.mf e s]
  exact congrFun (hcount s.mf e.count) _

/-! ### The window (R203 to R206) -/

theorem winReadLoop : ∀ n : Nat, IgnoresAside (winReadLoop n)
  | 0 => ignoresAside.pure ()
  | n + 1 => ignoresAside.look_bind fun _ => ignoresAside.ite (ignoresAside.pure ()) <|
    ignoresAside.bind ignoresAside.srcRead fun
      | none => ignoresAside.put
      | some _ => ignoresAside.bind ignoresAside.ramWrite fun _ => ignoresAside.bind ignoresAside.put fun _ =>
        winReadLoop n

theorem winReadBlock : IgnoresAside winReadBlock :=
  ignoresAside.look_bind fun _ => ignoresAside.ite (ignoresAside.pure ()) <|
    ignoresAside.look_bind fun _ => winReadLoop _

theorem winMoveBytes (offset : Word) : ∀ (n : Nat) (i : Word), IgnoresAside (winMoveBytes offset n i)
  | 0, _ => ignoresAside.pure ()
  | n + 1, _ => ignoresAside.bind (ignoresAside.ramRead _) fun _ => ignoresAside.bind ignoresAside.ramWrite fun _ =>
    winMoveBytes offset n _

theorem winMoveBlock : IgnoresAside winMoveBlock :=
  ignoresAside.look_bind fun _ => ignoresAside.bind (winMoveBytes _ _ _) fun _ => ignoresAside.put

theorem mfNormalize : IgnoresAside mfNormalize :=
  ignoresAside.look_bind fun _ => ignoresAside.bind ignoresAside.put fun _ => ignoresAside.put

theorem mfMovePos : IgnoresAside mfMovePos :=
  have winMovePos : IgnoresAside winMovePos := ignoresAside.bind ignoresAside.put fun _ =>
    ignoresAside.look_bind fun _ => ignoresAside.ite (ignoresAside.when winMoveBlock fun _ => winReadBlock)
      (ignoresAside.pure ())
  ignoresAside.bind ignoresAside.put fun _ => ignoresAside.bind winMovePos fun _ =>
    ignoresAside.look_bind fun _ => ignoresAside.ite mfNormalize (ignoresAside.pure ())

/-! ### The insertion (R249) -/

theorem mfHashAt (c : Word) : IgnoresAside (mfHashAt c) :=
  look_mf_bind fun _ => ignoresAside.bind (ignoresAside.ramRead _) fun _ =>
    ignoresAside.bind (ignoresAside.ramRead _) fun _ => ignoresAside.ite
      (ignoresAside.bind (ignoresAside.ramRead _) fun _ => ignoresAside.bind (ignoresAside.ramRead _) fun _ =>
        ignoresAside.pure _)
      (ignoresAside.pure _)

theorem hashWrite (i v : Word) : IgnoresAside (hashWrite i v) := ignoresAside.ramWrite

theorem mfCloseWalk (p : WalkPos) : IgnoresAside (mfCloseWalk p) :=
  ignoresAside.bind ignoresAside.ramWrite fun _ => ignoresAside.ramWrite

theorem mfGraft (p : WalkPos) (cp : Word) : IgnoresAside (mfGraft p cp) :=
  ignoresAside.bind (ignoresAside.ramRead _) fun _ => ignoresAside.bind ignoresAside.ramWrite fun _ =>
    ignoresAside.bind (ignoresAside.ramRead _) fun _ => ignoresAside.ramWrite

theorem mfDescend (w : Walk) (p : WalkPos) (cp pby len : Word) : IgnoresAside (mfDescend w p cp pby len) :=
  have take (ptr next : Word) (f : Word → WalkPos) : IgnoresAside (sonWrite ptr p.curMatch >>= fun _ =>
      sonRead next >>= fun v => pure (f v)) :=
    ignoresAside.bind ignoresAside.ramWrite fun _ => ignoresAside.bind (ignoresAside.ramRead _) fun _ =>
      ignoresAside.pure _
  ignoresAside.bind (ignoresAside.ramRead _) fun _ => ignoresAside.bind (ignoresAside.ramRead _) fun _ =>
    ignoresAside.ite (take _ _ _) (take _ _ _)

theorem mfExtend (pby c : Word) : ∀ (n : Nat) (len : Word), IgnoresAside (mfExtend pby c n len)
  | 0, len => ignoresAside.pure len
  | n + 1, _ => ignoresAside.bind (ignoresAside.ramRead _) fun _ => ignoresAside.bind (ignoresAside.ramRead _) fun _ =>
    ignoresAside.ite (mfExtend pby c n _) (ignoresAside.pure _)

theorem mfCandidateLen (w : Walk) (p : WalkPos) (pby : Word) : IgnoresAside (mfCandidateLen w p pby) :=
  ignoresAside.bind (ignoresAside.ramRead _) fun _ => ignoresAside.bind (ignoresAside.ramRead _) fun _ =>
    ignoresAside.ite (ignoresAside.bind (mfExtend _ _ _ _) fun _ => ignoresAside.pure _) (ignoresAside.pure _)

theorem mfWalkSkip (w : Walk) : ∀ (n : Nat) (p : WalkPos), IgnoresAside (mfWalkSkip w n p)
  | 0, _ => mfCloseWalk _
  | n + 1, _ => ignoresAside.ite (mfCloseWalk _) <| ignoresAside.look_bind fun _ => ignoresAside.look_bind fun _ =>
    ignoresAside.look_bind fun _ => ignoresAside.bind (mfCandidateLen _ _ _) fun _ =>
      ignoresAside.ite (mfGraft _ _) (ignoresAside.bind (mfDescend _ _ _ _ _) fun _ => mfWalkSkip w n _)

theorem mfInsert (lenLimit : Word) : IgnoresAside (mfInsert lenLimit) :=
  look_mf_bind fun _ => ignoresAside.look_bind fun _ => ignoresAside.bind (mfHashAt _) fun _ =>
    ignoresAside.when_bind (hashWrite _ _) (fun _ => hashWrite _ _) fun _ =>
      ignoresAside.bind (ignoresAside.ramRead _) fun _ => ignoresAside.bind (hashWrite _ _) fun _ => mfWalkSkip _ _ _

theorem mfSkipOne : IgnoresAside mfSkipOne :=
  ignoresAside.look_bind fun
    | none => mfMovePos
    | some _ => ignoresAside.bind (mfInsert _) fun _ => mfMovePos

theorem mfSkip : ∀ n : Nat, IgnoresAside (mfSkip n)
  | 0 => ignoresAside.pure ()
  | n + 1 => ignoresAside.bind mfSkipOne fun _ => mfSkip n

end IgnoresAside

end Sys2Proof.Machine
end

section
/-! SUPPORT. MF_SKIP of a count (R261): it is so many steps, and a skip of `k + 1` is a skip of 1 followed by a skip
of `k`. -/

namespace Sys2Proof.Machine

/-- Another A0. -/
def withOperand (a : Word) (s : State) : State := { s with x := { s.x with a0 := a } }

theorem withAside_of_own {s t : State} (hpairs : t.matchBuf = s.matchBuf) (hcount : t.mf.numPairs = s.mf.numPairs)
    (a : Word) : withAside ⟨s.matchBuf, s.mf.numPairs, a⟩ t = withOperand a t := by
  rw [← hpairs, ← hcount]
  rfl

theorem clearResults_of_noResults {s : State} (h : NoResults s) : clearResults s = s := by
  obtain ⟨h0, h1⟩ := h
  have hown : results s.x.r0 s.x.r1 s = s := rfl
  rwa [h0, h1] at hown

/-- MF_GETMATCHES and MF_SKIP run their rule where they complete without an error (R149). -/
theorem runnable_of_completed {i : Instr} {s t : State} (hi : i = .mfGetMatches ∨ i = .mfSkip)
    (h : exec i s = .next t) (ht : t.status.err = .none) : Runnable i s := by
  obtain ⟨hgate, hwf, hops, hgated⟩ : gateOf i = .enc ∧ i.wellFormed = true ∧ operandsLegal i s ∧
      runsUnderError i = false := by
    rcases hi with rfl | rfl <;> exact ⟨rfl, rfl, trivial, rfl⟩
  have he : s.status.err = .none := by
    by_contra hne
    cases (exec_ignored hne hgated).symm.trans h
    exact hne ht
  have haccepts : (gateOf i).accepts s := by
    by_contra hne
    have hfault := (checksInOrder i s he hwf).2.1 hne (by rw [hgate]; exact id)
    cases hfault.symm.trans h
    exact nomatch ht
  exact ⟨he, hwf, haccepts, hops⟩

/-- MF_SKIP of a count is so many steps (R249, R261). -/
theorem exec_mfSkip {s : State} (hr : Runnable .mfSkip s) (a : Word) :
    exec .mfSkip (withOperand a s) = finish (mfSkip a.toNat (withOperand a (clearResults s))) :=
  Runnable.runs (s := withOperand a s) hr _

/-- A completed MF_SKIP of 1 has done one step. -/
theorem mfSkipOne_of_exec {s t : State} (h : exec .mfSkip (withOperand 1#32 s) = .next t) (ht : t.status.err = .none) :
    Runnable .mfSkip s ∧ mfSkipOne (withOperand 1#32 (clearResults s)) = .ok () t := by
  have hr : Runnable .mfSkip s := runnable_of_completed (s := withOperand 1#32 s) (.inr rfl) h ht
  refine ⟨hr, ?_⟩
  have hcode := (faultsWithCode_refills (π := sinkSide)).parser.search.finder.mfSkip
  have hrun : mfSkip 1 (withOperand 1#32 (clearResults s)) = .ok () t := by
    rcases finish_eq_next.1 ((exec_mfSkip hr 1#32).symm.trans h) with h | h
    · exact h
    · exact absurd ht (hcode _ _ _ h)
  obtain ⟨_, u, hone, hdone⟩ := Eng.bind_eq_ok.1 hrun
  cases hdone
  exact hone

theorem finish_mapEnd {ψ : State → State} {r : EStateM.Result Stop State Unit} {u : State} (h : finish r = .next u) :
    finish (mapEnd ψ r) = .next (ψ u) := by
  rcases finish_eq_next.1 h with rfl | rfl <;> rfl

/-- A skip of 1, then of `k`, is a skip of `k + 1`: the rest of it starts where the first step ends, A0 apart
(`IgnoresAside.mfSkip`). -/
theorem exec_mfSkip_succ {s t u : State} {k : Nat} (hk : k + 1 < 2 ^ 32)
    (h1 : exec .mfSkip (withOperand 1#32 s) = .next t) (ht : t.status.err = .none)
    (h2 : exec .mfSkip (withOperand (BitVec.ofNat 32 k) t) = .next u) :
    exec .mfSkip (withOperand (BitVec.ofNat 32 (k + 1)) s) = .next (withOperand (BitVec.ofNat 32 (k + 1)) u) := by
  have hcount (n : Nat) (hn : n < 2 ^ 32) : (BitVec.ofNat 32 n).toNat = n := by
    rw [BitVec.toNat_ofNat, Nat.mod_eq_of_lt hn]
  obtain ⟨hr, hone⟩ := mfSkipOne_of_exec h1 ht
  obtain ⟨he, _, hphase, _⟩ := id hr
  obtain ⟨hpairs, hnum, hresults⟩ := finderRest_of_exec (.inr rfl) h1
  obtain ⟨hpairs', hnum', _⟩ := finderRest_of_exec (.inr rfl) h2
  have hrt : Runnable .mfSkip t := by
    have hkept := congrArg (fun v : State => v.status.phase) (searchRest_of_exec (.inr (.inl rfl)) h1)
    exact ⟨ht, rfl, hkept.trans hphase, trivial⟩
  rw [exec_mfSkip hrt, clearResults_of_noResults hresults, hcount k (by omega)] at h2
  rw [exec_mfSkip hr, hcount (k + 1) hk]
  have hfirst := IgnoresAside.mfSkipOne.ok hone ⟨s.matchBuf, s.mf.numPairs, BitVec.ofNat 32 (k + 1)⟩
  have hrest := finish_mapEnd (ψ := withAside ⟨s.matchBuf, s.mf.numPairs, BitVec.ofNat 32 (k + 1)⟩) h2
  rw [← IgnoresAside.mfSkip k] at hrest
  exact (congrArg finish (Eng.bind_ok hfirst _)).trans <| hrest.trans <|
    congrArg Host.Outcome.next (withAside_of_own (hpairs'.trans hpairs) (hnum'.trans hnum) _)

end Sys2Proof.Machine
end

section
/-! SUPPORT. A search and an insertion compared (R245, R249): where a search completes, the insertion of the same
position completes and ends in the same state, MATCHES apart. -/

namespace Sys2Proof.Machine

/-! ### The walk -/

/-- A walk's place without what a search records there. -/
def unrecorded (p : WalkPos) : WalkPos := { p with maxLen := 0#32, off := 0#32 }

/-- The lengths a walk knows and has recorded are below the length limit, so that the first candidate that reaches the
limit is recorded. -/
structure BelowLimit (w : Walk) (p : WalkPos) : Prop where
  recorded : p.maxLen.toNat < w.lenLimit.toNat
  len0 : p.len0.toNat < w.lenLimit.toNat
  len1 : p.len1.toNat < w.lenLimit.toNat

theorem mfExtend_le {pby c : Word} : ∀ {n : Nat} {len l : Word} {s t : State}, mfExtend pby c n len s = .ok l t →
    len.toNat + n < 2 ^ 32 → l.toNat ≤ len.toNat + n
  | 0, len, l, s, t, h, _ => by
    cases h
    exact Nat.le_refl _
  | n + 1, len, l, s, t, h, hroom => by
    obtain ⟨a, _, _, h⟩ := Eng.bind_eq_ok.1 h
    obtain ⟨b, _, _, h⟩ := Eng.bind_eq_ok.1 h
    split at h
    · have hnext : (len + 1#32).toNat = len.toNat + 1 := by bv_omega
      have hle := mfExtend_le h (by omega)
      omega
    · cases h
      omega

/-- The length of a candidate's match is at most the limit, and below it where its first byte compared differs. -/
theorem mfCandidateLen_le {w : Walk} {p : WalkPos} {pby : Word} {r : Bool × Word} {s t : State}
    (h : mfCandidateLen w p pby s = .ok r t) (hp : BelowLimit w p) :
    r.2.toNat ≤ w.lenLimit.toNat ∧ (r.1 = false → r.2.toNat < w.lenLimit.toNat) := by
  have hmin := minW_toNat p.len0 p.len1
  have h0 := hp.len0
  obtain ⟨a, _, _, h⟩ := Eng.bind_eq_ok.1 h
  obtain ⟨b, _, _, h⟩ := Eng.bind_eq_ok.1 h
  have hlt : (minW p.len0 p.len1).toNat < w.lenLimit.toNat := by omega
  have hlimit := w.lenLimit.isLt
  split at h
  · obtain ⟨l, _, hl, h⟩ := Eng.bind_eq_ok.1 h
    cases h
    have hnext : (minW p.len0 p.len1 + 1#32).toNat + (w.lenLimit - (minW p.len0 p.len1 + 1#32)).toNat =
        w.lenLimit.toNat := by bv_omega
    have hle := mfExtend_le hl (by omega)
    exact ⟨by dsimp only; omega, Bool.noConfusion⟩
  · cases h
    exact ⟨Nat.le_of_lt hlt, fun _ => hlt⟩

/-- Descending keeps the lengths below the limit, and does not see what is recorded. -/
theorem mfDescend_unrecorded {w : Walk} {p q : WalkPos} {cp pby len : Word} {s t : State}
    (h : mfDescend w p cp pby len s = .ok q t) (hp : BelowLimit w p) (hlen : len.toNat < w.lenLimit.toNat) :
    BelowLimit w q ∧ mfDescend w (unrecorded p) cp pby len s = .ok (unrecorded q) t := by
  obtain ⟨a, s1, ha, h⟩ := Eng.bind_eq_ok.1 h
  obtain ⟨b, s2, hb, h⟩ := Eng.bind_eq_ok.1 h
  rw [mfDescend, Eng.bind_ok ha, Eng.bind_ok hb]
  split at h
  · next hsmaller =>
    obtain ⟨_, s3, hwrite, h⟩ := Eng.bind_eq_ok.1 h
    obtain ⟨next, s4, hread, h⟩ := Eng.bind_eq_ok.1 h
    cases h
    rw [if_pos hsmaller]
    exact ⟨⟨hp.recorded, hp.len0, hlen⟩, (Eng.bind_ok hwrite _).trans (Eng.bind_ok hread _)⟩
  · next hlarger =>
    obtain ⟨_, s3, hwrite, h⟩ := Eng.bind_eq_ok.1 h
    obtain ⟨next, s4, hread, h⟩ := Eng.bind_eq_ok.1 h
    cases h
    rw [if_neg hlarger]
    exact ⟨⟨hp.recorded, hlen, hp.len1⟩, (Eng.bind_ok hwrite _).trans (Eng.bind_ok hread _)⟩

/-- A pair recorded changes MATCHES alone. -/
theorem mfPutPair_aside {off len dist : Word} {s t : State} (h : mfPutPair off len dist s = .ok () t) (e : Aside) :
    withAside e t = withAside e s := by
  obtain ⟨_, u, hfirst, hsecond⟩ := Eng.bind_eq_ok.1 h
  unfold matchWrite at hfirst hsecond
  rw [ramWrite_run] at hfirst hsecond
  split at hfirst
  · cases hfirst
    split at hsecond
    · cases hsecond
      rfl
    · exact nomatch hsecond
  · exact nomatch hfirst

theorem mfWalkSkip_follow {w : Walk} {k : Nat} {p : WalkPos} {u : State} (h : ¬ p.curMatch.toNat ≤ w.minPos.toNat) :
    mfWalkSkip w (k + 1) p u = (mfCandidateLen w p (u.win.bufOffset + p.curMatch) >>= fun r =>
      if r.1 = true ∧ r.2 = w.lenLimit then mfGraft p (mfNodeIndex u.mf (u.win.pos - p.curMatch))
      else mfDescend w p (mfNodeIndex u.mf (u.win.pos - p.curMatch)) (u.win.bufOffset + p.curMatch) r.2 >>=
        mfWalkSkip w k) u := by
  rw [mfWalkSkip, if_neg h]
  rfl

/-- Where the walk of a search completes, the walk of an insertion builds the same tree. -/
theorem mfWalkSkip_of_collect {w : Walk} (e : Aside) : ∀ {n : Nat} {p : WalkPos} {s t : State} {off : Word},
    BelowLimit w p → mfWalkCollect w n p s = .ok off t →
    mfWalkSkip w n (unrecorded p) (withAside e s) = .ok () (withAside e t)
  | 0, p, s, t, off, _, h => by
    obtain ⟨_, u, hclose, h⟩ := Eng.bind_eq_ok.1 h
    cases h
    exact (IgnoresAside.mfCloseWalk p).ok hclose e
  | n + 1, p, s, t, off, hp, h => by
    by_cases hold : p.curMatch.toNat ≤ w.minPos.toNat
    · rw [mfWalkCollect, if_pos hold] at h
      obtain ⟨_, u, hclose, h⟩ := Eng.bind_eq_ok.1 h
      cases h
      rw [mfWalkSkip, if_pos (show (unrecorded p).curMatch.toNat ≤ _ from hold)]
      exact (IgnoresAside.mfCloseWalk p).ok hclose e
    rw [mfWalkCollect_follow hold] at h
    obtain ⟨r, u, hlen, h⟩ := Eng.bind_eq_ok.1 h
    obtain ⟨hle, hdiffers⟩ := mfCandidateLen_le hlen hp
    -- a candidate below the limit takes a slot in both walks
    have descend {q : WalkPos} {v : State} (hq : BelowLimit w q) (hsame : unrecorded q = unrecorded p)
        (hv : withAside e v = withAside e u) (hlt : r.2.toNat < w.lenLimit.toNat)
        (h : (mfDescend w q (mfNodeIndex s.mf (s.win.pos - p.curMatch)) (s.win.bufOffset + p.curMatch) r.2 >>=
          mfWalkCollect w n) v = .ok off t) :
        (mfDescend w (unrecorded p) (mfNodeIndex s.mf (s.win.pos - p.curMatch)) (s.win.bufOffset + p.curMatch) r.2 >>=
          mfWalkSkip w n) (withAside e u) = .ok () (withAside e t) := by
      obtain ⟨q', x, hdescend, hrest⟩ := Eng.bind_eq_ok.1 h
      obtain ⟨hq', hdescend⟩ := mfDescend_unrecorded hdescend hq hlt
      rw [← hsame, ← hv, Eng.bind_ok ((IgnoresAside.mfDescend _ _ _ _ _).ok hdescend e)]
      exact mfWalkSkip_of_collect e hq' hrest
    rw [mfWalkSkip_follow (show ¬ (unrecorded p).curMatch.toNat ≤ _ from hold)]
    refine (Eng.bind_ok ((IgnoresAside.mfCandidateLen w p _).ok hlen e) _).trans ?_
    rw [mfFollow] at h
    split at h
    · next hput =>
      obtain ⟨_, v, hpair, h⟩ := Eng.bind_eq_ok.1 h
      have hv := mfPutPair_aside hpair e
      split at h
      · next hfull =>
        obtain ⟨_, x, hgraft, h⟩ := Eng.bind_eq_ok.1 h
        cases h
        rw [if_pos ⟨hput.1, hfull⟩, ← hv]
        exact (IgnoresAside.mfGraft p _).ok hgraft e
      · next hshort =>
        have hlt : r.2.toNat < w.lenLimit.toNat := Nat.lt_of_le_of_ne hle (mt BitVec.eq_of_toNat_eq hshort)
        rw [if_neg fun hfull => hshort hfull.2]
        exact descend (q := { p with maxLen := r.2, off := p.off + 2#32 }) ⟨hlt, hp.len0, hp.len1⟩ rfl hv hlt h
    · next hnone =>
      have hlt : r.2.toNat < w.lenLimit.toNat := by
        cases hr : r.1 with
        | false => exact hdiffers hr
        | true => exact Nat.lt_of_le_of_lt (Nat.le_of_not_lt fun hmax => hnone ⟨hr, hmax⟩) hp.recorded
      rw [if_neg fun hfull => Nat.ne_of_lt hlt (congrArg BitVec.toNat hfull.2)]
      exact descend hp rfl rfl hlt h

end Sys2Proof.Machine
end

section
/-! SUPPORT. A search and an insertion compared around the walk (R243 to R245, R249): the hashes, the short hashes'
buckets, whose pairs are at most three bytes long, and the main bucket. -/

namespace Sys2Proof.Machine

/-! ### What a completed RAM access has done -/

theorem ramRead_eq_ok {α : Type} {fill : α} {ram : State → Ram α fill} {i : Word} {s t : State} {a : α}
    (h : ramRead ram i s = .ok a t) : a = (ram s).get i.toNat ∧ s = t := by
  rw [ramRead_run] at h
  split at h
  · cases h
    exact ⟨rfl, rfl⟩
  · exact nomatch h

theorem hashWrite_eq_ok {i v : Word} {s t : State} (h : hashWrite i v s = .ok () t) :
    i.toNat < s.hash.size ∧ t = { s with hash := s.hash.set i.toNat v } := by
  unfold hashWrite at h
  rw [ramWrite_run] at h
  split at h
  · next hlt =>
    cases h
    exact ⟨hlt, rfl⟩
  · exact nomatch h

/-- Hashes read of the current position are its hashes (R243, R244). -/
theorem mfHashAt_eq_ok {s t : State} {h : Hashes} (hrun : mfHashAt (s.win.bufOffset + s.win.pos) s = .ok h t) :
    HashesOf s h ∧ s = t := by
  rw [mfHashAt, Eng.bind_look] at hrun
  obtain ⟨b0, _, h0, hrun⟩ := Eng.bind_eq_ok.1 hrun
  obtain ⟨rfl, rfl⟩ := ramRead_eq_ok h0
  obtain ⟨b1, _, h1, hrun⟩ := Eng.bind_eq_ok.1 hrun
  obtain ⟨rfl, rfl⟩ := ramRead_eq_ok h1
  have hfirst : s.wbuf.get (s.win.bufOffset + s.win.pos).toNat = windowByte s 0#32 := by
    rw [windowByte, windowIndex, BitVec.add_zero]
  rw [hfirst] at hrun
  cases hm : s.mf.hashArray with
  | true =>
    rw [hm, if_pos rfl] at hrun
    obtain ⟨b2, _, h2, hrun⟩ := Eng.bind_eq_ok.1 hrun
    obtain ⟨rfl, rfl⟩ := ramRead_eq_ok h2
    obtain ⟨b3, _, h3, hrun⟩ := Eng.bind_eq_ok.1 hrun
    obtain ⟨rfl, rfl⟩ := ramRead_eq_ok h3
    cases hrun
    exact ⟨hash4_of s hm, rfl⟩
  | false =>
    rw [hm, if_neg Bool.noConfusion] at hrun
    cases hrun
    exact ⟨hash2_of s hm, rfl⟩

/-! ### The bucket heads -/

/-- A computation that, where it completes, changes MATCHES alone, with a result of which `P` holds. -/
def AddsPairs {α : Type} (P : α → Prop) (f : Eng α) : Prop :=
  ∀ s a t, f s = .ok a t → (∀ e, withAside e t = withAside e s) ∧ P a

namespace AddsPairs
variable {α β : Type} {P : α → Prop} {Q : β → Prop}

theorem pure {a : α} (ha : P a) : AddsPairs P (pure a) := fun _ _ _ h => by
  cases h
  exact ⟨fun _ => rfl, ha⟩

theorem bind {f : Eng β} {g : β → Eng α} (hf : AddsPairs Q f) (hg : ∀ b, Q b → AddsPairs P (g b)) :
    AddsPairs P (f >>= g) := fun s a t h => by
  obtain ⟨b, u, hb, h⟩ := Eng.bind_eq_ok.1 h
  obtain ⟨hsame, hb⟩ := hf s b u hb
  obtain ⟨hsame', ha⟩ := hg b hb u a t h
  exact ⟨fun e => (hsame' e).trans (hsame e), ha⟩

theorem look_bind {f : State → β} {g : β → Eng α} (hg : ∀ b, AddsPairs P (g b)) :
    AddsPairs P (Machine.look f >>= g) := fun s => hg (f s) s

theorem read_bind {γ : Type} {fill : γ} {ram : State → Ram γ fill} {i : Word} {g : γ → Eng α}
    (hg : ∀ c, AddsPairs P (g c)) : AddsPairs P (ramRead ram i >>= g) :=
  bind (Q := fun _ => True) (fun _ _ _ h => ⟨fun _ => by rw [(ramRead_eq_ok h).2], trivial⟩) fun c _ => hg c

theorem ite {c : Prop} [Decidable c] {f g : Eng α} (hf : AddsPairs P f) (hg : AddsPairs P g) :
    AddsPairs P (if c then f else g) := by
  split
  · exact hf
  · exact hg

theorem put_bind {off len dist : Word} {g : Unit → Eng α} (hg : AddsPairs P (g ())) :
    AddsPairs P (mfPutPair off len dist >>= g) :=
  bind (Q := fun _ => True) (fun _ _ _ h => ⟨mfPutPair_aside h, trivial⟩) fun _ _ => hg

theorem mfHeadMatches (w : Walk) (head : Word) : AddsPairs (fun _ => True) (mfHeadMatches w head) :=
  ite (pure trivial) (look_bind fun _ => read_bind fun _ => read_bind fun _ => pure trivial)

theorem mfHead2 (w : Walk) (head : Word) : AddsPairs (fun r => r.2.toNat ≤ 3) (mfHead2 w head) :=
  bind (mfHeadMatches w head) fun _ _ => ite (look_bind fun _ => put_bind (pure (by decide))) (pure (by decide))

theorem mfHead3 (w : Walk) (off : Word) {maxLen : Word} (hmax : maxLen.toNat ≤ 3) (head2 head3 : Word) :
    AddsPairs (fun r => r.2.1.toNat ≤ 3) (mfHead3 w off maxLen head2 head3) :=
  bind (mfHeadMatches w head3) fun _ _ => ite (look_bind fun _ => put_bind (pure (Nat.le_refl 3))) (pure hmax)

theorem mfDirectHead (w : Walk) (curMatch off : Word) {maxLen : Word} {n : Nat} (hmax : maxLen.toNat < n) (hn : 2 < n) :
    AddsPairs (fun r => r.2.toNat < n) (mfDirectHead w curMatch off maxLen) :=
  look_bind fun _ => ite
    (look_bind fun _ => read_bind fun _ => read_bind fun _ => ite (look_bind fun _ => put_bind (pure hn)) (pure hmax))
    (pure hmax)

end AddsPairs

/-- The short hashes' heads write the current position into their buckets, and pairs of at most three bytes. -/
theorem mfShortHeads_eq_ok {w : Walk} {h : Hashes} {curMatch : Word} {r : Word × Word} {s t : State}
    (hrun : mfShortHeads w h curMatch s = .ok r t) : r.2.toNat ≤ 3 ∧ ∃ u v, hashWrite h.h2 s.win.pos s = .ok () u ∧
      hashWrite (1024#32 + h.h3) s.win.pos u = .ok () v ∧ ∀ e, withAside e t = withAside e v := by
  unfold mfShortHeads at hrun
  rw [Eng.bind_look] at hrun
  obtain ⟨head2, _, h2, hrun⟩ := Eng.bind_eq_ok.1 hrun
  obtain ⟨_, rfl⟩ := ramRead_eq_ok h2
  obtain ⟨head3, _, h3, hrun⟩ := Eng.bind_eq_ok.1 hrun
  obtain ⟨_, rfl⟩ := ramRead_eq_ok h3
  obtain ⟨_, u, hu, hrun⟩ := Eng.bind_eq_ok.1 hrun
  obtain ⟨_, v, hv, hrun⟩ := Eng.bind_eq_ok.1 hrun
  have hpairs : AddsPairs (fun r => r.2.toNat ≤ 3) (mfHead2 w head2 >>= fun r2 =>
      mfHead3 w r2.1 r2.2 head2 head3 >>= fun r3 =>
        if r3.1 ≠ 0#32 ∧ r3.2.2 = curMatch then pure (r3.1 - 2#32, 1#32) else pure (r3.1, r3.2.1)) :=
    .bind (.mfHead2 w head2) fun r2 hr2 => .bind (.mfHead3 w _ hr2 _ _) fun r3 hr3 =>
      .ite (.pure (Nat.le_succ_of_le (Nat.le_succ 1))) (.pure hr3)
  obtain ⟨hsame, hr⟩ := hpairs v r t hrun
  exact ⟨hr, u, v, hu, hv, hsame⟩

/-! ### The main bucket and the walk -/

/-- The part of a search after the short hashes' heads (R245). -/
def mfSearchMain (w : Walk) (m : MfRegs) (main pos curMatch : Word) (r : Word × Word) : Eng Word := do
  hashWrite main pos
  let r' ← mfDirectHead w curMatch r.1 r.2
  mfWalkCollect w m.cutValue.toNat (mfWalkStart m curMatch r'.2 r'.1)

/-- The part of an insertion after the short hashes' buckets (R249). -/
def mfInsertMain (w : Walk) (m : MfRegs) (main pos : Word) : Eng Unit := do
  let curMatch ← hashRead main
  hashWrite main pos
  mfWalkSkip w m.cutValue.toNat (mfWalkStart m curMatch 0#32 0#32)

theorem mfSearch_eq (limit : Word) (s : State) : mfSearch limit s =
    (mfHashAt (s.win.bufOffset + s.win.pos) >>= fun h => hashRead (s.mf.fixHashSize + h.hv) >>= fun curMatch =>
      if s.mf.hashArray then mfShortHeads (walkOf s limit) h curMatch >>=
        mfSearchMain (walkOf s limit) s.mf (s.mf.fixHashSize + h.hv) s.win.pos curMatch
      else mfSearchMain (walkOf s limit) s.mf (s.mf.fixHashSize + h.hv) s.win.pos curMatch (0#32, 1#32)) s := rfl

theorem mfInsert_eq (limit : Word) (s : State) : mfInsert limit s =
    (mfHashAt (s.win.bufOffset + s.win.pos) >>= fun h =>
      if s.mf.hashArray then hashWrite h.h2 s.win.pos >>= fun _ => hashWrite (1024#32 + h.h3) s.win.pos >>= fun _ =>
        mfInsertMain (walkOf s limit) s.mf (s.mf.fixHashSize + h.hv) s.win.pos
      else mfInsertMain (walkOf s limit) s.mf (s.mf.fixHashSize + h.hv) s.win.pos) s := rfl

/-- From the main bucket on, where a search completes the insertion does and builds the same tree. -/
theorem mfInsertMain_of_search {w : Walk} {m : MfRegs} {main pos curMatch off : Word} {r : Word × Word} {s u t : State}
    (h : mfSearchMain w m main pos curMatch r s = .ok off t) (e : Aside) (hsame : withAside e s = withAside e u)
    (hread : u.hash.get main.toNat = curMatch) (hr : r.2.toNat < w.lenLimit.toNat) (htwo : 2 < w.lenLimit.toNat)
    (hdirect : m.numHashDirectBytes.toNat < w.lenLimit.toNat) :
    mfInsertMain w m main pos (withAside e u) = .ok () (withAside e t) := by
  obtain ⟨_, s1, hwrite, h⟩ := Eng.bind_eq_ok.1 h
  obtain ⟨r', s2, hhead, hwalk⟩ := Eng.bind_eq_ok.1 h
  obtain ⟨hpairs, hr'⟩ := AddsPairs.mfDirectHead w curMatch r.1 hr htwo s1 r' s2 hhead
  have hwrite' := (IgnoresAside.hashWrite main pos).ok hwrite e
  have hhash : s.hash = u.hash := by
    have hhash := congrArg State.hash hsame
    exact hhash
  have hread' : hashRead main (withAside e u) = .ok curMatch (withAside e u) := by
    rw [← hread]
    exact ramRead_ok (ram := (·.hash)) (hhash ▸ (hashWrite_eq_ok hwrite).1)
  rw [hsame] at hwrite'
  refine (Eng.bind_ok hread' _).trans ((Eng.bind_ok hwrite' _).trans ?_)
  rw [← hpairs e]
  exact mfWalkSkip_of_collect e ⟨hr', hdirect, hdirect⟩ hwalk

/-- The lengths a walk starts with are below a length limit (R240, R245). -/
theorem FinderSizes.start_lt {s : State} (hfs : FinderSizes s) {limit : Word}
    (hleast : s.mf.minMatchCheck.toNat ≤ limit.toNat) : 2 < limit.toNat ∧
      s.mf.numHashDirectBytes.toNat < limit.toNat ∧ (s.mf.hashArray = true → 3 < limit.toNat) := by
  cases hm : s.mf.hashArray with
  | true =>
    obtain ⟨_, hdirect, hcheck, _⟩ := hfs.four hm
    rw [hcheck] at hleast
    rw [hdirect]
    have hfour : 4 ≤ limit.toNat := hleast
    exact ⟨by omega, by show 0 < _; omega, fun _ => hfour⟩
  | false =>
    obtain ⟨_, hdirect, hcheck, _⟩ := hfs.two hm
    rw [hcheck] at hleast
    rw [hdirect]
    exact ⟨hleast, hleast, Bool.noConfusion⟩

/-- The short hashes' buckets are none of the main ones (R240). -/
theorem mainBucket_after_short {s : State} (hfs : FinderSizes s) (hm : s.mf.hashArray = true) (v : Word) :
    ((s.hash.set (hashTwo s) v).set (1024 + hashThree s) v).get (mainBucket s) = s.hash.get (mainBucket s) := by
  obtain ⟨hfix, _, _, hsum⟩ := hfs.four hm
  have hfix : s.mf.fixHashSize.toNat = 66560 := congrArg BitVec.toNat hfix
  have hmain : s.mf.fixHashSize.toNat ≤ mainBucket s := Nat.le_add_right _ _
  have hsize := hfs.hash
  have h2 := hashTwo_lt s
  have h3 := hashThree_lt s
  have hwf2 := Ram.wf_set hfs.hashWf (i := hashTwo s) (by omega) v
  rw [Ram.get_set_other hwf2 (by omega), Ram.get_set_other hfs.hashWf (by omega)]

/-- Where a search completes, the insertion of the same position does and builds the same tree (R245, R249). -/
theorem mfInsert_of_search {s t : State} {limit off : Word} (hfs : FinderSizes s)
    (hleast : s.mf.minMatchCheck.toNat ≤ limit.toNat) (h : mfSearch limit s = .ok off t) (e : Aside) :
    mfInsert limit (withAside e s) = .ok () (withAside e t) := by
  obtain ⟨htwo, hdirect, hthree⟩ := hfs.start_lt hleast
  rw [mfSearch_eq] at h
  obtain ⟨hs, _, hhash, h⟩ := Eng.bind_eq_ok.1 h
  obtain ⟨hof, rfl⟩ := mfHashAt_eq_ok hhash
  obtain ⟨curMatch, _, hread, h⟩ := Eng.bind_eq_ok.1 h
  obtain ⟨hcur, rfl⟩ := ramRead_eq_ok hread
  rw [mfInsert_eq]
  have hkind : (withAside e s).mf.hashArray = s.mf.hashArray := rfl
  refine (Eng.bind_ok ((IgnoresAside.mfHashAt _).ok hhash e) _).trans ?_
  rw [hkind]
  cases hm : s.mf.hashArray with
  | true =>
    rw [hm, if_pos rfl] at h
    rw [if_pos rfl]
    obtain ⟨r, s1, hheads, h⟩ := Eng.bind_eq_ok.1 h
    obtain ⟨hr, u, v, hwrite2, hwrite3, hsame⟩ := mfShortHeads_eq_ok hheads
    refine (Eng.bind_ok ((IgnoresAside.hashWrite _ _).ok hwrite2 e) _).trans <|
      (Eng.bind_ok ((IgnoresAside.hashWrite _ _).ok hwrite3 e) _).trans <|
      mfInsertMain_of_search h e (hsame e) ?_ (Nat.lt_of_le_of_lt hr (hthree hm)) htwo hdirect
    obtain ⟨_, rfl⟩ := hashWrite_eq_ok hwrite2
    obtain ⟨_, rfl⟩ := hashWrite_eq_ok hwrite3
    have hindex : (1024#32 + hs.h3).toNat = 1024 + hashThree s := by
      have hlt := hashThree_lt s
      have h3 := hof.three hm
      bv_omega
    rw [hcur, mainIndex_toNat hfs hof.main]
    show ((s.hash.set hs.h2.toNat s.win.pos).set (1024#32 + hs.h3).toNat s.win.pos).get (mainBucket s) = _
    rw [hindex, hof.two hm]
    exact mainBucket_after_short hfs hm s.win.pos
  | false =>
    rw [hm, if_neg Bool.noConfusion] at h
    rw [if_neg Bool.noConfusion]
    exact mfInsertMain_of_search h e rfl hcur.symm (Nat.lt_trans Nat.one_lt_two htwo) htwo hdirect

end Sys2Proof.Machine
end

section
/-! SUPPORT. MF_SKIP against MF_GETMATCHES (O30): where a search completes, a skip of its position builds the same
tree. -/

namespace Sys2Proof.Machine

/-! ### The step of MF_SKIP (R249) -/

/-- A search has at least the bytes its hashes read (R245, R252). -/
theorem mfLenLimit_least {s : State} (hfs : FinderSizes s) {limit : Word} (h : mfLenLimit s.mf s.win = some limit) :
    s.mf.minMatchCheck.toNat ≤ limit.toNat := by
  unfold mfLenLimit at h
  split at h
  · cases h
    have hfast := hfs.fast
    have hmax := hfs.maxLen
    cases hm : s.mf.hashArray with
    | true =>
      rw [(hfs.four hm).2.2.1]
      show 4 ≤ _
      omega
    | false =>
      rw [(hfs.two hm).2.2.1]
      show 3 ≤ _
      omega
  · dsimp only at h
    split at h
    · exact nomatch h
    · next hleft =>
      cases h
      exact Nat.le_of_not_lt hleft

theorem mfSkipOne_of_none {s : State} (h : mfLenLimit s.mf s.win = none) : mfSkipOne s = mfMovePos s := by
  rw [mfSkipOne, Eng.bind_look, h]

theorem mfSkipOne_of_some {s : State} {limit : Word} (h : mfLenLimit s.mf s.win = some limit) :
    mfSkipOne s = (mfInsert limit >>= fun _ => mfMovePos) s := by
  rw [mfSkipOne, Eng.bind_look, h]

/-- Where a search and its move complete, the step of MF_SKIP does, and differs in MATCHES and its count alone. -/
theorem mfSkipOne_of_getMatches {s t : State} {off : Word} (hfs : FinderSizes s) (h : mfGetMatches s = .ok off t)
    (e : Aside) : mfSkipOne (withAside e s) = .ok () (withAside e t) := by
  cases hl : mfLenLimit s.mf s.win with
  | none =>
    rw [mfGetMatches_of_none hl] at h
    obtain ⟨_, u, hmove, h⟩ := Eng.bind_eq_ok.1 h
    cases h
    exact (mfSkipOne_of_none (s := withAside e s) hl).trans (IgnoresAside.mfMovePos.ok hmove e)
  | some limit =>
    rw [mfGetMatches_of_some hl] at h
    obtain ⟨_, u, hsearch, h⟩ := Eng.bind_eq_ok.1 h
    obtain ⟨_, v, hmove, h⟩ := Eng.bind_eq_ok.1 h
    cases h
    have hinsert := mfInsert_of_search hfs (mfLenLimit_least hfs hl) hsearch e
    exact (mfSkipOne_of_some (s := withAside e s) hl).trans <|
      (Eng.bind_ok hinsert _).trans (IgnoresAside.mfMovePos.ok hmove e)

/-! ### MF_SKIP of 1 (R261) -/

/-- MF_SKIP of 1 completes where its step does. -/
theorem exec_mfSkip_one {s t : State} (hr : Runnable .mfSkip s)
    (h : mfSkipOne (withOperand 1#32 (clearResults s)) = .ok () t) : exec .mfSkip (withOperand 1#32 s) = .next t :=
  (exec_mfSkip hr 1#32).trans (congrArg finish (Eng.bind_ok h _))

/-- MF_SKIP of 1 ends where MF_GETMATCHES ends, but for MATCHES, its count and the results. -/
theorem exec_mfSkip_of_getMatches {s t : State} (hinv : Inv s) (h : exec .mfGetMatches s = .next t)
    (ht : t.status.err = .none) : exec .mfSkip (withOperand 1#32 s) =
      .next { t with
        matchBuf := s.matchBuf
        mf := { t.mf with numPairs := s.mf.numPairs }
        x := { s.x with a0 := 1#32, r0 := 0#32, r1 := 0#32 } } := by
  have hr := runnable_of_completed (.inl rfl) h ht
  obtain ⟨he, _, hphase, _⟩ := id hr
  have hkept := searchRest_of_exec (.inr (.inr rfl)) h
  obtain ⟨n, l, u, hrun, rfl, _⟩ := mfGetMatches_of_exec hr h ht
  have hone := mfSkipOne_of_getMatches (s := clearResults s) { hinv.finderSizes hphase with } hrun
    ⟨s.matchBuf, s.mf.numPairs, 1#32⟩
  have hresults := finder_noResults.mfSkipOne (withAside ⟨s.matchBuf, s.mf.numPairs, 1#32⟩ (clearResults s)) ⟨rfl, rfl⟩
  rw [hone] at hresults
  have hx : u.x = { s.x with r0 := 0#32, r1 := 0#32 } := by
    have hcleared := congrArg State.x (clearResults_of_noResults (s := u) hresults)
    have hoperands := congrArg State.x hkept
    exact hcleared.symm.trans hoperands
  refine (exec_mfSkip_one ⟨he, rfl, hphase, trivial⟩ hone).trans ?_
  rw [withAside, hx]
  rfl

/-- Settles O30: a completed search is followed step by step by the insertion (`mfWalkSkip_of_collect`), and a longer
skip by its two parts (`exec_mfSkip_succ`). -/
theorem skipBuildsTheSameTree : Obligations.SkipBuildsTheSameTree := by
  unfold Obligations.SkipBuildsTheSameTree
  exact ⟨fun _ _ => exec_mfSkip_of_getMatches, fun _ _ _ _ => exec_mfSkip_succ⟩

end Sys2Proof.Machine
end

section
/-! SUPPORT. MF_GETMATCHES and MF_SKIP where nothing is found (O29): near the end of the input, and with no candidate in
the buckets of the position. -/

namespace Sys2Proof.Machine

/-! ### A search without a candidate (R245) -/

theorem mfHeadMatches_of_old {w : Walk} {head : Word} (h : head.toNat ≤ w.minPos.toNat) (s : State) :
    mfHeadMatches w head s = .ok false s := by
  rw [mfHeadMatches, if_pos h]
  rfl

theorem mfHead2_of_old {w : Walk} {head : Word} (h : head.toNat ≤ w.minPos.toNat) (s : State) :
    mfHead2 w head s = .ok (0#32, 1#32) s := Eng.bind_ok (mfHeadMatches_of_old h s) _

theorem mfHead3_of_old {w : Walk} {head3 : Word} (h : head3.toNat ≤ w.minPos.toNat) (off maxLen head2 : Word)
    (s : State) : mfHead3 w off maxLen head2 head3 s = .ok (off, maxLen, head2) s :=
  Eng.bind_ok (mfHeadMatches_of_old h s) _

theorem mfDirectHead_of_old {w : Walk} {curMatch : Word} (h : curMatch.toNat ≤ w.minPos.toNat) (off maxLen : Word)
    (s : State) : mfDirectHead w curMatch off maxLen s = .ok (off, maxLen) s := by
  rw [mfDirectHead, Eng.bind_look, if_neg fun hcond => Nat.not_lt.2 h hcond.2]
  rfl

theorem mfWalkCollect_of_old {w : Walk} {p : WalkPos} (h : p.curMatch.toNat ≤ w.minPos.toNat) : ∀ n : Nat,
    mfWalkCollect w n p = mfCloseWalk p >>= fun _ => pure p.off
  | 0 => rfl
  | n + 1 => by rw [mfWalkCollect, if_pos h]

/-- Short hashes' heads that are too old are overwritten and give no pair. -/
theorem mfShortHeads_of_old {s : State} (hfs : FinderSizes s) (hm : s.mf.hashArray = true) {h : Hashes}
    (hof : HashesOf s h) {w : Walk} (htwo : (s.hash.get (hashTwo s)).toNat ≤ w.minPos.toNat)
    (hthree : (s.hash.get (1024 + hashThree s)).toNat ≤ w.minPos.toNat) (curMatch : Word) :
    mfShortHeads w h curMatch s = .ok (0#32, 1#32)
      (searching ((s.hash.set (hashTwo s) s.win.pos).set (1024 + hashThree s) s.win.pos) s.son s.matchBuf s) := by
  have h2lt := hashTwo_lt s
  have h3lt := hashThree_lt s
  have hroom : 66560 < s.hash.size := by
    have hsum := (hfs.four hm).2.2.2
    have hsize := hfs.hash
    omega
  have h2 := hof.two hm
  have h3 : (1024#32 + h.h3).toNat = 1024 + hashThree s := by
    have h3 := hof.three hm
    bv_omega
  have hread2 : hashRead h.h2 s = .ok (s.hash.get (hashTwo s)) s := h2 ▸ ramRead_ok (ram := (·.hash)) (by omega)
  have hread3 : hashRead (1024#32 + h.h3) s = .ok (s.hash.get (1024 + hashThree s)) s :=
    h3 ▸ ramRead_ok (ram := (·.hash)) (by omega)
  have hwrite2 := Searchable.hashWrite_run (s := s) (v := s.win.pos) (hash := s.hash) (son := s.son)
    (pairs := s.matchBuf) (show h.h2.toNat < s.hash.size by omega)
  have hwrite3 := Searchable.hashWrite_run (s := s) (v := s.win.pos) (hash := s.hash.set h.h2.toNat s.win.pos)
    (son := s.son) (pairs := s.matchBuf) (show (1024#32 + h.h3).toNat < s.hash.size by omega)
  rw [← h2, ← h3, mfShortHeads, Eng.bind_look, Eng.bind_ok hread2, Eng.bind_ok hread3]
  exact (Eng.bind_ok hwrite2 _).trans <| (Eng.bind_ok hwrite3 _).trans <|
    (Eng.bind_ok (mfHead2_of_old htwo _) _).trans (Eng.bind_ok (mfHead3_of_old hthree _ _ _ _) _)

/-- The son slots of a leaf at the current position (R245). -/
def leafSons (s : State) : Ram Word 0#32 :=
  (s.son.set (2 * s.mf.cycPos.toNat + 1) 0#32).set (2 * s.mf.cycPos.toNat) 0#32

theorem leafInserted_eq (s : State) : leafInserted s = searching (headsWritten s) (leafSons s) s.matchBuf s := rfl

/-- A walk that starts at its end makes a leaf of the current position. -/
theorem mfCloseWalk_leaf {s : State} (hfs : FinderSizes s) (hash pairs : Ram Word 0#32) (curMatch maxLen off : Word) :
    mfCloseWalk (mfWalkStart s.mf curMatch maxLen off) (searching hash s.son pairs s) =
      .ok () (searching hash (leafSons s) pairs s) := by
  have hcyc := hfs.cycPos
  have hcbs := hfs.cbs
  have hdict := hfs.dict
  have hson := hfs.son
  have h1 : (s.mf.cycPos <<< 1).toNat = 2 * s.mf.cycPos.toNat := by bv_omega
  have h0 : ((s.mf.cycPos <<< 1) + 1#32).toNat = 2 * s.mf.cycPos.toNat + 1 := by bv_omega
  rw [leafSons, ← h0, ← h1]
  have hwrite (i : Word) {son : Ram Word 0#32} (hi : i.toNat < son.size) :
      sonWrite i 0#32 (searching hash son pairs s) = .ok () (searching hash (son.set i.toNat 0#32) pairs s) :=
    ramWrite_ok (ram := (·.son)) (s := searching hash son pairs s) hi
  exact (Eng.bind_ok (hwrite ((s.mf.cycPos <<< 1) + 1#32) (by omega)) _).trans
    (hwrite (s.mf.cycPos <<< 1) (by rw [Ram.set_size]; omega))

/-- From an old main bucket on, a search writes the bucket and makes a leaf. -/
theorem mfSearchMain_of_old {s : State} (hfs : FinderSizes s) {w : Walk} {main curMatch : Word}
    (hmain : main.toNat = mainBucket s) (hold : curMatch.toNat ≤ w.minPos.toNat) {hash : Ram Word 0#32}
    (hsize : hash.size = s.hash.size) :
    mfSearchMain w s.mf main s.win.pos curMatch (0#32, 1#32) (searching hash s.son s.matchBuf s) =
      .ok 0#32 (searching (hash.set (mainBucket s) s.win.pos) (leafSons s) s.matchBuf s) := by
  have hlt := mainBucket_lt hfs
  have hwrite := Searchable.hashWrite_run (s := s) (v := s.win.pos) (hash := hash) (son := s.son) (pairs := s.matchBuf)
    (show main.toNat < hash.size by rw [hsize, hfs.hash, hmain]; exact hlt)
  rw [hmain] at hwrite
  refine (Eng.bind_ok hwrite _).trans <| (Eng.bind_ok (mfDirectHead_of_old hold _ _ _) _).trans ?_
  rw [mfWalkCollect_of_old (p := mfWalkStart s.mf curMatch 1#32 0#32) hold]
  exact Eng.bind_ok (mfCloseWalk_leaf hfs _ _ _ _ _) _

/-- A search without a candidate inserts a leaf and finds nothing (R245). -/
theorem mfSearch_of_noCandidate {s : State} (hfs : FinderSizes s) (hsize : s.wbuf.size = s.win.blockSize.toNat)
    (hread : SearchReadable s) (hnone : NoCandidate s) (limit : Word) :
    mfSearch limit s = .ok 0#32 (leafInserted s) := by
  obtain ⟨hmainOld, hshortOld⟩ := hnone
  rw [← mfMinPos_toNat] at hmainOld hshortOld
  obtain ⟨h, hhash, hof⟩ := mfHashAt_readable hsize hread
  have hmain := mainIndex_toNat hfs hof.main
  have hcur : hashRead (s.mf.fixHashSize + h.hv) s = .ok (s.hash.get (mainBucket s)) s :=
    hmain ▸ ramRead_ok (ram := (·.hash)) (by rw [hmain, hfs.hash]; exact mainBucket_lt hfs)
  rw [mfSearch_eq, Eng.bind_ok hhash, Eng.bind_ok hcur, leafInserted_eq, headsWritten]
  cases hm : s.mf.hashArray with
  | true =>
    obtain ⟨htwo, hthree⟩ := hshortOld hm
    rw [if_pos rfl, if_pos rfl, Eng.bind_ok (mfShortHeads_of_old hfs hm hof (w := walkOf s limit) htwo hthree _)]
    exact mfSearchMain_of_old hfs hmain hmainOld rfl
  | false =>
    rw [if_neg Bool.noConfusion, if_neg Bool.noConfusion]
    exact mfSearchMain_of_old (hash := s.hash) hfs hmain hmainOld rfl

/-! ### Nothing found (R252) -/

theorem nearEnd_of_mfLenLimit {s : State} (h : mfLenLimit s.mf s.win = none) : NearEnd s := by
  unfold mfLenLimit at h
  split at h
  · exact nomatch h
  · next hfull =>
    dsimp only at h
    split at h
    · next hleft => exact ⟨Nat.lt_of_not_le hfull, hleft⟩
    · exact nomatch h

/-- MF_GETMATCHES that finds nothing returns 0 in both results (R260). -/
theorem exec_mfGetMatches_of_zero {s t : State} (hr : Runnable .mfGetMatches s)
    (h : mfGetMatches (clearResults s) = .ok 0#32 t) : exec .mfGetMatches s = .next (results 0#32 0#32 t) :=
  (hr.runs _).trans (congrArg finish (Eng.bind_ok h _))

/-- Near the end of the input MF_GETMATCHES only moves (R252). -/
theorem exec_mfGetMatches_nearEnd {s : State} (hr : Runnable .mfGetMatches s) (hmoves : MovesInside s)
    (hnear : NearEnd s) : exec .mfGetMatches s = .next { advanced (results 0#32 0#32 s) with
      mf := { (advanced s).mf with numPairs := 0#32 } } := by
  refine exec_mfGetMatches_of_zero (t := setNumPairs 0#32 (advanced (clearResults s))) hr ?_
  rw [mfGetMatches_of_none (mfLenLimit_nearEnd (s := clearResults s) hnear),
    Eng.bind_ok (mfMovePos_inside (s := clearResults s) hmoves)]
  rfl

/-- With no candidate MF_GETMATCHES inserts a leaf and moves (R245). -/
theorem exec_mfGetMatches_leaf {s : State} (hinv : Inv s) (hr : Runnable .mfGetMatches s) (hmoves : MovesInside s)
    (hfar : ¬ NearEnd s) (hread : SearchReadable s) (hnone : NoCandidate s) :
    exec .mfGetMatches s = .next { advanced (leafInserted (results 0#32 0#32 s)) with
      mf := { (advanced s).mf with numPairs := 0#32 } } := by
  obtain ⟨_, _, hphase, _⟩ := id hr
  refine exec_mfGetMatches_of_zero (t := setNumPairs 0#32 (advanced (leafInserted (clearResults s)))) hr ?_
  cases hl : mfLenLimit s.mf s.win with
  | none => exact absurd (nearEnd_of_mfLenLimit hl) hfar
  | some limit =>
    have hsearch := mfSearch_of_noCandidate (s := clearResults s) { hinv.finderSizes hphase with }
      (hinv.windowSizes hphase).buffer hread hnone limit
    rw [mfGetMatches_of_some (s := clearResults s) hl, Eng.bind_ok hsearch,
      Eng.bind_ok (mfMovePos_inside (s := leafInserted (clearResults s)) hmoves)]
    rfl

theorem withOperand_self {s : State} {a : Word} (h : s.x.a0 = a) : withOperand a s = s := by
  rw [← h]
  rfl

/-- Settles O29: MF_GETMATCHES near the end and with a leaf inserted; MF_SKIP of 1 then follows from what it shares with
MF_GETMATCHES (`exec_mfSkip_of_getMatches`). -/
theorem searchWithoutMatch : Obligations.SearchWithoutMatch := by
  unfold Obligations.SearchWithoutMatch
  refine ⟨fun s => exec_mfGetMatches_nearEnd, fun s => exec_mfGetMatches_leaf, fun s hr h0 => ?_,
    fun s hr h1 hmoves hnear => ?_, fun s hinv hr h1 hmoves hfar hread hnone => ?_⟩
  · have hrun := exec_mfSkip hr 0#32
    rwa [withOperand_self h0, withOperand_self (s := clearResults s) h0] at hrun
  · have hone : mfSkipOne (clearResults s) = .ok () (advanced (clearResults s)) :=
      (mfSkipOne_of_none (mfLenLimit_nearEnd (s := clearResults s) hnear)).trans
        (mfMovePos_inside (s := clearResults s) hmoves)
    rw [← withOperand_self (s := clearResults s) h1] at hone
    have hrun := exec_mfSkip_one hr hone
    rwa [withOperand_self h1, withOperand_self (s := clearResults s) h1] at hrun
  · obtain ⟨he, _, hphase, _⟩ := id hr
    have hsearch := exec_mfGetMatches_leaf hinv ⟨he, rfl, hphase, trivial⟩ hmoves hfar hread hnone
    have hskip := exec_mfSkip_of_getMatches hinv hsearch he
    rw [withOperand_self h1, ← h1] at hskip
    exact hskip

end Sys2Proof.Machine
end

section
/-! SUPPORT. What the encoder codes the decoder reads back (O35): the bytes of a fresh stream begin with a 0, the next
four are the decoder's first code, and the rest are what it takes. -/

namespace Sys2Proof.Machine

/-- A fresh encoder, its PROB in range, is in the middle of a stream of no bytes (R282). -/
theorem coding_of_fresh {s : State} (hp : probsInRange s = true)
    (hr : s.rce = { low := 0#33, range := 0xFFFFFFFF#32, cache := 0#8, cacheSize := 1#32 }) : Coding s where
  fits := by
    rw [hr]
    exact ⟨by decide, by decide, by decide⟩
  range := by
    rw [hr]
    decide
  cells := probsInRange_iff.1 hp

/-- A number below `256^n · 2^32` spelled by `n + 5` bytes begins with a 0, and its next four bytes are the first four of
the rest. -/
theorem exists_spelled_five {w : List Byte} {n : Nat} (hlen : w.length = n + 5) (hlt : spelled w < 256 ^ n * 2 ^ 32) :
    ∃ (b1 b2 b3 b4 : Byte) (rest : List Byte), w = 0#8 :: b1 :: b2 :: b3 :: b4 :: rest ∧ rest.length = n ∧
      spelled w = (b1.toNat * 2 ^ 24 + b2.toNat * 2 ^ 16 + b3.toNat * 2 ^ 8 + b4.toNat) * 256 ^ n + spelled rest := by
  match w, hlen with
  | b0 :: b1 :: b2 :: b3 :: b4 :: rest, hlen =>
    have hn : rest.length = n := by simpa using hlen
    have hval : spelled (b0 :: b1 :: b2 :: b3 :: b4 :: rest) =
        (b0.toNat * 2 ^ 32 + (b1.toNat * 2 ^ 24 + b2.toNat * 2 ^ 16 + b3.toNat * 2 ^ 8 + b4.toNat)) * 256 ^ n +
          spelled rest := by
      simp only [spelled_cons, List.length_cons, hn, pow_succ]
      ring
    have hzero : b0.toNat = 0 := by
      rw [hval, Nat.mul_comm (256 ^ n)] at hlt
      have := Nat.lt_of_mul_lt_mul_right (Nat.lt_of_le_of_lt (Nat.le_add_right _ _) hlt)
      omega
    rw [hzero, Nat.zero_mul, Nat.zero_add] at hval
    exact ⟨b1, b2, b3, b4, rest, by rw [BitVec.eq_of_toNat_eq (y := 0#8) hzero], hn, hval⟩

/-- Settles O35: the flush writes out the encoder's number (`flushed_value`), which the path keeps inside the first interval
(`codePath_value`); the decoder's code is then that number less the encoder's (`reads_codePath`). -/
theorem codedBitsDecodeBack : Obligations.CodedBitsDecodeBack := by
  unfold Obligations.CodedBitsDecodeBack
  intro s path hprobs hfresh hlength
  have hcoding := coding_of_fresh hprobs hfresh
  have hsize : s.rce.cacheSize.toNat = 1 := by rw [hfresh]; rfl
  have hrange : s.rce.range = 0xFFFFFFFF#32 := by rw [hfresh]
  have hvalue : coderValue [] s.rce = 0 := by rw [hfresh]; rfl
  have hstart : Wrote s.host.sink [] s := rfl
  obtain ⟨w, n, hwrote, hcoded, -, hbelow, hcount, hpending⟩ := codePath_value path hstart hcoding (by omega)
  obtain ⟨bytes, hbytes, hspelled, hlen⟩ := flushed_value hwrote hcoded (by omega)
  rw [hvalue, hrange] at hbelow
  rw [List.length_nil, hsize] at hcount
  obtain ⟨b1, b2, b3, b4, rest, rfl, hrest, hcode⟩ := exists_spelled_five (n := n) (w := bytes) (by omega)
    (hspelled ▸ hbelow.trans (Nat.mul_lt_mul_of_pos_left (by decide) (Nat.pow_pos (by decide))))
  refine ⟨b1, b2, b3, b4, rest, hbytes, fun d tail hprob hsrc hrcd => ?_⟩
  refine reads_codePath path hstart hcoding (by omega) (by rw [hrcd, hrange]) hprob hsrc rfl hwrote
    (by rw [List.length_nil, hsize, hrest]; exact hcount) ?_
  have hfour : d.rcd.code.toNat = b1.toNat * 2 ^ 24 + b2.toNat * 2 ^ 16 + b3.toNat * 2 ^ 8 + b4.toNat := by
    rw [hrcd, BitVec.toNat_ofNat, Nat.mod_eq_of_lt (by omega)]
  rw [hvalue, Nat.add_zero, hfour, hrest, ← hcode, hspelled]

end Sys2Proof.Machine
end

section
/-! SUPPORT. Probabilities, the price table (O36, O37), and the prices of paths of bits (O38). -/

namespace Sys2Proof.Machine

/-! ### The adaptation (R280, R281) -/

theorem toNat_probUpdate (p : Prob) (b : Bool) (hlow : 31 ≤ p.toNat) (hhigh : p.toNat ≤ 2017) :
    (probUpdate p b).toNat = if b then p.toNat - p.toNat / 32 else p.toNat + (2048 - p.toNat) / 32 := by
  rw [adapted_eq, adapted, BitVec.toNat_ofNat, Nat.mod_eq_of_lt (by split <;> omega)]

/-- Settles O36: the value (`toNat_probUpdate`), and the range every adapted entry stays in (`adapted_range`). -/
theorem probabilityUpdate : Obligations.ProbabilityUpdate := by
  unfold Obligations.ProbabilityUpdate
  intro p b hlow hhigh
  refine ⟨toNat_probUpdate p b hlow hhigh, ?_⟩
  rw [adapted_eq]
  exact adapted_range b ⟨hlow, hhigh⟩

/-! ### PROB_PRICES (R295, R296) -/

/-- The turn `i` of R295's loop writes the entries whose logarithm is `8 − i`. -/
theorem probPrice_of_turn {i j : Nat} (hi : i ≤ 8) (hlow : 2 ^ (8 - i) ≤ j) (hhigh : j < 2 ^ (9 - i)) :
    probPrice j = BitVec.ofNat 32 (64 * i + 64 * (2 ^ (9 - i) - j) / 2 ^ (8 - i)) := by
  have hne : j ≠ 0 := Nat.ne_of_gt (Nat.lt_of_lt_of_le (Nat.two_pow_pos _) hlow)
  have hsucc : 8 - i + 1 = 9 - i := by omega
  have hlog : Nat.log2 j = 8 - i := (Nat.log2_eq_iff hne).2 ⟨hlow, by rwa [hsucc]⟩
  have hturn : 8 - (8 - i) = i := by omega
  rw [probPrice, if_neg hne, hlog]
  dsimp only
  rw [hsucc, hturn, Nat.shiftRight_eq_div_pow, Nat.shiftLeft_eq, Nat.shiftLeft_eq, Nat.mul_comm i,
    Nat.mul_comm _ (2 ^ 6)]

/-- `BitPrice` of an entry that is not 0 reads inside PROB_PRICES (R296). -/
theorem bitPrice_of_ne_zero {p : Prob} (hp : p ≠ 0#11) (b : Bool) (s : State) :
    bitPrice p b s = .ok (bitCost p b) s := by
  have hpos : p.toNat ≠ 0 := fun h => hp (BitVec.eq_of_toNat_eq h)
  have hlt := p.isLt
  have read {j : Nat} (hj : j < 2048) : probPriceRead (j >>> 2) s = .ok (probPrice (j / 4)) s := by
    rw [Nat.shiftRight_eq_div_pow]
    exact if_pos (by omega)
  cases b
  · exact read hlt
  · exact read (by omega)

/-- Settles O37: the entry of each turn of the loop (`probPrice_of_turn`), and the entry a price reads
(`bitPrice_of_ne_zero`). -/
theorem priceTable : Obligations.PriceTable := by
  unfold Obligations.PriceTable
  refine ⟨rfl, fun i j => probPrice_of_turn, fun p b s hp => ?_⟩
  rw [bitPrice_of_ne_zero hp, bitCost]
  cases b <;> rfl

/-! ### The prices of paths (R325, R326, R364, R377) -/

/-- PROB holds no entry 0, whose price would lie outside the table (R281). -/
def ProbsPositive (s : State) : Prop := ∀ i, s.prob.get i ≠ 0#11

theorem Inv.probsPositive {s : State} (h : Inv s) : ProbsPositive s := fun i hz => by
  obtain ⟨hlow, _⟩ := h.prob_range i
  rw [hz] at hlow
  exact absurd hlow (by decide)

/-- A rule adds the price of a path of bits to the sum so far and changes nothing. -/
def AddsPrice (f : Word → Eng Word) (path : List CodedBit) : Prop :=
  ∀ (price : Word) (s : State), ProbsPositive s → PathFits s.prob.size path →
    f price s = .ok (price + pathCost s path) s

theorem nodePrice_of_positive {s : State} (hs : ProbsPositive s) {i : Word} (hi : i.toNat < s.prob.size) (b : Bool) :
    nodePrice i b s = .ok (bitCost (s.prob.get i.toNat) b) s :=
  (Eng.bind_ok (ramRead_ok hi) _).trans (bitPrice_of_ne_zero (hs _) b s)

theorem AddsPrice.nil : AddsPrice pure [] := fun price s _ _ =>
  congrArg (EStateM.Result.ok · s) (BitVec.add_zero price).symm

theorem AddsPrice.cons {f : Word → Eng Word} {path : List CodedBit} (hf : AddsPrice f path) (i : Word) (b : Bool) :
    AddsPrice (fun price => nodePrice i b >>= fun c => f (price + c)) (.model i b :: path) := fun price s hs hfit => by
  rw [pathFits_cons] at hfit
  refine (Eng.bind_ok (nodePrice_of_positive hs hfit.1 b) _).trans ((hf _ s hs hfit.2).trans ?_)
  rw [pathCost, BitVec.add_assoc]

theorem btPriceFrom_adds (base sym : Word) : ∀ k m : Nat,
    AddsPrice (btPriceFrom base sym k (BitVec.ofNat 32 m)) (treeFrom base sym k m)
  | 0, _ => .nil
  | k + 1, m => by
    have h := (btPriceFrom_adds base sym k (2 * m + (sym.getLsbD k).toNat)).cons (base + BitVec.ofNat 32 m)
      (sym.getLsbD k)
    rw [← childNode_ofNat] at h
    exact h

theorem btReversePriceFrom_adds (base sym : Word) : ∀ left k : Nat,
    AddsPrice (btReversePriceFrom base sym left k (BitVec.ofNat 32 (reverseNode sym k)))
      ((List.range' k left).map fun j => .model (base + BitVec.ofNat 32 (reverseNode sym j)) (sym.getLsbD j))
  | 0, _ => .nil
  | left + 1, k => by
    have h := (btReversePriceFrom_adds base sym left (k + 1)).cons (base + BitVec.ofNat 32 (reverseNode sym k))
      (sym.getLsbD k)
    rw [reverseNode, ← childNode_ofNat] at h
    exact h

theorem litPriceFrom_adds (lb : Word) (mb sym : Byte) : ∀ (k m : Nat) (same : Bool),
    AddsPrice (litPriceFrom lb mb sym k (BitVec.ofNat 32 m) same) (matchedFrom lb mb sym k m same)
  | 0, _, _ => .nil
  | k + 1, m, same => by
    have h := (litPriceFrom_adds lb mb sym k (2 * m + (sym.getLsbD k).toNat)
      (same && (mb.getLsbD k == sym.getLsbD k))).cons (litNode lb (BitVec.ofNat 32 m) same (mb.getLsbD k))
      (sym.getLsbD k)
    rw [← childNode_ofNat] at h
    rw [matchedFrom, ← litNode_eq]
    exact h

theorem btPrice_run {base sym : Word} {n : Nat} {s : State} (hs : ProbsPositive s)
    (hfit : PathFits s.prob.size (treePath base n sym)) :
    btPrice base n sym s = .ok (pathCost s (treePath base n sym)) s := by
  have e : treeFrom base sym n 1 = treePath base n sym := by rw [treeFrom_eq]; simp [treePath]
  have h := btPriceFrom_adds base sym n 1 0#32 s hs
  rw [e, BitVec.zero_add] at h
  exact h hfit

theorem btReversePrice_run {base sym : Word} {n : Nat} {s : State} (hs : ProbsPositive s)
    (hfit : PathFits s.prob.size (reversePath base n sym)) :
    btReversePrice base n sym s = .ok (pathCost s (reversePath base n sym)) s := by
  have h := btReversePriceFrom_adds base sym n 0 0#32 s hs
  rw [← List.range_eq_range', BitVec.zero_add] at h
  exact h hfit

/-- Outside the matched trees the path of a matched literal is that of a plain one (R362). -/
theorem matchedFrom_false (lb : Word) (mb sym : Byte) : ∀ k m : Nat,
    matchedFrom lb mb sym k m false = treeFrom lb (sym.setWidth 32) k m
  | 0, _ => rfl
  | k + 1, m => by
    rw [matchedFrom, treeFrom, byteWord_bit, Bool.false_and, matchedFrom_false lb mb sym k, if_neg Bool.false_ne_true,
      Nat.zero_add]

/-- The path `LitPrice` prices (R364). -/
def pricedLiteral (matched : Bool) (table : Word) (mb sym : Byte) : List CodedBit :=
  if matched then matchedPath table mb sym else literalPath table sym

theorem matchedFrom_start (matched : Bool) (table : Word) (mb sym : Byte) :
    matchedFrom table mb sym 8 1 matched = pricedLiteral matched table mb sym := by
  cases matched with
  | false =>
    rw [matchedFrom_false, treeFrom_eq]
    simp [pricedLiteral, literalPath, treePath]
  | true =>
    have h := matchedFrom_eq table mb sym 8 (Nat.le_refl _)
    rw [Nat.div_eq_of_lt (show mb.toNat < 2 ^ 8 from mb.isLt),
      Nat.div_eq_of_lt (show sym.toNat < 2 ^ 8 from sym.isLt)] at h
    exact h

theorem litPrice_run {matched : Bool} {table : Word} {mb sym : Byte} {s : State} (hs : ProbsPositive s)
    (hfit : PathFits s.prob.size (pricedLiteral matched table mb sym)) :
    litPrice table matched mb sym s = .ok (pathCost s (pricedLiteral matched table mb sym)) s := by
  have h := litPriceFrom_adds table mb sym 8 1 matched 0#32 s hs
  rw [matchedFrom_start, BitVec.zero_add] at h
  exact h hfit

/-- Two bits priced, then a path. -/
theorem nodePrices_run {i j : Word} {b d : Bool} {f : Eng Word} {path : List CodedBit} {s : State}
    (hs : ProbsPositive s) (hi : i.toNat < s.prob.size) (hj : j.toNat < s.prob.size)
    (hf : f s = .ok (pathCost s path) s) :
    (nodePrice i b >>= fun c => nodePrice j d >>= fun c2 => f >>= fun t => pure (c + c2 + t)) s =
      .ok (pathCost s (.model i b :: .model j d :: path)) s := by
  rw [Eng.bind_ok (nodePrice_of_positive hs hi b), Eng.bind_ok (nodePrice_of_positive hs hj d), Eng.bind_ok hf]
  exact congrArg (EStateM.Result.ok · s) (BitVec.add_assoc _ _ _)

theorem lenPrice_run {sel : Bool} {sym ps : Word} {s : State} (hs : ProbsPositive s)
    (hfit : PathFits s.prob.size (lengthPath sel sym ps)) :
    lenPrice (lenCoder sel) sym ps s = .ok (pathCost s (lengthPath sel sym ps)) s := by
  unfold lengthPath at hfit ⊢
  unfold lenPrice
  split
  · next hlow =>
    rw [if_pos hlow, pathFits_cons] at hfit
    exact (Eng.bind_ok (nodePrice_of_positive hs hfit.1 _) _).trans (Eng.bind_ok (btPrice_run hs hfit.2) _)
  · next hlow =>
    rw [if_neg hlow] at hfit
    split
    · next hmid =>
      rw [if_pos hmid, pathFits_cons, pathFits_cons] at hfit
      exact nodePrices_run hs hfit.1 hfit.2.1 (btPrice_run hs hfit.2.2)
    · next hmid =>
      rw [if_neg hmid, pathFits_cons, pathFits_cons] at hfit
      exact nodePrices_run hs hfit.1 hfit.2.1 (btPrice_run hs hfit.2.2)

end Sys2Proof.Machine
end

section
/-! SUPPORT. The literal tables (R361) and where PROB ends (R356), in every state whose derived values are those of
options a stream start accepts. -/

namespace Sys2Proof.Machine

/-- The derived values are those of `o`, options in the ranges a stream start accepts (R42, R471, R522). -/
structure DerivedFrom (d : Derived) (o : Options) : Prop where
  lc : o.lc.toNat ≤ 8
  lp : o.lp.toNat ≤ 4
  pb : o.pb.toNat ≤ 4
  eq : d = derivedOf o

/-- Derived values that are not those of reset are those of legal options. -/
theorem Inv.derivedFrom {s : State} (h : Inv s) (hne : s.derived ≠ Derived.reset) : ∃ o, DerivedFrom s.derived o := by
  rcases h.derived with hreset | ⟨o, hlc, hlp, hpb, heq⟩
  · exact absurd hreset hne
  · exact ⟨o, hlc, hlp, hpb, heq⟩

theorem Inv.derivedFrom_of_enc {s : State} (h : Inv s) (hp : s.status.phase = .enc) : DerivedFrom s.derived s.opts := by
  obtain ⟨_, hlegal, hderived⟩ := h.encOptions hp
  obtain ⟨_, _, _, hlc, hlp, hpb, _, _⟩ := encOptionsLegal_iff.1 hlegal
  exact ⟨hlc, hlp, hpb, hderived⟩

namespace DerivedFrom
variable {d : Derived} {o : Options} (h : DerivedFrom d o)
include h

theorem values : d = { posStateMask := BitVec.ofNat 32 (2 ^ o.pb.toNat - 1)
                       litPosMask := BitVec.ofNat 32 (2 ^ o.lp.toNat - 1)
                       probCount := BitVec.ofNat 32 (1846 + 768 * 2 ^ (o.lc.toNat + o.lp.toNat))
                       numPosStates := BitVec.ofNat 32 (2 ^ o.pb.toNat), lcLatched := o.lc } :=
  h.eq.trans (derivedOf_eq h.lp h.pb)

theorem pow_le : 2 ^ (o.lc.toNat + o.lp.toNat) ≤ 2 ^ 12 := by
  have hlc := h.lc
  have hlp := h.lp
  exact Nat.pow_le_pow_right (by decide) (by omega)

theorem probCount : d.probCount.toNat = 1846 + 768 * 2 ^ (o.lc.toNat + o.lp.toNat) := by
  have hpow := h.pow_le
  rw [h.values, BitVec.toNat_ofNat, Nat.mod_eq_of_lt (by omega)]

theorem entries : 1846 ≤ d.probCount.toNat := by
  rw [h.probCount]
  exact Nat.le_add_right _ _

theorem numPosStates_le : d.numPosStates.toNat ≤ 16 := by
  have hpow : 2 ^ o.pb.toNat ≤ 2 ^ 4 := Nat.pow_le_pow_right (by decide) h.pb
  rw [h.values, BitVec.toNat_ofNat, Nat.mod_eq_of_lt (by omega)]
  exact hpow

theorem litPosMask : d.litPosMask.toNat = 2 ^ o.lp.toNat - 1 := by
  have hpow : 2 ^ o.lp.toNat ≤ 2 ^ 4 := Nat.pow_le_pow_right (by decide) h.lp
  rw [h.values, BitVec.toNat_ofNat, Nat.mod_eq_of_lt (by omega)]

theorem lcLatched : d.lcLatched = o.lc := by rw [h.values]

/-- The number of a literal table: the low bits of the position above the high bits of the byte before (R361). -/
theorem tableNumber_lt (position : Word) (prev : Byte) :
    position.toNat % 2 ^ o.lp.toNat * 2 ^ o.lc.toNat + prev.toNat / 2 ^ (8 - o.lc.toNat) <
      2 ^ (o.lc.toNat + o.lp.toNat) := by
  have hhigh : prev.toNat / 2 ^ (8 - o.lc.toNat) < 2 ^ o.lc.toNat := by
    rw [Nat.div_lt_iff_lt_mul (Nat.two_pow_pos _), ← Nat.pow_add, Nat.add_sub_cancel' h.lc]
    exact prev.isLt
  have hlow : position.toNat % 2 ^ o.lp.toNat < 2 ^ o.lp.toNat := Nat.mod_lt _ (Nat.two_pow_pos _)
  calc _ < (position.toNat % 2 ^ o.lp.toNat + 1) * 2 ^ o.lc.toNat := by rw [Nat.add_mul]; omega
    _ ≤ 2 ^ o.lp.toNat * 2 ^ o.lc.toNat := Nat.mul_le_mul_right _ hlow
    _ = 2 ^ (o.lc.toNat + o.lp.toNat) := by rw [Nat.mul_comm, Nat.pow_add]

theorem literalTable_toNat (position : Word) (prev : Byte) : (literalTable d position prev).toNat = 1846 + 768 *
    (position.toNat % 2 ^ o.lp.toNat * 2 ^ o.lc.toNat + prev.toNat / 2 ^ (8 - o.lc.toNat)) := by
  have hlt := h.tableNumber_lt position prev
  have hpow := h.pow_le
  have hmask : d.litPosMask.toNat + 1 = 2 ^ o.lp.toNat := by
    have hpos := Nat.two_pow_pos o.lp.toNat
    rw [h.litPosMask]
    omega
  rw [literalTable, hmask, h.lcLatched, BitVec.toNat_ofNat, Nat.mod_eq_of_lt (by omega)]

/-- A literal table lies inside PROB (R50, R361). -/
theorem literalTable_inside (position : Word) (prev : Byte) :
    (literalTable d position prev).toNat + 768 ≤ d.probCount.toNat := by
  have hlt := h.tableNumber_lt position prev
  rw [h.literalTable_toNat, h.probCount]
  omega

/-- `LitBase` is the literal table's first entry (R361). -/
theorem litBase_run {s : State} (hs : s.derived = d) (position : Word) (prev : Byte) :
    litBase position prev s = .ok (literalTable d position prev) s := by
  have hlt := h.tableNumber_lt position prev
  have hpow := h.pow_le
  have hlow : ((position &&& d.litPosMask) <<< d.lcLatched.toNat).toNat =
      position.toNat % 2 ^ o.lp.toNat * 2 ^ o.lc.toNat := by
    rw [BitVec.toNat_shiftLeft, BitVec.toNat_and, h.litPosMask, Nat.and_two_pow_sub_one_eq_mod, Nat.shiftLeft_eq,
      h.lcLatched, Nat.mod_eq_of_lt ((Nat.le_add_right _ _).trans_lt (hlt.trans_le (hpow.trans (by decide))))]
  have hhigh : (byteWord (prev >>> (8 - d.lcLatched.toNat))).toNat = prev.toNat / 2 ^ (8 - o.lc.toNat) := by
    rw [toNat_byteWord, BitVec.toNat_ushiftRight, Nat.shiftRight_eq_div_pow, h.lcLatched]
  rw [litBase, look_run, hs]
  refine congrArg (EStateM.Result.ok · s) (BitVec.eq_of_toNat_eq ?_)
  rw [h.literalTable_toNat, BitVec.toNat_add, BitVec.toNat_mul, BitVec.toNat_add, hlow, hhigh, BitVec.toNat_ofNat,
    BitVec.toNat_ofNat, Nat.mod_eq_of_lt (b := 2 ^ 32) (a := _ + _ / _) (by omega)]
  omega

end DerivedFrom

/-- The bits of a matched literal lie in its table (R362). -/
theorem matchedPath_fits {table : Word} {m : Nat} (mb sym : Byte) (h : table.toNat + 768 ≤ m) :
    PathFits m (matchedPath table mb sym) := by
  intro c hc
  obtain ⟨j, hj, rfl⟩ := List.mem_map.mp hc
  have hj := List.mem_range.mp hj
  have hbit : (mb.getLsbD (7 - j)).toNat ≤ 1 := Bool.toNat_le _
  have hnode : 2 ^ j + sym.toNat / 2 ^ (8 - j) < 2 ^ (j + 1) := by
    have htop : sym.toNat / 2 ^ (8 - j) < 2 ^ j := by
      rw [Nat.div_lt_iff_lt_mul (Nat.two_pow_pos _), ← Nat.pow_add, Nat.add_sub_cancel' (by omega)]
      exact sym.isLt
    rw [Nat.pow_succ]
    omega
  have hpow : 2 ^ (j + 1) ≤ 2 ^ 8 := Nat.pow_le_pow_right (by decide) hj
  refine node_fits (n := 768) ?_ h
  split <;> omega

end Sys2Proof.Machine
end

section
/-! SUPPORT. The price commands (O38). -/

namespace Sys2Proof.Machine

/-- A price command whose rule, its checks passed, is a computation that prices a path. -/
theorem exec_price {i : Instr} {body : Eng Unit} {f : Eng Word} {s : State} {path : List CodedBit} (hr : Runnable i s)
    (hexec : exec i s = command i (gateOf i) body s)
    (hbody : body (clearResults s) = (f >>= setR0) (clearResults s))
    (hf : f (clearResults s) = .ok (pathCost (clearResults s) path) (clearResults s)) :
    exec i s = .next (results (pathCost s path) 0#32 s) := by
  refine exec_results_of_ok hr hexec (hbody.trans ((Eng.bind_ok hf _).trans ?_))
  rw [pathCost_congr (t := clearResults s) (s := s) rfl, setR0_run]
  rfl

/-- A bit price command answers the price of the probability its operand gives. -/
theorem exec_bitCost {i : Instr} {body : Eng Unit} {f : Eng Prob} {p : Prob} {b : Bool} {s : State} (hr : Runnable i s)
    (hexec : exec i s = command i (gateOf i) body s)
    (hbody : body (clearResults s) = (f >>= fun p => bitPrice p b >>= setR0) (clearResults s))
    (hf : f (clearResults s) = .ok p (clearResults s)) (hp : p ≠ 0#11) :
    exec i s = .next (results (bitCost p b) 0#32 s) :=
  exec_results_of_ok hr hexec (hbody.trans ((Eng.bind_ok hf _).trans (Eng.bind_ok (bitPrice_of_ne_zero hp b _) _)))

section
variable {s : State} {b sel : Bool} {n : BitVec 5}

theorem exec_priceBit_entry (hinv : Inv s) (hr : Runnable (.priceBit false b) s) :
    exec (.priceBit false b) s = .next (results (pathCost s [.model s.x.a0 b]) 0#32 s) := by
  obtain ⟨_, _, _, hindex⟩ := id hr
  change s.x.a0.toNat < s.derived.probCount.toNat at hindex
  have hread : probRead s.x.a0 (clearResults s) = .ok (s.prob.get s.x.a0.toNat) (clearResults s) :=
    ramRead_ok (ram := (·.prob)) (show s.x.a0.toNat < s.prob.size from hinv.probSize ▸ hindex)
  rw [pathCost, pathCost, BitVec.add_zero]
  exact exec_bitCost (f := probIndexCheck s.x.a0 >>= fun _ => probRead s.x.a0) hr rfl rfl
    ((bind_passed (decide_eq_true hindex)).trans hread) (hinv.probsPositive _)

theorem exec_priceBit_value (hr : Runnable (.priceBit true b) s) :
    exec (.priceBit true b) s = .next (results (bitCost (BitVec.ofNat 11 s.x.a0.toNat) b) 0#32 s) := by
  obtain ⟨_, _, _, hvalue⟩ := id hr
  change 1 ≤ s.x.a0.toNat ∧ s.x.a0.toNat ≤ 2047 at hvalue
  have hne : BitVec.ofNat 11 s.x.a0.toNat ≠ 0#11 := fun h => by
    have hzero := congrArg BitVec.toNat h
    rw [BitVec.toNat_ofNat, Nat.mod_eq_of_lt (by omega)] at hzero
    exact absurd hzero (Nat.ne_of_gt hvalue.1)
  exact exec_bitCost (f := probValueCheck s.x.a0 >>= fun _ => pure (s.x.a0.setWidth 11)) hr rfl rfl
    (bind_passed (probValue_iff.2 hvalue)) hne

theorem exec_btPrice (hinv : Inv s) (hr : Runnable (.btPrice n) s) :
    exec (.btPrice n) s = .next (results (pathCost s (treePath s.x.a0 n.toNat s.x.a1)) 0#32 s) := by
  obtain ⟨_, _, _, htree⟩ := id hr
  change s.x.a0.toNat + 2 ^ n.toNat ≤ s.derived.probCount.toNat at htree
  exact exec_price hr rfl (bind_passed (decide_eq_true (tree_inside_iff.2 htree)))
    (btPrice_run hinv.probsPositive (treePath_fits _ (hinv.probSize ▸ htree)))

theorem exec_btRevPrice (hinv : Inv s) (hr : Runnable (.btRevPrice n) s) :
    exec (.btRevPrice n) s = .next (results (pathCost s (reversePath s.x.a0 n.toNat s.x.a1)) 0#32 s) := by
  obtain ⟨_, _, _, htree⟩ := id hr
  change s.x.a0.toNat + 2 ^ n.toNat ≤ s.derived.probCount.toNat at htree
  exact exec_price hr rfl (bind_passed (decide_eq_true (tree_inside_iff.2 htree)))
    (btReversePrice_run hinv.probsPositive (reversePath_fits _ (hinv.probSize ▸ htree)))

/-- LIT_PRICE, with SEL 0 and with SEL 1 (R398). -/
theorem exec_litPrice (hinv : Inv s) (hr : Runnable (.litPrice sel) s) :
    exec (.litPrice sel) s = .next (results (pathCost s (pricedLiteral sel
      (literalTable s.derived s.x.a1 (BitVec.ofNat 8 s.x.a2.toNat)) (BitVec.ofNat 8 s.x.a3.toNat)
      (BitVec.ofNat 8 s.x.a0.toNat))) 0#32 s) := by
  obtain ⟨_, _, _, hcount, hsym, hprev, hmatch⟩ := id hr
  obtain ⟨o, ho⟩ := hinv.derivedFrom fun h => hcount (congrArg Derived.probCount h)
  have hinside := ho.literalTable_inside s.x.a1 (lowByte s.x.a2)
  rw [← hinv.probSize] at hinside
  have hfit : PathFits s.prob.size (pricedLiteral sel (literalTable s.derived s.x.a1 (lowByte s.x.a2))
      (lowByte s.x.a3) (lowByte s.x.a0)) := by
    cases sel
    · exact treePath_fits _ (show _ + 2 ^ 8 ≤ _ by omega)
    · exact matchedPath_fits _ _ hinside
  refine exec_price hr rfl ?_ (litPrice_run hinv.probsPositive hfit)
  refine (bind_passed (decide_eq_true hcount)).trans ((bind_passed (decide_eq_true hsym)).trans
    ((bind_passed (decide_eq_true hprev)).trans ?_))
  have hbase := ho.litBase_run (s := clearResults s) rfl s.x.a1 (lowByte s.x.a2)
  cases sel
  · exact Eng.bind_ok hbase _
  · exact (bind_passed (decide_eq_true (hmatch rfl))).trans (Eng.bind_ok hbase _)

theorem exec_lenPrice (hinv : Inv s) (hr : Runnable (.lenPrice sel) s) :
    exec (.lenPrice sel) s = .next (results (pathCost s (lengthPath sel s.x.a0 s.x.a1)) 0#32 s) := by
  obtain ⟨_, _, _, hsym, hps⟩ := id hr
  have hne : s.derived ≠ Derived.reset := fun h => by
    rw [h] at hps
    exact Nat.not_lt_zero _ hps
  obtain ⟨o, ho⟩ := hinv.derivedFrom hne
  have hfit : PathFits s.prob.size (lengthPath sel s.x.a0 s.x.a1) :=
    (lengthPath_fits sel _ (hps.trans_le ho.numPosStates_le)).mono (hinv.probSize ▸ ho.entries)
  exact exec_price hr rfl ((bind_passed (decide_eq_true hsym)).trans (bind_passed (decide_eq_true hps)))
    (lenPrice_run hinv.probsPositive hfit)

end

/-- Settles O38, a lemma a command: each rule adds up the prices along the coder's path (`AddsPrice`). -/
theorem prices : Obligations.Prices := by
  unfold Obligations.Prices
  exact ⟨fun _ _ => exec_priceBit_entry, fun _ _ => exec_priceBit_value, fun _ _ => exec_btPrice,
    fun _ _ => exec_btRevPrice, fun _ => exec_litPrice, fun _ => exec_litPrice, fun _ _ => exec_lenPrice⟩

end Sys2Proof.Machine
end

section
/-! SUPPORT. The commands that code and decode a path of bits (O32, O33). -/

namespace Sys2Proof.Machine

/-! ### Coding -/

/-- A command whose rule, its checks passed, codes a path. -/
theorem exec_codes {i : Instr} {body f : Eng Unit} {path : List CodedBit} {s : State} (hr : Ready i s)
    (hexec : exec i s = command i (gateOf i) body s) (hbody : body (clearResults s) = f (clearResults s))
    (hf : Codes f path) (hfit : PathFits s.prob.size path) :
    exec i s = .next (codePath (results 0#32 0#32 s) path) := by
  obtain ⟨_, hrun, hroom⟩ := hr
  exact hexec.trans ((hrun.runs _).trans (congrArg finish (hbody.trans (hf (clearResults s) hroom hfit))))

theorem exec_rceBit {b : Bool} {s : State} (hr : Ready (.rceBit b) s) :
    exec (.rceBit b) s = .next (codeBit (results 0#32 0#32 s) (.model s.x.a0 b)) := by
  obtain ⟨hinv, ⟨_, _, _, hindex⟩, _⟩ := id hr
  change s.x.a0.toNat < s.derived.probCount.toNat at hindex
  exact exec_codes hr rfl (bind_passed (decide_eq_true hindex)) (.bit s.x.a0 b)
    (pathFits_cons.2 ⟨show s.x.a0.toNat < s.prob.size from hinv.probSize ▸ hindex, fun _ hc => nomatch hc⟩)

theorem exec_rceDirect {n : BitVec 5} {s : State} (hr : Ready (.rceDirect n) s) :
    exec (.rceDirect n) s = .next (codePath (results 0#32 0#32 s) (directPath s.x.a0 n.toNat)) :=
  exec_codes (f := rceEncodeDirect s.x.a0 n.toNat) hr rfl rfl (rceEncodeDirect_codes _ _) (directPath_fits _ _ _)

theorem exec_btEnc {n : BitVec 5} {s : State} (hr : Ready (.btEnc n) s) :
    exec (.btEnc n) s = .next (codePath (results 0#32 0#32 s) (treePath s.x.a0 n.toNat s.x.a1)) := by
  obtain ⟨hinv, ⟨_, _, _, htree⟩, _⟩ := id hr
  change s.x.a0.toNat + 2 ^ n.toNat ≤ s.derived.probCount.toNat at htree
  exact exec_codes hr rfl (bind_passed (decide_eq_true (tree_inside_iff.2 htree)))
    (btEncode_codes s.x.a0 s.x.a1 n.toNat) (treePath_fits _ (hinv.probSize ▸ htree))

theorem exec_btRevEnc {n : BitVec 5} {s : State} (hr : Ready (.btRevEnc n) s) :
    exec (.btRevEnc n) s = .next (codePath (results 0#32 0#32 s) (reversePath s.x.a0 n.toNat s.x.a1)) := by
  obtain ⟨hinv, ⟨_, _, _, htree⟩, _⟩ := id hr
  change s.x.a0.toNat + 2 ^ n.toNat ≤ s.derived.probCount.toNat at htree
  exact exec_codes hr rfl (bind_passed (decide_eq_true (tree_inside_iff.2 htree)))
    (btReverseEncode_codes s.x.a0 s.x.a1 n.toNat) (reversePath_fits _ (hinv.probSize ▸ htree))

/-- Settles O32, a lemma a command: the rule codes the path (`Codes`), whose entries lie inside PROB. -/
theorem bitEncoders : Obligations.BitEncoders := by
  unfold Obligations.BitEncoders
  exact ⟨fun _ _ => exec_rceBit, fun _ _ => exec_rceDirect, fun _ _ => exec_btEnc, fun _ _ => exec_btRevEnc⟩

/-! ### Decoding -/

theorem followBit_x (s : State) (c : CodedBit) : (followBit s c).x = s.x := by
  have h (t : State) : (refilled t).x = t.x := by
    unfold refilled takeByte
    split
    · split <;> rfl
    · rfl
  cases c
  · exact h _
  · exact h _

/-- Reading a path leaves the operands and the results alone. -/
theorem Reads.x : ∀ {path : List CodedBit} {s t : State}, Reads s path t → t.x = s.x
  | [], _, _, h => congrArg State.x h
  | c :: _, s, _, ⟨_, h⟩ => h.x.trans (followBit_x s c)

/-- A command whose rule, its checks passed, decodes a value into R0. -/
theorem exec_decodes {i : Instr} {body : Eng Unit} {α : Type} {f : Eng α} {v : α → Word} {n size : Nat}
    {R : α → List CodedBit → Prop} {s : State} (hr : Runnable i s) (hfed : Fed n s)
    (hexec : exec i s = command i (gateOf i) body s)
    (hbody : body (clearResults s) = (f >>= fun a => setR0 (v a)) (clearResults s)) (hf : Decodes f n size R)
    (hsize : size ≤ s.prob.size) :
    ∃ a p t, R a p ∧ Reads (results 0#32 0#32 s) p t ∧ exec i s = .next (results (v a) 0#32 t) := by
  obtain ⟨heof, hbytes⟩ := hfed
  obtain ⟨a, p, t, hR, _, hreads, hrun⟩ := hf (clearResults s) heof hbytes hsize
  refine ⟨a, p, t, hR, hreads, ?_⟩
  have hx : t.x.r1 = 0#32 := congrArg XRegs.r1 hreads.x
  rw [hexec, hr.runs, hbody, Eng.bind_ok hrun, setR0_run, finish_ok, ← hx]
  rfl

theorem exec_rcdBit_reads {s : State} (hinv : Inv s) (hr : Runnable .rcdBit s) (hfed : Fed 1 s) :
    ∃ b t, Reads (results 0#32 0#32 s) [.model s.x.a0 b] t ∧ exec .rcdBit s = .next (results (bitWord b) 0#32 t) := by
  obtain ⟨_, _, _, hindex⟩ := id hr
  change s.x.a0.toNat < s.derived.probCount.toNat at hindex
  rw [← hinv.probSize] at hindex
  obtain ⟨b, _, t, rfl, hreads, hexec⟩ := exec_decodes (v := bitWord) hr hfed rfl
    (bind_passed (decide_eq_true (hinv.probSize ▸ hindex))) (rcdDecodeBit_decodes s.x.a0 _ hindex) (Nat.le_refl _)
  exact ⟨b, t, hreads, hexec⟩

theorem exec_rcdDirect {n : BitVec 5} {s : State} (hr : Runnable (.rcdDirect n) s) (hfed : Fed n.toNat s) :
    ∃ (v : Word) (t : State), v.toNat < 2 ^ n.toNat ∧ Reads (results 0#32 0#32 s) (directPath v n.toNat) t ∧
      exec (.rcdDirect n) s = .next (results v 0#32 t) := by
  obtain ⟨v, _, t, ⟨hv, rfl⟩, hreads, hexec⟩ := exec_decodes (v := id) hr hfed rfl rfl
    (rcdDecodeDirect_decodes n.toNat s.prob.size n.isLt) (Nat.le_refl _)
  exact ⟨v, t, hv, hreads, hexec⟩

/-- A tree command's bit count is in 1..8 (R144). -/
theorem treeCount_of_ok {n : BitVec 5} (h : treeCountOk n = true) : 1 ≤ n.toNat ∧ n.toNat ≤ 8 := by
  rw [treeCountOk, Bool.and_eq_true, decide_eq_true_iff, decide_eq_true_iff] at h
  exact h

theorem exec_btDec {n : BitVec 5} {s : State} (hinv : Inv s) (hr : Runnable (.btDec n) s) (hfed : Fed n.toNat s) :
    ∃ (v : Word) (t : State), v.toNat < 2 ^ n.toNat ∧ Reads (results 0#32 0#32 s) (treePath s.x.a0 n.toNat v) t ∧
      exec (.btDec n) s = .next (results v 0#32 t) := by
  obtain ⟨_, hcount, _, htree⟩ := id hr
  obtain ⟨hpos, _⟩ := treeCount_of_ok hcount
  change s.x.a0.toNat + 2 ^ n.toNat ≤ s.derived.probCount.toNat at htree
  obtain ⟨v, _, t, ⟨hv, rfl⟩, hreads, hexec⟩ := exec_decodes (v := id) hr hfed rfl
    (bind_passed (decide_eq_true (tree_inside_iff.2 htree)))
    (btDecode_decodes s.x.a0 n.toNat s.prob.size hpos n.isLt (hinv.probSize ▸ htree)) (Nat.le_refl _)
  exact ⟨v, t, hv, hreads, hexec⟩

theorem exec_btRevDec {n : BitVec 5} {s : State} (hinv : Inv s) (hr : Runnable (.btRevDec n) s)
    (hfed : Fed n.toNat s) :
    ∃ (v : Word) (t : State), v.toNat < 2 ^ n.toNat ∧ Reads (results 0#32 0#32 s) (reversePath s.x.a0 n.toNat v) t ∧
      exec (.btRevDec n) s = .next (results v 0#32 t) := by
  obtain ⟨_, _, _, htree⟩ := id hr
  change s.x.a0.toNat + 2 ^ n.toNat ≤ s.derived.probCount.toNat at htree
  obtain ⟨v, _, t, ⟨hv, rfl⟩, hreads, hexec⟩ := exec_decodes (v := id) hr hfed rfl
    (bind_passed (decide_eq_true (tree_inside_iff.2 htree)))
    (btReverseDecode_decodes s.x.a0 n.toNat s.prob.size n.isLt (hinv.probSize ▸ htree)) (Nat.le_refl _)
  exact ⟨v, t, hv, hreads, hexec⟩

/-- Settles O33, a lemma a command: the rule reads the path of the value it answers (`Decodes`). -/
theorem bitDecoders : Obligations.BitDecoders := by
  unfold Obligations.BitDecoders
  exact ⟨fun _ => exec_rcdBit_reads, fun _ _ => exec_rcdDirect, fun _ _ => exec_btDec, fun _ _ => exec_btRevDec⟩

end Sys2Proof.Machine
end

section
/-! SUPPORT. DEC_START as a whole (O56): the state it creates, and the five payload bytes it loads. -/

namespace Sys2Proof.Machine

/-! ### The first payload bytes (R288) -/

/-- `k` payload bytes taken into RCD.code. -/
def bytesLoaded (k : Nat) (s : State) : State :=
  { s with
    host := { s.host with src := s.host.src.drop k }
    cnt := { s.cnt with inCount := s.cnt.inCount + BitVec.ofNat 64 k }
    rcd := { s.rcd with
      code := BitVec.ofNat 32 ((s.host.src.take k).foldl (fun c b => c * 256 + b.toNat) s.rcd.code.toNat) } }

theorem bytesLoaded_zero (s : State) : bytesLoaded 0 s = s := by
  rw [bytesLoaded, List.take_zero, List.drop_zero, List.foldl_nil, BitVec.ofNat_toNat, BitVec.setWidth_eq,
    BitVec.add_zero]

/-- A byte shifted into RCD.code, as a number. -/
theorem shiftIn_eq (code : Word) (b : Byte) :
    (code <<< 8) ||| byteWord b = BitVec.ofNat 32 (code.toNat * 256 + b.toNat) := by
  have hb := b.isLt
  apply BitVec.eq_of_toNat_eq
  rw [BitVec.toNat_or, BitVec.toNat_shiftLeft, toNat_byteWord, Nat.shiftLeft_eq, BitVec.toNat_ofNat, Nat.or_comm,
    show code.toNat * 2 ^ 8 % 2 ^ 32 = (code.toNat % 2 ^ 24) <<< 8 by rw [Nat.shiftLeft_eq]; omega,
    or_shiftLeft (n := 8) _ hb]
  omega

/-- Of the number before, RCD.code keeps the low 32 bits. -/
theorem ofNat_foldl_ofNat (l : List Byte) (n : Nat) :
    BitVec.ofNat 32 (l.foldl (fun c b => c * 256 + b.toNat) (BitVec.ofNat 32 n).toNat) =
      BitVec.ofNat 32 (l.foldl (fun c b => c * 256 + b.toNat) n) := by
  rw [spelled_foldl, spelled_foldl, BitVec.ofNat_add, BitVec.ofNat_add, BitVec.ofNat_mul, BitVec.ofNat_mul,
    BitVec.ofNat_toNat, BitVec.setWidth_eq]

theorem bytesLoaded_succ {s : State} {b : Byte} {rest : List Byte} (hsrc : s.host.src = b :: rest) (k : Nat) :
    bytesLoaded k (rcdShiftIn b (bytePopped rest s)) = bytesLoaded (k + 1) s := by
  have hcode := ofNat_foldl_ofNat (rest.take k) (s.rcd.code.toNat * 256 + b.toNat)
  rw [← shiftIn_eq] at hcode
  have hcount : s.cnt.inCount + 1 + BitVec.ofNat 64 k = s.cnt.inCount + BitVec.ofNat 64 (k + 1) := by
    rw [BitVec.add_assoc, Nat.add_comm k, BitVec.ofNat_add]
    rfl
  rw [bytesLoaded, bytesLoaded, hsrc, ← hcount, List.take_succ_cons, List.drop_succ_cons, List.foldl_cons, ← hcode]
  rfl

theorem rcdLoad_succ {s : State} (heof : s.status.srcEof = false) {b : Byte} {rest : List Byte}
    (hsrc : s.host.src = b :: rest) (k : Nat) : rcdLoad (k + 1) s = rcdLoad k (rcdShiftIn b (bytePopped rest s)) :=
  (bind_srcReadOrTruncated heof hsrc _).trans rfl

/-- With the bytes ready `RcdInit` loads them. -/
theorem rcdLoad_run {k : Nat} {s : State} (heof : s.status.srcEof = false) (hlen : k ≤ s.host.src.length) :
    rcdLoad k s = .ok () (bytesLoaded k s) := by
  induction k generalizing s with
  | zero => exact congrArg (EStateM.Result.ok ()) (bytesLoaded_zero s).symm
  | succ k ih =>
    cases hsrc : s.host.src with
    | nil =>
      rw [hsrc] at hlen
      exact absurd hlen (Nat.not_succ_le_zero k)
    | cons b rest =>
      rw [hsrc] at hlen
      rw [rcdLoad_succ heof hsrc, ← bytesLoaded_succ hsrc]
      exact ih heof (Nat.le_of_succ_le_succ hlen)

/-- Where the source ends within them it loads what there is, sees the end and faults (R288). -/
theorem rcdLoad_truncates {k : Nat} {s : State} (heof : s.status.srcEof = false) (hend : s.host.srcEnd = true)
    (hlen : s.host.src.length < k) : rcdLoad k s = .error .ended (faultEntry .truncated
      { bytesLoaded s.host.src.length s with status := { s.status with srcEof := true } }) := by
  induction k generalizing s with
  | zero => exact absurd hlen (Nat.not_lt_zero _)
  | succ k ih =>
    cases hsrc : s.host.src with
    | nil =>
      have hread := srcReadOrTruncated_end (.inr ⟨hsrc, hend⟩)
      rw [rcdLoad, Eng.bind_error hread, List.length_nil, bytesLoaded_zero]
    | cons b rest =>
      rw [hsrc] at hlen
      rw [rcdLoad_succ heof hsrc, List.length_cons, ← bytesLoaded_succ hsrc]
      exact ih heof hend (Nat.lt_of_succ_lt_succ hlen)

/-! ### The state created (R357, R523, R524) -/

/-- The counters a decoder stream begins with: those of HDR_READ, or zeros (R524). -/
def keptCounters (s : State) : Counters :=
  if s.status.hdrOk then s.cnt else { s.cnt with inCount := 0#64, outCount := 0#64 }

/-- The state of DEC_START with `taken` payload bytes taken and `code` in RCD.code. -/
def decStarted (s : State) (eof : Bool) (taken code : Nat) (err : ErrCode) : State :=
  { State.reset with
    host := { s.host with src := s.host.src.drop taken }
    dictCap := s.dictCap
    opts := s.opts
    derived := { posStateMask := BitVec.ofNat 32 (2 ^ s.opts.pb.toNat - 1),
                 litPosMask := BitVec.ofNat 32 (2 ^ s.opts.lp.toNat - 1),
                 probCount := BitVec.ofNat 32 (1846 + 768 * 2 ^ (s.opts.lc.toNat + s.opts.lp.toNat)),
                 numPosStates := BitVec.ofNat 32 (2 ^ s.opts.pb.toNat), lcLatched := s.opts.lc }
    status := { err := err, phase := .dec, srcEof := eof, endSeen := false, hdrOk := false }
    x := (results 0#32 0#32 s).x
    cnt := { keptCounters s with nowPos := 0#64, inCount := (keptCounters s).inCount + BitVec.ofNat 64 taken }
    prob := { size := 1846 + 768 * 2 ^ (s.opts.lc.toNat + s.opts.lp.toNat), cells := [] }
    rcd := { range := 0xFFFFFFFF#32, code := BitVec.ofNat 32 code }
    ow := { size := BitVec.ofNat 32 (max (max s.opts.dictSize.toNat 1) 4096), pos := 0#32,
            dictSizeCheck := BitVec.ofNat 32 (max s.opts.dictSize.toNat 1) }
    owbuf := { size := max (max s.opts.dictSize.toNat 1) 4096, cells := [] } }

theorem toNat_maxW (a b : Word) : (maxW a b).toNat = max a.toNat b.toNat := by
  unfold maxW
  split
  · next h => exact (Nat.max_eq_right h).symm
  · next h => exact (Nat.max_eq_left (Nat.le_of_lt (Nat.lt_of_not_le h))).symm

theorem eq_ofNat_of_toNat {a : Word} {n : Nat} (h : a.toNat = n) : a = BitVec.ofNat 32 n := by
  rw [← h, BitVec.ofNat_toNat, BitVec.setWidth_eq]

theorem streamCounters_eq {s : State} (heof : (s.status.srcEof && s.status.hdrOk) = false) :
    (if s.status.hdrOk then s else clearStreamCounters s) =
      { s with cnt := keptCounters s, status := { s.status with srcEof := false } } := by
  unfold keptCounters clearStreamCounters
  split
  · next hhdr =>
    rw [hhdr, Bool.and_true] at heof
    rw [← heof]
  · rfl

theorem freshOw_eq (o : Options) : freshOw o =
    { size := BitVec.ofNat 32 (max (max o.dictSize.toNat 1) 4096), pos := 0#32,
      dictSizeCheck := BitVec.ofNat 32 (max o.dictSize.toNat 1) } := by
  have hcheck : (maxW o.dictSize 1#32).toNat = max o.dictSize.toNat 1 := toNat_maxW _ _
  rw [freshOw, eq_ofNat_of_toNat ((toNat_maxW _ _).trans (congrArg (max · 4096) hcheck)), eq_ofNat_of_toNat hcheck]
  rfl

theorem freshOw_size (o : Options) : (freshOw o).size.toNat = max (max o.dictSize.toNat 1) 4096 :=
  (toNat_maxW _ _).trans (congrArg (max · 4096) (toNat_maxW o.dictSize 1#32))

theorem DerivedFrom.freshProb {d : Derived} {o : Options} (h : DerivedFrom d o) :
    freshProb d = { size := 1846 + 768 * 2 ^ (o.lc.toNat + o.lp.toNat), cells := [] } := by
  rw [Machine.freshProb, h.probCount]
  rfl

/-- No byte taken yet. -/
theorem inCount_add_none (c : Counters) : c.inCount + BitVec.ofNat 64 0 = c.inCount := BitVec.add_zero _

theorem decCreated_eq {s : State} (he : s.status.err = .none) (ho : DerivedFrom (derivedOf s.opts) s.opts)
    (heof : (s.status.srcEof && s.status.hdrOk) = false) :
    decCreated (clearResults s) = decStarted s false 0 0 .none := by
  rw [decCreated, decClear, streamCounters_eq (s := clearResults s) heof]
  rw [decStarted, inCount_add_none, ← ho.values, ← ho.freshProb, ← freshOw_eq, ← freshOw_size, ← he]
  rfl

/-! ### DEC_START as a whole -/

theorem exec_decStart {s : State} (he : s.status.err = .none) (hg : Gate.startD.accepts s) :
    exec .decStart s = finish (decStart (clearResults s)) :=
  command_runs he rfl ((gate_clearResults _ _).trans ((gate_run_iff _ _).2 hg)) _

theorem decOptionsLegal_iff (o : Options) (cap : Nat) : decOptionsLegal o cap = true ↔
    o.lc.toNat ≤ 8 ∧ o.lp.toNat ≤ 4 ∧ o.pb.toNat ≤ 4 ∧ o.dictSize.toNat ≤ cap := by
  simp only [decOptionsLegal, Bool.and_eq_true, decide_eq_true_eq, and_assoc]

theorem exec_decStart_illegal {s : State} (he : s.status.err = .none) (hg : Gate.startD.accepts s)
    (hbad : decOptionsLegal s.opts s.dictCap = false) :
    exec .decStart s = .next { results 0#32 0#32 s with status := { s.status with err := .cfgInvalid } } := by
  have hbad' : decOptionsLegal (clearResults s).opts (clearResults s).dictCap = false := hbad
  rw [exec_decStart he hg, decStart_run, hbad', if_neg Bool.false_ne_true, finish_ended, faultEntry_clearResults he]

theorem exec_decStart_legal {s : State} (he : s.status.err = .none) (hg : Gate.startD.accepts s)
    (hlegal : decOptionsLegal s.opts s.dictCap = true) (heof : (s.status.srcEof && s.status.hdrOk) = false) :
    exec .decStart s = finish (rcdLoad 5 (decStarted s false 0 0 .none)) := by
  have hlegal' : decOptionsLegal (clearResults s).opts (clearResults s).dictCap = true := hlegal
  obtain ⟨hlc, hlp, hpb, -⟩ := (decOptionsLegal_iff _ _).1 hlegal
  rw [exec_decStart he hg, decStart_run, if_pos hlegal', decCreated_eq he ⟨hlc, hlp, hpb, rfl⟩ heof]

/-- The bytes loaded into a decoder just created. -/
theorem bytesLoaded_decStarted (s : State) (k : Nat) : bytesLoaded k (decStarted s false 0 0 .none) =
    decStarted s false k ((s.host.src.take k).foldl (fun c b => c * 256 + b.toNat) 0) .none := by
  rw [decStarted, inCount_add_none]
  rfl

/-- Of five bytes RCD.code keeps the last four. -/
theorem fiveBytes_code (b0 b1 b2 b3 b4 : Byte) :
    BitVec.ofNat 32 ([b0, b1, b2, b3, b4].foldl (fun c b => c * 256 + b.toNat) 0) =
      BitVec.ofNat 32 (b1.toNat * 2 ^ 24 + b2.toNat * 2 ^ 16 + b3.toNat * 2 ^ 8 + b4.toNat) := by
  apply BitVec.eq_of_toNat_eq
  rw [BitVec.toNat_ofNat, BitVec.toNat_ofNat]
  simp only [List.foldl_cons, List.foldl_nil]
  omega

theorem decStarted_fiveBytes {s : State} {b0 b1 b2 b3 b4 : Byte} {rest : List Byte}
    (hsrc : s.host.src = b0 :: b1 :: b2 :: b3 :: b4 :: rest) :
    bytesLoaded 5 (decStarted s false 0 0 .none) = decStarted s false 5
      (b1.toNat * 2 ^ 24 + b2.toNat * 2 ^ 16 + b3.toNat * 2 ^ 8 + b4.toNat) .none := by
  have hfive : s.host.src.take 5 = [b0, b1, b2, b3, b4] := by
    rw [hsrc]
    rfl
  rw [bytesLoaded_decStarted, hfive, decStarted, fiveBytes_code]
  rfl

theorem decStarted_truncated {s : State} : faultEntry .truncated
      { bytesLoaded s.host.src.length (decStarted s false 0 0 .none) with
        status := { (decStarted s false 0 0 .none).status with srcEof := true } } =
    decStarted s true s.host.src.length (s.host.src.foldl (fun c b => c * 256 + b.toNat) 0) .truncated := by
  rw [bytesLoaded_decStarted, List.take_length]
  rfl

/-- Settles O56: DEC_START from its options, the state it creates and the bytes it loads. -/
theorem decStartState : Obligations.DecStartState := by
  unfold Obligations.DecStartState
  intro s he hg
  refine ⟨fun hbad => exec_decStart_illegal he hg (Bool.eq_false_iff.2 fun hlegal => ?_), ?_⟩
  · obtain ⟨hlc, hlp, hpb, hdict⟩ := (decOptionsLegal_iff _ _).1 hlegal
    omega
  · intro hlc hlp hpb hdict probs check kept t heof
    have hrun := exec_decStart_legal he hg ((decOptionsLegal_iff _ _).2 ⟨hlc, hlp, hpb, hdict⟩) heof
    refine ⟨fun b0 b1 b2 b3 b4 rest hsrc => ?_, fun hshort hend => ?_⟩
    · have hfive : 5 ≤ (decStarted s false 0 0 .none).host.src.length := by
        rw [show (decStarted s false 0 0 .none).host.src = s.host.src from rfl, hsrc]
        exact Nat.le_add_left 5 rest.length
      rw [hrun, rcdLoad_run rfl hfive, finish_ok, decStarted_fiveBytes hsrc]
      rfl
    · have hload := rcdLoad_truncates (k := 5) (s := decStarted s false 0 0 .none) rfl hend hshort
      rw [hrun, hload, finish_ended]
      exact congrArg Host.Outcome.next decStarted_truncated

end Sys2Proof.Machine
end

section
/-! SUPPORT. The frame of the commands that code or decode bits (O18). The rules of the coders lie in every class closed
under the updates of their own parts of the state; that the rest of the state stays is such a class. -/

namespace Sys2Proof.Machine

/-! ### What the coders leave alone -/

/-- All but what coding bits changes, and what fault entry writes of STATUS (R284, R285). -/
def codedRest (s : State) : State :=
  { s with
    prob := Ram.none, rce := RceRegs.reset
    host := { s.host with sink := [], sinkRoom := none }
    cnt := { s.cnt with outCount := 0 }
    status := { s.status with err := .none } }

/-- And but the length prices and counters (R402). -/
def lenCodedRest (s : State) : State := { codedRest s with price := PriceRams.reset }

/-- And but R0 (R399). -/
def distCodedRest (s : State) : State := { codedRest s with x := { s.x with r0 := 0 } }

/-- All but what decoding bits changes, and what fault entry writes of STATUS (R290 to R292). -/
def decodedRest (s : State) : State :=
  { s with
    prob := Ram.none, rcd := RcdRegs.reset
    host := { s.host with src := [] }
    cnt := { s.cnt with inCount := 0 }
    status := { s.status with err := .none, srcEof := false }
    x := { s.x with r0 := 0 } }

/-! ### The range encoder -/

/-- A class closed under updates that keep `π`, and under sink writes. -/
structure Emits {ι γ : Type} (π : State → γ) (φ : ι → State → State) (C : ∀ {α : Type}, Eng α → Prop) : Prop
    extends Acts π φ C where
  sinkWrite : ∀ b, C (sinkWrite b)

theorem Emits.mono {ι γ : Type} {π : State → γ} {ρ : State → State} {φ : ι → State → State}
    {C : ∀ {α : Type}, Eng α → Prop} (h : Emits π φ C) (hρ : ∀ s, π (ρ s) = π s) : Emits ρ φ C :=
  { h.toActs.mono hρ with sinkWrite := h.sinkWrite }

namespace Emits
variable {C : ∀ {α : Type}, Eng α → Prop} (h : Emits codedRest withRoom C)
include h

theorem rceEmit : ∀ (k : Nat) (t carry : Byte), C (rceEmit k t carry)
  | 0, _, _ => h.pure ()
  | k + 1, _, _ => h.bind (h.sinkWrite _) fun _ => h.bind h.put fun _ => rceEmit k _ _

theorem rceShiftLow : C rceShiftLow :=
  h.look_bind fun _ => h.when_bind (h.rceEmit _ _ _) (fun _ => h.put) fun _ => h.put

theorem rceNormalize : C rceNormalize :=
  h.look_bind fun _ => h.ite (h.bind h.put fun _ => h.rceShiftLow) (h.pure ())

theorem rceEncodeBit (i : Word) (b : Bool) : C (rceEncodeBit i b) :=
  h.bind (h.shared.probRead _) fun _ => h.bind h.put fun _ => h.bind h.ramWrite fun _ => h.rceNormalize

theorem rceEncodeDirect (v : Word) : ∀ n : Nat, C (rceEncodeDirect v n)
  | 0 => h.pure ()
  | n + 1 => h.bind h.put fun _ => h.bind h.rceNormalize fun _ => rceEncodeDirect v n

theorem btEncodeFrom (base sym : Word) : ∀ (k : Nat) (m : Word), C (btEncodeFrom base sym k m)
  | 0, _ => h.pure ()
  | k + 1, _ => h.bind (h.rceEncodeBit _ _) fun _ => btEncodeFrom base sym k _

theorem btEncode (base : Word) (n : Nat) (sym : Word) : C (btEncode base n sym) := h.btEncodeFrom base sym n _

theorem btReverseEncodeFrom (base sym : Word) :
    ∀ (left k : Nat) (m : Word), C (btReverseEncodeFrom base sym left k m)
  | 0, _, _ => h.pure ()
  | left + 1, _, _ => h.bind (h.rceEncodeBit _ _) fun _ => btReverseEncodeFrom base sym left _ _

theorem btReverseEncode (base : Word) (n : Nat) (sym : Word) : C (btReverseEncode base n sym) :=
  h.btReverseEncodeFrom base sym n _ _

theorem litEncodeFrom (lb : Word) (sym : Byte) : ∀ (n : Nat) (c : Word), C (litEncodeFrom lb sym n c)
  | 0, _ => h.pure ()
  | n + 1, _ => h.bind (h.rceEncodeBit _ _) fun _ => litEncodeFrom lb sym n _

theorem litEncodeMatchedFrom (lb : Word) (mb sym : Byte) :
    ∀ (n : Nat) (c : Word) (same : Bool), C (litEncodeMatchedFrom lb mb sym n c same)
  | 0, _, _ => h.pure ()
  | n + 1, _, _ => h.bind (h.rceEncodeBit _ _) fun _ => litEncodeMatchedFrom lb mb sym n _ _

theorem lenEncode (l sym ps : Word) : C (lenEncode l sym ps) :=
  h.ite (h.bind (h.rceEncodeBit _ _) fun _ => h.btEncode _ _ _)
    (h.ite (h.bind (h.rceEncodeBit _ _) fun _ => h.bind (h.rceEncodeBit _ _) fun _ => h.btEncode _ _ _)
      (h.bind (h.rceEncodeBit _ _) fun _ => h.bind (h.rceEncodeBit _ _) fun _ => h.btEncode _ _ _))

theorem distEncode (dist len : Word) : C (distEncode dist len) :=
  h.bind (h.btEncode _ _ _) fun _ => h.ite (h.pure _)
    (h.ite (h.bind (h.btReverseEncode _ _ _) fun _ => h.pure _)
      (h.bind (h.rceEncodeDirect _ _) fun _ => h.bind (h.btReverseEncode _ _ _) fun _ => h.pure _))

end Emits

/-! ### The length prices -/

namespace Acts
variable {C : ∀ {α : Type}, Eng α → Prop} (h : Acts lenCodedRest withRoom C)
include h

theorem lenCounterWrite (k : Bool) (i v : Word) : C (lenCounterWrite k i v) := h.ite h.ramWrite h.ramWrite

theorem fillLen (k : Bool) (ps i : Word) : C (fillLen k ps i) :=
  h.bind (h.shared.lenPrice _ _ _) fun _ => h.ite h.ramWrite h.ramWrite

theorem updateLenTable (k : Bool) (ps : Word) : C (updateLenTable k ps) :=
  h.look_bind fun _ => h.bind (h.shared.forUp (h.fillLen _ _) _ _) fun _ => h.lenCounterWrite _ _ _

theorem lenCountDown (k : Bool) (ps : Word) : C (lenCountDown k ps) :=
  h.bind (h.lenCounterRead _ _) fun _ => h.bind (h.lenCounterWrite _ _ _) fun _ =>
    h.ite (h.updateLenTable _ _) (h.pure ())

end Acts

/-! ### The range decoder -/

namespace Refills
variable {C : ∀ {α : Type}, Eng α → Prop} (h : Refills decodedRest withEncoder C)
include h

theorem srcReadOrTruncated : C srcReadOrTruncated :=
  h.bind h.srcRead fun
    | some b => h.pure b
    | none => h.raise _

theorem rcdNormalizeIfLow : C rcdNormalizeIfLow :=
  h.look_bind fun _ => h.ite (h.bind h.srcReadOrTruncated fun _ => h.bind h.put fun _ => h.put) (h.pure ())

theorem rcdDecodeBit (i : Word) : C (rcdDecodeBit i) :=
  h.bind (h.probRead _) fun _ => h.look_bind fun _ => h.bind h.put fun _ => h.bind h.ramWrite fun _ =>
    h.bind h.rcdNormalizeIfLow fun _ => h.pure _

theorem rcdDirectLoop : ∀ (n : Nat) (v : Word), C (rcdDirectLoop n v)
  | 0, v => h.pure v
  | n + 1, _ => h.look_bind fun _ => h.bind h.put fun _ => h.bind h.rcdNormalizeIfLow fun _ => rcdDirectLoop n _

theorem btDecodeFrom (base : Word) : ∀ (k : Nat) (m : Word), C (btDecodeFrom base k m)
  | 0, m => h.pure m
  | k + 1, _ => h.bind (h.rcdDecodeBit _) fun _ => btDecodeFrom base k _

theorem btDecode (base : Word) (n : Nat) : C (btDecode base n) := h.bind (h.btDecodeFrom base n _) fun _ => h.pure _

theorem btReverseDecodeFrom (base : Word) :
    ∀ (left k : Nat) (m sym : Word), C (btReverseDecodeFrom base left k m sym)
  | 0, _, _, sym => h.pure sym
  | left + 1, _, _, _ => h.bind (h.rcdDecodeBit _) fun _ => btReverseDecodeFrom base left _ _ _

theorem btReverseDecode (base : Word) (n : Nat) : C (btReverseDecode base n) := h.btReverseDecodeFrom base n _ _ _

theorem litDecodeFrom (lb : Word) : ∀ (n : Nat) (c : Word), C (litDecodeFrom lb n c)
  | 0, c => h.pure c
  | n + 1, _ => h.bind (h.rcdDecodeBit _) fun _ => litDecodeFrom lb n _

theorem litDecode (lb : Word) : C (litDecode lb) := h.bind (h.litDecodeFrom lb 8 _) fun _ => h.pure _

theorem litDecodeMatchedFrom (lb : Word) (mb : Byte) :
    ∀ (n : Nat) (c : Word) (same : Bool), C (litDecodeMatchedFrom lb mb n c same)
  | 0, c, _ => h.pure c
  | n + 1, _, _ => h.bind (h.rcdDecodeBit _) fun _ => litDecodeMatchedFrom lb mb n _ _

theorem litDecodeMatched (lb : Word) (mb : Byte) : C (litDecodeMatched lb mb) :=
  h.bind (h.litDecodeMatchedFrom lb mb 8 _ _) fun _ => h.pure _

theorem lenDecode (l ps : Word) : C (lenDecode l ps) :=
  h.bind (h.rcdDecodeBit _) fun _ => h.ite
    (h.bind (h.rcdDecodeBit _) fun _ =>
      h.ite (h.bind (h.btDecode _ _) fun _ => h.pure _) (h.bind (h.btDecode _ _) fun _ => h.pure _))
    (h.btDecode _ _)

theorem distDecode (len : Word) : C (distDecode len) :=
  h.bind (h.btDecode _ _) fun _ => h.ite (h.pure _)
    (h.ite (h.bind (h.btReverseDecode _ _) fun _ => h.pure _)
      (h.bind (h.rcdDirectLoop _ _) fun _ => h.bind (h.btReverseDecode _ _) fun _ => h.pure _))

end Refills

/-! ### The rest of the state stays -/

/-- `V` shows of `t` what it shows of `s` with its results cleared. -/
def SameRest (V : State → State) (s t : State) : Prop := V t = V (clearResults s)

/-- A view that shows nothing of what fault entry writes but R0 and R1 cleared. -/
structure FaultBlind (V : State → State) : Prop where
  fault : ∀ c t, V (faultEntry c t) = V (clearResults t)
  clear : ∀ t, V (clearResults t) = V (clearResults (V t))

theorem FaultBlind.sameRest {V : State → State} (hV : FaultBlind V) (c : ErrCode) {s t : State}
    (h : SameRest V s t) : SameRest V s (faultEntry c t) := by
  have hshown : V (clearResults t) = V (clearResults (clearResults s)) := by
    rw [hV.clear t, hV.clear (clearResults s), h]
  exact (hV.fault c t).trans hshown

theorem FaultBlind.acts {ι : Type} {φ : ι → State → State} {V : State → State} (hV : FaultBlind V) (s : State) :
    Acts V φ (Preserves (SameRest V s)) where
  pure := .pure
  bind := .bind
  look := fun _ _ ht => ht
  raise := fun c _ _ ht => hV.sameRest c ht
  update := fun hu _ => .put fun t ht => (hu t).trans ht

/-- A command whose rule keeps what `V` shows does. -/
theorem FaultBlind.command {V : State → State} (hV : FaultBlind V) {i : Instr} {g : Gate} {body : Eng Unit}
    {s t : State} (ht : command i g body s = .next t) (hb : Preserves (SameRest V s) body) : SameRest V s t :=
  Preserves.command ht (fun _ => hb _ rfl) rfl fun c => hV.sameRest c rfl

theorem FaultBlind.emits {ι : Type} {φ : ι → State → State} {V : State → State} (hV : FaultBlind V) (s : State)
    (hsink : ∀ b room t, V { t with
      host := { t.host with sink := b :: t.host.sink, sinkRoom := room }
      cnt := { t.cnt with outCount := t.cnt.outCount + 1 } } = V t) :
    Emits V φ (Preserves (SameRest V s)) :=
  { hV.acts s with
    sinkWrite := fun b t ht => by
      rcases sinkWrite_cases b t with ⟨room, _, e, _⟩ | ⟨_, e⟩ <;> rw [e]
      · exact (hsink b room t).trans ht
      · trivial }

theorem codedRest_blind : FaultBlind codedRest where
  fault := fun c t => by rw [faultEntry_eq]; rfl
  clear := fun _ => rfl

theorem lenCodedRest_blind : FaultBlind lenCodedRest where
  fault := fun c t => by rw [faultEntry_eq]; rfl
  clear := fun _ => rfl

theorem distCodedRest_blind : FaultBlind distCodedRest where
  fault := fun c t => by rw [faultEntry_eq]; rfl
  clear := fun _ => rfl

theorem decodedRest_blind : FaultBlind decodedRest where
  fault := fun c t => by rw [faultEntry_eq]; rfl
  clear := fun _ => rfl

theorem coded_emits (s : State) : Emits codedRest withRoom (Preserves (SameRest codedRest s)) :=
  codedRest_blind.emits s fun _ _ _ => rfl

theorem lenCoded_emits (s : State) : Emits lenCodedRest withRoom (Preserves (SameRest lenCodedRest s)) :=
  lenCodedRest_blind.emits s fun _ _ _ => rfl

theorem distCoded_emits (s : State) : Emits distCodedRest withRoom (Preserves (SameRest distCodedRest s)) :=
  distCodedRest_blind.emits s fun _ _ _ => rfl

theorem decoded_refills (s : State) : Refills decodedRest withEncoder (Preserves (SameRest decodedRest s)) :=
  { decodedRest_blind.acts s with
    srcRead := fun t ht => by
      rcases srcRead_cases t with ⟨_, e⟩ | ⟨_, _, _, _, e⟩ | ⟨_, _, _, e⟩ | ⟨_, _, _, e⟩ <;> rw [e]
      · exact ht
      · exact ht
      · exact ht
      · trivial }

/-! ### The commands -/

theorem lenEnc_rest {sel : Bool} {s t : State} (ht : exec (.lenEnc sel) s = .next t) : SameRest lenCodedRest s t :=
  have h := lenCoded_emits s
  have hc : Emits codedRest withRoom (Preserves (SameRest lenCodedRest s)) := h.mono fun _ => rfl
  lenCodedRest_blind.command ht (h.look_bind fun _ => h.look_bind fun _ => h.bind (h.check _ _) fun _ =>
    h.bind (h.check_of _) fun _ => h.bind (hc.lenEncode _ _ _) fun _ => h.lenCountDown _ _)

theorem distEnc_rest {s t : State} (ht : exec .distEnc s = .next t) : SameRest distCodedRest s t :=
  have h := distCoded_emits s
  have hc : Emits codedRest withRoom (Preserves (SameRest distCodedRest s)) := h.mono fun _ => rfl
  distCodedRest_blind.command ht (h.look_bind fun _ => h.look_bind fun _ => h.bind (h.check _ _) fun _ =>
    h.bind (hc.distEncode _ _) fun _ => h.put)

theorem codesBits_rest {s t : State} : ∀ {i : Instr}, codesBits i = true → (∀ sel, i ≠ .lenEnc sel) → i ≠ .distEnc →
    exec i s = .next t → SameRest codedRest s t
  | .rceBit _, _, _, _, ht => codedRest_blind.command ht <|
    have h := coded_emits s
    h.look_bind fun _ => h.bind (h.check_of _) fun _ => h.rceEncodeBit _ _
  | .rceDirect _, _, _, _, ht => codedRest_blind.command ht <|
    have h := coded_emits s
    h.look_bind fun _ => h.rceEncodeDirect _ _
  | .btEnc _, _, _, _, ht => codedRest_blind.command ht <|
    have h := coded_emits s
    h.look_bind fun _ => h.look_bind fun _ => h.bind (h.check_of _) fun _ => h.btEncode _ _ _
  | .btRevEnc _, _, _, _, ht => codedRest_blind.command ht <|
    have h := coded_emits s
    h.look_bind fun _ => h.look_bind fun _ => h.bind (h.check_of _) fun _ => h.btReverseEncode _ _ _
  | .litEnc, _, _, _, ht => codedRest_blind.command ht <|
    have h := coded_emits s
    h.look_bind fun _ => h.look_bind fun _ => h.look_bind fun _ => h.bind (h.check _ _) fun _ =>
      h.bind (h.check _ _) fun _ => h.look_bind fun _ => h.litEncodeFrom _ _ _ _
  | .litEncM, _, _, _, ht => codedRest_blind.command ht <|
    have h := coded_emits s
    h.look_bind fun _ => h.look_bind fun _ => h.look_bind fun _ => h.look_bind fun _ => h.bind (h.check _ _) fun _ =>
      h.bind (h.check _ _) fun _ => h.bind (h.check _ _) fun _ => h.look_bind fun _ =>
        h.litEncodeMatchedFrom _ _ _ _ _ _
  | .lenEnc sel, _, hl, _, _ => absurd rfl (hl sel)
  | .distEnc, _, _, hd, _ => absurd rfl hd

theorem readsBits_rest {s t : State} : ∀ {i : Instr}, readsBits i = true → exec i s = .next t →
    SameRest decodedRest s t
  | .rcdBit, _, ht => decodedRest_blind.command ht <|
    have h := decoded_refills s
    h.look_bind fun _ => h.bind (h.check_of _) fun _ => h.bind (h.rcdDecodeBit _) fun _ => h.put
  | .rcdDirect _, _, ht => decodedRest_blind.command ht <|
    have h := decoded_refills s
    h.bind (h.rcdDirectLoop _ _) fun _ => h.put
  | .btDec _, _, ht => decodedRest_blind.command ht <|
    have h := decoded_refills s
    h.look_bind fun _ => h.bind (h.check_of _) fun _ => h.bind (h.btDecode _ _) fun _ => h.put
  | .btRevDec _, _, ht => decodedRest_blind.command ht <|
    have h := decoded_refills s
    h.look_bind fun _ => h.bind (h.check_of _) fun _ => h.bind (h.btReverseDecode _ _) fun _ => h.put
  | .litDec, _, ht => decodedRest_blind.command ht <|
    have h := decoded_refills s
    h.look_bind fun _ => h.look_bind fun _ => h.bind (h.check _ _) fun _ => h.look_bind fun _ =>
      h.bind (h.litDecode _) fun _ => h.put
  | .litDecM, _, ht => decodedRest_blind.command ht <|
    have h := decoded_refills s
    h.look_bind fun _ => h.look_bind fun _ => h.look_bind fun _ => h.bind (h.check _ _) fun _ =>
      h.bind (h.check _ _) fun _ => h.look_bind fun _ => h.bind (h.litDecodeMatched _ _) fun _ => h.put
  | .lenDec _, _, ht => decodedRest_blind.command ht <|
    have h := decoded_refills s
    h.look_bind fun _ => h.bind (h.check_of _) fun _ => h.bind (h.lenDecode _ _) fun _ => h.put
  | .distDec, _, ht => decodedRest_blind.command ht <|
    have h := decoded_refills s
    h.look_bind fun _ => h.bind (h.check _ _) fun _ => h.bind (h.distDecode _) fun _ => h.put

/-! ### The frame -/

/-- `s` with what `t` has of the parts that coding bits changes. -/
def bitsCoded (t s : State) : State :=
  { s with
    prob := t.prob, rce := t.rce, price := t.price
    host := { s.host with sink := t.host.sink, sinkRoom := t.host.sinkRoom }
    cnt := { s.cnt with outCount := t.cnt.outCount }
    status := { s.status with err := t.status.err }
    x := { s.x with r0 := t.x.r0 } }

/-- `s` with what `t` has of the parts that decoding bits changes. -/
def bitsRead (t s : State) : State :=
  { s with
    prob := t.prob, rcd := t.rcd
    host := { s.host with src := t.host.src }
    cnt := { s.cnt with inCount := t.cnt.inCount }
    status := { s.status with err := t.status.err, srcEof := t.status.srcEof }
    x := { s.x with r0 := t.x.r0 } }

theorem SameRest.coded {s t : State} (h : SameRest codedRest s t) :
    t = bitsCoded t (clearResults s) ∧ t.price = s.price ∧ t.x.r0 = 0#32 := by
  have hprice := congrArg State.price h
  have hx := congrArg State.x h
  have hr0 := congrArg XRegs.r0 hx
  have hcopied : bitsCoded t (codedRest t) = bitsCoded t (codedRest (clearResults s)) := congrArg (bitsCoded t) h
  exact ⟨hcopied, hprice, hr0⟩

theorem SameRest.lenCoded {s t : State} (h : SameRest lenCodedRest s t) :
    t = bitsCoded t (clearResults s) ∧ t.x.r0 = 0#32 := by
  have hx := congrArg State.x h
  have hr0 := congrArg XRegs.r0 hx
  have hcopied : bitsCoded t (lenCodedRest t) = bitsCoded t (lenCodedRest (clearResults s)) := congrArg (bitsCoded t) h
  exact ⟨hcopied, hr0⟩

theorem SameRest.distCoded {s t : State} (h : SameRest distCodedRest s t) :
    t = bitsCoded t (clearResults s) ∧ t.price = s.price := by
  have hprice := congrArg State.price h
  have hcopied : bitsCoded t (distCodedRest t) = bitsCoded t (distCodedRest (clearResults s)) :=
    congrArg (bitsCoded t) h
  exact ⟨hcopied, hprice⟩

theorem SameRest.decoded {s t : State} (h : SameRest decodedRest s t) : t = bitsRead t (clearResults s) :=
  have hcopied : bitsRead t (decodedRest t) = bitsRead t (decodedRest (clearResults s)) := congrArg (bitsRead t) h
  hcopied

theorem codesBits_frame {i : Instr} {s t : State} (hi : codesBits i = true) (ht : exec i s = .next t) :
    t = bitsCoded t (clearResults s) ∧
    ((∀ sel, i ≠ .lenEnc sel) → t.price = s.price) ∧ (i ≠ .distEnc → t.x.r0 = 0#32) := by
  by_cases hlen : ∀ sel, i ≠ .lenEnc sel
  · by_cases hdist : i = .distEnc
    · subst hdist
      obtain ⟨heq, hprice⟩ := (distEnc_rest ht).distCoded
      exact ⟨heq, fun _ => hprice, fun hne => absurd rfl hne⟩
    · obtain ⟨heq, hprice, hr0⟩ := (codesBits_rest hi hlen hdist ht).coded
      exact ⟨heq, fun _ => hprice, fun _ => hr0⟩
  · obtain ⟨sel, hsel⟩ := not_forall.1 hlen
    rw [not_not.1 hsel] at ht
    obtain ⟨heq, hr0⟩ := (lenEnc_rest ht).lenCoded
    exact ⟨heq, fun h => absurd h hlen, fun _ => hr0⟩

/-- Settles O18: the coders' rules change their own parts, command by command (`codesBits_frame`, `readsBits_rest`). -/
theorem coderFrame : Obligations.CoderFrame := by
  unfold Obligations.CoderFrame
  exact ⟨fun i s t hi ht => codesBits_frame hi ht, fun i s t hi ht => (readsBits_rest hi ht).decoded⟩

end Sys2Proof.Machine
end

section
/-! SUPPORT. ENC_SYMBOL and ENC_FINISH (O51): the branches of `EncodeSymbol` run step by step, each step in the context
its symbol began in. -/

namespace Sys2Proof.Machine

/-! ### The context of a symbol -/

/-- What coding a symbol's bits reads of the state besides PROB, and leaves as it was (R480). -/
structure SymbolContext where
  cstate : CState
  rep : Reps
  enc : EncRegs
  win : WinRegs
  wbuf : Ram Byte 0#8
  derived : Derived
  nowPos : DWord

def symbolContext (s : State) : SymbolContext :=
  { cstate := s.cstate, rep := s.rep, enc := s.enc, win := s.win, wbuf := s.wbuf, derived := s.derived
    nowPos := s.cnt.nowPos }

theorem symbolContext_codePath (path : List CodedBit) (s : State) :
    symbolContext (codePath s path) = symbolContext s := by
  have h := congrArg symbolContext (codePath_eq_coderPart path s)
  exact h

theorem symbolContext_countedDown (k : Bool) (ps : Word) (s : State) :
    symbolContext (countedDown k ps s) = symbolContext s := by
  unfold countedDown lengthsRefreshed setLengthCounter
  cases k <;>
  · dsimp only
    split <;> rfl

/-- With the same window a state reads the same bytes. -/
theorem winGetByte_same {s t : State} (hwin : t.win = s.win) (hwbuf : t.wbuf = s.wbuf) {i : Word}
    (hi : windowIndex s i < s.wbuf.size) : winGetByte i t = .ok (windowByte s i) t := by
  have hindex : windowIndex t i = windowIndex s i := by rw [windowIndex, hwin, windowIndex]
  have hbyte : windowByte t i = windowByte s i := by rw [windowByte, hindex, hwbuf, windowByte]
  rw [winGetByte_run (by rw [hindex, hwbuf]; exact hi), hbyte]

/-- `t` is an encoder on its way through the bits of a symbol that began in `s`. -/
structure MidSymbol (s t : State) : Prop where
  encodes : Encodes t
  same : symbolContext t = symbolContext s

namespace MidSymbol
variable {s t : State}

theorem start (h : Encodes s) : MidSymbol s s := ⟨h, rfl⟩

variable (h : MidSymbol s t)
include h

theorem cstate : t.cstate = s.cstate := congrArg SymbolContext.cstate h.same

theorem rep : t.rep = s.rep := congrArg SymbolContext.rep h.same

theorem enc : t.enc = s.enc := congrArg SymbolContext.enc h.same

theorem derived : t.derived = s.derived := congrArg SymbolContext.derived h.same

theorem nowPos : t.cnt.nowPos = s.cnt.nowPos := congrArg SymbolContext.nowPos h.same

theorem winGetByte {i : Word} (hi : windowIndex s i < s.wbuf.size) : winGetByte i t = .ok (windowByte s i) t :=
  winGetByte_same (congrArg SymbolContext.win h.same) (congrArg SymbolContext.wbuf h.same) hi

theorem coded {f : Eng Unit} {path : List CodedBit} (hf : Codes f path) (hfit : PathFits 1846 path)
    (hkept : Preserves Inv f) : MidSymbol s (codePath t path) :=
  ⟨h.encodes.coded hf hfit hkept, (symbolContext_codePath path t).trans h.same⟩

theorem bit {i : Word} (hi : i.toNat < 1846) (b : Bool) :
    rceEncodeBit i b t = .ok () (codePath t [.model i b]) ∧ MidSymbol s (codePath t [.model i b]) :=
  have hfit : PathFits 1846 [.model i b] := pathFits_cons.2 ⟨hi, fun _ hc => nomatch hc⟩
  ⟨h.encodes.codes (Codes.bit i b) hfit, h.coded (Codes.bit i b) hfit (inv_stable.rceEncodeBit i b)⟩

theorem countDown (k : Bool) {ps : Word} (hps : ps.toNat < 16) :
    lenCountDown k ps t = .ok () (countedDown k ps t) ∧ MidSymbol s (countedDown k ps t) :=
  ⟨h.encodes.countDown k hps, h.encodes.countedDown k hps, (symbolContext_countedDown k ps t).trans h.same⟩

end MidSymbol

/-! ### The entries of PROB (R358) -/

theorem entryOf_lt {base : Nat} (hbase : base + 16 ≤ 1846) (st : CState) : (entryOf base st).toNat < 1846 := by
  have hst := st.isLt
  rw [entryOf, BitVec.toNat_ofNat]
  omega

theorem stateEntry_add (s : State) (base : Nat) (st : CState) (ps : Word) :
    BitVec.ofNat 32 base + stateEntry s 0 st ps = stateEntry s base st ps := by
  rw [stateEntry, stateEntry, ← BitVec.ofNat_add, Nat.zero_add, Nat.add_assoc]

namespace Encodes
variable {s : State} (h : Encodes s)
include h

theorem stateEntry_lt : (stateEntry s 0 s.cstate (posState s)).toNat < 192 := by
  obtain ⟨pb, hpb⟩ := h.inv.posStateMask h.phase
  exact Machine.stateEntry_lt hpb h.inv.coderState (Machine.posState_lt hpb)

theorem repLong_lt : (stateEntry s 240 s.cstate (posState s)).toNat < 1846 := by
  have hlt := h.stateEntry_lt
  have hadd := toNat_add_le (BitVec.ofNat 32 240) (stateEntry s 0 s.cstate (posState s))
  rw [stateEntry_add] at hadd
  exact hadd.trans_lt (Nat.add_lt_add_left hlt _ |>.trans (by decide))

end Encodes

/-! ### The choice of a rep (R387) -/

/-- The bits after IsRep. -/
def repChoicePath (s : State) (len back : Word) : List CodedBit :=
  if back = 0#32 then
    [.model (entryOf 204 s.cstate) false, .model (stateEntry s 240 s.cstate (posState s)) (len != 1#32)]
  else .model (entryOf 204 s.cstate) true ::
    if back = 1#32 then [.model (entryOf 216 s.cstate) false]
    else [.model (entryOf 216 s.cstate) true, .model (entryOf 228 s.cstate) (back != 2#32)]

theorem repChoicePath_shortRep (s : State) :
    repChoicePath s 1#32 0#32 = shortRepBits s s.cstate (posState s) := rfl

theorem repChoicePath_rep (s : State) {len back : Word} (hlen : len ≠ 1#32) (hback : back.toNat < 4) :
    repChoicePath s len back = repBits s s.cstate (posState s) back.toNat := by
  have hlong : (len != 1#32) = true := bne_iff_ne.2 hlen
  have hcases : back = 0#32 ∨ back = 1#32 ∨ back = 2#32 ∨ back = 3#32 := by bv_omega
  rcases hcases with rfl | rfl | rfl | rfl
  · rw [repChoicePath, hlong]
    rfl
  all_goals rfl

theorem repChoice_codes {st : CState} {ps len back : Word} (hback : back ≠ 0#32) :
    Codes (encodeRepChoice st ps len back) (.model (entryOf 204 st) true ::
      if back = 1#32 then [.model (entryOf 216 st) false]
      else [.model (entryOf 216 st) true, .model (entryOf 228 st) (back != 2#32)]) := by
  rw [encodeRepChoice, if_neg hback, isRepG0Idx, isRepG1Idx, isRepG2Idx, entryOf_eq 204, entryOf_eq 216, entryOf_eq 228]
  refine Codes.cons ?_
  split
  · exact Codes.bit _ _
  · exact Codes.cons (Codes.bit _ _)

theorem repChoicePath_fits {s : State} (h : Encodes s) (len back : Word) :
    PathFits 1846 (repChoicePath s len back) := by
  have hnil : PathFits 1846 [] := fun _ hc => nomatch hc
  unfold repChoicePath
  split
  · exact pathFits_cons.2 ⟨entryOf_lt (by decide) _, pathFits_cons.2 ⟨h.repLong_lt, hnil⟩⟩
  · refine pathFits_cons.2 ⟨entryOf_lt (by decide) _, ?_⟩
    split
    · exact pathFits_cons.2 ⟨entryOf_lt (by decide) _, hnil⟩
    · exact pathFits_cons.2 ⟨entryOf_lt (by decide) _, pathFits_cons.2 ⟨entryOf_lt (by decide) _, hnil⟩⟩

theorem encodeRepChoice_run {s t : State} (hs : Encodes s) (h : MidSymbol s t) (len back : Word) :
    encodeRepChoice s.cstate (posState s) len back t = .ok () (codePath t (repChoicePath s len back)) := by
  by_cases hback : back = 0#32
  · obtain ⟨pb, hpb⟩ := hs.inv.posStateMask hs.phase
    obtain ⟨hfirst, h1⟩ := h.bit (entryOf_lt (base := 204) (by decide) s.cstate) false
    obtain ⟨hsecond, -⟩ := h1.bit hs.repLong_lt (len != 1#32)
    rw [encodeRepChoice, if_pos hback, repChoicePath, if_pos hback, isRepG0Idx, entryOf_eq 204, Eng.bind_ok hfirst,
      isRep0LongIdx, Eng.bind_look, h1.derived, stateIndex_eq hpb _ (posState_lt hpb), stateEntry_add]
    exact hsecond
  · rw [repChoicePath, if_neg hback]
    have hfit := repChoicePath_fits hs len back
    rw [repChoicePath, if_neg hback] at hfit
    exact h.encodes.codes (repChoice_codes hback) hfit

theorem MidSymbol.chosen {s t : State} (h : MidSymbol s t) (hs : Encodes s) (len back : Word) :
    MidSymbol s (codePath t (repChoicePath s len back)) := by
  have hrun := encodeRepChoice_run hs h len back
  have hinv := inv_stable.encodeRepChoice s.cstate (posState s) len back t h.encodes.inv
  rw [hrun] at hinv
  exact ⟨⟨hinv, (congrArg Status.phase (codePath_status _ t)).trans h.encodes.phase,
    (codePath_sinkRoom _ t).trans h.encodes.room⟩, (symbolContext_codePath _ t).trans h.same⟩

/-! ### The branches of `EncodeSymbol` (R480) -/

/-- `s` with STATE and REP set. -/
def settled (v : CState) (r : Reps) (s : State) : State := { s with cstate := v, rep := r }

/-- The end of a rep's branch, at the caller's REP. -/
theorem useRep_run {t : State} {r : Reps} (ht : t.rep = r) (v : CState) (back : Word) :
    (do cstateSet v; let _ ← repUse back; pure () : Eng Unit) t = .ok () (settled v (r.use back.toNat) t) := by
  rw [← ht]
  rfl

theorem isRep_bit {s t : State} (h : MidSymbol s t) (b : Bool) :
    rceEncodeBit (isRepIdx s.cstate) b t = .ok () (codePath t [.model (entryOf 192 s.cstate) b]) ∧
      MidSymbol s (codePath t [.model (entryOf 192 s.cstate) b]) := by
  rw [isRepIdx, entryOf_eq 192]
  exact h.bit (entryOf_lt (by decide) _) b

theorem encodeRep_short {s t : State} (hs : Encodes s) (h : MidSymbol s t) : encodeRep (posState s) 1#32 0#32 t =
    .ok () (settled (onShortRep s.cstate) s.rep
      (codePath t (.model (entryOf 192 s.cstate) true :: shortRepBits s s.cstate (posState s)))) := by
  obtain ⟨hrep, h1⟩ := isRep_bit h true
  have hchoice := encodeRepChoice_run hs h1 1#32 0#32
  rw [repChoicePath_shortRep, ← codePath_append] at hchoice
  have hreps := (h1.chosen hs 1#32 0#32).rep
  rw [repChoicePath_shortRep, ← codePath_append] at hreps
  rw [encodeRep, cstateGet, Eng.bind_look, h.cstate, Eng.bind_ok hrep, Eng.bind_ok hchoice, if_pos rfl]
  exact useRep_run hreps (onShortRep s.cstate) 0#32

theorem encodeRep_long {s t : State} (hs : Encodes s) (h : MidSymbol s t) {len back : Word} (hlen : len ≠ 1#32)
    (hback : back.toNat < 4) : encodeRep (posState s) len back t =
    .ok () (settled (onRep s.cstate) (s.rep.use back.toNat) (countedDown true (posState s)
      (codePath t (.model (entryOf 192 s.cstate) true ::
        (repBits s s.cstate (posState s) back.toNat ++ lengthPath true (len - 2#32) (posState s)))))) := by
  have hps := hs.posState_lt
  obtain ⟨hrep, h1⟩ := isRep_bit h true
  have hchoice := encodeRepChoice_run hs h1 len back
  have h2 := h1.chosen hs len back
  rw [repChoicePath_rep s hlen hback] at hchoice h2
  have hfit := lengthPath_fits true (len - 2#32) hps
  have hlength := h2.encodes.codes (lenEncode_codes true (len - 2#32) (posState s)) hfit
  obtain ⟨hcount, h3⟩ := (h2.coded (lenEncode_codes true (len - 2#32) (posState s)) hfit
    (inv_stable.lenEncode _ _ _)).countDown true hps
  have hreps := h3.rep
  rw [← codePath_append, ← codePath_append] at hcount hreps
  rw [encodeRep, cstateGet, Eng.bind_look, h.cstate, Eng.bind_ok hrep, Eng.bind_ok hchoice, if_neg hlen,
    Eng.bind_ok hlength, ← codePath_append, ← codePath_append, Eng.bind_ok hcount]
  exact useRep_run hreps (onRep s.cstate) back

/-- The match counters after a match (R480). -/
def matchCounted (dist : Word) (s : State) : State :=
  { s with enc := { s.enc with
      matchPriceCount := s.enc.matchPriceCount + 1#32
      alignPriceCount := if 14 ≤ slotOf dist.toNat then s.enc.alignPriceCount + 1#32 else s.enc.alignPriceCount } }

/-- The end of a match's branch, from its slot on, at the caller's REP. -/
theorem countMatch_run {t : State} {r : Reps} (ht : t.rep = r) (v : CState) (dist : Word) :
    (do if 14 ≤ (BitVec.ofNat 32 (slotOf dist.toNat)).toNat then
          put fun s => { s with enc := { s.enc with alignPriceCount := s.enc.alignPriceCount + 1 } }
        repPush dist
        put fun s => { s with enc := { s.enc with matchPriceCount := s.enc.matchPriceCount + 1 } }
        cstateSet v : Eng Unit) t =
      .ok () (settled v (r.push dist) (matchCounted dist t)) := by
  have hlt := slotOf_lt dist.isLt
  have hslot : (BitVec.ofNat 32 (slotOf dist.toNat)).toNat = slotOf dist.toNat := by
    rw [BitVec.toNat_ofNat]
    omega
  rw [hslot, ← ht, matchCounted]
  split <;> rfl

theorem encodeMatch_run {s t : State} (hs : Encodes s) (h : MidSymbol s t) {len dist : Word} (hlen : 2 ≤ len.toNat) :
    encodeMatch (posState s) len dist t = .ok () (settled (onMatch s.cstate) (s.rep.push dist) (matchCounted dist
      (codePath (countedDown false (posState s) (codePath t (.model (entryOf 192 s.cstate) false ::
        lengthPath false (len - 2#32) (posState s)))) (distancePath dist len)))) := by
  have hps := hs.posState_lt
  obtain ⟨hrep, h1⟩ := isRep_bit h false
  have hfit := lengthPath_fits false (len - 2#32) hps
  have hlength := h1.encodes.codes (lenEncode_codes false (len - 2#32) (posState s)) hfit
  obtain ⟨hcount, h2⟩ := (h1.coded (lenEncode_codes false (len - 2#32) (posState s)) hfit
    (inv_stable.lenEncode _ _ _)).countDown false hps
  rw [← codePath_append] at hlength hcount h2
  have hdist := distEncode_run (dist := dist) hlen h2.encodes.room ((distancePath_fits _).mono h2.encodes.ready.entries)
  have hreps := congrArg SymbolContext.rep ((symbolContext_codePath (distancePath dist len) _).trans h2.same)
  rw [encodeMatch, cstateGet, Eng.bind_look, h.cstate, Eng.bind_ok hrep, Eng.bind_ok hlength, Eng.bind_ok hcount,
    Eng.bind_ok hdist]
  exact countMatch_run hreps (onMatch s.cstate) dist

/-! ### A literal (R365, R480) -/

/-- `s` with the previous byte set. -/
def prevByteSet (b : Byte) (s : State) : State := { s with enc := { s.enc with prevByte := b } }

theorem settleSymbol_literal {u : State} (hst : u.cstate.toNat ≤ 11) (b : Byte) :
    settleSymbol (.literal b) u = { u with cstate := onChar u.cstate } := by
  rw [onChar_eq u.cstate b hst]
  rfl

/-- The end of the literal's branch. -/
theorem closeLiteral_run {u : State} {st : CState} (hu : u.cstate = st) (hst : st.toNat ≤ 11) (cur : Byte) :
    (do put fun s => { s with enc := { s.enc with prevByte := cur } }
        cstateSet (onChar st) : Eng Unit) u = .ok () (prevByteSet cur (settleSymbol (.literal cur) u)) := by
  subst hu
  rw [settleSymbol_literal hst]
  rfl

theorem encodeLiteral_run {s : State} (hs : Encodes s) (hcur : windowIndex s (0#32 - s.enc.addOffset) < s.wbuf.size)
    (hmatch : 7 ≤ s.cstate.toNat → windowIndex s (0#32 - s.rep.d0 - 1#32 - s.enc.addOffset) < s.wbuf.size) :
    encodeLiteral (posState s) s =
      .ok () (prevByteSet (windowByte s (0#32 - s.enc.addOffset))
        (settleSymbol (.literal (windowByte s (0#32 - s.enc.addOffset)))
          (codePath s (literalBits s s.enc.prevByte (windowByte s (0#32 - s.rep.d0 - 1#32 - s.enc.addOffset))
            (windowByte s (0#32 - s.enc.addOffset)))))) := by
  have hderived := hs.inv.derivedFrom_of_enc hs.phase
  have hbit : (stateEntry s 0 s.cstate (posState s)).toNat < 1846 := hs.stateEntry_lt.trans (by decide)
  obtain ⟨hfirst, h1⟩ := (MidSymbol.start hs).bit hbit false
  have hbase := hderived.litBase_run h1.derived (lowHalf s.cnt.nowPos) s.enc.prevByte
  have hinside : (literalTable s.derived (lowHalf s.cnt.nowPos) s.enc.prevByte).toNat + 768 ≤
      (codePath s [.model (stateEntry s 0 s.cstate (posState s)) false]).prob.size := by
    rw [h1.encodes.inv.probSize, h1.derived]
    exact hderived.literalTable_inside _ _
  have hcstate (path : List CodedBit) : (codePath s path).cstate = s.cstate :=
    congrArg SymbolContext.cstate (symbolContext_codePath path s)
  rw [encodeLiteral, cstateGet, Eng.bind_look, isMatchIdx, Eng.bind_look, hs.isMatch_entry, Eng.bind_ok hfirst,
    Eng.bind_look, h1.enc, Eng.bind_ok (h1.winGetByte hcur), Eng.bind_look, h1.nowPos, Eng.bind_look, h1.enc,
    Eng.bind_ok hbase, literalBits]
  by_cases hchar : s.cstate.toNat < 7
  · have hlit := litEncode_codes _ (windowByte s (0#32 - s.enc.addOffset)) _ h1.encodes.room
      (treePath_fits _ (Nat.le_trans (Nat.add_le_add_left (by decide) _) hinside))
    rw [← codePath_append] at hlit
    rw [isCharState, if_pos (decide_eq_true hchar), if_pos hchar, Eng.bind_ok hlit]
    exact closeLiteral_run (hcstate _) hs.inv.coderState _
  · have hlit := litEncodeMatched_codes _ (windowByte s (0#32 - s.rep.d0 - 1#32 - s.enc.addOffset))
      (windowByte s (0#32 - s.enc.addOffset)) _ h1.encodes.room (matchedPath_fits _ _ hinside)
    rw [← codePath_append] at hlit
    rw [isCharState, if_neg (mt of_decide_eq_true hchar), if_neg hchar, rep0, Eng.bind_look, h1.rep,
      Eng.bind_ok (h1.winGetByte (hmatch (Nat.le_of_not_lt hchar))), Eng.bind_ok hlit]
    exact closeLiteral_run (hcstate _) hs.inv.coderState _

/-! ### STATE and REP after a rep or a match (R355, R385, R386) -/

theorem onRep_eq (st : CState) (i : Nat) (len : Word) (h : st.toNat ≤ 11) : onRep st = stateAfter st (.rep i len) := by
  have hall : ∀ st : CState, st.toNat ≤ 11 → onRep st = stateAfter st (.rep 0 0) := by decide
  exact hall st h

theorem onShortRep_eq : ∀ st : CState, st.toNat ≤ 11 → onShortRep st = stateAfter st .shortRep := by decide

theorem use_eq_repsAfter (r : Reps) {i : Nat} (hi : i < 4) (len : Word) :
    r.use i = Reps.ofList (repsAfter r (.rep i len)) := by
  match i, hi with
  | 0, _ | 1, _ | 2, _ | 3, _ => rfl

theorem settleSymbol_eq {u : State} {st : CState} {r : Reps} (hst : u.cstate = st) (hr : u.rep = r) (sym : Symbol) :
    settleSymbol sym u = settled (stateAfter st sym) (Reps.ofList (repsAfter r sym)) u := by
  rw [settleSymbol, hst, hr]
  rfl

/-- Coding a symbol's bits and counting changes of its context the match counters alone. -/
theorem symbolCoded_context (prev mb : Byte) (s : State) (sym : Symbol) :
    symbolContext (symbolCoded prev mb s sym) =
      { symbolContext s with enc := (symbolCoded prev mb s sym).enc } ∧
    (symbolCoded prev mb s sym).enc.addOffset = s.enc.addOffset := by
  have of {u : State} (h : symbolContext u = symbolContext s) :
      symbolContext u = { symbolContext s with enc := u.enc } ∧ u.enc.addOffset = s.enc.addOffset := by
    have henc : u.enc = s.enc := congrArg SymbolContext.enc h
    rw [henc]
    exact ⟨h, rfl⟩
  cases sym with
  | literal b => exact of (symbolContext_codePath _ s)
  | shortRep => exact of (symbolContext_codePath _ s)
  | rep i len => exact of ((symbolContext_countedDown _ _ _).trans (symbolContext_codePath _ s))
  | copy dist len =>
    have hu : symbolContext (codePath (countedDown false (posState s) (codePath s (matchStart s false ++
        lengthPath false (len - 2#32) (posState s)))) (distancePath dist len)) = symbolContext s := by
      rw [symbolContext_codePath, symbolContext_countedDown, symbolContext_codePath]
    have hcounted := congrArg (fun c : SymbolContext =>
      { c with enc := (symbolCoded prev mb s (.copy dist len)).enc }) hu
    have henc := congrArg (fun c : SymbolContext => c.enc.addOffset) hu
    exact ⟨hcounted, henc⟩

/-! ### A decision (R388, R480) -/

/-- What a decision may be, a literal apart. -/
def copyDecision (len back : Word) : Prop := len = 1#32 ∧ back = 0#32 ∨ 2 ≤ len.toNat ∧ len.toNat ≤ 273

theorem symbolOf_long (cur : Byte) {len back : Word} (hlen : len ≠ 1#32) : symbolOf cur len back =
    if back.toNat < 4 then .rep back.toNat len else .copy (back - 4#32) len := by
  rw [symbolOf, if_neg (not_and_of_not_left _ hlen), if_neg hlen]

/-- The branch after IsMatch codes the symbol, and sets STATE and REP. -/
theorem encodeBranch_run {s : State} (hs : Encodes s) {len back : Word} (hd : copyDecision len back)
    (prev mb cur : Byte) :
    (if back.toNat < 4 then encodeRep (posState s) len back else encodeMatch (posState s) len (back - 4#32))
        (codePath s [.model (stateEntry s 0 s.cstate (posState s)) true]) =
      .ok () (settleSymbol (symbolOf cur len back) (symbolCoded prev mb s (symbolOf cur len back))) := by
  have hbit : (stateEntry s 0 s.cstate (posState s)).toNat < 1846 := hs.stateEntry_lt.trans (by decide)
  obtain ⟨-, h1⟩ := (MidSymbol.start hs).bit hbit true
  have hsettle (sym : Symbol) : settleSymbol sym (symbolCoded prev mb s sym) =
      settled (stateAfter s.cstate sym) (Reps.ofList (repsAfter s.rep sym)) (symbolCoded prev mb s sym) :=
    have hcontext := (symbolCoded_context prev mb s sym).1
    settleSymbol_eq (congrArg SymbolContext.cstate hcontext) (congrArg SymbolContext.rep hcontext) sym
  rw [hsettle]
  rcases hd with ⟨rfl, rfl⟩ | ⟨hlow, -⟩
  · have hrun := encodeRep_short hs h1
    rw [← codePath_append, onShortRep_eq _ hs.inv.coderState] at hrun
    exact hrun
  · have hlen : len ≠ 1#32 := by bv_omega
    rw [symbolOf_long cur hlen]
    by_cases hback : back.toNat < 4
    · have hrun := encodeRep_long hs h1 hlen hback
      rw [← codePath_append, onRep_eq _ back.toNat len hs.inv.coderState, use_eq_repsAfter _ hback len] at hrun
      rw [if_pos hback, if_pos hback]
      exact hrun
    · have hrun := encodeMatch_run hs h1 (dist := back - 4#32) hlow
      rw [← codePath_append, onMatch_eq _ (back - 4#32) len hs.inv.coderState] at hrun
      rw [if_neg hback, if_neg hback]
      exact hrun

/-- The end of a copy's branch: the byte before the next symbol. -/
theorem closeCopy_run {s u : State} (hu : symbolContext u = { symbolContext s with enc := u.enc })
    (hahead : u.enc.addOffset = s.enc.addOffset) {len : Word}
    (hbyte : windowIndex s (len - 1#32 - s.enc.addOffset) < s.wbuf.size) (sym : Symbol) :
    (do let ahead ← look (·.enc.addOffset)
        let b ← winGetByte (len - 1#32 - ahead)
        put fun s => { s with enc := { s.enc with prevByte := b } } : Eng Unit) (settleSymbol sym u) =
      .ok () (prevByteSet (windowByte s (len - 1#32 - s.enc.addOffset)) (settleSymbol sym u)) := by
  have hget := winGetByte_same (s := s) (t := settleSymbol sym u)
    (congrArg SymbolContext.win hu) (congrArg SymbolContext.wbuf hu) hbyte
  rw [← hahead] at hget ⊢
  exact (Eng.bind_ok hget _).trans rfl

/-- What follows a choice of two, where the one chosen completes. -/
theorem ite_bind_ok {α β : Type} {c : Prop} [Decidable c] {f g : Eng α} {s t : State} {a : α}
    (h : (if c then f else g) s = .ok a t) (k : α → Eng β) : (if c then f >>= k else g >>= k) s = k a t := by
  split at h
  · next hc => rw [if_pos hc, Eng.bind_ok h]
  · next hc => rw [if_neg hc, Eng.bind_ok h]

/-- The decision's symbol coded, STATE, REP and the previous byte set (R480). -/
def symbolSettled (s : State) (len back : Word) : State :=
  let sym := symbolOf (windowByte s (0#32 - s.enc.addOffset)) len back
  prevByteSet (windowByte s (len - 1#32 - s.enc.addOffset)) (settleSymbol sym
    (symbolCoded s.enc.prevByte (windowByte s (0#32 - s.rep.d0 - 1#32 - s.enc.addOffset)) s sym))

/-- A copy's bits, and the byte before the next symbol. -/
theorem encodeCopy_run {s : State} (hs : Encodes s) {len back : Word} (hd : copyDecision len back)
    (hbyte : windowIndex s (len - 1#32 - s.enc.addOffset) < s.wbuf.size) :
    encodeCopy (posState s) len back s = .ok () (symbolSettled s len back) := by
  have hbit : (stateEntry s 0 s.cstate (posState s)).toNat < 1846 := hs.stateEntry_lt.trans (by decide)
  obtain ⟨hfirst, -⟩ := (MidSymbol.start hs).bit hbit true
  obtain ⟨hcontext, hahead⟩ := symbolCoded_context s.enc.prevByte
    (windowByte s (0#32 - s.rep.d0 - 1#32 - s.enc.addOffset)) s
    (symbolOf (windowByte s (0#32 - s.enc.addOffset)) len back)
  rw [encodeCopy, cstateGet, Eng.bind_look, isMatchIdx, Eng.bind_look, hs.isMatch_entry, Eng.bind_ok hfirst]
  exact (ite_bind_ok (encodeBranch_run hs hd _ _ _) _).trans (closeCopy_run hcontext hahead hbyte _)

/-- `EncodeSymbol`'s last step: the position moves by the length. -/
theorem decisionCoded_eq (s : State) (len back : Word) : decisionCoded s len back =
    { symbolSettled s len back with
      enc := { (symbolSettled s len back).enc with addOffset := (symbolSettled s len back).enc.addOffset - len }
      cnt := { (symbolSettled s len back).cnt with
        nowPos := (symbolSettled s len back).cnt.nowPos + len.setWidth 64 } } := by
  obtain ⟨hcontext, hahead⟩ := symbolCoded_context s.enc.prevByte
    (windowByte s (0#32 - s.rep.d0 - 1#32 - s.enc.addOffset)) s
    (symbolOf (windowByte s (0#32 - s.enc.addOffset)) len back)
  have hpos : (symbolSettled s len back).cnt.nowPos = s.cnt.nowPos := congrArg SymbolContext.nowPos hcontext
  have hahead : (symbolSettled s len back).enc.addOffset = s.enc.addOffset := hahead
  rw [hpos, hahead]
  rfl

/-- The branch of a decision. -/
theorem encodeDecision_run {s : State} (hs : Encodes s) {len back : Word}
    (hlegal : (len = 1#32 ∧ (back = 0xFFFFFFFF#32 ∨ back = 0#32)) ∨ (2 ≤ len.toNat ∧ len.toNat ≤ 273))
    (hread : decisionReadable s len back) :
    (if len = 1#32 ∧ back = literalBack then encodeLiteral (posState s) else encodeCopy (posState s) len back) s =
      .ok () (symbolSettled s len back) := by
  obtain ⟨hwbuf, -⟩ := hs.inv.encRams hs.phase
  by_cases hlit : len = 1#32 ∧ back = literalBack
  · obtain ⟨rfl, rfl⟩ := hlit
    rw [decisionReadable, if_pos ⟨rfl, rfl⟩, ← hwbuf] at hread
    obtain ⟨hcur, hmatch⟩ := hread
    rw [if_pos ⟨rfl, rfl⟩]
    have hrun := encodeLiteral_run hs hcur hmatch
    have hlast : (1#32 - 1#32 - s.enc.addOffset : Word) = 0#32 - s.enc.addOffset := rfl
    rw [symbolSettled, hlast]
    exact hrun
  · have hnot : ¬(len = 1#32 ∧ back = 0xFFFFFFFF#32) := hlit
    rw [decisionReadable, if_neg hnot, ← hwbuf] at hread
    rw [if_neg hlit]
    have hd : copyDecision len back := by
      rcases hlegal with ⟨hone, hback | hback⟩ | hlong
      · exact absurd ⟨hone, hback⟩ hlit
      · exact .inl ⟨hone, hback⟩
      · exact .inr hlong
    exact encodeCopy_run hs hd hread

/-- `EncodeSymbol` (R480). -/
theorem encodeSymbol_run {s : State} (hs : Encodes s) {len back : Word}
    (hlegal : (len = 1#32 ∧ (back = 0xFFFFFFFF#32 ∨ back = 0#32)) ∨ (2 ≤ len.toNat ∧ len.toNat ≤ 273))
    (hread : decisionReadable s len back) : encodeSymbol len back s = .ok () (decisionCoded s len back) := by
  rw [encodeSymbol, Eng.bind_look, posStateOf, Eng.bind_look, hs.lowHalf_and_mask, decisionCoded_eq]
  exact ite_bind_ok (encodeDecision_run hs hlegal hread) _

/-! ### The commands -/

/-- A command of an encoder stream begins in an encoder that codes. -/
theorem Ready.encodes {i : Instr} {s : State} (h : Ready i s) (hgate : gateOf i = .enc) : Encodes (clearResults s) := by
  obtain ⟨hinv, ⟨-, -, hphase, -⟩, hroom⟩ := h
  rw [hgate] at hphase
  exact ⟨inv_stable.results 0#32 0#32 hinv, hphase, hroom⟩

theorem exec_encSymbol {s : State} (h : Ready .encSymbol s) (hread : decisionReadable s s.x.a0 s.x.a1) :
    exec .encSymbol s = .next (decisionCoded (results 0#32 0#32 s) s.x.a0 s.x.a1) := by
  have hs := h.encodes rfl
  obtain ⟨-, hr, -⟩ := h
  have hlegal : operandsLegal .encSymbol s := by
    obtain ⟨-, -, -, hlegal⟩ := hr
    exact hlegal
  have hchecked : decisionLegal (clearResults s).x.a0 (clearResults s).x.a1 = true := decisionLegal_iff.2 hlegal
  have hrun := encodeSymbol_run hs hlegal hread
  change execEncSymbol s = _
  unfold execEncSymbol
  rw [show Gate.enc = gateOf .encSymbol from rfl, hr.runs, opA0, Eng.bind_look, opA1, Eng.bind_look, Eng.bind_check,
    if_pos hchecked]
  exact congrArg finish hrun

/-- Settles O51: ENC_SYMBOL by the branch its decision takes (`encodeSymbol_run`), ENC_FINISH by
`encFinishStream_run`. -/
theorem codesAndFinishes : Obligations.CodesAndFinishes := by
  unfold Obligations.CodesAndFinishes
  refine ⟨fun s h hread => exec_encSymbol h hread, fun s h => ?_⟩
  have hrun := encFinishStream_run (h.encodes rfl)
  obtain ⟨-, hr, -⟩ := h
  exact (hr.runs encFinishStream).trans (congrArg finish hrun)

end Sys2Proof.Machine
end
